-- ==== Sys2Proof/Word.lean ====
section
/-! DEFINITION. The words of the machine and the plain containers every layer uses: bytes, 32-bit words, 64-bit
addresses, sparse tables and byte memories held as sorted lists. -/

namespace Sys2Proof

/-- One byte of memory (R3). -/
abbrev Byte := BitVec 8

/-- A code word, or a v register (R100, R118). -/
abbrev Word := BitVec 32

/-- An address, a k register or a 64-bit value (R118, R137). -/
abbrev Addr := BitVec 64

/-- A lane set of one warp: bit l stands for lane l (R65). -/
abbrev LaneMask := BitVec 32

/-- A sparse table: keys strictly rising, no key listed twice. -/
abbrev Tab (α : Type) := List (Nat × α)

/-- A byte memory: addresses strictly rising, no entry equal to 0, which an unlisted address reads as. -/
abbrev Mem := Tab Byte

namespace Tab

/-- The entry listed under a key. -/
def look {α : Type} : Tab α → Nat → Option α
  | [], _ => none
  | (k, v) :: t, i => if i = k then some v else if i < k then none else look t i

/-- Lists a value under a key, keeping the keys rising. -/
def ins {α : Type} : Tab α → Nat → α → Tab α
  | [], i, x => [(i, x)]
  | (k, v) :: t, i, x =>
    if i < k then (i, x) :: (k, v) :: t else if i = k then (i, x) :: t else (k, v) :: ins t i x

/-- Removes a key. -/
def rem {α : Type} : Tab α → Nat → Tab α
  | [], _ => []
  | (k, v) :: t, i =>
    if i < k then (k, v) :: t else if i = k then t.dropWhile (fun e => decide (e.1 ≤ i)) else (k, v) :: rem t i

/-- The value under a key, or `d` where the key is not listed. -/
def rd {α : Type} (t : Tab α) (d : α) (i : Nat) : α := (t.look i).getD d

/-- Writes a value, listing nothing where it equals `d`. -/
def wr {α : Type} [DecidableEq α] (t : Tab α) (d : α) (i : Nat) (x : α) : Tab α :=
  if x = d then t.rem i else t.ins i x

/-- Changes the value under a listed key; a key not listed changes nothing. -/
def upd {α : Type} (t : Tab α) (i : Nat) (f : α → α) : Tab α :=
  match t.look i with
  | some x => t.ins i (f x)
  | none => t

/-- Changes every value. -/
def mapVals {α : Type} (t : Tab α) (f : α → α) : Tab α := t.map (fun e => (e.1, f e.2))

/-- Keys strictly rising. -/
def sorted {α : Type} : Tab α → Bool
  | [] => true
  | [_] => true
  | (i, _) :: (j, y) :: t => decide (i < j) && sorted ((j, y) :: t)

/-- The canonical form: keys strictly rising and no entry equal to `d`. -/
def canon {α : Type} [DecidableEq α] (d : α) (t : Tab α) : Bool :=
  t.sorted && t.all (fun e => decide (e.2 ≠ d))

end Tab

end Sys2Proof
end

