-- ==== Sys2Proof/Syntax.lean ====
section
/-! DEFINITION. The abstract form of the code: one constructor of `Instr` for each row of the opcode table: the 135 instructions of the
opcode map (R111), the 23 compact forms of R104, and the 91 events (the steps of the device that no word encodes),
each with the operands that its rule names. -/

namespace Sys2Proof

/-- The side that issues an instruction (R110). -/
inductive Side where
  | simt
  | teller
deriving DecidableEq, Repr

/-- The guard field (R22, R102): predicate p0 to p7, optionally negated. -/
structure Guard where
  neg : Bool
  pred : BitVec 3
deriving DecidableEq, Repr

/-- The operands of an extended form (R105), with the 64-bit literal of LEN 0b11 (R101). -/
structure Ext where
  guard : Guard
  mod : BitVec 12
  ty : BitVec 3
  bl : Bool
  al : Bool
  cl : Bool
  d : BitVec 9
  a : BitVec 9
  b : BitVec 9
  c : BitVec 9
  x9 : BitVec 9
  pm : BitVec 8
  st : BitVec 3
  ret : BitVec 2
  lit : Option Addr
deriving DecidableEq, Repr

/-- The operands of a compact form (R103), with the 64-bit literal of LEN 0b10. -/
structure Compact where
  guard : Guard
  d : BitVec 6
  a : BitVec 6
  b : BitVec 6
  lit : Option Addr
deriving DecidableEq, Repr

/-- `MOVL` is one row of the table with two encodings: compact under LEN 0b10 (R104) and extended under 0b11 (R231). -/
inductive MovlForm where
  | ext (x : Ext)
  | compact (c : Compact)
deriving DecidableEq, Repr

/-- A thread group that issues: warp `w` of a block, or the block's teller. -/
structure Thr where
  block : Nat
  warp : Option Nat
deriving DecidableEq, Repr

/-- An error of the array hardware in one chunk sum of the step (R96): the row in the step, the column, the change. -/
structure SumError where
  row : Nat
  col : Nat
  delta : Int
deriving DecidableEq, Repr

/-- A unit of large state (R134). -/
inductive EvictUnit where
  | row (warp row : Nat)
  | tile (t : Nat)
  | acc (a : Nat)
  | scratch (unit : Nat)
deriving DecidableEq, Repr

/-- Where an uncorrectable error is found (R146, R349): a 64-byte DRAM, host or vault line, or an on-die unit. -/
inductive ErrSite where
  | dram (pa : Nat)
  | host (addr : Nat)
  | vault (addr : Nat)
  | unit (block : Nat) (u : EvictUnit)
deriving DecidableEq, Repr

/-- The memory kinds whose soft errors are counted (R220, R363). -/
inductive StoreKind where
  | dram | l2 | scratchpad | registerFile | tiles | vault
deriving DecidableEq, Repr

/-- What an invalidation names (R150, R151): one guest page of a context, one stage-2 page, everything of the partition,
or a 4 KiB host page that the host takes away (its ATS translation). -/
inductive InvScope where
  | page (ctx va : Nat)
  | stage2 (ipa : Nat)
  | all
  | host (page : Nat)
deriving DecidableEq, Repr

/-- What is cleared before a new owner gets it (R156). -/
inductive ZeroSite where
  | page (pa : Nat)
  | segment (die unit : Nat)
  | key (slot : Nat)
deriving DecidableEq, Repr

/-- A binding-table entry (R205); `rest` are its remaining bits, which are reserved. -/
structure BindEntry where
  base : Nat
  length : Nat
  obj : Nat
  valid : Bool
  rest : BitVec 63
deriving DecidableEq, Repr

/-- A joint-consent entry (R210); `rest` are its reserved bits. -/
structure Consent where
  peer : Nat
  valid : Bool
  rest : BitVec 55
  hash : BitVec 512
deriving DecidableEq, Repr

/-- The payload of a KXL flit: a part of a send, or the receiver's notice that a send was performed or failed. -/
inductive Payload where
  | none
  | data (send : Nat) (dst : Addr) (bytes : List Byte) (poison last : Bool) (rctr : Addr) (rinc : BitVec 16)
  | notice (send : Nat) (ok : Bool)
deriving DecidableEq, Repr

/-- The TYPE field of a flit (R358). -/
inductive FlitType where
  | data | ack | nak | credit | idle
deriving DecidableEq, Repr

/-- A KXL flit (R358): SEQ, TYPE, ACKSEQ, connection, credit return, whether its tag verifies, payload. -/
structure Flit where
  seq : BitVec 12
  typ : FlitType
  ackseq : BitVec 12
  conn : Nat
  credit : Nat
  tagOk : Bool
  payload : Payload
deriving DecidableEq, Repr

/-- A KXL connection (R359): the partition and link context at this end, the peer device and its partition, the ports that
reach it. -/
structure ConnInfo where
  part : Nat
  ctx : Nat
  dev : Nat
  peerPart : Nat
  ports : BitVec 16
deriving DecidableEq, Repr

/-- The configuration fields of a function (R352 to R357): the command register, MSI-X control and table entries, the first pages
of the BARs, the size of BAR4 in GiB, the enabled VFs (of the PF), the HDM decoder's base and size in units of 256 MiB, the AER
registers, the IDE link stream (of the PF) and selective streams. -/
inductive CfgField where
  | command | msixControl
  | msixEntry (i : Nat)
  | bar0 | bar2 | bar4 | bar4Size | numVfs | hdmBase | hdmUnits
  | aerUncorrectable | aerMask | aerSeverity | aerCorrectable | aerCorrectableMask
  | ideLink
  | ideStream (i : Nat)
deriving DecidableEq, Repr

/-- What an access of a function's host reaches (R352, R353): the doorbell page of a queue (BAR0), BAR2, the aperture onto device
memory (BAR4); the function's virtual error queue, which its driver reads and empties (R183); a configuration field. -/
inductive HostSpace where
  | doorbell (q : Nat)
  | bar2
  | bar4
  | errorQueue
  | config (field : CfgField)
deriving DecidableEq, Repr

/-- A host access (R353, R357): an offset or address, bytes to write or a count to read, TEE bit. -/
structure HostAccess where
  ipa : Nat
  write : Option (List Byte)
  len : Nat
  tee : Bool
deriving DecidableEq, Repr

/-- An access through a function's BARs (R353). -/
structure BarAccess where
  bar : HostSpace
  access : HostAccess
deriving DecidableEq, Repr

/-- A write to the KICK register of a doorbell page (R189), with the write's TEE bit. -/
structure KickWrite where
  tail : Addr
  tee : Bool
deriving DecidableEq, Repr

/-- A write to the CANCEL register of a doorbell page (R192), with the write's TEE bit. -/
structure CancelWrite where
  launchid : Word
  tee : Bool
deriving DecidableEq, Repr

/-- A firmware image that F0 is handed (R361): its SHA-512, and whether its signature verifies. -/
structure FwImage where
  hash : BitVec 512
  signed : Bool
deriving DecidableEq, Repr

/-- Why a TDI enters ERROR (R356). -/
inductive TdiCause where
  | frozenFieldWrite | ideFailure | functionReset | partitionReset
deriving DecidableEq, Repr

/-- The host-visible registers that have no behaviour of their own (R5): read-only and ignored fields, and a function's
configuration. -/
inductive HostReg where
  | doorbellStatus (q : Nat)
  | doorbellCancelHigh (q : Nat)
  | telemetry (offset : Nat)
  | config (fn : Nat) (field : CfgField)
deriving DecidableEq, Repr

/-- What F1 is given when a queue is created: owner, context root and where the control-block copies lie (R184, R206). -/
structure QueueInfo where
  part : Nat
  fn : Nat
  s1root : Nat
  qcbA : Nat
  qcbB : Nat
  errDepth : Nat
deriving DecidableEq, Repr

/-- What F7 gives a partition (R342, R353): gangs, vault units (die x 256 + unit), DRAM range, stage-2 root, function, and the
part of the DRAM that F0 and F3 keep for save areas, binding tables and escrow pools (R132, R205, R209). -/
structure PartInfo where
  gangs : BitVec 16
  vaultUnits : List Nat
  dramBase : Nat
  dramGiB : Nat
  s2root : Nat
  fn : Nat
  ownBase : Nat
  ownBytes : Nat
deriving DecidableEq, Repr

/-- The instructions and events: one constructor for each row of the opcode table. -/
inductive Instr where
  /-- BRA (R235). -/
  | bra (x : Ext)
  /-- BTAB (R235). -/
  | btab (x : Ext)
  /-- CALL (R235). -/
  | call (x : Ext)
  /-- CALLT (R235). -/
  | callt (x : Ext)
  /-- RET (R235). -/
  | ret (x : Ext)
  /-- JOIN (R238). -/
  | join (x : Ext)
  /-- LEAVE (R238). -/
  | leave (x : Ext)
  /-- WAITM (R238). -/
  | waitm (x : Ext)
  /-- MMOV (R239). -/
  | mmov (x : Ext)
  /-- MRD (R240). -/
  | mrd (x : Ext)
  /-- EXIT (R241). -/
  | exit (x : Ext)
  /-- YIELD (R242). -/
  | yield (x : Ext)
  /-- NOP (R242). -/
  | nop (x : Ext)
  /-- TRAP (R243). -/
  | trap (x : Ext)
  /-- BKPT (R243). -/
  | bkpt (x : Ext)
  /-- IADD (R225). -/
  | iadd (x : Ext)
  /-- IADD_COMPACT (R104). -/
  | iaddCompact (c : Compact)
  /-- ISUB (R225). -/
  | isub (x : Ext)
  /-- ISUB_COMPACT (R104). -/
  | isubCompact (c : Compact)
  /-- INEG (R225). -/
  | ineg (x : Ext)
  /-- INEG_COMPACT (R104). -/
  | inegCompact (c : Compact)
  /-- IABS (R225). -/
  | iabs (x : Ext)
  /-- IABS_COMPACT (R104). -/
  | iabsCompact (c : Compact)
  /-- IMIN (R225). -/
  | imin (x : Ext)
  /-- IMAX (R225). -/
  | imax (x : Ext)
  /-- IMUL (R225). -/
  | imul (x : Ext)
  /-- IMULH (R225). -/
  | imulh (x : Ext)
  /-- IMAD (R225). -/
  | imad (x : Ext)
  /-- IMAD64 (R226). -/
  | imad64 (x : Ext)
  /-- IADD64 (R226). -/
  | iadd64 (x : Ext)
  /-- ISUB64 (R226). -/
  | isub64 (x : Ext)
  /-- AND (R227). -/
  | and (x : Ext)
  /-- AND_COMPACT (R104). -/
  | andCompact (c : Compact)
  /-- OR (R227). -/
  | or (x : Ext)
  /-- OR_COMPACT (R104). -/
  | orCompact (c : Compact)
  /-- XOR (R227). -/
  | xor (x : Ext)
  /-- XOR_COMPACT (R104). -/
  | xorCompact (c : Compact)
  /-- ANDN (R227). -/
  | andn (x : Ext)
  /-- ANDN_COMPACT (R104). -/
  | andnCompact (c : Compact)
  /-- NOT (R227). -/
  | not (x : Ext)
  /-- SEL (R227). -/
  | sel (x : Ext)
  /-- SHL (R228). -/
  | shl (x : Ext)
  /-- SHL_COMPACT (R104). -/
  | shlCompact (c : Compact)
  /-- SHR (R228). -/
  | shr (x : Ext)
  /-- SHR_COMPACT (R104). -/
  | shrCompact (c : Compact)
  /-- SAR (R228). -/
  | sar (x : Ext)
  /-- SAR_COMPACT (R104). -/
  | sarCompact (c : Compact)
  /-- ROL (R228). -/
  | rol (x : Ext)
  /-- ROL_COMPACT (R104). -/
  | rolCompact (c : Compact)
  /-- BFX (R228). -/
  | bfx (x : Ext)
  /-- BFI (R228). -/
  | bfi (x : Ext)
  /-- BREV (R228). -/
  | brev (x : Ext)
  /-- CLZ (R228). -/
  | clz (x : Ext)
  /-- POPC (R228). -/
  | popc (x : Ext)
  /-- ICMP (R229). -/
  | icmp (x : Ext)
  /-- ISET (R229). -/
  | iset (x : Ext)
  /-- PLOP (R230). -/
  | plop (x : Ext)
  /-- MOV (R231). -/
  | mov (x : Ext)
  /-- MOV_COMPACT (R104). -/
  | movCompact (c : Compact)
  /-- MOVL (R231). -/
  | movl (f : MovlForm)
  /-- LEA (R232). -/
  | lea (x : Ext)
  /-- SREAD (R233). -/
  | sread (x : Ext)
  /-- FADD (R247). -/
  | fadd (x : Ext)
  /-- FADD_COMPACT (R104). -/
  | faddCompact (c : Compact)
  /-- FSUB (R247). -/
  | fsub (x : Ext)
  /-- FSUB_COMPACT (R104). -/
  | fsubCompact (c : Compact)
  /-- FMUL (R247). -/
  | fmul (x : Ext)
  /-- FMUL_COMPACT (R104). -/
  | fmulCompact (c : Compact)
  /-- FFMA (R247). -/
  | ffma (x : Ext)
  /-- FFMA_COMPACT (R104). -/
  | ffmaCompact (c : Compact)
  /-- FMIN (R247). -/
  | fmin (x : Ext)
  /-- FMAX (R247). -/
  | fmax (x : Ext)
  /-- FRCP (R248). -/
  | frcp (x : Ext)
  /-- FRSQ (R248). -/
  | frsq (x : Ext)
  /-- FSQRT (R248). -/
  | fsqrt (x : Ext)
  /-- FEXP2 (R248). -/
  | fexp2 (x : Ext)
  /-- FLOG2 (R248). -/
  | flog2 (x : Ext)
  /-- FRND (R249). -/
  | frnd (x : Ext)
  /-- FCLASS (R249). -/
  | fclass (x : Ext)
  /-- FCMP (R250). -/
  | fcmp (x : Ext)
  /-- FSET (R250). -/
  | fset (x : Ext)
  /-- HADD2 (R251). -/
  | hadd2 (x : Ext)
  /-- HMUL2 (R251). -/
  | hmul2 (x : Ext)
  /-- HFMA2 (R251). -/
  | hfma2 (x : Ext)
  /-- HMIN2 (R251). -/
  | hmin2 (x : Ext)
  /-- HMAX2 (R251). -/
  | hmax2 (x : Ext)
  /-- CVT (R253). -/
  | cvt (x : Ext)
  /-- PK8 (R254). -/
  | pk8 (x : Ext)
  /-- UPK8 (R254). -/
  | upk8 (x : Ext)
  /-- QVEC (R255). -/
  | qvec (x : Ext)
  /-- DQV (R255). -/
  | dqv (x : Ext)
  /-- TRPK (R256). -/
  | trpk (x : Ext)
  /-- TRUP (R257). -/
  | trup (x : Ext)
  /-- TRCHK (R256). -/
  | trchk (x : Ext)
  /-- LXCH (R260). -/
  | lxch (x : Ext)
  /-- VOTE (R261). -/
  | vote (x : Ext)
  /-- REDUX (R262). -/
  | redux (x : Ext)
  /-- SCAN (R262). -/
  | scan (x : Ext)
  /-- MATCH (R263). -/
  | matchLanes (x : Ext)
  /-- FIRST (R263). -/
  | firstLane (x : Ext)
  /-- LD (R270). -/
  | ld (x : Ext)
  /-- LD_COMPACT (R104). -/
  | ldCompact (c : Compact)
  /-- ST (R270). -/
  | st (x : Ext)
  /-- ST_COMPACT (R104). -/
  | stCompact (c : Compact)
  /-- LDS (R270). -/
  | lds (x : Ext)
  /-- LDS_COMPACT (R104). -/
  | ldsCompact (c : Compact)
  /-- STS (R270). -/
  | sts (x : Ext)
  /-- STS_COMPACT (R104). -/
  | stsCompact (c : Compact)
  /-- LDG (R270). -/
  | ldg (x : Ext)
  /-- LDG_COMPACT (R104). -/
  | ldgCompact (c : Compact)
  /-- STG (R270). -/
  | stg (x : Ext)
  /-- STG_COMPACT (R104). -/
  | stgCompact (c : Compact)
  /-- LDC (R271). -/
  | ldc (x : Ext)
  /-- PREF (R272). -/
  | pref (x : Ext)
  /-- STZ (R273). -/
  | stz (x : Ext)
  /-- ATOM (R275). -/
  | atom (x : Ext)
  /-- CAS (R275). -/
  | cas (x : Ext)
  /-- ATOMR (R277). -/
  | atomr (x : Ext)
  /-- REL (R277). -/
  | rel (x : Ext)
  /-- ACQ (R278). -/
  | acq (x : Ext)
  /-- ETRIG (R280). -/
  | etrig (x : Ext)
  /-- CPY (R281). -/
  | cpy (x : Ext)
  /-- CWAIT (R283). -/
  | cwait (x : Ext)
  /-- CREAD (R284). -/
  | cread (x : Ext)
  /-- GATH (R292). -/
  | gath (x : Ext)
  /-- TLDS (R292). -/
  | tlds (x : Ext)
  /-- TSTS (R292). -/
  | tsts (x : Ext)
  /-- TZERO (R292). -/
  | tzero (x : Ext)
  /-- VLD (R293). -/
  | vld (x : Ext)
  /-- TMMA (R296). -/
  | tmma (x : Ext)
  /-- FMMA (R296). -/
  | fmma (x : Ext)
  /-- DRAIN (R301). -/
  | drain (x : Ext)
  /-- ACLR (R302). -/
  | aclr (x : Ext)
  /-- ASTAT (R302). -/
  | astat (x : Ext)
  /-- TCPY (R304). -/
  | tcpy (x : Ext)
  /-- EVWAIT (R305). -/
  | evwait (x : Ext)
  /-- EVPOP (R305). -/
  | evpop (x : Ext)
  /-- EQSTAT (R305). -/
  | eqstat (x : Ext)
  /-- LSEND (R307). -/
  | lsend (x : Ext)
  /-- LARM (R308). -/
  | larm (x : Ext)
  /-- LDISARM (R309). -/
  | ldisarm (x : Ext)
  /-- SADDC (R317). -/
  | saddc (x : Ext)
  /-- SMULC (R317). -/
  | smulc (x : Ext)
  /-- STRUNC (R318). -/
  | strunc (x : Ext)
  /-- GSND (R320). -/
  | gsnd (x : Ext)
  /-- GFIN (R321). -/
  | gfin (x : Ext)
  /-- GSTAT (R325). -/
  | gstat (x : Ext)
  /-- GXAND (R322). -/
  | gxand (x : Ext)
  /-- EDAB (R323). -/
  | edab (x : Ext)
  /-- GOPEN (R324). -/
  | gopen (x : Ext)
  /-- CSRR (R329). -/
  | csrr (x : Ext)
  /-- CSRW (R329). -/
  | csrw (x : Ext)
  /-- CSRS (R329). -/
  | csrs (x : Ext)
  /-- CSRC (R329). -/
  | csrc (x : Ext)
  /-- RTE (R338). -/
  | rte (x : Ext)
  /-- HCALL (R331). -/
  | hcall (x : Ext)
  /-- CLK (R332). -/
  | clk (x : Ext)
  /-- SLEEP (R332). -/
  | sleep (x : Ext)
  /-- CLAUSE_BOUNDARY (R62). -/
  | clauseBoundary (t : Thr)
  /-- ISSUE_SLOT_GRANT (R218). -/
  | issueSlotGrant (core : Nat)
  /-- STREAM_STALL_END (R162). -/
  | streamStallEnd (t : Thr)
  /-- OPERATION_COMPLETE (R162). -/
  | operationComplete (op : Nat)
  /-- OPERATION_FAULT (R166). -/
  | operationFault (op : Nat)
  /-- RELEASE_PERFORM (R169). -/
  | releasePerform (op : Nat)
  /-- WAITGE_SATISFIED (R279). -/
  | waitgeSatisfied (op : Nat)
  /-- CWAIT_SATISFIED (R283). -/
  | cwaitSatisfied (t : Thr)
  /-- EVWAIT_SATISFIED (R305). -/
  | evwaitSatisfied (t : Thr)
  /-- SLEEP_END (R332). -/
  | sleepEnd (t : Thr)
  /-- HCALL_REPLY (R331). -/
  | hcallReply (t : Thr)
  /-- HCALL_TIMEOUT (R331). -/
  | hcallTimeout (t : Thr)
  /-- COUNTER_ADD (R215). -/
  | counterAdd (op : Nat)
  /-- ENGINE_COMMAND_START (R289). -/
  | engineCommandStart (core eng : Nat)
  /-- ENGINE_COMMAND_COMPLETE (R288). -/
  | engineCommandComplete (core eng : Nat)
  /-- VLD_STALL_END (R144). -/
  | vldStallEnd (core nsInPeriod : Nat)
  /-- ARRAY_STEP (R296). -/
  | arrayStep (core eng : Nat) (errs : List SumError)
  /-- PROBE_TOKEN_SEND (R195). -/
  | probeTokenSend (core eng : Nat)
  /-- PROBE_TOKEN_HOP (R195). -/
  | probeTokenHop (token : Nat)
  /-- TRAP_DELIVERY (R334). -/
  | trapDelivery (t : Thr)
  /-- PREEMPT_REQUEST (R340). -/
  | preemptRequest (block : Nat)
  /-- PREEMPT_SAVE (R133). -/
  | preemptSave (block : Nat)
  /-- LARGE_STATE_EVICT (R134). -/
  | largeStateEvict (block : Nat) (unit : EvictUnit)
  /-- BLOCK_RESUME (R136). -/
  | blockResume (block : Nat)
  /-- BIND_ITEM (R57). -/
  | bindItem (gang : Nat)
  /-- DISPATCH_START (R58). -/
  | dispatchStart (gang : Nat)
  /-- JOINT_RESERVE (R341). -/
  | jointReserve (launch0 launch1 gang0 gang1 : Nat)
  /-- JOINT_ROLLBACK (R341). -/
  | jointRollback (launch0 : Nat)
  /-- BLOCK_RETIRE (R60). -/
  | blockRetire (block : Nat)
  /-- KICK (R189). -/
  | kick (q : Nat) (w : KickWrite)
  /-- CANCEL (R192). -/
  | cancel (q : Nat) (w : CancelWrite)
  /-- PACKET_FETCH (R189). -/
  | packetFetch (q : Nat)
  /-- PACKET_RECHECK (R189). -/
  | packetRecheck (q : Nat)
  /-- LAUNCH_PACKET (R201). -/
  | launchPacket (q : Nat)
  /-- COUNTER_WRITE_PACKET (R201). -/
  | counterWritePacket (q : Nat)
  /-- COUNTER_WAIT_PACKET (R201). -/
  | counterWaitPacket (q : Nat)
  /-- COUNTER_WAIT_SATISFIED (R201). -/
  | counterWaitSatisfied (q : Nat)
  /-- NO_OPERATION_PACKET (R201). -/
  | noOperationPacket (q : Nat)
  /-- PACKET_ORDER_RELEASE (R202). -/
  | packetOrderRelease (q : Nat)
  /-- QCB_COMMIT (R184). -/
  | qcbCommit (q : Nat)
  /-- F1_WATCHDOG_RESET (R184). -/
  | f1WatchdogReset
  /-- ITEM_KILL (R344). -/
  | itemKill (item cause : Nat)
  /-- RETIRE_NOTICE (R346). -/
  | retireNotice (gen receiver : Nat)
  /-- RETIRE_MARKER (R346). -/
  | retireMarker (gen receiver core : Nat)
  /-- GENERATION_RETIRED (R346). -/
  | generationRetired (gen : Nat)
  /-- UNCORRECTABLE_ERROR (R349). -/
  | uncorrectableError (site : ErrSite)
  /-- SOFT_ERROR_CORRECTED (R220). -/
  | softErrorCorrected (die : Nat) (kind : StoreKind)
  /-- PARTITION_RESET (R343). -/
  | partitionReset (part : Nat)
  /-- DEVICE_TIME_TICK (R217). -/
  | deviceTimeTick
  /-- GOVERNOR_TICK (R45). -/
  | governorTick (rates : List Nat) (watts : Nat)
  /-- POWER_HOLD (R47). -/
  | powerHold
  /-- TELEMETRY_REFRESH (R363). -/
  | telemetryRefresh (temps : List Nat)
  /-- CALENDAR_RECALIBRATE (R143). -/
  | calendarRecalibrate (die : Nat) (epoch : BitVec 48)
  /-- TLB_INVALIDATE (R150). -/
  | tlbInvalidate (part : Nat) (scope : InvScope)
  /-- INVALIDATE_ACK (R150). -/
  | invalidateAck (part : Nat)
  /-- PAGE_WALK_COMPLETE (R148). -/
  | pageWalkComplete (op : Nat)
  /-- PRI_RESPONSE (R151). -/
  | priResponse (request : Nat) (success : Bool)
  /-- PASID_TEARDOWN (R152). -/
  | pasidTeardown (pasid : Nat)
  /-- DIRTY_HARVEST (R154). -/
  | dirtyHarvest (part ipa : Nat)
  /-- PAGE_ZERO (R156). -/
  | pageZero (site : ZeroSite)
  /-- BINDING_CHANGE (R205). -/
  | bindingChange (ctx idx : Nat) (entry : BindEntry)
  /-- KEY_SLOT_LOAD (R212). -/
  | keySlotLoad (slot : Nat) (owner : Nat)
  /-- CONSENT_UPDATE (R210). -/
  | consentUpdate (part idx : Nat) (entry : Consent)
  /-- GATE_PACKET_ARRIVE (R319). -/
  | gatePacketArrive (op : Nat)
  /-- GATE_TIMEOUT (R319). -/
  | gateTimeout (exchange : Nat)
  /-- GATE_VERDICT (R319). -/
  | gateVerdict (op : Nat)
  /-- ARMED_SEND_FIRE (R308). -/
  | armedSendFire (block idx : Nat)
  /-- FLIT_RECEIVE (R358). -/
  | flitReceive (port : Nat) (flit : Flit)
  /-- FLIT_NAK (R358). -/
  | flitNak (port : Nat) (seq : BitVec 12)
  /-- RECEIVE_COUNTER_ADD (R216). -/
  | receiveCounterAdd (port : Nat)
  /-- CONNECTION_REGISTER (R359). -/
  | connectionRegister (conn : Nat) (byPeer : Bool) (c : ConnInfo)
  /-- ATOMICOP_COMPLETION (R276). -/
  | atomicopCompletion (op : Nat) (ok : Bool)
  /-- HOST_APERTURE_ACCESS (R353). -/
  | hostApertureAccess (fn : Nat) (b : BarAccess)
  /-- CXL_MEM_ACCESS (R357). -/
  | cxlMemAccess (fn : Nat) (a : HostAccess)
  /-- POISON_FORWARD_ENABLE (R350). -/
  | poisonForwardEnable (fn : Nat) (cxl on : Bool)
  /-- LOCK_INTERFACE_REQUEST (R354). -/
  | lockInterfaceRequest (fn : Nat)
  /-- START_INTERFACE_REQUEST (R354). -/
  | startInterfaceRequest (fn : Nat)
  /-- STOP_INTERFACE_REQUEST (R354). -/
  | stopInterfaceRequest (fn : Nat)
  /-- TDI_ERROR (R356). -/
  | tdiError (fn : Nat) (cause : TdiCause)
  /-- FIRMWARE_UPDATE (R361). -/
  | firmwareUpdate (core version : Nat) (image : FwImage)
  /-- FIRMWARE_READY_TIMEOUT (R361). -/
  | firmwareReadyTimeout (core : Nat)
  /-- FIRMWARE_READY (R361). -/
  | firmwareReady (core : Nat)
  /-- POWER_UP (R364). -/
  | powerUp (epochs : List (BitVec 48))
  /-- QUEUE_CREATE (R191). -/
  | queueCreate (q : Nat) (c : QueueInfo)
  /-- MSI_X_RAISE (R348). -/
  | msixRaise (fn : Nat)
  /-- PARTITION_CHANGE (R342). -/
  | partitionChange (part : Nat) (p : PartInfo) (entries : List (Nat × Addr))
  /-- CXL_SNOOP (R357). -/
  | cxlSnoop (hostAddr : Nat)
  /-- INTERFACE_REPORT (R355). -/
  | interfaceReport (fn : Nat)
  /-- MAILBOX_MESSAGE (R199). -/
  | mailboxMessage (sender receiver : Nat) (body : BitVec 512)
  /-- REGISTER_WRITE (R5). -/
  | registerWrite (r : HostReg) (value : Addr)
  /-- SPDM_REQUEST (R352). -/
  | spdmRequest (request : List Byte)
deriving DecidableEq, Repr

end Sys2Proof
end

