-- ==== Sys2Proof/Config.lean ====
section
/-! DEFINITION. What is fixed for one device: its figures (R35, R38, R183), and the free values, which the spec leaves
open and of which nothing can be proved. -/

namespace Sys2Proof.Config

/-- Cores of the device (R10, R41). -/
def cores : Nat := 64

/-- Gangs of the device (R10, R41). -/
def gangs : Nat := 16

/-- Context slots of a core (R57, R204). -/
def slots : Nat := 8

/-- Warps resident on a core (R38). -/
def coreWarps : Nat := 32

/-- Register-file rows of a core (R38). -/
def coreRows : Nat := 1024

/-- Scratchpad bytes of a core (R38). -/
def coreScratch : Nat := 524288

/-- Tile registers of a core (R38). -/
def coreTiles : Nat := 16

/-- Bytes of DRAM on one die (R146): 48 GiB. -/
def dieBytes : Nat := 48 * 2 ^ 30

/-- Bytes of DRAM of the device (R41): 192 GiB. A translated address at or above it has its home on IO (log entry 5). -/
def dramBytes : Nat := 192 * 2 ^ 30

/-- Bytes of one die's vault (R142). -/
def vaultDie : Nat := 512 * 2 ^ 20

/-- Outstanding operations that one stream of a thread may have (R162). -/
def streamLimit : Nat := 32

/-- Commands that a teller-to-engine queue holds (R183). -/
def engineDepth : Nat := 16

/-- Records that a teller event queue holds beside its reserve (R183). -/
def eventDepth : Nat := 64

/-- Armed sends of a teller (R308). -/
def armedLimit : Nat := 32

/-- Clause issues after which the starvation valve opens (R67). -/
def valve : Nat := 1024

/-- Issue slots of its context after which a ready thread that got none of them issues first: with at most 33 threads to wait
for one another, each issues within 4,096 (R69). -/
def patience : Nat := 4056

/-- Page requests outstanding to the host (R151). -/
def priLimit : Nat := 256

/-- Generations that a receiver's retired set holds (R346). -/
def retiredLimit : Nat := 32

/-- Which of the two neighbouring F32 values `FRSQ` (0), `FEXP2` (1) or `FLOG2` (2) gives for an operand under a MODE:
true for the upper one. A free value (R248; log entry 6). -/
opaque upperNeighbour : Nat → Word → Word → Bool

/-- The n-th free word: a value that the spec leaves open (log entry 4). -/
opaque freeWord : Nat → BitVec 64

/-- The words of an escrow entry that F0 deals at random (R209, R313): the joint item, the pool kind (0 arithmetic,
1 binary, 2 edaBit), the lane's index in the item and the entry's index give a0, a1, b0, b1 and c0. A free value. -/
opaque dealt : Nat → Nat → Nat → Nat → List Word

/-- The bytes of the manifest in board flash: power cap, VFs, security version, partitions (R362). The spec gives no format: a
free value (log entry 7). -/
opaque manifestImage : Nat → Nat → Nat → List (Nat × PartInfo) → List Byte

/-- Bits 0 to 3 of the attributes of a BAR's range in the interface report: where the MSI-X table and PBA lie, what is non-TEE
memory or updatable (R355). Fixed for the device and not given: a free value (log entry 7). -/
opaque rangeAttributes : Nat → BitVec 4

/-- F0 permits a sender the request of a mailbox entry (R199). The spec names no permitted sender and no format: a free value
(log entry 25). -/
opaque permits : Nat → BitVec 512 → Bool

/-- A byte of a 64-byte DRAM line that was written under one key and is read under another (R153): the two keys, the line, its bytes
as they were written, and the byte's place in it. The spec states no such value: a free value (log entry 13). -/
opaque garble : Nat → Nat → Nat → List Byte → Nat → Byte

/-- A host page is reached over CXL, not PCIe (R350, R357). Which one serves a page is the host's; a free value (log entry
59). -/
opaque overCxl : Nat → Bool

/-- The place, in the DRAM that F0 and F3 keep for themselves, of a binding table's entry (kind 0), a pool's entry (1 to 3) or a save
area (4) of an owner. No rule gives it: a free value (R132, R205, R209; log entry 31). -/
opaque ownPlace : Nat → Nat → Nat → Nat

/-- The image in a save area of a block's small state, given as numbers (R132). No rule gives its layout: a free value (log
entry 31). -/
opaque saveImage : List Nat → List Byte

/-- F0's answer to an SPDM request, given the image that each firmware core runs (R352, R361). A free value (log entry 7). -/
opaque spdmAnswer : List Byte → List (Nat × BitVec 512) → List Byte

end Sys2Proof.Config
end

