-- ==== Sys2Proof/Machine/Float.lean ====
section
/-! DEFINITION. The floating-point formats and their exact arithmetic: values, rounding, flushing, conversions (R79 to R85,
R99, R247 to R250). A finite value is exact: a sign, a natural magnitude and a power of two. -/

namespace Sys2Proof.Machine

/-- A floating-point format (R79): exponent and fraction widths, whether it has infinities, and its flush class in MODE
(0 F32, 1 the 16-bit formats, 2 the 8-bit formats, 3 F26). -/
structure Fmt where
  ebits : Nat
  fbits : Nat
  hasInf : Bool
  cls : Nat
deriving DecidableEq, Repr

/-- F32 (R79). -/
def Fmt.f32 : Fmt := ⟨8, 23, true, 0⟩
/-- F16 (R79). -/
def Fmt.f16 : Fmt := ⟨5, 10, true, 1⟩
/-- BF16 (R79). -/
def Fmt.bf16 : Fmt := ⟨8, 7, true, 1⟩
/-- E4M3 (R79): no infinity, one NaN pattern. -/
def Fmt.e4m3 : Fmt := ⟨4, 3, false, 2⟩
/-- E5M2 (R79). -/
def Fmt.e5m2 : Fmt := ⟨5, 2, true, 2⟩
/-- F26, the accumulator format (R79). -/
def Fmt.f26 : Fmt := ⟨8, 17, true, 3⟩

/-- The exponent bias (R79). -/
def Fmt.bias (f : Fmt) : Int := (2 ^ (f.ebits - 1) : Nat) - 1

/-- The exponent of a subnormal's last bit (R79). -/
def Fmt.tiny (f : Fmt) : Int := 1 - f.bias - f.fbits

/-- The sign bit. -/
def Fmt.sign (f : Fmt) (neg : Bool) : Nat := if neg then 2 ^ (f.ebits + f.fbits) else 0

/-- The canonical NaN (R81). -/
def Fmt.nan (f : Fmt) : Nat :=
  (2 ^ f.ebits - 1) * 2 ^ f.fbits + (if f.hasInf then 2 ^ (f.fbits - 1) else 2 ^ f.fbits - 1)

/-- Infinity of a sign; the canonical NaN in a format without infinities. -/
def Fmt.inf (f : Fmt) (neg : Bool) : Nat := if f.hasInf then f.sign neg + (2 ^ f.ebits - 1) * 2 ^ f.fbits else f.nan

/-- The largest finite value of a sign (R79). -/
def Fmt.max (f : Fmt) (neg : Bool) : Nat :=
  f.sign neg + (if f.hasInf then (2 ^ f.ebits - 1) * 2 ^ f.fbits - 1 else 2 ^ (f.ebits + f.fbits) - 2)

/-- A floating-point value: a finite one is (-1)^neg x m x 2^e exactly. -/
inductive FVal where
  | nan
  | inf (neg : Bool)
  | fin (neg : Bool) (m : Nat) (e : Int)
deriving DecidableEq, Repr

/-- The value of a bit pattern (R79). -/
def Fmt.dec (f : Fmt) (bits : Nat) : FVal :=
  let neg := bits.testBit (f.ebits + f.fbits)
  let e := (bits / 2 ^ f.fbits) % 2 ^ f.ebits
  let m := bits % 2 ^ f.fbits
  if e = 2 ^ f.ebits - 1 ∧ (f.hasInf ∨ m = 2 ^ f.fbits - 1) then
    if f.hasInf ∧ m = 0 then .inf neg else .nan
  else if e = 0 then .fin neg m f.tiny
  else .fin neg (m + 2 ^ f.fbits) ((e : Int) - f.bias - f.fbits)

/-- The rounding modes (R82). -/
inductive Rm where
  | rne | rz | ru | rd
deriving DecidableEq, Repr

/-- The mode of an RM field: 0 takes MODE.RM (R84, R245). -/
def rmOf (field : Nat) (mode : Word) : Rm :=
  let n := if field = 0 then (mode.extractLsb' 0 2).toNat else field
  if n = 0 then .rne else if n = 1 then .rz else if n = 2 then .ru else .rd

/-- Whether a magnitude `r` with a rest `rem` of `2^k` is rounded up in magnitude (R82). -/
def Rm.up (rm : Rm) (neg : Bool) (r rem k : Nat) : Bool :=
  match rm with
  | .rne => decide (2 ^ k < 2 * rem) || (decide (2 * rem = 2 ^ k) && r % 2 == 1)
  | .rz => false
  | .ru => !neg && rem != 0
  | .rd => neg && rem != 0

/-- A magnitude m x 2^e as a multiple of 2^q, rounded. -/
def quantize (rm : Rm) (neg : Bool) (m : Nat) (e q : Int) : Nat :=
  if q ≤ e then m * 2 ^ (e - q).toNat
  else
    let k := (q - e).toNat
    let r := m / 2 ^ k
    if rm.up neg r (m % 2 ^ k) k then r + 1 else r

/-- The exponent of the last place kept when m x 2^e is rounded to a format. -/
def Fmt.quantum (f : Fmt) (m : Nat) (e : Int) : Int := Max.max ((Nat.log2 m : Int) + e - f.fbits) f.tiny

/-- Bits of a rounded magnitude r x 2^q, where r has at most one bit above the fraction; above the format, `big`. -/
def Fmt.pack (f : Fmt) (neg : Bool) (r : Nat) (q : Int) (big : Nat) : Nat :=
  let carry := decide (2 ^ (f.fbits + 1) ≤ r)
  let r' := if carry then r / 2 else r
  let q' := if carry then q + 1 else q
  if r' < 2 ^ f.fbits then f.sign neg + r'
  else
    let bits := f.sign neg + (q' - f.tiny + 1).toNat * 2 ^ f.fbits + (r' - 2 ^ f.fbits)
    if bits ≤ f.max neg then bits else big

/-- The result of overflow (R82): RNE gives infinity, the directed modes the largest finite value where they point
inward. -/
def Fmt.overflow (f : Fmt) (rm : Rm) (neg : Bool) : Nat :=
  match rm, neg with
  | .rz, _ | .ru, true | .rd, false => f.max neg
  | _, _ => f.inf neg

/-- `rnd(x, fmt, rm)`: the exact value rounded once (R82, R99). -/
def Fmt.rnd (f : Fmt) (rm : Rm) : FVal → Nat
  | .nan => f.nan
  | .inf neg => f.inf neg
  | .fin neg m e =>
    if m = 0 then f.sign neg
    else f.pack neg (quantize rm neg m e (f.quantum m e)) (f.quantum m e) (f.overflow rm neg)

/-- Conversion to an 8-bit format (R83): RNE, then saturation or NaN beyond the largest finite value. -/
def Fmt.cvt8 (f : Fmt) (sat : Bool) : FVal → Nat
  | .nan => f.nan
  | .inf neg => if sat then f.max neg else f.inf neg
  | .fin neg m e =>
    if m = 0 then f.sign neg
    else
      f.pack neg (quantize .rne neg m e (f.quantum m e)) (f.quantum m e) (if sat then f.max neg else f.nan)

/-- The pattern is subnormal. -/
def Fmt.subnormal (f : Fmt) (bits : Nat) : Bool := (bits / 2 ^ f.fbits) % 2 ^ f.ebits == 0 && bits % 2 ^ f.fbits != 0

/-- A subnormal replaced by a zero of its sign when a flush bit is set (R85). -/
def Fmt.flush (f : Fmt) (on : Bool) (bits : Nat) : Nat :=
  if on && f.subnormal bits then f.sign (bits.testBit (f.ebits + f.fbits)) else bits

/-- The input flush bit of a format's class (R84). -/
def Fmt.fi (f : Fmt) (mode : Word) : Bool := mode.getLsbD (2 + 2 * f.cls)

/-- The result flush bit of a format's class (R84). -/
def Fmt.fo (f : Fmt) (mode : Word) : Bool := mode.getLsbD (3 + 2 * f.cls)

/-- `xin`: a pattern read under the input flush (R85, R99). -/
def Fmt.xin (f : Fmt) (mode : Word) (bits : Nat) : FVal := f.dec (f.flush (f.fi mode) bits)

/-- The result flush (R85). -/
def Fmt.xout (f : Fmt) (mode : Word) (bits : Nat) : Nat := f.flush (f.fo mode) bits

/-- Round and flush. -/
def Fmt.put (f : Fmt) (rm : Rm) (mode : Word) (v : FVal) : Nat := f.xout mode (f.rnd rm v)

/-! ### Exact arithmetic (R82, R247) -/

/-- The absolute value; NaN stays NaN (R245). -/
def FVal.abs : FVal → FVal
  | .nan => .nan
  | .inf _ => .inf false
  | .fin _ m e => .fin false m e

/-- The negation; NaN stays NaN (R245). -/
def FVal.neg : FVal → FVal
  | .nan => .nan
  | .inf s => .inf !s
  | .fin s m e => .fin (!s) m e

/-- An integer as a value. -/
def FVal.ofInt (i : Int) : FVal := .fin (decide (i < 0)) i.natAbs 0

/-- A finite magnitude with its sign as a multiple of 2^q, for q no greater than its exponent. -/
def signedAt (neg : Bool) (m : Nat) (e q : Int) : Int :=
  let n : Int := (m * 2 ^ (e - q).toNat : Nat)
  if neg then -n else n

/-- The exact sum. An exact zero takes the common sign of two zeros, else + (- under RD; R247). -/
def FVal.add (rm : Rm) : FVal → FVal → FVal
  | .nan, _ => .nan
  | _, .nan => .nan
  | .inf s, .inf s' => if s = s' then .inf s else .nan
  | .inf s, .fin .. => .inf s
  | .fin .., .inf s => .inf s
  | .fin s m e, .fin s' m' e' =>
    if m = 0 ∧ m' = 0 then .fin (if s = s' then s else rm == .rd) 0 0
    else
      let q := min e e'
      let r := signedAt s m e q + signedAt s' m' e' q
      if r = 0 then .fin (rm == .rd) 0 0 else .fin (decide (r < 0)) r.natAbs q

/-- The exact product. -/
def FVal.mul : FVal → FVal → FVal
  | .nan, _ => .nan
  | _, .nan => .nan
  | .inf s, .inf s' => .inf (s != s')
  | .inf s, .fin s' m _ => if m = 0 then .nan else .inf (s != s')
  | .fin s m _, .inf s' => if m = 0 then .nan else .inf (s != s')
  | .fin s m e, .fin s' m' e' => .fin (s != s') (m * m') (e + e')

/-- A quotient of naturals to 128 bits beyond the divisor's size, with a last bit that marks a rest: every format's
rounding of it is the exact quotient's. -/
def quotient (m m' : Nat) (e : Int) (neg : Bool) : FVal :=
  let k := 128 + Nat.log2 m'
  let n := m * 2 ^ k
  .fin neg (2 * (n / m') + (if n % m' = 0 then 0 else 1)) (e - k - 1)

/-- The quotient, by IEEE 754 (R82, R255). -/
def FVal.div : FVal → FVal → FVal
  | .nan, _ => .nan
  | _, .nan => .nan
  | .inf _, .inf _ => .nan
  | .inf s, .fin s' _ _ => .inf (s != s')
  | .fin s _ _, .inf s' => .fin (s != s') 0 0
  | .fin s m e, .fin s' m' e' =>
    if m' = 0 then (if m = 0 then .nan else .inf (s != s')) else quotient m m' (e - e') (s != s')

/-- The integer square root by bits: the greatest r of `fuel` bits above `r` with r x r at most n. -/
def isqrtFrom (n : Nat) : Nat → Nat → Nat
  | 0, r => r
  | fuel + 1, r =>
    let c := r + 2 ^ fuel
    isqrtFrom n fuel (if c * c ≤ n then c else r)

/-- The integer square root. -/
def isqrt (n : Nat) : Nat := isqrtFrom n (Nat.log2 n / 2 + 1) 0

/-- The square root of a positive magnitude, marked in its last bit where inexact. -/
def sqrtOf (m : Nat) (e : Int) : FVal :=
  let odd := e % 2 != 0
  let n := (if odd then 2 * m else m) * 2 ^ 128
  let r := isqrt n
  .fin false (2 * r + (if r * r = n then 0 else 1)) ((if odd then e - 1 else e) / 2 - 64 - 1)

/-- `FSQRT`'s exact result (R248). -/
def FVal.sqrt : FVal → FVal
  | .nan => .nan
  | .inf s => if s then .nan else .inf false
  | .fin s m e => if m = 0 then .fin s 0 0 else if s then .nan else sqrtOf m e

/-- `FRSQ`'s exact result, marked in its last bit where inexact (R248). -/
def FVal.rsqrt : FVal → FVal
  | .nan => .nan
  | .inf s => if s then .nan else .fin false 0 0
  | .fin s m e =>
    if m = 0 then .inf s
    else if s then .nan
    else
      let odd := e % 2 != 0
      let m' := if odd then 2 * m else m
      let k := 128 + Nat.log2 m
      let r := isqrt (2 ^ (2 * k) / m')
      .fin false (2 * r + (if r * r * m' = 2 ^ (2 * k) then 0 else 1)) (-((if odd then e - 1 else e) / 2) - k - 1)

/-- The bits of fixed-point precision of `FEXP2` and `FLOG2`. -/
def fixBits : Nat := 256

/-- The product over the set bits of a fraction of 2^(2^-i), in fixed point: `n` is the fraction of `j` bits still to
apply, `root` the factor of its highest bit. -/
def exp2Frac : Nat → Nat → Nat → Nat → Nat
  | 0, _, _, acc => acc
  | j + 1, n, root, acc =>
    let root := isqrt (root * 2 ^ fixBits)
    exp2Frac j (n % 2 ^ j) root (if n.testBit j then acc * root / 2 ^ fixBits else acc)

/-- `FEXP2`'s exact result, marked in its last bit where inexact (R248). -/
def FVal.exp2 : FVal → FVal
  | .nan => .nan
  | .inf s => if s then .fin false 0 0 else .inf false
  | .fin s m e =>
    if m = 0 then .fin false 1 0
    else if 0 ≤ e ∨ m % 2 ^ (-e).toNat = 0 then
      let n : Int := if 0 ≤ e then (m * 2 ^ Min.min e.toNat 16 : Nat) else (m / 2 ^ (-e).toNat : Nat)
      if 128 ≤ n then (if s then .fin false (if n ≤ 150 then 1 else 0) (-n) else .inf false)
      else .fin false 1 (if s then -n else n)
    else
      let j := (-e).toNat
      let whole : Int := (m / 2 ^ j : Nat)
      if 151 ≤ whole then (if s then .fin false 0 0 else .inf false)
      else if 128 ≤ whole ∧ !s then .inf false
      else if 150 ≤ whole ∧ s then .fin false 0 0
      else
        let frac := m % 2 ^ j
        let (n, f) := if s then (-whole - 1, 2 ^ j - frac) else (whole, frac)
        .fin false (2 * exp2Frac j f (2 * 2 ^ fixBits) (2 ^ fixBits) + 1) (n - fixBits - 1)

/-- The first bits of log2 of a fixed-point value in [1, 2), by repeated squaring. -/
def log2Frac : Nat → Nat → Nat → Nat
  | 0, _, acc => acc
  | n + 1, y, acc =>
    let y := y * y / 2 ^ fixBits
    if 2 * 2 ^ fixBits ≤ y then log2Frac n (y / 2) (2 * acc + 1) else log2Frac n y (2 * acc)

/-- `FLOG2`'s exact result, marked in its last bit where inexact (R248). -/
def FVal.log2 : FVal → FVal
  | .nan => .nan
  | .inf s => if s then .nan else .inf false
  | .fin s m e =>
    if m = 0 then .inf true
    else if s then .nan
    else
      let k := Nat.log2 m
      let whole : Int := e + k
      if m = 2 ^ k then .ofInt whole
      else
        let t : Int := whole * (2 ^ 100 : Nat) + (log2Frac 100 (m * 2 ^ (fixBits - k)) 0 : Nat)
        let u := 2 * t + 1
        .fin (decide (u < 0)) u.natAbs (-101)

/-- A value of `FRSQ`, `FEXP2` or `FLOG2` (R248): the exact one where F32 has it, else a neighbour; which one is a free
value. -/
def faithful (fn : Nat) (mode : Word) (a : Word) (v : FVal) : Nat :=
  let lo := Fmt.f32.rnd .rd v
  let hi := Fmt.f32.rnd .ru v
  Fmt.f32.xout mode (if lo = hi then lo else if Config.upperNeighbour fn a mode then hi else lo)

/-- Comparison of two values that are not NaN. -/
def FVal.cmp : FVal → FVal → Ordering
  | .inf s, .inf s' => compare s' s
  | .inf s, _ => if s then .lt else .gt
  | _, .inf s => if s then .gt else .lt
  | .fin s m e, .fin s' m' e' =>
    let q := min e e'
    compare (signedAt s m e q) (signedAt s' m' e' q)
  | _, _ => .eq

/-- The value is NaN. -/
def FVal.isNan : FVal → Bool
  | .nan => true
  | _ => false

/-- The sign of a value; NaN has none. -/
def FVal.isNeg : FVal → Bool
  | .nan => false
  | .inf s => s
  | .fin s _ _ => s

/-- `pick` (R247): the smaller operand, or with `big` the larger; -0 below +0; a number before NaN. -/
def FVal.pick (big : Bool) (a b : FVal) : FVal :=
  if a.isNan then b
  else if b.isNan then a
  else
    let less := match a.cmp b with
      | .lt => true
      | .gt => false
      | .eq => a.isNeg && !b.isNeg
    if less != big then a else b

/-- The condition of a float comparison (R250). -/
def fcc (cc : Nat) (a b : FVal) : Bool :=
  let nan := a.isNan || b.isNan
  let o := a.cmp b
  match cc with
  | 0 => !nan && o == .eq
  | 1 => nan || o != .eq
  | 2 => !nan && o == .lt
  | 3 => !nan && o != .gt
  | 4 => !nan && o == .gt
  | 5 => !nan && o != .lt
  | 6 => !nan
  | _ => nan

/-- A finite value rounded to an integer magnitude under a mode (R249, R253). -/
def roundInt (rm : Rm) (neg : Bool) (m : Nat) (e : Int) : Nat := quantize rm neg m e 0

/-- `FRND`'s value (R249): integral, of the operand's sign. -/
def FVal.frnd (rm : Rm) : FVal → FVal
  | .fin s m e => if 0 ≤ e then .fin s m e else .fin s (roundInt rm s m e) 0
  | v => v

/-- Conversion to an integer with clamping; NaN gives 0 (R253). -/
def FVal.toInt (rm : Rm) (lo hi : Int) : FVal → Int
  | .nan => 0
  | .inf s => if s then lo else hi
  | .fin s m e =>
    let n : Int := (roundInt rm s m (min e 200) : Nat)
    Min.min (Max.max (if s then -n else n) lo) hi

/-- The class bit of an F32 pattern (R249). -/
def fclassOf (bits : Nat) : Nat :=
  match Fmt.f32.dec bits with
  | .nan => 8
  | .inf s => if s then 0 else 7
  | .fin s m _ =>
    if m = 0 then (if s then 3 else 4)
    else if Fmt.f32.subnormal bits then (if s then 2 else 5)
    else if s then 1 else 6

end Sys2Proof.Machine
end

