-- ==== Sys2Proof/Machine/Fields.lean ====
section
/-! DEFINITION. The opcode map (R111) and the field rules of every instruction: which operands, literals, types and
modifiers its description takes (R101 to R110 and the field tables of R223, R234, R246, R259, R269, R274, R291, R315,
R328). Everything else raises ILL (R109). -/

namespace Sys2Proof

/-- The operands of an extended instruction; events and compact forms have none. -/
def Instr.ext? : Instr → Option Ext
  | .bra x => some x
  | .btab x => some x
  | .call x => some x
  | .callt x => some x
  | .ret x => some x
  | .join x => some x
  | .leave x => some x
  | .waitm x => some x
  | .mmov x => some x
  | .mrd x => some x
  | .exit x => some x
  | .yield x => some x
  | .nop x => some x
  | .trap x => some x
  | .bkpt x => some x
  | .iadd x => some x
  | .isub x => some x
  | .ineg x => some x
  | .iabs x => some x
  | .imin x => some x
  | .imax x => some x
  | .imul x => some x
  | .imulh x => some x
  | .imad x => some x
  | .imad64 x => some x
  | .iadd64 x => some x
  | .isub64 x => some x
  | .and x => some x
  | .or x => some x
  | .xor x => some x
  | .andn x => some x
  | .not x => some x
  | .sel x => some x
  | .shl x => some x
  | .shr x => some x
  | .sar x => some x
  | .rol x => some x
  | .bfx x => some x
  | .bfi x => some x
  | .brev x => some x
  | .clz x => some x
  | .popc x => some x
  | .icmp x => some x
  | .iset x => some x
  | .plop x => some x
  | .mov x => some x
  | .movl (.ext x) => some x
  | .lea x => some x
  | .sread x => some x
  | .fadd x => some x
  | .fsub x => some x
  | .fmul x => some x
  | .ffma x => some x
  | .fmin x => some x
  | .fmax x => some x
  | .frcp x => some x
  | .frsq x => some x
  | .fsqrt x => some x
  | .fexp2 x => some x
  | .flog2 x => some x
  | .frnd x => some x
  | .fclass x => some x
  | .fcmp x => some x
  | .fset x => some x
  | .hadd2 x => some x
  | .hmul2 x => some x
  | .hfma2 x => some x
  | .hmin2 x => some x
  | .hmax2 x => some x
  | .cvt x => some x
  | .pk8 x => some x
  | .upk8 x => some x
  | .qvec x => some x
  | .dqv x => some x
  | .trpk x => some x
  | .trup x => some x
  | .trchk x => some x
  | .lxch x => some x
  | .vote x => some x
  | .redux x => some x
  | .scan x => some x
  | .matchLanes x => some x
  | .firstLane x => some x
  | .ld x => some x
  | .st x => some x
  | .lds x => some x
  | .sts x => some x
  | .ldg x => some x
  | .stg x => some x
  | .ldc x => some x
  | .pref x => some x
  | .stz x => some x
  | .atom x => some x
  | .cas x => some x
  | .atomr x => some x
  | .rel x => some x
  | .acq x => some x
  | .etrig x => some x
  | .cpy x => some x
  | .cwait x => some x
  | .cread x => some x
  | .gath x => some x
  | .tlds x => some x
  | .tsts x => some x
  | .tzero x => some x
  | .vld x => some x
  | .tmma x => some x
  | .fmma x => some x
  | .drain x => some x
  | .aclr x => some x
  | .astat x => some x
  | .tcpy x => some x
  | .evwait x => some x
  | .evpop x => some x
  | .eqstat x => some x
  | .lsend x => some x
  | .larm x => some x
  | .ldisarm x => some x
  | .saddc x => some x
  | .smulc x => some x
  | .strunc x => some x
  | .gsnd x => some x
  | .gfin x => some x
  | .gstat x => some x
  | .gxand x => some x
  | .edab x => some x
  | .gopen x => some x
  | .csrr x => some x
  | .csrw x => some x
  | .csrs x => some x
  | .csrc x => some x
  | .rte x => some x
  | .hcall x => some x
  | .clk x => some x
  | .sleep x => some x
  | _ => none

/-- The operands of a compact instruction. -/
def Instr.compact? : Instr → Option Compact
  | .movl (.compact c) => some c
  | .iaddCompact c => some c
  | .isubCompact c => some c
  | .inegCompact c => some c
  | .iabsCompact c => some c
  | .andCompact c => some c
  | .orCompact c => some c
  | .xorCompact c => some c
  | .andnCompact c => some c
  | .shlCompact c => some c
  | .shrCompact c => some c
  | .sarCompact c => some c
  | .rolCompact c => some c
  | .movCompact c => some c
  | .faddCompact c => some c
  | .fsubCompact c => some c
  | .fmulCompact c => some c
  | .ffmaCompact c => some c
  | .ldCompact c => some c
  | .stCompact c => some c
  | .ldsCompact c => some c
  | .stsCompact c => some c
  | .ldgCompact c => some c
  | .stgCompact c => some c
  | _ => none

/-- The major and minor opcode of an extended instruction (R111), as major x 256 + minor. -/
def Instr.opcode : Instr → Nat
  | .bra _ => 0x0100
  | .btab _ => 0x0101
  | .call _ => 0x0102
  | .callt _ => 0x0103
  | .ret _ => 0x0104
  | .join _ => 0x0200
  | .leave _ => 0x0201
  | .waitm _ => 0x0202
  | .mmov _ => 0x0203
  | .mrd _ => 0x0204
  | .exit _ => 0x0300
  | .yield _ => 0x0301
  | .nop _ => 0x0302
  | .trap _ => 0x0303
  | .bkpt _ => 0x0304
  | .iadd _ => 0x0800
  | .isub _ => 0x0801
  | .ineg _ => 0x0802
  | .iabs _ => 0x0803
  | .imin _ => 0x0804
  | .imax _ => 0x0805
  | .imul _ => 0x0900
  | .imulh _ => 0x0901
  | .imad _ => 0x0902
  | .imad64 _ => 0x0903
  | .iadd64 _ => 0x0904
  | .isub64 _ => 0x0905
  | .and _ => 0x0A00
  | .or _ => 0x0A01
  | .xor _ => 0x0A02
  | .andn _ => 0x0A03
  | .not _ => 0x0A04
  | .sel _ => 0x0A05
  | .shl _ => 0x0B00
  | .shr _ => 0x0B01
  | .sar _ => 0x0B02
  | .rol _ => 0x0B03
  | .bfx _ => 0x0B04
  | .bfi _ => 0x0B05
  | .brev _ => 0x0B06
  | .clz _ => 0x0B07
  | .popc _ => 0x0B08
  | .icmp _ => 0x0C00
  | .iset _ => 0x0C01
  | .plop _ => 0x0C02
  | .mov _ => 0x0D00
  | .movl (.ext _) => 0x0D01
  | .lea _ => 0x0D02
  | .sread _ => 0x0D03
  | .fadd _ => 0x1000
  | .fsub _ => 0x1001
  | .fmul _ => 0x1002
  | .ffma _ => 0x1003
  | .fmin _ => 0x1004
  | .fmax _ => 0x1005
  | .frcp _ => 0x1100
  | .frsq _ => 0x1101
  | .fsqrt _ => 0x1102
  | .fexp2 _ => 0x1103
  | .flog2 _ => 0x1104
  | .frnd _ => 0x1105
  | .fclass _ => 0x1106
  | .fcmp _ => 0x1200
  | .fset _ => 0x1201
  | .hadd2 _ => 0x1300
  | .hmul2 _ => 0x1301
  | .hfma2 _ => 0x1302
  | .hmin2 _ => 0x1303
  | .hmax2 _ => 0x1304
  | .cvt _ => 0x1800
  | .pk8 _ => 0x1801
  | .upk8 _ => 0x1802
  | .qvec _ => 0x1900
  | .dqv _ => 0x1901
  | .trpk _ => 0x1A00
  | .trup _ => 0x1A01
  | .trchk _ => 0x1A02
  | .lxch _ => 0x1C00
  | .vote _ => 0x1C01
  | .redux _ => 0x1C02
  | .scan _ => 0x1C03
  | .matchLanes _ => 0x1C04
  | .firstLane _ => 0x1C05
  | .ld _ => 0x2000
  | .st _ => 0x2001
  | .lds _ => 0x2100
  | .sts _ => 0x2101
  | .ldg _ => 0x2200
  | .stg _ => 0x2201
  | .ldc _ => 0x2300
  | .pref _ => 0x2301
  | .stz _ => 0x2302
  | .atom _ => 0x2800
  | .cas _ => 0x2801
  | .atomr _ => 0x2900
  | .rel _ => 0x2901
  | .acq _ => 0x2A00
  | .etrig _ => 0x2B00
  | .cpy _ => 0x2C00
  | .cwait _ => 0x2D00
  | .cread _ => 0x2D01
  | .gath _ => 0x3000
  | .tlds _ => 0x3001
  | .tsts _ => 0x3002
  | .tzero _ => 0x3003
  | .vld _ => 0x3100
  | .tmma _ => 0x3200
  | .fmma _ => 0x3201
  | .drain _ => 0x3300
  | .aclr _ => 0x3301
  | .astat _ => 0x3302
  | .tcpy _ => 0x3400
  | .evwait _ => 0x3500
  | .evpop _ => 0x3501
  | .eqstat _ => 0x3502
  | .lsend _ => 0x3600
  | .larm _ => 0x3601
  | .ldisarm _ => 0x3602
  | .saddc _ => 0x3800
  | .smulc _ => 0x3801
  | .strunc _ => 0x3802
  | .gsnd _ => 0x3900
  | .gfin _ => 0x3901
  | .gstat _ => 0x3902
  | .gxand _ => 0x3A00
  | .edab _ => 0x3A01
  | .gopen _ => 0x3A02
  | .csrr _ => 0x3C00
  | .csrw _ => 0x3C01
  | .csrs _ => 0x3C02
  | .csrc _ => 0x3C03
  | .rte _ => 0x3D00
  | .hcall _ => 0x3D01
  | .clk _ => 0x3D02
  | .sleep _ => 0x3D03
  | _ => 0

/-- The major opcode and CM of a compact instruction (R104), as major x 4 + CM. -/
def Instr.compactOpcode : Instr → Nat
  | .movl (.compact _) => 53
  | .iaddCompact _ => 32
  | .isubCompact _ => 33
  | .inegCompact _ => 34
  | .iabsCompact _ => 35
  | .andCompact _ => 40
  | .orCompact _ => 41
  | .xorCompact _ => 42
  | .andnCompact _ => 43
  | .shlCompact _ => 44
  | .shrCompact _ => 45
  | .sarCompact _ => 46
  | .rolCompact _ => 47
  | .movCompact _ => 52
  | .faddCompact _ => 64
  | .fsubCompact _ => 65
  | .fmulCompact _ => 66
  | .ffmaCompact _ => 67
  | .ldCompact _ => 128
  | .stCompact _ => 129
  | .ldsCompact _ => 132
  | .stsCompact _ => 133
  | .ldgCompact _ => 136
  | .stgCompact _ => 137
  | _ => 0

/-- The extended instruction of an opcode of the map; none where the map has no such minor. -/
def mkExt (opc : Nat) (x : Ext) : Option Instr :=
  match opc with
  | 0x0100 => some (.bra x)
  | 0x0101 => some (.btab x)
  | 0x0102 => some (.call x)
  | 0x0103 => some (.callt x)
  | 0x0104 => some (.ret x)
  | 0x0200 => some (.join x)
  | 0x0201 => some (.leave x)
  | 0x0202 => some (.waitm x)
  | 0x0203 => some (.mmov x)
  | 0x0204 => some (.mrd x)
  | 0x0300 => some (.exit x)
  | 0x0301 => some (.yield x)
  | 0x0302 => some (.nop x)
  | 0x0303 => some (.trap x)
  | 0x0304 => some (.bkpt x)
  | 0x0800 => some (.iadd x)
  | 0x0801 => some (.isub x)
  | 0x0802 => some (.ineg x)
  | 0x0803 => some (.iabs x)
  | 0x0804 => some (.imin x)
  | 0x0805 => some (.imax x)
  | 0x0900 => some (.imul x)
  | 0x0901 => some (.imulh x)
  | 0x0902 => some (.imad x)
  | 0x0903 => some (.imad64 x)
  | 0x0904 => some (.iadd64 x)
  | 0x0905 => some (.isub64 x)
  | 0x0A00 => some (.and x)
  | 0x0A01 => some (.or x)
  | 0x0A02 => some (.xor x)
  | 0x0A03 => some (.andn x)
  | 0x0A04 => some (.not x)
  | 0x0A05 => some (.sel x)
  | 0x0B00 => some (.shl x)
  | 0x0B01 => some (.shr x)
  | 0x0B02 => some (.sar x)
  | 0x0B03 => some (.rol x)
  | 0x0B04 => some (.bfx x)
  | 0x0B05 => some (.bfi x)
  | 0x0B06 => some (.brev x)
  | 0x0B07 => some (.clz x)
  | 0x0B08 => some (.popc x)
  | 0x0C00 => some (.icmp x)
  | 0x0C01 => some (.iset x)
  | 0x0C02 => some (.plop x)
  | 0x0D00 => some (.mov x)
  | 0x0D01 => some (.movl (.ext x))
  | 0x0D02 => some (.lea x)
  | 0x0D03 => some (.sread x)
  | 0x1000 => some (.fadd x)
  | 0x1001 => some (.fsub x)
  | 0x1002 => some (.fmul x)
  | 0x1003 => some (.ffma x)
  | 0x1004 => some (.fmin x)
  | 0x1005 => some (.fmax x)
  | 0x1100 => some (.frcp x)
  | 0x1101 => some (.frsq x)
  | 0x1102 => some (.fsqrt x)
  | 0x1103 => some (.fexp2 x)
  | 0x1104 => some (.flog2 x)
  | 0x1105 => some (.frnd x)
  | 0x1106 => some (.fclass x)
  | 0x1200 => some (.fcmp x)
  | 0x1201 => some (.fset x)
  | 0x1300 => some (.hadd2 x)
  | 0x1301 => some (.hmul2 x)
  | 0x1302 => some (.hfma2 x)
  | 0x1303 => some (.hmin2 x)
  | 0x1304 => some (.hmax2 x)
  | 0x1800 => some (.cvt x)
  | 0x1801 => some (.pk8 x)
  | 0x1802 => some (.upk8 x)
  | 0x1900 => some (.qvec x)
  | 0x1901 => some (.dqv x)
  | 0x1A00 => some (.trpk x)
  | 0x1A01 => some (.trup x)
  | 0x1A02 => some (.trchk x)
  | 0x1C00 => some (.lxch x)
  | 0x1C01 => some (.vote x)
  | 0x1C02 => some (.redux x)
  | 0x1C03 => some (.scan x)
  | 0x1C04 => some (.matchLanes x)
  | 0x1C05 => some (.firstLane x)
  | 0x2000 => some (.ld x)
  | 0x2001 => some (.st x)
  | 0x2100 => some (.lds x)
  | 0x2101 => some (.sts x)
  | 0x2200 => some (.ldg x)
  | 0x2201 => some (.stg x)
  | 0x2300 => some (.ldc x)
  | 0x2301 => some (.pref x)
  | 0x2302 => some (.stz x)
  | 0x2800 => some (.atom x)
  | 0x2801 => some (.cas x)
  | 0x2900 => some (.atomr x)
  | 0x2901 => some (.rel x)
  | 0x2A00 => some (.acq x)
  | 0x2B00 => some (.etrig x)
  | 0x2C00 => some (.cpy x)
  | 0x2D00 => some (.cwait x)
  | 0x2D01 => some (.cread x)
  | 0x3000 => some (.gath x)
  | 0x3001 => some (.tlds x)
  | 0x3002 => some (.tsts x)
  | 0x3003 => some (.tzero x)
  | 0x3100 => some (.vld x)
  | 0x3200 => some (.tmma x)
  | 0x3201 => some (.fmma x)
  | 0x3300 => some (.drain x)
  | 0x3301 => some (.aclr x)
  | 0x3302 => some (.astat x)
  | 0x3400 => some (.tcpy x)
  | 0x3500 => some (.evwait x)
  | 0x3501 => some (.evpop x)
  | 0x3502 => some (.eqstat x)
  | 0x3600 => some (.lsend x)
  | 0x3601 => some (.larm x)
  | 0x3602 => some (.ldisarm x)
  | 0x3800 => some (.saddc x)
  | 0x3801 => some (.smulc x)
  | 0x3802 => some (.strunc x)
  | 0x3900 => some (.gsnd x)
  | 0x3901 => some (.gfin x)
  | 0x3902 => some (.gstat x)
  | 0x3A00 => some (.gxand x)
  | 0x3A01 => some (.edab x)
  | 0x3A02 => some (.gopen x)
  | 0x3C00 => some (.csrr x)
  | 0x3C01 => some (.csrw x)
  | 0x3C02 => some (.csrs x)
  | 0x3C03 => some (.csrc x)
  | 0x3D00 => some (.rte x)
  | 0x3D01 => some (.hcall x)
  | 0x3D02 => some (.clk x)
  | 0x3D03 => some (.sleep x)
  | _ => none

/-- The compact instruction of a major and CM; none where R104 says "none" or lists no compact form. -/
def mkCompact (opc : Nat) (c : Compact) : Option Instr :=
  match opc with
  | 32 => some (.iaddCompact c)
  | 33 => some (.isubCompact c)
  | 34 => some (.inegCompact c)
  | 35 => some (.iabsCompact c)
  | 40 => some (.andCompact c)
  | 41 => some (.orCompact c)
  | 42 => some (.xorCompact c)
  | 43 => some (.andnCompact c)
  | 44 => some (.shlCompact c)
  | 45 => some (.shrCompact c)
  | 46 => some (.sarCompact c)
  | 47 => some (.rolCompact c)
  | 52 => some (.movCompact c)
  | 64 => some (.faddCompact c)
  | 65 => some (.fsubCompact c)
  | 66 => some (.fmulCompact c)
  | 67 => some (.ffmaCompact c)
  | 128 => some (.ldCompact c)
  | 129 => some (.stCompact c)
  | 132 => some (.ldsCompact c)
  | 133 => some (.stsCompact c)
  | 136 => some (.ldgCompact c)
  | 137 => some (.stgCompact c)
  | 53 => some (.movl (.compact c))
  | _ => none

/-- Majors that the map assigns to instructions (R111). -/
def assignedMajor (maj : Nat) : Bool :=
  [0x01, 0x02, 0x03, 0x08, 0x09, 0x0A, 0x0B, 0x0C, 0x0D, 0x10, 0x11, 0x12, 0x13, 0x18, 0x19, 0x1A, 0x1C,
   0x20, 0x21, 0x22, 0x23, 0x28, 0x29, 0x2A, 0x2B, 0x2C, 0x2D, 0x30, 0x31, 0x32, 0x33, 0x34, 0x35, 0x36,
   0x38, 0x39, 0x3A, 0x3C, 0x3D].contains maj

/-- Events of the table: steps of the device that no instruction word encodes. -/
def Instr.isEvent (i : Instr) : Bool := i.ext?.isNone && i.compact?.isNone

/-- The guard of an instruction; events are unguarded. -/
def Instr.guard (i : Instr) : Guard :=
  match i.ext?, i.compact? with
  | some x, _ => x.guard
  | none, some c => c.guard
  | none, none => ⟨false, 7⟩

/-- The launch's limits on register and tile fields (R15, R106). -/
structure Limits where
  regs : Nat
  tiles : Nat
deriving DecidableEq, Repr

/-- Why a word is not an instruction; each raises ILL (R101 to R117). -/
inductive Reject where
  | truncated | headerWord | unassignedMajor | unassignedMinor | noCompactForm | negatedTrue | wrongSide
  | badModifier | badType | badD | badA | badB | badC | badLiteral | badStream | badX9 | badRetain | badValue
deriving DecidableEq, Repr

/-- What an operand field may hold. `quad` is a group of four v registers, `kpair` an even k register,
`num n` a number up to n, `never` a field that only a literal can fill. -/
inductive Kind where
  | none | reg | pair | quad | kpair | pred | predD | mask | tile | acc | num (n : Nat) | never
deriving DecidableEq, Repr

/-- What a 64-bit literal supplies: nothing (ILL), operand B, an offset or target in place of C, an offset while C holds
a register (`CAS`), or the value of `MOVL`. -/
inductive LitUse where
  | never | giveB | giveC | offset | value
deriving DecidableEq, Repr

/-- What X9 holds (R108): nothing, an engine command's fields with its largest GRAN (R287, R290), a CSR number (R328). -/
inductive X9Use where
  | none | engine (gran : Nat) | csr
deriving DecidableEq, Repr

/-- The field rule of one instruction on one side. -/
structure Rule where
  sides : List Side := [.simt, .teller]
  mods : BitVec 12 := 0
  tys : List Nat := [0]
  d : Kind := .none
  a : Kind := .none
  b : Kind := .none
  c : Kind := .none
  aLit : Bool := false
  bLit : Bool := false
  cLit : Bool := false
  lit : LitUse := .never
  mem : Bool := false
  x9 : X9Use := .none
deriving DecidableEq, Repr

/-- A control register's width and sides by number (R126). -/
structure CsrInfo where
  wideSimt : Bool
  wideTeller : Bool
  simt : Bool
  teller : Bool
deriving DecidableEq, Repr

/-- The register is 64 bits wide on a side. -/
def CsrInfo.wide (i : CsrInfo) (s : Side) : Bool := if s = .simt then i.wideSimt else i.wideTeller

/-- The control registers by number; an absent number raises ILL (R126). -/
def csrInfo (n : Nat) : Option CsrInfo :=
  match n with
  | 0 => some ⟨false, false, true, true⟩
  | 1 => some ⟨false, false, false, true⟩
  | 2 => some ⟨true, true, true, true⟩
  | 3 => some ⟨false, true, true, true⟩
  | 4 => some ⟨true, true, true, true⟩
  | 5 => some ⟨false, false, false, true⟩
  | 6 => some ⟨true, true, false, true⟩
  | 7 => some ⟨false, false, true, false⟩
  | 8 => some ⟨true, true, true, true⟩
  | 9 => some ⟨false, false, false, true⟩
  | _ => none

/-- TY values of the integer instructions on each side (R222, R223). -/
def intTys : Side → List Nat
  | .simt => [0, 1, 2, 3, 4, 5]
  | .teller => [0, 1, 2, 3, 4, 5, 6, 7]

/-- A bit of MOD. -/
def Ext.m (x : Ext) (i : Nat) : Bool := x.mod.getLsbD i

/-- A field of MOD, bits hi down to lo. -/
def Ext.mf (x : Ext) (hi lo : Nat) : Nat := (x.mod.extractLsb hi lo).toNat

/-- The register kind of a load or store width (R268). -/
def widKind (x : Ext) : Kind :=
  match x.mf 2 0 with
  | 3 => .pair
  | 4 => .quad
  | _ => .reg

/-- The register kind of an atomic's TY (R274). -/
def tyKind (x : Ext) : Kind := if x.ty.toNat ≥ 6 then .pair else .reg

/-- The register kind of a `CVT` type code (R252). -/
def cvtKind (code : Nat) : Kind := if code = 6 ∨ code = 7 then .pair else .reg

/-- Load TY values by width and side (R268). -/
def loadTys (s : Side) (x : Ext) : List Nat :=
  match x.mf 2 0 with
  | 0 => [4, 5]
  | 1 => [2, 3]
  | 2 => if s = .teller then [0, 6, 7] else [0]
  | _ => [0]

/-- The index operand of a memory form (R265). -/
def ixKind (x : Ext) : Kind := if x.m 4 then .reg else .none

/-- The register kind of a CSR's operand and destination (R329). -/
def csrKind (s : Side) (x : Ext) : Kind :=
  match csrInfo x.x9.toNat with
  | some i => if i.wide s then .pair else .reg
  | none => .reg

/-- The rule of a three-operand form with a literal B. -/
def rulAB (mods : BitVec 12) (tys : List Nat) (sides : List Side) : Rule :=
  { sides, mods, tys, d := .reg, a := .reg, b := .reg, bLit := true, lit := .giveB }

/-- The rule of a load or store. -/
def rulMem (base d : Kind) (tys : List Nat) (x : Ext) : Rule :=
  { mods := 0x17, tys, d, a := base, b := ixKind x, cLit := true, lit := .giveC, mem := true }

/-- The field rule of every instruction. -/
def rule (s : Side) : Instr → Rule
  | .bra x => if x.m 0 then { mods := 1, a := .pair } else { mods := 1, cLit := true, lit := .giveC }
  | .btab _ => { a := .reg }
  | .call x => if x.m 0 then { mods := 1, d := .pair, a := .pair } else { mods := 1, d := .pair, cLit := true, lit := .giveC }
  | .callt _ => { d := .pair, a := .reg }
  | .ret _ => { a := .pair }
  | .join _ | .leave _ => { sides := [.simt], d := .mask }
  | .waitm _ => { sides := [.simt], a := .mask }
  | .mmov x =>
    match x.mf 1 0 with
    | 0 => { sides := [.simt], mods := 3, d := .mask, a := .pred }
    | 1 => { sides := [.simt], mods := 3, d := .mask, a := .reg }
    | 2 => { sides := [.simt], mods := 3, d := .predD, a := .mask }
    | _ => { sides := [.simt], mods := 3, d := .mask, a := .mask }
  | .mrd x =>
    match x.mf 1 0 with
    | 1 => { sides := [.simt], mods := 3, d := .pair, a := .reg }
    | 3 => { sides := [.simt], mods := 3, d := .reg }
    | _ => { sides := [.simt], mods := 3, d := .reg, a := .mask }
  | .exit _ | .yield _ | .nop _ | .rte _ => {}
  | .trap _ | .bkpt _ => { a := .never, aLit := true }
  | .iadd _ | .isub _ => rulAB 1 (intTys s) [.simt, .teller]
  | .ineg _ | .iabs _ => { mods := 1, tys := intTys s, d := .reg, a := .reg }
  | .imin _ | .imax _ | .imul _ | .imulh _ => rulAB 0 (intTys s) [.simt, .teller]
  | .imad _ => { rulAB 0 (intTys s) [.simt, .teller] with c := .reg, cLit := true }
  | .imad64 _ => { rulAB 0 [0, 1] [.simt] with d := .pair, c := .pair, cLit := true }
  | .iadd64 _ | .isub64 _ => { rulAB 0 [0] [.simt] with d := .pair, a := .pair, b := .pair }
  | .and _ | .or _ | .xor _ | .andn _ => rulAB 0 [0] [.simt, .teller]
  | .not _ => { d := .reg, a := .reg }
  | .sel _ => { rulAB 0 [0] [.simt, .teller] with c := .pred }
  | .shl _ | .shr _ | .sar _ | .rol _ => rulAB 0 [0] [.simt, .teller]
  | .bfx _ => { rulAB 0 [0, 1] [.simt, .teller] with c := .reg, cLit := true }
  | .bfi _ => { rulAB 0 [0] [.simt, .teller] with c := .reg, cLit := true }
  | .brev _ | .clz _ | .popc _ => { d := .reg, a := .reg }
  | .icmp x =>
    let k := if s = .simt ∧ x.ty.toNat ≥ 6 then .pair else .reg
    { rulAB 7 [0, 1, 2, 3, 4, 5, 6, 7] [.simt, .teller] with d := .predD, a := k, b := k }
  | .iset x =>
    let k := if s = .simt ∧ x.ty.toNat ≥ 6 then .pair else .reg
    { rulAB 7 [0, 1, 2, 3, 4, 5, 6, 7] [.simt, .teller] with a := k, b := k }
  | .plop _ => { mods := 0xFF, d := .predD, a := .pred, b := .pred, c := .pred }
  | .mov _ => { d := .reg, a := .reg, aLit := true }
  | .movl (.ext x) => { mods := 1, d := if x.m 0 then .reg else .pair, lit := .value }
  | .lea _ => { mods := 3, d := .pair, a := .pair, b := .reg, bLit := true, cLit := true, lit := .giveC }
  | .sread x => { d := if x.a = 8 ∨ x.a = 9 then .pair else .reg, a := .num 10 }
  | .fadd _ | .fsub _ | .fmul _ => rulAB 0x7B [0] [.simt]
  | .ffma _ => { rulAB 0x1FB [0] [.simt] with c := .reg, cLit := true }
  | .fmin _ | .fmax _ => rulAB 0x78 [0] [.simt]
  | .frcp _ | .fsqrt _ | .frnd _ => { sides := [.simt], mods := 0x1B, d := .reg, a := .reg }
  | .frsq _ | .fexp2 _ | .flog2 _ => { sides := [.simt], mods := 0x18, d := .reg, a := .reg }
  | .fclass _ => { sides := [.simt], d := .reg, a := .reg }
  | .fcmp _ => { rulAB 0x7F [0] [.simt] with d := .predD }
  | .fset _ => rulAB 0x27F [0] [.simt]
  | .hadd2 _ | .hmul2 _ => rulAB 0x7B [1, 2] [.simt]
  | .hfma2 _ => { rulAB 0x1FB [1, 2] [.simt] with c := .reg, cLit := true }
  | .hmin2 _ | .hmax2 _ => rulAB 0x78 [1, 2] [.simt]
  | .cvt x => { sides := [.simt], mods := 0x7FF, d := cvtKind (x.mf 3 0), a := cvtKind (x.mf 7 4) }
  | .pk8 _ => { sides := [.simt], mods := 0x19, tys := [3, 4], d := .reg, a := .quad }
  | .upk8 _ => { sides := [.simt], tys := [3, 4], d := .quad, a := .reg }
  | .qvec _ => { sides := [.simt], mods := 0x19, tys := [3, 4], d := .reg, a := .quad, b := .reg, lit := .giveB }
  | .dqv _ => { sides := [.simt], mods := 3, tys := [3, 4], d := .quad, a := .reg, b := .reg, lit := .giveB }
  | .trpk _ => { sides := [.simt], mods := 0x1F, d := .reg, a := .pair }
  | .trup _ => { sides := [.simt], mods := 0x1F, d := .pair, a := .reg }
  | .trchk _ => { sides := [.simt], mods := 0x1F, d := .predD, a := .reg }
  | .lxch x =>
    if x.mf 1 0 = 2 then { sides := [.simt], mods := 0x1F, d := .reg, a := .reg } else rulAB 0x1F [0] [.simt]
  | .vote x => { sides := [.simt], mods := 7, d := if x.mf 1 0 = 3 then .reg else .predD, a := .pred }
  | .redux _ => { sides := [.simt], mods := 0x3F, tys := [0, 1], d := .reg, a := .reg }
  | .scan _ => { sides := [.simt], mods := 0x7F, tys := [0, 1], d := .reg, a := .reg }
  | .matchLanes x =>
    { sides := [.simt], mods := 3, d := if x.m 1 then .predD else .reg, a := if x.m 0 then .pair else .reg }
  | .firstLane x => { sides := [.simt], mods := 1, d := .reg, a := if x.m 0 then .none else .reg }
  | .ld x | .ldg x => rulMem .pair (widKind x) (loadTys s x) x
  | .st x | .stg x => rulMem .pair (widKind x) [0] x
  | .lds x => rulMem .reg (widKind x) (loadTys s x) x
  | .sts x => rulMem .reg (widKind x) [0] x
  | .ldc x => { rulMem .none (widKind x) (loadTys s x) x with a := ixKind x, b := .none }
  | .pref x | .stz x => rulMem .pair .none [0] x
  | .atom x | .atomr x =>
    { mods := 0xFF0, tys := [0, 1, 6, 7], d := if x.m 4 then tyKind x else .none, a := .pair, b := tyKind x, bLit := true,
      cLit := true, lit := .giveC, mem := true }
  | .cas x =>
    { mods := 0xE0, tys := [0, 1, 6, 7], d := tyKind x, a := .pair, b := tyKind x, bLit := true, c := tyKind x, lit := .offset, mem := true }
  | .rel x => { mods := 0xE0, tys := [0, 1, 6, 7], a := .pair, b := tyKind x, bLit := true, cLit := true, lit := .giveC, mem := true }
  | .acq x =>
    if x.mf 9 8 = 1 then
      { mods := 0x3E0, tys := [0, 1, 6, 7], d := tyKind x, a := .pair, b := tyKind x, bLit := true, c := tyKind x, lit := .offset, mem := true }
    else
      { mods := 0x3E0, tys := [0, 1, 6, 7], d := tyKind x, a := .pair, b := tyKind x, bLit := true, cLit := true, lit := .giveC, mem := true }
  | .etrig _ => { mods := 0xE0, mem := true }
  | .cpy x => { sides := [.simt], mods := 0x27, a := .pair, b := .pair, c := if x.m 5 then .pair else .none, mem := true }
  | .cwait _ => { mods := 0xE0, a := .pair, b := .pair, bLit := true, cLit := true, lit := .giveB, mem := true }
  | .cread _ => { d := .pair, a := .pair, cLit := true, lit := .giveC, mem := true }
  | .gath _ => { sides := [.teller], d := .tile, a := .reg, mem := true, x9 := .engine 1 }
  | .tlds _ => { sides := [.teller], d := .tile, a := .reg, b := .reg, bLit := true, cLit := true, lit := .giveC, mem := true, x9 := .engine 1 }
  | .tsts _ =>
    { sides := [.teller], mods := 1, d := .tile, a := .reg, b := .reg, bLit := true, cLit := true, lit := .giveC, mem := true, x9 := .engine 1 }
  | .tzero _ => { sides := [.teller], d := .tile, mem := true, x9 := .engine 0 }
  | .vld _ => { sides := [.teller], d := .tile, a := .reg, cLit := true, lit := .giveC, mem := true, x9 := .engine 0 }
  | .tmma _ | .fmma _ => { sides := [.teller], mods := 7, d := .acc, a := .tile, b := .tile, c := .kpair, mem := true, x9 := .engine 3 }
  | .drain x =>
    { sides := [.teller], mods := 0x3F, d := .reg, a := .acc, b := if x.m 4 then .reg else .none, c := .reg, mem := true, x9 := .engine 1 }
  | .aclr _ => { sides := [.teller], mods := 0xF, mem := true, x9 := .engine 0 }
  | .astat _ => { sides := [.teller], mods := 1, d := .reg, a := .acc, mem := true, x9 := .engine 0 }
  | .tcpy x =>
    { sides := [.teller], mods := 0x1F, d := if x.m 4 then .tile else .reg, a := if x.m 3 then .tile else .reg, b := .reg, mem := true,
      x9 := .engine 3 }
  | .evwait _ => { sides := [.teller], a := .never, aLit := true }
  | .evpop _ | .eqstat _ => { sides := [.teller], d := .reg }
  | .lsend _ | .larm _ => { sides := [.teller], mods := 0xE0, a := .reg, mem := true, x9 := .engine 0 }
  | .ldisarm _ => { sides := [.teller], mods := 0xE0, d := .reg, a := .reg, mem := true, x9 := .engine 0 }
  | .saddc _ | .smulc _ => rulAB 0 [0] [.simt]
  | .strunc _ => { sides := [.simt], d := .reg, a := .reg, b := .reg, bLit := true }
  | .gsnd _ => { sides := [.simt], a := .reg, b := .reg }
  | .gfin _ => { sides := [.simt], d := .reg, c := .predD }
  | .gstat _ => { sides := [.simt], mods := 7, d := .reg }
  | .gxand _ => { sides := [.simt], d := .reg, a := .reg, b := .reg, c := .predD }
  | .edab _ => { sides := [.simt], d := .pair, c := .predD }
  | .gopen _ => { sides := [.simt], mods := 0xE0, d := .reg, a := .reg, c := .predD }
  | .csrr x => { d := csrKind s x, x9 := .csr }
  | .csrw x | .csrs x | .csrc x =>
    { mods := 1, d := if x.m 0 then .none else csrKind s x, b := csrKind s x, bLit := true, lit := .giveB, x9 := .csr }
  | .hcall _ => { d := .reg, a := .never, aLit := true, b := .reg }
  | .clk _ => { mods := 1, d := .pair }
  | .sleep _ => { b := .reg, bLit := true, lit := .giveB }
  -- the compact forms of R104: six-bit fields, no type, no modifier, no stream
  | .iaddCompact _ | .isubCompact _ | .andCompact _ | .orCompact _ | .xorCompact _ | .andnCompact _ | .shlCompact _
  | .shrCompact _ | .sarCompact _ | .rolCompact _ => { d := .reg, a := .reg, b := .reg, lit := .giveB }
  | .inegCompact _ | .iabsCompact _ | .movCompact _ => { d := .reg, a := .reg }
  | .movl (.compact _) => { d := .pair, lit := .value }
  | .faddCompact _ | .fsubCompact _ | .fmulCompact _ | .ffmaCompact _ =>
    { sides := [.simt], d := .reg, a := .reg, b := .reg, lit := .giveB }
  | .ldCompact _ | .ldgCompact _ => { d := .reg, a := .pair, lit := .offset }
  | .stCompact _ | .stgCompact _ => { a := .pair, b := .reg, lit := .offset }
  | .ldsCompact _ => { d := .reg, a := .reg, lit := .offset }
  | .stsCompact _ => { a := .reg, b := .reg, lit := .offset }
  | _ => { sides := [] }

/-- A field value fits its kind (R23, R106). -/
def Kind.ok (k : Kind) (s : Side) (lim : Limits) (v : Nat) : Bool :=
  match k, s with
  | .none, _ => v == 0
  | .reg, .simt => decide (v < lim.regs)
  | .pair, .simt => v % 2 == 0 && decide (v + 2 ≤ lim.regs)
  | .quad, .simt => v % 4 == 0 && decide (v + 4 ≤ lim.regs)
  | .reg, .teller => decide (v < 64)
  | .pair, .teller => decide (v < 64)
  | .quad, .teller => false
  | .kpair, .teller => v % 2 == 0 && decide (v < 64)
  | .kpair, .simt => false
  | .pred, _ => decide (v < 8)
  | .predD, _ => decide (v < 7)
  | .mask, _ => decide (v < 12)
  | .tile, _ => decide (v < lim.tiles)
  | .acc, _ => decide (v < 4) && decide (lim.tiles ≠ 0)
  | .num n, _ => decide (v ≤ n)
  | .never, _ => false

/-- An operand is a register source, which RET can name (R29, R108, R223): a register of any kind that R23 lists. A number is none,
so `SREAD`, whose A is the number of a special register, has no A to retain (the model's choice; log entry 75). -/
def Kind.isReg : Kind → Bool
  | .reg | .pair | .quad | .kpair | .pred | .mask | .tile | .acc => true
  | _ => false

/-- One operand field with its literal flag: a literal where one is allowed, nothing where the 64-bit literal supplies
the operand, else a value of its kind (R106, R109). -/
def operandOk (k : Kind) (lit9 supplied flag : Bool) (s : Side) (lim : Limits) (v : Nat) : Bool :=
  if supplied then v == 0 && !flag else if flag then lit9 else k.ok s lim v

/-- A nine-bit literal field is not negative and at most `n`. -/
def lit9Upto (v : BitVec 9) (lo n : Nat) : Bool := decide (lo ≤ v.toNat) && decide (v.toNat ≤ n)

/-- Field values that an instruction's own description makes ILL. -/
def valueOk (s : Side) (lim : Limits) : Instr → Bool
  | .bra x | .call x =>
    x.m 0 || x.cl || (match x.lit with | some l => l.extractLsb 1 0 == 0 | none => false)
  | .trap x | .bkpt x | .hcall x => lit9Upto x.a 0 255
  | .icmp x | .iset x => decide (x.mf 2 0 < 6)
  | .movl (.ext x) => !(s == .teller && x.m 0)
  | .lea x => x.cl || x.lit.isSome
  | .fadd x | .fsub x | .fmul x | .fmin x | .fmax x | .fcmp x | .fset x | .hadd2 x | .hmul2 x | .hmin2 x | .hmax2 x =>
    !((x.bl || x.lit.isSome) && x.mf 6 5 != 0)
  | .ffma x | .hfma2 x => !((x.bl || x.lit.isSome) && x.mf 6 5 != 0) && !(x.cl && x.mf 8 7 != 0)
  | .cvt x =>
    let dt := x.mf 3 0
    let ft := x.mf 7 4
    decide (dt < 13) && decide (ft < 13) &&
      (if dt = 11 ∨ dt = 12 ∨ (dt < 8 ∧ ft < 8) then x.mf 9 8 == 0 else !x.m 10)
  | .trpk x | .trup x | .trchk x => decide (x.mf 4 0 ≤ 19)
  | .lxch x => decide (1 ≤ x.mf 4 2) && decide (x.mf 4 2 ≤ 5)
  | .redux x | .scan x =>
    let op := x.mf 2 0
    let flt := x.m 3
    decide (op < 6) && (!flt || (x.ty == 0 && decide (op < 3))) && (decide (op < 3) || x.ty == 0) &&
      (x.mf 5 4 == 0 || (op == 0 && flt))
  | .ld x | .st x | .lds x | .sts x | .ldg x | .stg x | .ldc x | .pref x => decide (x.mf 2 0 < 5)
  | .stz x => decide (x.mf 2 0 < 6)
  | .atom x | .atomr x => decide (x.mf 11 8 < 8) && decide (x.mf 7 5 < 5) && (x.mf 11 8 != 6 || x.ty == 0)
  | .cas x | .rel x | .cwait x => decide (x.mf 7 5 < 5)
  | .acq x => decide (x.mf 9 8 < 3) && decide (x.mf 7 5 < 5)
  | .etrig x => x.mf 7 5 == 3 || x.mf 7 5 == 4
  | .cpy x => decide (2 ≤ x.mf 2 0) && decide (x.mf 2 0 ≤ 4)
  | .drain x => decide (x.mf 2 0 < 5) && !(x.m 3 && decide (x.mf 2 0 < 3))
  | .aclr x => x.mf 3 0 != 0 && decide (lim.tiles ≠ 0)
  | .evwait x => lit9Upto x.a 1 65
  | .lsend x | .larm x | .ldisarm x | .gopen x => x.mf 7 5 == 4
  | .strunc x => !x.bl || lit9Upto x.b 0 31
  | .gstat x => decide (x.mf 2 0 < 5)
  | _ => true

/-- X9 fits its use (R108, R126, R287, R290). -/
def x9Ok (u : X9Use) (s : Side) (x9 : BitVec 9) : Bool :=
  match u with
  | .none => x9 == 0
  | .engine g => decide ((x9.extractLsb 8 7).toNat ≤ g) && (x9.getLsbD 5 || x9.extractLsb 4 0 == 0)
  | .csr =>
    match csrInfo x9.toNat with
    | some i => if s = .simt then i.simt else i.teller
    | none => false

/-- The literal form LEN 0b11 or 0b10 is one the rule takes (R101); `MOVL` needs it (R231). -/
def litOk (u : LitUse) (l : Option Addr) : Bool :=
  match u with
  | .never => l.isNone
  | .value => l.isSome
  | _ => true

/-- RET names nothing, or a register source that is no literal (R29, R108). -/
def retOk (r : Rule) (x : Ext) : Bool :=
  match x.ret.toNat with
  | 0 => true
  | 1 => r.a.isReg && !x.al
  | 2 => r.b.isReg && !x.bl && !(x.lit.isSome && r.lit == .giveB)
  | _ => r.c.isReg && !x.cl

/-- The first field rule that an extended instruction breaks (R102 to R110). -/
def checkExt (s : Side) (lim : Limits) (i : Instr) (x : Ext) : Option Reject :=
  let r := rule s i
  let l := x.lit.isSome
  if x.guard.neg && x.guard.pred == 7 then some .negatedTrue
  else if !r.sides.contains s then some .wrongSide
  else if !(x.mod &&& ~~~r.mods == 0) then some .badModifier
  else if !r.tys.contains x.ty.toNat then some .badType
  else if !litOk r.lit x.lit then some .badLiteral
  else if !operandOk r.d false false false s lim x.d.toNat then some .badD
  else if !operandOk r.a r.aLit false x.al s lim x.a.toNat then some .badA
  else if !operandOk r.b r.bLit (l && r.lit == .giveB) x.bl s lim x.b.toNat then some .badB
  else if !operandOk r.c r.cLit (l && r.lit == .giveC) x.cl s lim x.c.toNat then some .badC
  else if !(r.mem || (x.st == 0 && x.pm == 0)) then some .badStream
  else if !x9Ok r.x9 s x.x9 then some .badX9
  else if !retOk r x then some .badRetain
  else if !valueOk s lim i then some .badValue
  else none

/-- The first field rule that a compact instruction breaks (R102 to R104). -/
def checkCompact (s : Side) (lim : Limits) (i : Instr) (c : Compact) : Option Reject :=
  let r := rule s i
  let l := c.lit.isSome
  if c.guard.neg && c.guard.pred == 7 then some .negatedTrue
  else if !r.sides.contains s then some .wrongSide
  else if !litOk r.lit c.lit then some .badLiteral
  else if !operandOk r.d false false false s lim c.d.toNat then some .badD
  else if !operandOk r.a false false false s lim c.a.toNat then some .badA
  else if !operandOk r.b false (l && r.lit == .giveB) false s lim c.b.toNat then some .badB
  else none

/-- The first field rule that an instruction breaks; an event is no instruction word. -/
def Instr.check (s : Side) (lim : Limits) (i : Instr) : Option Reject :=
  match i.ext?, i.compact? with
  | some x, _ => checkExt s lim i x
  | none, some c => checkCompact s lim i c
  | none, none => some .wrongSide

/-- The transfers and status instructions that stand only last in a clause (R17). -/
def Instr.isTransfer : Instr → Bool
  | .bra _ | .btab _ | .call _ | .callt _ | .ret _ | .exit _ | .rte _ => true
  | _ => false

/-- The instructions that a target list follows (R113, R117). -/
def Instr.hasList : Instr → Bool
  | .btab _ | .callt _ => true
  | _ => false

/-- The long-latency instructions (R116). -/
def Instr.isLong : Instr → Bool
  | .ld _ | .lds _ | .ldg _ | .ldc _ | .cread _ | .acq _ | .st _ | .sts _ | .stg _ | .stz _ | .pref _ | .atom _ | .cas _
  | .atomr _ | .rel _ | .cpy _ | .frcp _ | .frsq _ | .fsqrt _ | .fexp2 _ | .flog2 _ | .redux _ | .scan _ | .matchLanes _
  | .gsnd _ | .gfin _ | .gxand _ | .edab _ | .gopen _ | .gath _ | .tlds _ | .tsts _ | .tzero _ | .vld _ | .tmma _
  | .fmma _ | .drain _ | .aclr _ | .astat _ | .tcpy _ | .lsend _ | .ldisarm _ | .larm _ | .ldCompact _ | .stCompact _
  | .ldsCompact _ | .stsCompact _ | .ldgCompact _ | .stgCompact _ => true
  | _ => false

end Sys2Proof
end

