-- ==== Sys2Proof/WellFormed.lean ====
section
/-! DEFINITION. Well-formed instructions: those whose fields the opcode map and the field rules accept on a side, under
a launch's limits (R101 to R111, R15). -/

namespace Sys2Proof

/-- The widest limits a launch can have (R14): 512 registers, 16 tiles. -/
def Limits.widest : Limits := ⟨512, 16⟩

/-- An instruction no field rule refuses; events are never encoded and are not well formed as words. -/
def Instr.wellFormed (s : Side) (lim : Limits) (i : Instr) : Bool := (i.check s lim).isNone

end Sys2Proof
end

