-- ==== Sys2Proof/Decode.lean ====
section
/-! DEFINITION. The decoder, total on any words and rejecting by name, and the encoder written from the same encoding
tables (R100 to R111). -/

namespace Sys2Proof

/-- The words that bytes in address order make: little-endian, a rest of fewer than four bytes dropped (R100). -/
def wordsOfBytes : List Byte → List Word
  | b0 :: b1 :: b2 :: b3 :: t => (b3 ++ b2 ++ b1 ++ b0) :: wordsOfBytes t
  | _ => []

/-- The bytes of a word in address order (R3). -/
def bytesOfWord (w : Word) : List Byte :=
  [w.extractLsb' 0 8, w.extractLsb' 8 8, w.extractLsb' 16 8, w.extractLsb' 24 8]

/-- The LEN field (R100). -/
def lenOf (w : Word) : BitVec 2 := w.extractLsb' 0 2

/-- The MAJ field (R100). -/
def majOf (w : Word) : BitVec 6 := w.extractLsb' 2 6

/-- The number of words that a LEN gives an instruction (R100). -/
def wordsOfLen (len : BitVec 2) : Nat := if len = 0 then 1 else if len = 3 then 5 else 3

/-- The guard fields of a first word (R102). -/
def guardOf (w : Word) : Guard := ⟨w.getLsbD 11, w.extractLsb' 8 3⟩

/-- A 64-bit literal from its two words (R101). -/
def litOfWords (lo hi : Word) : Addr := hi ++ lo

/-- The extended fields of three words (R105). -/
def extOfWords (w0 w1 w2 : Word) (lit : Option Addr) : Ext :=
  { guard := guardOf w0, mod := w0.extractLsb' 20 12,
    ty := w1.extractLsb' 29 3, bl := w1.getLsbD 28, al := w1.getLsbD 27,
    b := w1.extractLsb' 18 9, a := w1.extractLsb' 9 9, d := w1.extractLsb' 0 9,
    x9 := w2.extractLsb' 23 9, pm := w2.extractLsb' 15 8, st := w2.extractLsb' 12 3,
    ret := w2.extractLsb' 10 2, cl := w2.getLsbD 9, c := w2.extractLsb' 0 9, lit }

/-- The compact fields of a word (R103). -/
def compactOfWord (w : Word) (lit : Option Addr) : Compact :=
  { guard := guardOf w, d := w.extractLsb' 26 6, a := w.extractLsb' 20 6, b := w.extractLsb' 14 6, lit }

/-- The extended instruction of a first word's MAJ and MIN (R111). -/
def buildExt (w0 : Word) (x : Ext) : Except Reject Instr :=
  match mkExt ((majOf w0).toNat * 256 + (w0.extractLsb' 12 8).toNat) x with
  | some i => .ok i
  | none => .error .unassignedMinor

/-- The compact instruction of a word's MAJ and CM (R104). -/
def buildCompact (w : Word) (c : Compact) : Except Reject Instr :=
  match mkCompact ((majOf w).toNat * 4 + (w.extractLsb' 12 2).toNat) c with
  | some i => .ok i
  | none => .error .noCompactForm

/-- The instruction that stands at the head of a list of words, before its fields are checked (R100 to R105). -/
def parseWords (ws : List Word) : Except Reject Instr :=
  match ws with
  | [] => .error .truncated
  | w :: t =>
    if majOf w = 0 then .error .headerWord
    else if !assignedMajor (majOf w).toNat then .error .unassignedMajor
    else match (lenOf w).toNat, t with
      | 0, _ => buildCompact w (compactOfWord w none)
      | 1, w1 :: w2 :: _ => buildExt w (extOfWords w w1 w2 none)
      | 2, l0 :: l1 :: _ => buildCompact w (compactOfWord w (some (litOfWords l0 l1)))
      | 3, w1 :: w2 :: l0 :: l1 :: _ => buildExt w (extOfWords w w1 w2 (some (litOfWords l0 l1)))
      | _, _ => .error .truncated

/-- Decoding: the instruction at the head of a list of words on a side under a launch's limits; every refusal is by
name and raises ILL (R114). -/
def decode (s : Side) (lim : Limits) (ws : List Word) : Except Reject Instr :=
  match parseWords ws with
  | .error r => .error r
  | .ok i =>
    match i.check s lim with
    | none => .ok i
    | some r => .error r

/-- The two words of a literal (R101). -/
def litWords (l : Option Addr) : List Word :=
  match l with
  | none => []
  | some v => [v.extractLsb' 0 32, v.extractLsb' 32 32]

/-- The first word of an extended instruction (R105). -/
def extWord0 (opc : Nat) (x : Ext) : Word :=
  x.mod ++ (BitVec.ofNat 8 opc) ++ (BitVec.ofBool x.guard.neg) ++ x.guard.pred ++ (BitVec.ofNat 6 (opc / 256)) ++
    (if x.lit.isSome then (3 : BitVec 2) else 1)

/-- The second word of an extended instruction (R105). -/
def extWord1 (x : Ext) : Word :=
  x.ty ++ (BitVec.ofBool x.bl) ++ (BitVec.ofBool x.al) ++ x.b ++ x.a ++ x.d

/-- The third word of an extended instruction (R105). -/
def extWord2 (x : Ext) : Word :=
  x.x9 ++ x.pm ++ x.st ++ x.ret ++ (BitVec.ofBool x.cl) ++ x.c

/-- The word of a compact instruction (R103). -/
def compactWord (opc : Nat) (c : Compact) : Word :=
  c.d ++ c.a ++ c.b ++ (BitVec.ofNat 2 opc) ++ (BitVec.ofBool c.guard.neg) ++ c.guard.pred ++ (BitVec.ofNat 6 (opc / 4)) ++
    (if c.lit.isSome then (2 : BitVec 2) else 0)

/-- The words of an instruction; an event has none. -/
def encode (i : Instr) : List Word :=
  match i.ext?, i.compact? with
  | some x, _ => extWord0 i.opcode x :: extWord1 x :: extWord2 x :: litWords x.lit
  | none, some c => compactWord i.compactOpcode c :: litWords c.lit
  | none, none => []

/-- The number of words an instruction occupies (R100). -/
def Instr.size (i : Instr) : Nat := (encode i).length

/-- The bytes that hold `nbits` bits of a word numbered with bit 0 lowest, padded with zeros to five words. -/
def tableBytes (nbits w : Nat) : List Byte :=
  (List.range 20).map (fun k => BitVec.ofNat 8 ((w % 2 ^ nbits) >>> (8 * k)))

/-- The instruction that the decoder reads from a table row's bits: as SIMT code where it decodes there, else as teller
code, under the widest limits. -/
def decodeTableWord (nbits w : Nat) : Option Instr :=
  let ws := wordsOfBytes (tableBytes nbits w)
  match decode .simt .widest ws with
  | .ok i => some i
  | .error _ =>
    match decode .teller .widest ws with
    | .ok i => some i
    | .error _ => none

end Sys2Proof
end

