-- ==== Sys2Proof/Machine/State.lean ====
section
/-! DEFINITION. The state of the module as plain data, the reasons a step can stop, and the state after reset. -/

namespace Sys2Proof.Machine

/-- Why the machine stops with a fault. -/
inductive Fault where
  /-- Raised by `step` when a thread's clause buffer holds words that are no instruction. The clause check of R114 rules
  it out before a clause issues, so no run reaches it; safe. -/
  | clauseBuffer
deriving DecidableEq, Repr

/-- Why an instruction has no meaning. -/
inductive Refusal where
  /-- Raised by an arm of `exec` for a row that is not modelled; safe. No arm uses it. -/
  | notModelled (mnemonic : String)
deriving DecidableEq, Repr

/-- The trap causes (R333). -/
inductive Cause where
  | ill | trit | xlate | prot | window | align | btab | stream | shareMode | sharePolicy | bkpt | trap
deriving DecidableEq, Repr

/-- Where an access goes: an offset of a block's scratchpad (with the address that the program formed), or a global
address of a context (R137). -/
inductive Place where
  | scratch (block off : Nat) (addr : Addr)
  | global (ctx : Nat) (va : Addr)
deriving DecidableEq, Repr

/-- The storage behind a translated address. -/
inductive Space where
  | dram | vault | host
deriving DecidableEq, Repr

/-- A finished two-stage translation (R148): physical address, storage, whether the page is replicated, the permissions of each
stage (bit 0 read, 1 write, 2 execute), where its stage-2 leaf lies (for DIRTY), the IPA, and the key slot that the leaf names
(R153). -/
structure Xlat where
  pa : Nat
  space : Space
  repl : Bool
  perm1 : BitVec 3
  perm2 : BitVec 3
  leaf : Nat
  ipa : Nat
  key : Nat
deriving DecidableEq, Repr

/-- A translation held by a TLB (R149): holder 0 to 63 is a core's L1 TLB, 64 + g the TLB of gang g. `page` is the
page's first guest address, `xl` the translation of that first address, `step` the distance of the stage-2 leaves of
neighbouring 4 KiB of the page: 8 in a 64 KiB page of sixteen leaves, else 0 (R206). -/
structure TlbEntry where
  holder : Nat
  part : Nat
  ctx : Nat
  page : Nat
  bytes : Nat
  step : Nat
  xl : Xlat
deriving DecidableEq, Repr

/-- How a loaded value is extended to its register (R268): width in bytes and sign. -/
structure LoadForm where
  bytes : Nat
  signed : Bool
deriving DecidableEq, Repr

/-- The forms of `ACQ` (R278). -/
inductive AcqForm where
  | waitge | cas | xchg
deriving DecidableEq, Repr

/-- One atomic update (R274): operation 0 to 7, 8 for compare-and-swap, 9 for a plain write (`REL`); TY; operands; the
MODE sampled at issue; the scope. -/
structure AtomSpec where
  op : Nat
  wide : Bool
  signed : Bool
  b : Addr
  c : Addr
  mode : Word
  scope : Nat
deriving DecidableEq, Repr

/-- What an operation touches, as R161 compares it: bytes, columns of rows of a tile, an accumulator (R164, R288), or memory that
only a record tells. -/
inductive Extent where
  | bytes (p : Place) (n : Nat)
  | tile (t row rows col cols : Nat)
  | acc (a : Nat)
  | memory
deriving DecidableEq, Repr

/-- The kinds of gate exchange (R313). -/
inductive GateKind where
  | arith | binary | eda | opening
deriving DecidableEq, Repr

/-- A register that a long-latency result is written to. -/
inductive DReg where
  | v (lane r : Nat) (x : Word)
  | p (lane i : Nat) (x : Bool)
deriving DecidableEq, Repr

/-- A gate instruction in flight (R319): its kind and exchange number, the executing lanes that its packet carries, the
lanes that it answers, whether it is a refusal, its sampled TOUT, whether its packet has arrived, the words sent by live
lanes, the lanes' own values (entry words and operands), the entries popped, and where its results go. -/
structure GateOp where
  kind : GateKind
  n : Nat
  lanes : LaneMask
  answers : LaneMask
  refusal : Bool
  tout : Nat
  arrived : Bool
  words : Tab (List Word)
  own : Tab (List Word)
  entries : Tab Nat
  d : Nat
  pred : Nat
deriving DecidableEq, Repr

/-- What an operation does when it is performed. `acquired`: an `ACQ.waitge` whose read has been made, at a write that satisfied
it (R279); only its completion is left. -/
inductive OpKind where
  | load (p : Place) (f : LoadForm) (d : Nat)
  | store (p : Place) (data : List Byte)
  | prefetch (p : Place)
  | atomic (p : Place) (a : AtomSpec) (rtn : Option Nat)
  | release (p : Place) (a : AtomSpec) (rtn : Option Nat) (scope : Nat)
  | acquire (p : Place) (form : AcqForm) (a : AtomSpec) (d : Nat) (scope : Nat) (waiting : Bool)
  | acquired (p : Place) (a : AtomSpec) (d : Nat) (value : Addr)
  | etrig (scope : Nat)
  | copy (dst src : Place) (bytes : Nat) (ctr : Option Place) (written : Bool)
  | cwait (p : Place) (threshold : Addr) (scope : Nat)
  | cread (p : Place) (d : Nat)
  | compute (results : List DReg)
  | gate (g : GateOp)
  | gfin (lanes : LaneMask) (d : Nat) (pred : Nat)
  | command (core eng : Nat) (dest : Option Nat) (extents : List Extent)
deriving DecidableEq, Repr

/-- An outstanding operation of a thread (R158 to R163). `inst` is the number of its instruction's first operation;
`stream` is absent for results that count on no stream; `xl` is a translation already made; `dropped` are the keys of
destination registers that a later instruction has written (R121). -/
structure Op where
  id : Nat
  inst : Nat
  lane : Nat
  seq : BitVec 16
  stream : Option Nat
  pm : BitVec 8
  flag : Option Nat
  pc : Addr
  kind : OpKind
  xl : Option Xlat
  dropped : List Nat
deriving DecidableEq, Repr

/-- A lane's failure inside a clause (R243, R385): which instruction, lane, cause, value for the frame, code. -/
structure Fail where
  idx : Nat
  lane : Nat
  pc : Addr
  cause : Cause
  value : Addr
  code : Nat
deriving DecidableEq, Repr

/-- A clause in progress: fetched whole at its issue (R114, R115). `next` and `rest` are the address and the words of the
next instruction, `left` the instructions still to issue, `targets` the target list, `stopped` the failed lanes. -/
structure Clause where
  hdr : Addr
  issue : LaneMask
  setf1 : Nat
  setf2 : Nat
  next : Addr
  rest : List Word
  left : Nat
  idx : Nat
  longSeen : Bool
  fall : Addr
  listAddr : Addr
  targets : List Addr
  exits : LaneMask
  waits : Tab Nat
  jumps : Tab Addr
  returns : LaneMask
  yields : Bool
  fails : List Fail
  stopped : LaneMask
deriving DecidableEq, Repr

/-- A trap to deliver (R334 to R337). `saved` is the clause that a teller's trap interrupts. -/
structure TrapRec where
  cause : Cause
  lanes : LaneMask
  fpc : Addr
  rpc : Addr
  code : Nat
  addrs : Tab Addr
  stage2 : Bool
  saved : Option Clause
deriving DecidableEq, Repr

/-- A fault found after issue and not yet reported (R166). `cause` is absent for a cancelled operation. -/
structure FaultRec where
  op : Nat
  lane : Nat
  stream : Nat
  seq : BitVec 16
  cause : Option Cause
  addr : Addr
  stage2 : Bool
  pc : Addr
deriving DecidableEq, Repr

/-- Handler mode (R334, R338): the handler lanes, those of them that have returned, the RPC written to the frame, the
clause that a teller's trap interrupted, and what the drain before the handler withdrew (R279). -/
structure Handler where
  lanes : LaneMask
  returned : LaneMask
  rpc : Addr
  saved : Option Clause
  held : List Op
deriving DecidableEq, Repr

/-- What holds an issuer (R116, R162, R283, R305, R331, R332): a stream that is full in some of the issuing lanes, waiting operations of `CWAIT`, event records,
device-time advances left of `SLEEP`, the reply of `HCALL` for lanes. -/
inductive Hold where
  | none
  | streamFull (lanes : LaneMask) (stream : Nat)
  | cwait (ops : List Nat)
  | evwait (n : Nat)
  | sleep (ticks : Nat)
  | hcall (d n : Nat) (arg : Addr) (lanes : LaneMask) (since : BitVec 48)
deriving DecidableEq, Repr

/-- A send descriptor's fields (R306). -/
structure SendDesc where
  src : Addr
  dst : Addr
  rctr : Addr
  len : Nat
  port : Nat
  rinc : BitVec 16
  tctr : Addr
  thresh : Addr
  dev : Nat
deriving DecidableEq, Repr

/-- The completion pair of a command (R287). -/
structure CmpPair where
  caddr : Addr
  inc : Nat
  tag : BitVec 16
deriving DecidableEq, Repr

/-- An armed send (R308), with the value of its trigger counter that it compared last; one whose comparison has held has fired
and can no longer be disarmed, and `begun` says that its commit mark and its CODE 3 record are made. -/
structure Armed where
  id : Nat
  descAddr : Addr
  desc : SendDesc
  cmp : Option CmpPair
  ev : Bool
  seen : Option Addr
  begun : Bool
deriving DecidableEq, Repr

/-- A warp (32 lanes with v registers) or a teller (one lane with k registers). Keys: v lane x 512 + register,
p lane x 8 + predicate. `evq` holds every event record in order, `reserve` the place of the one in the reserve entry, and `ahead` the number of
records of the pending store that come before it (R195, R310);
`injSet` and `injMade` count the settings of ASSAYCTL.INJ and the last one that was used (R97); `first` holds,
under lane x 8 + stream while the stream's fault bit is set, the earliest operation that faulted or was cancelled: its
sequence number and its cause (R336); `armed` are the armed sends that have not fired, `firing` those that have and are not
yet carried out, and `firedWait` the records of fired sends that found the queue full (R308, R310); `starved` counts the issue
slots of its context that other threads took while it was ready (R69); `denied` is a host page whose page request failed for
an instruction fetch (R151); `blocked` is the engine whose full queue a teller's engine instruction met last, with that
instruction's address (R183, R195). -/
structure Thread where
  teller : Bool
  v : Tab Word
  k : Tab Addr
  p : Tab Bool
  m : Tab Word
  lpc : Tab Addr
  exited : LaneMask
  waits : Tab Nat
  quiet : Nat
  mode : Word
  promo : Word
  assayctl : Word
  assaycnt : Addr
  trapscratch : Tab Addr
  sflt : Tab (BitVec 8)
  seq : Tab (BitVec 16)
  ops : List Op
  opbuf : Tab (BitVec 128)
  clause : Option Clause
  hold : Hold
  handler : Option Handler
  due : Option TrapRec
  recorded : List TrapRec
  first : Tab (BitVec 16 × Option Cause)
  unreported : List FaultRec
  withdrawn : List Op
  triggered : LaneMask
  yielded : Nat
  starved : Nat
  evq : List Addr
  reserve : Option Nat
  ahead : Nat
  rgrant : BitVec 8
  pend : List Addr
  armed : List Armed
  firing : List Armed
  firedWait : List Addr
  injSet : Nat
  injMade : Nat
  denied : Option Nat
  blocked : Option (Nat × Addr)
deriving DecidableEq, Repr

/-- The parameters of an array command, as sampled at issue (R294, R296, R297); `inj` numbers the setting of ASSAYCTL.INJ
that it sampled (R97). -/
structure ArrayCmd where
  fp8 : Bool
  acc : Bool
  ta : Bool
  tb : Bool
  d : Nat
  a : Nat
  b : Nat
  shape : Addr
  shape1 : Addr
  promo : Word
  assayctl : Word
  inj : Nat
deriving DecidableEq, Repr

/-- The engine commands (R286), with the register values read at issue (R288); `full`: a `LARM` issued with 32 sends armed
(R308). -/
inductive CmdKind where
  | gath (t : Nat) (rec : Addr)
  | tlds (t : Nat) (off : Int) (n : Addr)
  | tsts (t : Nat) (off : Int) (n : Addr) (tr : Bool)
  | tzero (t : Nat)
  | vld (t : Nat) (x : Addr)
  | array (c : ArrayCmd)
  | drain (dst : Addr) (a : Nat) (params : Addr) (rec : Option Addr) (fmt : Nat) (sat sw : Bool)
  | aclr (tm : Nat)
  | astat (d a : Nat) (clr : Bool)
  | tcpy (dst src desc : Addr) (esz : Nat) (tr ts td : Bool)
  | lsend (desc : Addr)
  | larm (desc : Addr) (full : Bool)
  | ldisarm (d : Nat) (desc : Addr)
deriving DecidableEq, Repr

/-- A queued or running engine command. `racy`: a command of another engine writes the same accumulator with no order
between the two (R299). -/
structure Cmd where
  op : Nat
  block : Nat
  kind : CmdKind
  gran : Nat
  ev : Bool
  cmp : Option CmpPair
  mode : Word
  racy : Bool
deriving DecidableEq, Repr

/-- The progress of a command: of an array command the chunk, the first row of the next 16-row step and whether it met the
code 0b11 (R296, R297); of another command that stopped at a split granule the next row. What it has read of its record or
descriptor and of its column scales is kept over a stop (R290); `statStart` is the accumulator's STAT + 256 x cnt at the
start, `torn` the tiles, as the command reads them, that a racing command has written meanwhile (R311), and `undo` the F26
parts and the STAT of the accumulator as they were after the chunk before (R96). -/
structure Progress where
  chunk : Nat
  row : Nat
  met11 : Bool
  record : List Byte
  scales : List Byte
  statStart : Nat
  torn : Tab (List Byte)
  undo : Tab (BitVec 26)
  undoStat : BitVec 8
deriving DecidableEq, Repr

/-- A command that has done nothing yet. -/
def Progress.start : Progress := ⟨0, 0, false, [], [], 0, [], [], 0⟩

/-- How a command ends: complete, with a fault, or cancelled (R166, R288), or stopped at a split granule, not to end yet
(R290). -/
inductive Ending where
  | done
  | fault (c : Cause) (addr : Addr) (stage2 : Bool)
  | cancelled
  | stopped (p : Progress)
deriving DecidableEq, Repr

/-- How far a running command has come: running, waiting for its send's delivery, its event record due (R288). -/
inductive Phase where
  | running
  | sending (send : Nat)
  | posting (record : Addr) (e : Ending)
deriving DecidableEq, Repr

/-- One engine of one core: its queue and the command it performs (R286). -/
structure Engine where
  queue : List Cmd
  cur : Option Cmd
  phase : Phase
  prog : Progress
deriving DecidableEq, Repr

/-- A lane's arithmetic exchange (R313): 0 none, 1 waiting, 2 matched, 3 aborted, with the triple, own and peer words. -/
structure Slot where
  state : Nat
  n : Nat
  a : Word
  b : Word
  c : Word
  d : Word
  e : Word
  peerD : Word
  peerE : Word
deriving DecidableEq, Repr

/-- The gate state of a block of a joint item (R313). Keys: warp x 32 + lane for lanes, warp x 4 + kind for XN, and for a
burnt entry kind x 2^20 + (warp x 32 + lane) x 1024 + index. -/
structure Gate where
  triples : Nat
  atc : Tab Nat
  btc : Tab Nat
  ebc : Tab Nat
  opl : Tab Nat
  slots : Tab Slot
  xn : Tab Nat
  burnt : Tab Bool
deriving DecidableEq, Repr

/-- A packet at the clearing gate (R319). -/
structure GatePacket where
  lanes : LaneMask
  refusal : Bool
  tout : Nat
  words : Tab (List Word)
  entries : Tab Nat
deriving DecidableEq, Repr

/-- The gate's decision of an exchange (R319). -/
inductive Verdict where
  | pending | matched | refused | mismatch | timeout
deriving DecidableEq, Repr

/-- An exchange of the clearing gate (R319), keyed by the party-0 item, block, warp, kind and number. -/
structure Exchange where
  item : Nat
  blk : Nat
  warp : Nat
  kind : GateKind
  n : Nat
  pk0 : Option GatePacket
  pk1 : Option GatePacket
  first : BitVec 48
  tout : Nat
  verdict : Verdict
deriving DecidableEq, Repr

/-- The run state of a block (R58, R60, R133, R344). -/
inductive Run where
  | posted | running | stopping | saved | retired | killed
deriving DecidableEq, Repr

/-- A resident block. `poisoned` are the rows, tiles and accumulators that hold poison, `cleanLines` the 64-byte lines of poisoned tiles that
have been written whole since, as tile x 256 + line, `poisonedLines` the 64-byte lines of its scratchpad (R349). Keys: tile t x 16384 + row x 128 + byte; accumulator element a x 16384 + m x 128 + n. -/
structure Block where
  core : Nat
  item : Nat
  ctx : Nat
  part : Nat
  blockId : Nat
  party : Nat
  regs : Nat
  warpN : Nat
  scratchBytes : Nat
  tiles : Nat
  gen : Nat
  run : Run
  trapbase : Addr
  gatectl : Word
  warps : Tab Thread
  tel : Thread
  scratch : Mem
  tile : Mem
  acc26 : Tab (BitVec 26)
  acc32 : Tab Word
  cnt : Tab Nat
  stat : Tab (BitVec 8)
  gate : Option Gate
  saved : Tab (List Cmd)
  stopped : Tab (Cmd × Progress)
  evicted : List EvictUnit
  poisoned : List EvictUnit
  cleanLines : Tab Bool
  poisonedLines : Tab Bool
deriving DecidableEq, Repr

/-- A launch (R52, R201). `key`s of launches and items are the model's own numbers. -/
structure Launch where
  q : Nat
  seq : BitVec 16
  id : Word
  ctx : Nat
  part : Nat
  tentry : Addr
  sentry : Addr
  nitems : Nat
  bpg : Nat
  wpb : Nat
  prio : Nat
  deadline : BitVec 48
  tiles : Nat
  scratch : Nat
  rows : Nat
  args : Addr
  vaults : List Nat
  joint : Option (Nat × Nat × Nat)
  hash : BitVec 512
  klen : Nat
  pred : Option Nat
  prev : Option Nat
  ocls : Nat
  fscope : Nat
  released : Bool
  peer : Option Nat
  nextItem : Nat
  requeued : List Nat
  late : Nat
  retiredN : Nat
  errors : Nat
  triggered : Bool
  cancelled : Bool
  refused : Bool
  completed : Bool
deriving DecidableEq, Repr

/-- The life of a bound gang item (R59, R60, R344, R346); `waiting`: the generation that it was killed with is retired, and it
waits to be bound again. -/
inductive Life where
  | posted | running | killed | waiting | done
deriving DecidableEq, Repr

/-- The retained record of a bound gang item (R59, R345). `counted`: at the kill that ended it every lane and every teller had
performed `ETRIG` or exited (R74). -/
structure Item where
  launch : Nat
  index : Nat
  gang : Nat
  gen : Nat
  relaunch : Nat
  commit : Bool
  life : Life
  cause : Nat
  again : Bool
  peer : Option Nat
  blocksLeft : Nat
  counted : Bool
deriving DecidableEq, Repr

/-- A bind record of the slot table (R204). -/
structure BindRec where
  ctx : Word
  launchid : Word
  item : Word
  gen : Word
  rrec : Addr
  bindno : Word
  state : Nat
deriving DecidableEq, Repr

/-- A queue control block as F1 reads it (R184). -/
structure Qcb where
  rbase : Addr
  rlog : Nat
  fixed : Bool
  weight : Nat
  pasid : Nat
  cmpl : Addr
  ver : Addr
deriving DecidableEq, Repr

/-- A packet accepted and not yet acted on (R189, R201). `waiting`: held by its TYPE 2 condition; `cancelled`: its launch has
been cancelled (R192). -/
structure Packet where
  seq : BitVec 16
  typ : Nat
  released : Bool
  waiting : Bool
  cancelled : Bool
deriving DecidableEq, Repr

/-- A launch queue (R184 to R191). STATE: 0 active, 1 stopped, 2 dead. `waited` holds, while the packet at the head fails
its checks, the microseconds waited and the time of the last reading; `finished` the SEQs complete beyond LASTCMPL; `born` the
first number that a launch of this queue can have, so that a queue created again knows none of its predecessor's. -/
structure LQueue where
  info : QueueInfo
  qcb : Option Qcb
  shadow : Tab Addr
  expect : BitVec 16
  wraps : BitVec 16
  head : Nat
  tail : Nat
  state : Nat
  lastAcc : BitVec 16
  lastCmpl : BitVec 16
  waited : Option (Nat × BitVec 48)
  pending : Option Packet
  finished : List Nat
  lastLaunch : Option Nat
  born : Nat
deriving DecidableEq, Repr

/-- An entry of a virtual error queue (R197) or of the physical log. -/
structure ErrEntry where
  cause : Nat
  q : Nat
  launchid : Word
  item : Word
  flags : Nat
  addr : Addr
  time : BitVec 48
  seq : BitVec 16
deriving DecidableEq, Repr

/-- A virtual error queue with its function's MSI-X vector (R197, R198, R348). -/
structure ErrQueue where
  depth : Nat
  entries : List ErrEntry
  seq : BitVec 16
  overflow : BitVec 32
  pendingIrq : Bool
  lastIrq : Option (BitVec 48)
  dropped : Nat
deriving DecidableEq, Repr

/-- The TDISP states (R354). -/
inductive TdiState where
  | unlocked | locked | run | error
deriving DecidableEq, Repr

/-- A function's TDI and poison-forwarding enables (R350, R354). -/
structure Tdi where
  state : TdiState
  fwdPcie : Bool
  fwdCxl : Bool
deriving DecidableEq, Repr

/-- A partition (R342) with the step of a reset under way (0 none; R343), and its joint-consent entries (R210). -/
structure Partition where
  info : PartInfo
  resetStep : Nat
  consent : Tab Consent
deriving DecidableEq, Repr

/-- A context (R148, R152, R205). -/
structure Context where
  part : Nat
  s1root : Nat
  dead : Bool
  binding : Tab BindEntry
  heldChange : List (Nat × BindEntry)
deriving DecidableEq, Repr

/-- A key slot's record (R212): owner 0xFF is F0; state 0 free, 1 loaded, 2 assigned. -/
structure KeySlot where
  owner : Nat
  state : Nat
  gen : BitVec 16
deriving DecidableEq, Repr

/-- A die's refresh calendar and error counts (R143, R220). -/
structure Die where
  gen : BitVec 8
  epoch : BitVec 48
  soft : List (BitVec 32)
  uassay : BitVec 32
deriving DecidableEq, Repr

/-- A gang's own state: bind count, issue rate, joint reservation, power-cycle mark (R45, R204, R341). -/
structure GangState where
  bindno : Word
  rate : Nat
  reservedFor : Option Nat
deriving DecidableEq, Repr

/-- An issue arbiter (R218): deficits and weights by context slot, the last slot granted. -/
structure Arbiter where
  deficit : Tab Nat
  weight : Tab Nat
  last : Nat
  granted : Option Nat
deriving DecidableEq, Repr

/-- A joint reservation under way (R341). -/
structure Reservation where
  launch1 : Nat
  item : Nat
  gang0 : Option Nat
  gang1 : Option Nat
  since : BitVec 48
deriving DecidableEq, Repr

/-- A generation being retired at one receiver (R346): home slices 0 to 15, memory controllers 16 to 19, IO 20. -/
structure RetireState where
  gen : Nat
  receiver : Nat
  markers : List Nat
  acked : Bool
deriving DecidableEq, Repr

/-- Whose access waits for a host page (R151): an outstanding operation's, a thread's instruction fetch, F1's for a launch
queue, a port's for a send that it receives, a fired send's, that of a write of a killed item. -/
inductive Asker where
  | op (id : Nat)
  | fetch (r : Thr)
  | queue (q : Nat)
  | receive (port conn send : Nat)
  | send (id : Nat)
  | stray (id : Nat)
deriving DecidableEq, Repr

/-- A page request waiting for the host (R151): its number, whose access waits and through which context, the host page. -/
structure PriReq where
  id : Nat
  owner : Asker
  ctx : Nat
  page : Nat
deriving DecidableEq, Repr

/-- An invalidation not yet acknowledged (R150), with the accesses that used a removed translation. -/
structure Inval where
  part : Nat
  waitFor : List Nat
deriving DecidableEq, Repr

/-- A send on its way to a peer (R307, R308): the port, the block it came from with its core, context and item, whether it
fired from an armed send, that send's completion pair and EV, and the outcome once the peer has reported it. -/
structure SendRec where
  port : Nat
  block : Nat
  core : Nat
  ctx : Nat
  item : Nat
  fired : Bool
  gen : Nat
  cmp : Option CmpPair
  ev : Bool
  done : Option Bool
deriving DecidableEq, Repr

/-- A part of a send: its destination, its bytes, their poison. -/
structure RecvPart where
  dst : Addr
  bytes : List Byte
  poison : Bool
deriving DecidableEq, Repr

/-- A send being received (R216, R307): the parts that are not yet performed, whether one of them faulted, where and at which
stage, and whether the whole send has arrived. -/
structure RecvRec where
  conn : Nat
  send : Nat
  parts : List RecvPart
  faulted : Bool
  faultAddr : Addr
  faultStage2 : Bool
  complete : Bool
  rctr : Addr
  rinc : BitVec 16
deriving DecidableEq, Repr

/-- A KXL port (R183, R358); `replay` holds each flit that is not yet acknowledged with the number of times it was replayed. -/
structure Port where
  up : Bool
  txSeq : BitVec 12
  rxSeq : BitVec 12
  credits : Nat
  backlog : List Flit
  sendq : List Flit
  reserve : Option Nat
  replay : List (Flit × Nat)
  recvq : List Flit
  receiving : List RecvRec
deriving DecidableEq, Repr

/-- A connection (R359): what this host has registered and what the peer's host has, both as this device sees them; whether F0
has loaded its key. -/
structure Conn where
  here : Option ConnInfo
  there : Option ConnInfo
  keyed : Bool
deriving DecidableEq, Repr

/-- A function's AER registers (R352; log entry 77): status, mask and severity of the uncorrectable errors, status and mask of
the correctable ones. -/
structure Aer where
  uncorrectable : BitVec 32
  mask : BitVec 32
  severity : BitVec 32
  correctable : BitVec 32
  correctableMask : BitVec 32
deriving DecidableEq, Repr

/-- A function's configuration (R352 to R355, R357); `numVfs` and the IDE link stream are the PF's. -/
structure FnConfig where
  command : BitVec 16
  msixControl : BitVec 16
  msixTable : Tab Addr
  bar0 : Nat
  bar2 : Nat
  bar4 : Nat
  bar4GiB : Nat
  numVfs : Nat
  hdmBase : Nat
  hdmUnits : Nat
  aer : Aer
  ideLink : Word
  ideStreams : Tab Word
deriving DecidableEq, Repr

/-- A firmware core (R361, R364): the slot in use (true: B), the versions, the hashes and the validity of the images in A and B,
an update's start. -/
structure FwCore where
  slotB : Bool
  versionA : Nat
  versionB : Nat
  imageA : BitVec 512
  imageB : BitVec 512
  goodA : Bool
  goodB : Bool
  updating : Option (BitVec 48)
deriving DecidableEq, Repr

/-- A mailbox entry (R199). -/
structure Mail where
  sender : Nat
  body : BitVec 512
deriving DecidableEq, Repr

/-- A probe token (R195): its origin, and the unit it has reached: an engine, 8 + context slot for a teller, or 16 + port for
the transmitter of a port. -/
structure Token where
  id : Nat
  core : Nat
  origin : Nat
  unit : Nat
deriving DecidableEq, Repr

/-- The signed manifest (R362). -/
structure Manifest where
  valid : Bool
  capWatts : Nat
  vfs : Nat
  securityVersion : Nat
  partitions : List (Nat × PartInfo)
deriving DecidableEq, Repr

/-- What the device sends to the outside world. -/
inductive HostMsg where
  | msix (fn : Nat) (time : BitVec 48)
  | postedWrite (addr : Nat) (data : List Byte) (poison relaxed : Bool)
  | atomicOp (addr op : Nat) (relaxed : Bool)
  | readData (fn : Nat) (data : List Byte) (poison : Bool)
  | unsupportedRequest (fn : Nat)
  | requestRetry (fn : Nat)
  | tdisp (fn : Nat) (accepted : Bool)
  | completerAbort (fn : Nat)
  | uncorrectable (fn : Nat)
  | snoopInvalid (addr : Nat)
  | pageRequest (op : Nat)
  | flit (port : Nat) (f : Flit)
  | portDown (port : Nat)
  | report (fn : Nat) (data : List Byte)
  | spdm (data : List Byte)
  | mailFull (sender receiver : Nat)
  | harvest (part ipa : Nat) (dirty : Bool)
  | invalidated (part : Nat)
  | registered (conn : Nat)
deriving DecidableEq, Repr

/-- Who moves next: a thread, or an event of the table. -/
inductive Sel where
  | thread (t : Thr)
  | event (i : Instr)
deriving DecidableEq, Repr

/-- An operation of a killed item that had left its core (R346): the thread it came from, its generation. -/
structure Stray where
  gen : Nat
  block : Nat
  op : Op
deriving DecidableEq, Repr

/-- The state of the module. `telemetryBody` says that the body has been written since SEQ became odd (R363). `lineKeys` holds the
key under which each 64-byte DRAM line was last written, 0 for none (R153). Tables are keyed by the numbers of R10 (cores, gangs,
dies), by partition, function, port, queue or key-slot number, by PASID (contexts), by core x 8 + context slot (blocks), by core x 8 + engine (engines), and by
the model's own numbers (launches, items, exchanges, sends). -/
structure State where
  now : BitVec 48
  ready : Bool
  manifest : Manifest
  agenda : List Sel
  cur : Thr
  fresh : Nat
  nextId : Nat
  nextGen : Nat
  dram : Mem
  vault : Mem
  host : Mem
  lineKeys : Tab Nat
  poison : Tab Bool
  hostPoison : Tab Bool
  vaultPoison : Tab Bool
  tlb : List TlbEntry
  invals : List Inval
  pri : List PriReq
  refused : List (Asker × Nat)
  absent : Tab Bool
  blocks : Tab Block
  engines : Tab Engine
  arbiters : Tab Arbiter
  gangs : Tab GangState
  slots : Tab BindRec
  queues : Tab LQueue
  launches : Tab Launch
  items : Tab Item
  rrQueue : Nat
  reservations : Tab Reservation
  retiring : List RetireState
  strays : List Stray
  exchanges : Tab Exchange
  parts : Tab Partition
  tdis : Tab Tdi
  fns : Tab FnConfig
  ctxs : Tab Context
  keys : Tab KeySlot
  dies : Tab Die
  ports : Tab Port
  routes : Tab (BitVec 16)
  conns : Tab Conn
  sends : Tab SendRec
  errqs : Tab ErrQueue
  plog : Tab (ErrEntry × BitVec 32)
  plogNext : Nat
  plogWrap : BitVec 32
  f4buf : List (Nat × ErrEntry)
  fw : Tab FwCore
  mail : Tab (List Mail)
  requests : List Mail
  tokens : List Token
  watts : Nat
  powerHold : Bool
  lowSince : Option (BitVec 48)
  telemetrySeq : Addr
  telemetryBody : Bool
  telemetry : List Byte
  toHost : List HostMsg
deriving DecidableEq, Repr

/-- A key slot nobody has loaded (R212; log entry 1). -/
def KeySlot.blank : KeySlot := ⟨0xFF, 0, 0⟩

/-- A die before any recalibration or error (R143, R214). -/
def Die.blank : Die := ⟨0, 0, [0, 0, 0, 0, 0, 0], 0⟩

/-- A gang after power-up (R214; log entry 1). -/
def GangState.blank : GangState := ⟨0, 64, none⟩

/-- A bind record that is free (R204). -/
def BindRec.blank : BindRec := ⟨0, 0, 0, 0, 0, 0, 0⟩

/-- An idle engine (R286). -/
def Engine.blank : Engine := ⟨[], none, .running, .start⟩

/-- An arbiter with no resident context (R218; log entry 1). -/
def Arbiter.blank : Arbiter := ⟨[], [], 7, none⟩

/-- A KXL port with empty queues (R183; log entry 1). -/
def Port.blank : Port := ⟨true, 0, 0, 128, [], [], none, [], [], []⟩

/-- A function after reset (R350, R354). -/
def Tdi.blank : Tdi := ⟨.unlocked, false, false⟩

/-- The AER registers after reset: the values of the PCIe family (log entry 77). -/
def Aer.reset : Aer := ⟨0, 0x00400000, 0x00462030, 0, 0x0000E000⟩

/-- A function's configuration after reset: four MSI-X vectors, an aperture of 1 GiB, AER as above, the rest 0 (log entry 72). -/
def FnConfig.blank : FnConfig := ⟨0, 3, [], 0, 0, 0, 1, 0, 0, 0, .reset, 0, []⟩

/-- A firmware core that runs its A image (R364; log entry 1). -/
def FwCore.blank : FwCore := ⟨false, 0, 0, 0, 0, true, true, none⟩

/-- An empty virtual error queue (R198). -/
def ErrQueue.blank (depth : Nat) : ErrQueue := ⟨depth, [], 0, 0, false, none, 0⟩

/-- The manifest in board flash (R362; log entry 1): cap 1,700 W, no VF, one partition of every gang. -/
def Manifest.standard : Manifest :=
  ⟨true, 1700, 0, 0, [(0, ⟨0xFFFF, [], 0, 192, 0, 0, 0, 0⟩)]⟩

/-- The module right after power is applied (R364): NOW 0, every counter of R214 at its reset value, nothing resident.
POWER_UP makes it ready. -/
def State.reset : State where
  now := 0
  ready := false
  manifest := .standard
  agenda := []
  cur := ⟨0, none⟩
  fresh := 0
  nextId := 0
  nextGen := 1
  dram := []
  vault := []
  host := []
  lineKeys := []
  poison := []
  hostPoison := []
  vaultPoison := []
  tlb := []
  invals := []
  pri := []
  refused := []
  absent := []
  blocks := []
  engines := []
  arbiters := []
  gangs := []
  slots := []
  queues := []
  launches := []
  items := []
  rrQueue := 0
  reservations := []
  retiring := []
  strays := []
  exchanges := []
  parts := []
  tdis := []
  fns := []
  ctxs := []
  keys := []
  dies := []
  ports := []
  routes := []
  conns := []
  sends := []
  errqs := []
  plog := []
  plogNext := 0
  plogWrap := 0
  f4buf := []
  fw := []
  mail := []
  requests := []
  tokens := []
  watts := 0
  powerHold := false
  lowSince := none
  telemetrySeq := 0
  telemetryBody := false
  telemetry := []
  toHost := []

/-- A byte memory is in its canonical form. -/
abbrev Memory.wf (m : Mem) : Bool := m.canon 0

end Sys2Proof.Machine
end

