-- ==== Sys2Proof/Machine/Regs.lean ====
section
/-! DEFINITION. Named operations over lanes, registers and the clause in progress (R22, R61 to R65, R113, R118 to R123). -/

namespace Sys2Proof.Machine

/-- The lanes of a set, lowest first. -/
def lanesOf (m : LaneMask) : List Nat := (List.range 32).filter (fun l => m.getLsbD l)

/-- The set that holds one lane. -/
def laneBit (l : Nat) : LaneMask := BitVec.ofNat 32 (2 ^ l)

/-- The set of a list of lanes. -/
def maskOfLanes (ls : List Nat) : LaneMask := ls.foldl (fun m l => m ||| laneBit l) 0

/-! ### Registers -/

/-- v register `r` of a lane (R118). -/
def Thread.vr (t : Thread) (l r : Nat) : Word := t.v.rd 0 (l * 512 + r)

/-- k register `r` of a teller (R118). -/
def Thread.kr (t : Thread) (r : Nat) : Addr := t.k.rd 0 r

/-- Predicate `i` of a lane; p7 reads true (R118). -/
def Thread.pr (t : Thread) (l i : Nat) : Bool := i == 7 || t.p.rd false (l * 8 + i)

/-- Mask register `n` (R118). -/
def Thread.mr (t : Thread) (n : Nat) : Word := t.m.rd 0 n

/-- The LPC element of a lane (R61). -/
def Thread.pcOf (t : Thread) (l : Nat) : Addr := t.lpc.rd 0 l

/-- A pair (R23) of a warp's lane, or one k register of a teller. -/
def Thread.pair (t : Thread) (l r : Nat) : Addr := if t.teller then t.kr r else t.vr l (r + 1) ++ t.vr l r

/-- One register at the thread's width: a v register zero-extended, or a k register. -/
def Thread.reg (t : Thread) (l r : Nat) : Addr := if t.teller then t.kr r else (t.vr l r).setWidth 64

/-- The register keys an operation still writes on completion: lane x 1024 + register, predicates from 512 on. -/
def Op.dests (o : Op) : List Nat :=
  match o.kind with
  | .load _ f d => (List.range ((f.bytes + 3) / 4)).map (fun j => o.lane * 1024 + d + j)
  | .atomic _ a (some d) | .release _ a (some d) _ | .acquire _ _ a d _ _ =>
    (List.range (if a.wide then 2 else 1)).map (fun j => o.lane * 1024 + d + j)
  | .acquired _ a d _ => (List.range (if a.wide then 2 else 1)).map (fun j => o.lane * 1024 + d + j)
  | .cread _ d => [o.lane * 1024 + d, o.lane * 1024 + d + 1]
  | .compute rs => rs.map (fun | .v l r _ => l * 1024 + r | .p l i _ => l * 1024 + 512 + i)
  | .gate g => (lanesOf g.lanes).flatMap (fun l => [l * 1024 + g.d, l * 1024 + g.d + 1, l * 1024 + 512 + g.pred])
  | .command _ _ (some d) _ => [o.lane * 1024 + d]
  | .gfin lanes d pred => (lanesOf lanes).flatMap (fun l => [l * 1024 + d, l * 1024 + 512 + pred])
  | _ => []

/-- A later write has taken the register of a key: an operation issued before `bound` discards its late result (R121). -/
def Op.drop (bound key : Nat) (o : Op) : Op :=
  if o.id < bound ∧ o.dests.contains key then { o with dropped := key :: o.dropped } else o

/-- The withdrawn operations that wait for a handler's end (R279) discard their late results for a key. -/
def Handler.dropLate (h : Handler) (bound key : Nat) : Handler := { h with held := h.held.map (Op.drop bound key) }

/-- Every pending operation, a withdrawn one or one that waits for its handler's end too, discards its late result for a key
(R121). -/
def Thread.dropLate (t : Thread) (bound key : Nat) : Thread :=
  { t with
    ops := t.ops.map (Op.drop bound key)
    withdrawn := t.withdrawn.map (Op.drop bound key)
    handler := t.handler.map (·.dropLate bound key) }

/-- Writes v register `r` of a lane; pending operations issued before `bound` no longer write it (R121). -/
def Thread.landV (t : Thread) (bound l r : Nat) (x : Word) : Thread :=
  { t with v := t.v.wr 0 (l * 512 + r) x }.dropLate bound (l * 1024 + r)

/-- Writes a k register (R121). -/
def Thread.landK (t : Thread) (bound r : Nat) (x : Addr) : Thread :=
  { t with k := t.k.wr 0 r x }.dropLate bound r

/-- Writes a predicate; p7 is never written (R122). -/
def Thread.landP (t : Thread) (bound l i : Nat) (x : Bool) : Thread :=
  if i = 7 then t
  else { t with p := t.p.wr false (l * 8 + i) x }.dropLate bound (l * 1024 + 512 + i)

/-- The operations that a thread's handler holds until its end (R279). -/
def Thread.held (t : Thread) : List Op := match t.handler with | some h => h.held | none => []

/-- A bound above the number of every operation of a thread, outstanding, withdrawn or held: the instruction at hand is later
than all of them. -/
def Thread.later (t : Thread) : Nat := (t.ops ++ t.withdrawn ++ t.held).foldl (fun n o => max n (o.id + 1)) 0

/-- An instruction writes a v register. -/
def Thread.setV (t : Thread) (l r : Nat) (x : Word) : Thread := t.landV t.later l r x

/-- An instruction writes a k register. -/
def Thread.setK (t : Thread) (r : Nat) (x : Addr) : Thread := t.landK t.later r x

/-- An instruction writes a predicate. -/
def Thread.setP (t : Thread) (l i : Nat) (x : Bool) : Thread := t.landP t.later l i x

/-- An instruction writes consecutive v registers. -/
def Thread.setVs (t : Thread) (l r : Nat) : List Word → Thread
  | [] => t
  | x :: xs => (t.setV l r x).setVs l (r + 1) xs

/-- An instruction writes a pair, low half first, or one k register (R23). -/
def Thread.setPair (t : Thread) (l r : Nat) (x : Addr) : Thread :=
  if t.teller then t.setK r x else (t.setV l r (x.extractLsb' 0 32)).setV l (r + 1) (x.extractLsb' 32 32)

/-- An instruction writes one register at the thread's width. -/
def Thread.setReg (t : Thread) (l r : Nat) (x : Addr) : Thread :=
  if t.teller then t.setK r x else t.setV l r (x.extractLsb' 0 32)

/-- Mask write (R123). -/
def Thread.setM (t : Thread) (n : Nat) (x : Word) : Thread := { t with m := t.m.wr 0 n x }

/-! ### Executing lanes -/

/-- The guard holds in a lane (R22). -/
def Thread.holds (t : Thread) (g : Guard) (l : Nat) : Bool := t.pr l g.pred.toNat != g.neg

/-- The number of lanes of a thread group: 32 of a warp, one of a teller (R55). -/
def Thread.laneCount (t : Thread) : Nat := if t.teller then 1 else 32

/-- The lanes that execute an instruction: lanes of the issue set that have not stopped and whose guard holds. -/
def Thread.lanes (t : Thread) (g : Guard) : List Nat :=
  match t.clause with
  | none => []
  | some c => (List.range t.laneCount).filter (fun l => c.issue.getLsbD l && !c.stopped.getLsbD l && t.holds g l)

/-- Acts in each of a list of lanes, in order; the values that `f` reads come from the thread before any lane acts. -/
def Thread.each (t : Thread) (ls : List Nat) (f : Nat → Thread → Thread) : Thread := ls.foldl (fun t l => f l t) t

/-- Writes one register of each executing lane, from values of the state before (R22). -/
def Thread.putRegs (t : Thread) (g : Guard) (d : Nat) (f : Nat → Addr) : Thread :=
  t.each (t.lanes g) (fun l u => u.setReg l d (f l))

/-- Writes a pair of each executing lane. -/
def Thread.putPairs (t : Thread) (g : Guard) (d : Nat) (f : Nat → Addr) : Thread :=
  t.each (t.lanes g) (fun l u => u.setPair l d (f l))

/-- Writes v registers from `d` on in each executing lane. -/
def Thread.putVs (t : Thread) (g : Guard) (d : Nat) (f : Nat → List Word) : Thread :=
  t.each (t.lanes g) (fun l u => u.setVs l d (f l))

/-- Writes a predicate of each executing lane. -/
def Thread.putPreds (t : Thread) (g : Guard) (i : Nat) (f : Nat → Bool) : Thread :=
  t.each (t.lanes g) (fun l u => u.setP l i (f l))

/-! ### The clause in progress -/

/-- What the operand buffer holds of one register source: a register's or a pair's value, a predicate's bit, a mask. A tile or
an accumulator is named by a teller alone, which is no warp, and nothing of it is kept (log entry 75). -/
def Thread.source (t : Thread) (l : Nat) (k : Kind) (n : Nat) : Option (BitVec 128) :=
  match k with
  | .reg => some ((t.reg l n).setWidth 128)
  | .pair | .kpair => some ((t.pair l n).setWidth 128)
  | .quad => some (t.vr l (n + 3) ++ t.vr l (n + 2) ++ t.vr l (n + 1) ++ t.vr l n)
  | .pred => some (if t.pr l n then 1 else 0)
  | .mask => some ((t.mr n).setWidth 128)
  | _ => none

/-- The value that RET keeps for one lane (R108). -/
def Thread.retained (t : Thread) (i : Instr) (l : Nat) : Option (BitVec 128) :=
  match i.ext? with
  | none => none
  | some x =>
    let r := rule (if t.teller then .teller else .simt) i
    match x.ret.toNat with
    | 0 => none
    | 1 => t.source l r.a x.a.toNat
    | 2 => t.source l r.b x.b.toNat
    | _ => t.source l r.c x.c.toNat

/-- The operand buffer after an instruction: the retained source of each executing lane, and nothing else (R108). -/
def Thread.operandBuffer (t : Thread) (i : Instr) : Tab (BitVec 128) :=
  (t.lanes i.guard).foldl (fun b l => match t.retained i l with | some v => b.ins l v | none => b) []

/-- The clause after one of its instructions. -/
def Clause.pass (c : Clause) (i : Instr) : Clause :=
  { c with
    next := c.next + BitVec.ofNat 64 (4 * i.size), rest := c.rest.drop i.size, left := c.left - 1, idx := c.idx + 1,
    longSeen := c.longSeen || i.isLong }

/-- Moves the clause past an instruction; `buf` is what RET keeps. -/
def Thread.advance (t : Thread) (i : Instr) (buf : Tab (BitVec 128)) : Thread :=
  { t with clause := t.clause.map (·.pass i), opbuf := buf }

/-- Changes the clause in progress. -/
def Thread.inClause (t : Thread) (f : Clause → Clause) : Thread := { t with clause := t.clause.map f }

/-- The address of the instruction at hand. -/
def Thread.here (t : Thread) : Addr := match t.clause with | some c => c.next | none => 0

/-- The fall-through address of the clause (R113). -/
def Thread.fallThrough (t : Thread) : Addr := match t.clause with | some c => c.fall | none => 0

/-- The completion flag of the instruction at hand (R116): SETF1 for the clause's first long-latency instruction, SETF2
for later ones, none where the field is 15. -/
def Thread.flagOf (t : Thread) (i : Instr) : Option Nat :=
  match t.clause with
  | none => none
  | some c =>
    if !i.isLong then none
    else
      let f := if c.longSeen then c.setf2 else c.setf1
      if f < 12 then some f else none

/-- Lanes that fail an instruction: they perform no part of it and no later instruction of the clause; the trap is taken
at the clause end (R243, R385). Each comes with the value for its ADDR slot. -/
def Thread.failLanes (t : Thread) (cause : Cause) (code : Nat) (ls : List (Nat × Addr)) : Thread :=
  t.inClause (fun c =>
    { c with
      fails := c.fails ++ ls.map (fun (l, v) => ⟨c.idx, l, c.next, cause, v, code⟩),
      stopped := c.stopped ||| maskOfLanes (ls.map Prod.fst) })

/-- A thread at block start (R58): `entry` is the first clause of its section. -/
def Thread.start (teller : Bool) (entry : Addr) : Thread where
  teller := teller
  v := []
  k := []
  p := []
  m := if teller then [] else [(0, 0xFFFFFFFF)]
  lpc := (List.range (if teller then 1 else 32)).foldl (fun t l => t.wr 0 l entry) []
  exited := 0
  waits := []
  quiet := 0
  mode := 0
  promo := 15
  assayctl := 1
  assaycnt := 0
  trapscratch := []
  sflt := []
  seq := []
  ops := []
  opbuf := []
  clause := none
  hold := .none
  handler := none
  due := none
  recorded := []
  first := []
  unreported := []
  withdrawn := []
  triggered := 0
  yielded := 0
  starved := 0
  evq := []
  reserve := none
  ahead := 0
  rgrant := 0
  pend := []
  armed := []
  firing := []
  firedWait := []
  injSet := 0
  injMade := 0
  denied := none
  blocked := none

/-! ### Threads of the module -/

/-- A thread of a block. -/
def Block.thr (b : Block) : Option Nat → Option Thread
  | none => some b.tel
  | some w => b.warps.look w

/-- Puts a thread back into its block; a warp the block does not have is not added. -/
def Block.setThr (b : Block) (w : Option Nat) (t : Thread) : Block :=
  match w with
  | none => { b with tel := t }
  | some w => { b with warps := b.warps.upd w (fun _ => t) }

/-- The block under a key. -/
def State.blk (s : State) (b : Nat) : Option Block := s.blocks.look b

/-- Changes a block. -/
def State.updBlk (s : State) (b : Nat) (f : Block → Block) : State := { s with blocks := s.blocks.upd b f }

/-- A thread of the module. -/
def State.thr (s : State) (r : Thr) : Option Thread :=
  match s.blk r.block with
  | none => none
  | some b => b.thr r.warp

/-- Changes a thread, if it exists. -/
def State.updThr (s : State) (r : Thr) (f : Thread → Thread) : State :=
  match s.thr r with
  | none => s
  | some t => s.updBlk r.block (·.setThr r.warp (f t))

/-- The threads of a block: the teller, then its warps. -/
def Block.threads (b : Block) : List (Option Nat × Thread) :=
  (none, b.tel) :: b.warps.map (fun (w, t) => (some w, t))

/-- Changes every thread of a block. -/
def Block.mapThreads (b : Block) (f : Thread → Thread) : Block :=
  { b with tel := f b.tel, warps := b.warps.map (fun (w, t) => (w, f t)) }

/-- Ends an instruction: the clause of the current thread moves past it, and RET keeps what it named before. -/
def State.finish (s0 : State) (i : Instr) (s : State) : State :=
  match s0.thr s0.cur with
  | none => s
  | some t => s.updThr s0.cur (·.advance i (t.operandBuffer i))

/-- The meaning of an instruction that acts on its own thread alone. -/
def onThread (i : Instr) (f : Thread → Thread) (s : State) : Host.Outcome State Fault Refusal :=
  .next (s.finish i (s.updThr s.cur f))

/-- The meaning of an instruction with effects outside its thread. -/
def onState (i : Instr) (f : Thread → State → State) (s : State) : Host.Outcome State Fault Refusal :=
  match s.thr s.cur with
  | none => .next s
  | some t => .next (s.finish i (f t s))

end Sys2Proof.Machine
end

