-- ==== Sys2Proof/Machine/Operands.lean ====
section
/-! DEFINITION. The operand forms: registers, literals, compact forms, offsets, integer types (R78, R104, R106, R222,
R223, R228). -/

namespace Sys2Proof

/-- A nine-bit literal at full width (R106). -/
def lit9 (v : BitVec 9) : Addr := v.signExtend 64

/-- A literal offset: the 64-bit literal, a CL literal, or 0 (R232, R265). -/
def Ext.offset (x : Ext) : Addr := match x.lit with | some v => v | none => if x.cl then lit9 x.c else 0

/-- The fields of a compact form's extended form: default type, no modifier, stream s0 after s0 in memory forms (R104). -/
def Compact.ext (c : Compact) : Ext where
  guard := c.guard
  mod := 0
  ty := 0
  bl := false
  al := false
  cl := false
  d := c.d.setWidth 9
  a := c.a.setWidth 9
  b := c.b.setWidth 9
  c := 0
  x9 := 0
  pm := 0
  st := 0
  ret := 0
  lit := c.lit

end Sys2Proof

namespace Sys2Proof.Machine

/-- The register width of the integer instructions (R222). -/
def Thread.width (t : Thread) : Nat := if t.teller then 64 else 32

/-- A value cut to the register width. -/
def Thread.cut (t : Thread) (x : Addr) : Addr := if t.teller then x else (x.extractLsb' 0 32).setWidth 64

/-- Operand A: a register or an AL literal. -/
def Thread.opA (t : Thread) (x : Ext) (l : Nat) : Addr := if x.al then lit9 x.a else t.reg l x.a.toNat

/-- Operand B without a 64-bit literal: a register or a BL literal. -/
def Thread.opB9 (t : Thread) (x : Ext) (l : Nat) : Addr := if x.bl then lit9 x.b else t.reg l x.b.toNat

/-- Operand B where the 64-bit literal supplies it (R223). -/
def Thread.opB (t : Thread) (x : Ext) (l : Nat) : Addr := match x.lit with | some v => v | none => t.opB9 x l

/-- Operand C: a register or a CL literal. -/
def Thread.opC (t : Thread) (x : Ext) (l : Nat) : Addr := if x.cl then lit9 x.c else t.reg l x.c.toNat

/-- Operand A as a pair. -/
def Thread.pairA (t : Thread) (x : Ext) (l : Nat) : Addr := t.pair l x.a.toNat

/-- Operand B as a pair or a literal of 64 bits (R223, R226, R229). -/
def Thread.pairB (t : Thread) (x : Ext) (l : Nat) : Addr :=
  match x.lit with | some v => v | none => if x.bl then lit9 x.b else t.pair l x.b.toNat

/-- Operand C as a pair or a CL literal of 64 bits. -/
def Thread.pairC (t : Thread) (x : Ext) (l : Nat) : Addr := if x.cl then lit9 x.c else t.pair l x.c.toNat

/-- An integer type: width and sign (R77). -/
structure IntTy where
  bits : Nat
  signed : Bool
deriving DecidableEq, Repr

/-- The integer type of a TY code on each side (R222). -/
def intTy (teller : Bool) (ty : BitVec 3) : IntTy :=
  match ty.toNat with
  | 0 => ⟨if teller then 64 else 32, true⟩
  | 1 => ⟨if teller then 64 else 32, false⟩
  | 2 => ⟨16, true⟩
  | 3 => ⟨16, false⟩
  | 4 => ⟨8, true⟩
  | 5 => ⟨8, false⟩
  | 6 => ⟨if teller then 32 else 64, true⟩
  | _ => ⟨if teller then 32 else 64, false⟩

/-- `ext(x)`: the value of the low bits under a type (R222). -/
def IntTy.ext (y : IntTy) (x : Addr) : Int :=
  if y.signed then (x.setWidth y.bits).toInt else (x.setWidth y.bits).toNat

/-- The least value of a type (R77). -/
def IntTy.lo (y : IntTy) : Int := if y.signed then -(2 ^ (y.bits - 1) : Nat) else 0

/-- The greatest value of a type (R77). -/
def IntTy.hi (y : IntTy) : Int := if y.signed then (2 ^ (y.bits - 1) : Nat) - 1 else (2 ^ y.bits : Nat) - 1

/-- `put(r)`: the exact value wrapped to the type and extended to the register (R222). -/
def IntTy.put (y : IntTy) (r : Int) : Addr := BitVec.ofInt 64 (y.ext (BitVec.ofInt 64 r))

/-- Saturation to a type's range (R225). -/
def IntTy.clamp (y : IntTy) (r : Int) : Int := min (max r y.lo) y.hi

/-- The result of an integer instruction, with SAT or wrapping (R225). -/
def IntTy.result (y : IntTy) (sat : Bool) (r : Int) : Addr := y.put (if sat then y.clamp r else r)

end Sys2Proof.Machine
end

