-- ==== Sys2Proof/Machine/Flags.lean ====
section
/-! DEFINITION. Conditions, completion flags, stream counts and lane statuses (R61, R116, R130, R162, R229, R230). -/

namespace Sys2Proof.Machine

/-- The condition of a CC code on two integers (R229). -/
def ccHolds (cc : Nat) (a b : Int) : Bool :=
  match cc with
  | 0 => a == b
  | 1 => a != b
  | 2 => decide (a < b)
  | 3 => decide (a ≤ b)
  | 4 => decide (a > b)
  | 5 => decide (a ≥ b)
  | _ => false

/-- A bit of a look-up table by three predicates (R230). -/
def lutHolds (lut : Nat) (a b c : Bool) : Bool := lut.testBit (4 * a.toNat + 2 * b.toNat + c.toNat)

/-- Completion flag `f` is pending: an operation that it tracks is outstanding (R116). DESIGN CHOICE: the flag of an engine
command that is stopped, or waits, over a pre-emption stays pending until the command completes (log entry 58). -/
def Thread.pending (t : Thread) (f : Nat) : Bool := t.ops.any (fun o => o.flag == some f)

/-- A flag that a WAIT field names is pending (R19). -/
def Thread.waitPending (t : Thread) (wait : BitVec 12) : Bool :=
  (List.range 12).any (fun f => wait.getLsbD f && t.pending f)

/-- The outstanding count of a stream of a thread (R162). -/
def Thread.count (t : Thread) (lane st : Nat) : Nat :=
  (t.ops.filter (fun o => o.lane == lane && o.stream == some st)).length

/-- A stream has no room for another operation (R162). -/
def Thread.full (t : Thread) (lane st : Nat) : Bool := decide (Config.streamLimit ≤ t.count lane st)

/-- STRMSTAT of a thread (R130). -/
def Thread.strmstat (t : Thread) (lane : Nat) : Addr :=
  (List.range 8).foldl (fun x st => x ||| ((BitVec.ofNat 6 (t.count lane st)).setWidth 64 <<< (6 * st)))
    ((t.sflt.rd 0 lane).setWidth 64 <<< 48)

/-- A lane is ready: neither exited nor waiting on a mask (R61). -/
def Thread.isReady (t : Thread) (l : Nat) : Bool := !t.exited.getLsbD l && (t.waits.look l).isNone

/-- The lanes that wait on a mask (R240). -/
def Thread.waiters (t : Thread) (n : Nat) : LaneMask :=
  maskOfLanes ((List.range 32).filter (fun l => t.waits.look l == some n))

/-- The lanes of a thread group: 32 of a warp, one of a teller. -/
def Thread.allLanes (t : Thread) : LaneMask := if t.teller then 1 else 0xFFFFFFFF

/-- A thread group whose every lane has exited (R60). -/
def Thread.done (t : Thread) : Bool := t.exited == t.allLanes

/-! ### Issue of operations (R158 to R163, R166) -/

/-- `a` was issued before `b`, compared modulo 2^16 (R336). -/
def seqBefore (a b : BitVec 16) : Bool := (a - b).msb

/-- The first fault of a stream after an operation on it that faulted or was cancelled (R336). -/
def Thread.firstFault (t : Thread) (key : Nat) (o : Op) (c : Option Cause) : Tab (BitVec 16 × Option Cause) :=
  match t.first.look key with
  | some (q, _) => if seqBefore o.seq q then t.first.ins key (o.seq, c) else t.first
  | none => t.first.ins key (o.seq, c)

/-- An operation faults, or is cancelled where it has no cause: its stream's fault bit is set (R130, R166). -/
def Thread.markFault (t : Thread) (o : Op) (c : Option Cause) : Thread :=
  let st := o.stream.getD 0
  { t with
    sflt := t.sflt.wr 0 o.lane (t.sflt.rd 0 o.lane ||| BitVec.ofNat 8 (2 ^ st)),
    first := t.firstFault (o.lane * 8 + st) o c }

/-- Software writes the fault bits of a lane: a stream whose bit is cleared has no first fault (R130). -/
def Thread.setFaults (t : Thread) (lane : Nat) (bits : BitVec 8) : Thread :=
  { t with
    sflt := t.sflt.wr 0 lane bits,
    first := t.first.filter (fun (k, _) => k / 8 != lane || bits.getLsbD (k % 8)) }

/-- An operation waits, through its mask, on a faulted operation not yet reported (R166). -/
def Thread.doomed (t : Thread) (o : Op) : Bool :=
  t.unreported.any (fun r => r.lane == o.lane && decide (r.op < o.id) && o.pm.getLsbD r.stream)

/-- An operation is cancelled: it completes as faulted, with no cause, and sets its stream's fault bit (R166). -/
def Thread.cancelOp (t : Thread) (o : Op) : Thread :=
  match o.stream with
  | none => t
  | some st =>
    let t := t.markFault o none
    { t with unreported := t.unreported ++ [⟨o.id, o.lane, st, o.seq, none, 0, false, o.pc⟩] }

/-- An operation of an engine command: its engine carries out its cancellation in turn (R288). -/
def Op.isCommand (o : Op) : Bool := match o.kind with | .command .. => true | _ => false

/-- Adds an operation to those outstanding; one that waits on a faulted operation is cancelled at once. -/
def Thread.addOp (t : Thread) (o : Op) : Thread :=
  if o.stream.isSome && !o.isCommand && t.doomed o then t.cancelOp o else { t with ops := t.ops ++ [o] }

/-- Lanes take their next issue sequence numbers (R162). -/
def Thread.number (t : Thread) (ls : List Nat) : Thread :=
  { t with seq := ls.foldl (fun q l => q.wr 0 l (q.rd 0 l + 1)) t.seq }

/-- Issues one operation of the current thread for a lane; an operation on a stream takes the next issue sequence number
(R162). `inst` is the number of the instruction's first operation. -/
def State.issue (s : State) (i : Instr) (inst lane : Nat) (st : Option Nat) (pm : BitVec 8) (kind : OpKind) : State :=
  let s' := s.updThr s.cur (fun t =>
    let n := t.seq.rd 0 lane
    let t' := if st.isSome then { t with seq := t.seq.wr 0 lane (n + 1) } else t
    t'.addOp ⟨s.nextId, inst, lane, n, st, pm, t.flagOf i, t.here, kind, none, []⟩)
  { s' with nextId := s.nextId + 1 }

/-- A long-latency result that counts on no stream (R116): it is written when the operation completes. Nothing is issued
where no lane executes. -/
def issueCompute (i : Instr) (results : Thread → List DReg) : State → Host.Outcome State Fault Refusal :=
  onState i (fun t s => if (t.lanes i.guard).isEmpty then s else s.issue i s.nextId 0 none 0 (.compute (results t)))

end Sys2Proof.Machine
end

