-- ==== Sys2Proof/Machine/Translate.lean ====
section
/-! DEFINITION. Regions, two-stage translation, the TLBs and the bytes behind a translation (R137, R145 to R154, R206, R207). -/

namespace Sys2Proof.Machine

/-! ### Regions (R137, R138) -/

/-- Where a generic address falls for an access of `w` bytes. -/
inductive Region where
  | scratch (off : Nat)
  | gang (i off : Nat)
  | global
  | window
deriving DecidableEq, Repr

/-- The region of one byte: 0 local scratchpad, 1 gap, 2 + i gang-window member i, 100 global (R137). -/
def regionNo (a : Nat) : Nat :=
  if 0xFFFFFE0000000000 ≤ a ∧ a ≤ 0xFFFFFE000007FFFF then 0
  else if 0xFFFFFE0000080000 ≤ a ∧ a ≤ 0xFFFFFE00FFFFFFFF then 1
  else if 0xFFFFFE0100000000 ≤ a ∧ a ≤ 0xFFFFFE01001FFFFF then 2 + (a - 0xFFFFFE0100000000) / 2 ^ 19
  else 100

/-- The region of an access; the gap, or a first and last byte in different regions, raise WINDOW (R137, R138). -/
def regionOf (a : Addr) (w : Nat) : Region :=
  let r := regionNo a.toNat
  let z := regionNo (a + BitVec.ofNat 64 (w - 1)).toNat
  if r = 1 ∨ r ≠ z then .window
  else if r = 0 then .scratch (a.toNat % 2 ^ 19)
  else if r = 100 then .global
  else .gang (r - 2) (a.toNat % 2 ^ 19)

/-- A global address is canonical in 57 bits (R138). -/
def canonical (a : Addr) : Bool := a == (a.extractLsb' 0 57).signExtend 64

/-! ### Table walks (R206, R207) -/

/-- The result of a translation: done, a fault with its stage, or a host page that ATS reports as not present (R151). -/
inductive XRes where
  | ok (x : Xlat)
  | fault (c : Cause) (stage2 : Bool)
  | absent (page : Nat)
deriving DecidableEq, Repr

/-- The bytes an entry of a level spans. -/
def pageBytes (level : Nat) : Nat := 2 ^ (12 + 9 * (5 - level))

/-- A leaf of a level is one of the sixteen of a 64 KiB page: level 5 with CONT set (R206). -/
def pteCont (e : Addr) (level : Nat) : Bool := e.getLsbD 7 && level == 5

/-- The bytes of the page that a leaf of a level maps. -/
def leafBytes (e : Addr) (level : Nat) : Nat := if pteCont e level then 65536 else pageBytes level

/-- The ADDR field of an entry. -/
def pteAddr (e : Addr) : Nat := (e.extractLsb' 12 40).toNat * 4096

/-- The permissions of an entry: bit 0 read, 1 write, 2 execute. -/
def ptePerm (e : Addr) : BitVec 3 := e.extractLsb' 4 3

/-- The entry at an index is valid at its level; everything else raises XLATE (R207). The ADDR of one of the sixteen leaves of a 64 KiB
page is aligned where it is its own part of an aligned 64 KiB (log entry 97). -/
def pteOk (stage2 : Bool) (level i : Nat) (e : Addr) : Bool :=
  e.getLsbD 0 && e.extractLsb' 1 2 == 0 && e.extractLsb' 8 4 == 0 && (stage2 || e.extractLsb' 52 12 == 0) &&
    (if e.getLsbD 3 then
      decide (3 ≤ level) && pteAddr e % pageBytes level == 0 && (!pteCont e level || pteAddr e / 4096 % 16 == i % 16)
    else decide (level < 5))

/-- A walk from a table: `read` gives the entry at a table address with its physical address. Answers the leaf, its level
and its physical address. -/
def walk (read : Nat → Except (Cause × Bool) (Addr × Nat)) (stage2 : Bool) (a : Nat) :
    Nat → Nat → Nat → Except (Cause × Bool) (Addr × Nat × Nat)
  | 0, _, _ => .error (.xlate, stage2)
  | n + 1, level, table =>
    match read (table + 8 * ((a / pageBytes level) % 512)) with
    | .error e => .error e
    | .ok (e, pa) =>
      if !pteOk stage2 level ((a / pageBytes level) % 512) e then .error (.xlate, stage2)
      else if e.getLsbD 3 then .ok (e, level, pa)
      else walk read stage2 a n (level + 1) (pteAddr e)

/-- A little-endian number from bytes (R3). -/
def numOf : List Byte → Nat
  | [] => 0
  | b :: t => b.toNat + 256 * numOf t

/-- The low `n` bytes of a number, lowest first (R3). -/
def bytesOf (x : Nat) : Nat → List Byte
  | 0 => []
  | n + 1 => BitVec.ofNat 8 x :: bytesOf (x / 256) n

/-- `n` bytes of a memory from an address. -/
def readMem (m : Mem) (a n : Nat) : List Byte := (List.range n).map (fun i => m.rd 0 (a + i))

/-- Bytes written to a memory from an address. -/
def writeMem (m : Mem) (a : Nat) : List Byte → Mem
  | [] => m
  | b :: t => writeMem (m.wr 0 a b) (a + 1) t

/-- A stage-2 translation of an IPA (R148): physical address, entry, the bytes of its page and the leaf's address. -/
def State.stage2 (s : State) (part ipa : Nat) : Except (Cause × Bool) (Nat × Addr × Nat × Nat) :=
  match s.parts.look part with
  | none => .error (.xlate, true)
  | some p =>
    let read := fun a => .ok (BitVec.ofNat 64 (numOf (readMem s.dram a 8)), a)
    match walk read true ipa 5 1 p.info.s2root with
    | .error e => .error e
    | .ok (e, level, leaf) => .ok (pteAddr e + ipa % pageBytes level, e, leafBytes e level, leaf)

/-- The storage that a stage-2 entry names for an address (R142). A vault page at an address beyond the four vaults of 512 MiB,
for which the spec states nothing, is served like any other; an address at or above 192 GiB that is no vault page is host
memory (the model's choices; log entry 5). -/
def spaceOf (e : Addr) (pa : Nat) : Space :=
  if e.getLsbD 62 then .vault else if pa < Config.dramBytes then .dram else .host

/-- The key slot that a stage-2 leaf names (R206). -/
def pteKey (e : Addr) : Nat := (e.extractLsb' 53 9).toNat

/-- The key slot that a stage-2 leaf names is assigned to the partition, whatever storage the leaf maps (R153, R212; log
entry 13). -/
def State.keyOk (s : State) (part : Nat) (e : Addr) : Bool :=
  let k := s.keys.rd .blank (pteKey e)
  k.state == 2 && k.owner == part

/-- A physical address lies in the DRAM that F0 and F3 keep for themselves: save areas, binding tables, escrow pools. No page
table may map it (R132, R209; log entry 31). -/
def State.inOwnArea (s : State) (e : Addr) (pa : Nat) : Bool :=
  spaceOf e pa == .dram &&
    s.parts.any (fun (_, p) => decide (p.info.ownBase ≤ pa) && decide (pa < p.info.ownBase + p.info.ownBytes))

/-- The key that a slot holds now: the slot with its generation, which advances at every overwrite (R156, R212); never 0. -/
def State.keyTag (s : State) (slot : Nat) : Nat := slot + 512 * (s.keys.rd .blank slot).gen.toNat + 1

/-- A DRAM line reads as it was written under a key: it was written under that key, or under none (R153). -/
def State.keyed (s : State) (tag line : Nat) : Bool := let k := s.lineKeys.rd 0 line; k == 0 || k == tag

/-- A DRAM byte under a key (R153; log entry 13). -/
def State.keyedByte (s : State) (tag a : Nat) : Byte :=
  if s.keyed tag (a / 64) then s.dram.rd 0 a
  else Config.garble (s.lineKeys.rd 0 (a / 64)) tag (a / 64) (readMem s.dram (a / 64 * 64) 64) (a % 64)

/-- n DRAM bytes under a key. -/
def State.keyedRead (s : State) (tag a n : Nat) : List Byte := (List.range n).map (fun i => s.keyedByte tag (a + i))

/-- A stage-2 leaf may map an address for a partition; else an access raises PROT (R132, R153, R209, R212). -/
def State.leafOk (s : State) (part : Nat) (e : Addr) (pa : Nat) : Bool := s.keyOk part e && !s.inOwnArea e pa

/-- A stage-1 table entry, read through stage 2 from the partition's device memory under the page's key (R153, R206). A table page
that stage 2 maps to host or vault storage raises PROT of stage 2 (the model's choice; log entry 96). -/
def State.stage1Entry (s : State) (part ipa : Nat) : Except (Cause × Bool) (Addr × Nat) :=
  match s.stage2 part ipa with
  | .error e => .error e
  | .ok (pa, e, _, _) =>
    if spaceOf e pa != .dram ∨ !s.leafOk part e pa ∨ !(ptePerm e).getLsbD 0 then .error (.prot, true)
    else .ok (BitVec.ofNat 64 (numOf (s.keyedRead (s.keyTag (pteKey e)) pa 8)), pa)

/-- The full walk of a guest address: the translation and the size of the smaller page (R148). -/
def State.walkBoth (s : State) (ctx : Nat) (va : Addr) : Except (Cause × Bool) (Xlat × Nat) :=
  match s.ctxs.look ctx with
  | none => .error (.xlate, false)
  | some c =>
    let a := va.toNat % 2 ^ 57
    if c.dead then .error (.xlate, false)
    else
      match walk (s.stage1Entry c.part) false a 5 1 c.s1root with
      | .error e => .error e
      | .ok (e1, l1, _) =>
        let ipa := pteAddr e1 + a % pageBytes l1
        match s.stage2 c.part ipa with
        | .error e => .error e
        | .ok (pa, e2, bytes2, leaf) =>
          if !s.leafOk c.part e2 pa then .error (.prot, true)
          else
            .ok (⟨pa, spaceOf e2 pa, e2.getLsbD 63, ptePerm e1, ptePerm e2, leaf, ipa, pteKey e2⟩, min (leafBytes e1 l1) bytes2)

/-! ### TLBs (R149) -/

/-- A TLB entry of a holder serves a context's address. -/
def TlbEntry.serves (ctx : Nat) (va : Addr) (holder : Nat) (e : TlbEntry) : Bool :=
  let a := va.toNat % 2 ^ 57
  e.holder == holder && e.ctx == ctx && decide (e.page ≤ a) && decide (a < e.page + e.bytes)

/-- The TLB entry that serves a core for an address: its L1 TLB, then its gang's. -/
def State.tlbHit (s : State) (core ctx : Nat) (va : Addr) : Option TlbEntry :=
  match s.tlb.find? (TlbEntry.serves ctx va core) with
  | some e => some e
  | none => s.tlb.find? (TlbEntry.serves ctx va (64 + core / 4))

/-- A TLB entry's translation of an address. -/
def TlbEntry.at (e : TlbEntry) (va : Addr) : Xlat :=
  let d := va.toNat % 2 ^ 57 - e.page
  { e.xl with pa := e.xl.pa + d, ipa := e.xl.ipa + d, leaf := e.xl.leaf + d / 4096 * e.step }

/-- The permission an access needs: bit 0 read, 1 write, 2 execute. -/
abbrev Need := BitVec 3

/-- Both stages permit an access; a missing permission raises PROT with its stage (R207). -/
def Xlat.permitted (x : Xlat) (need : Need) : XRes :=
  if x.perm1 &&& need != need then .fault .prot false
  else if x.perm2 &&& need != need then .fault .prot true
  else .ok x

/-- The translation of a global access by a core (R138, R148, R151). -/
def State.xlate (s : State) (core ctx : Nat) (va : Addr) (need : Need) : XRes :=
  if !canonical va then .fault .xlate false
  else
    let done := fun (x : Xlat) =>
      match x.permitted need with
      | .ok x => if x.space == .host && s.absent.rd false (x.pa / 4096) then .absent (x.pa / 4096) else .ok x
      | r => r
    match s.tlbHit core ctx va with
    | some e => done (e.at va)
    | none =>
      match s.walkBoth ctx va with
      | .error (c, st) => .fault c st
      | .ok (x, _) => done x

/-- Entries a TLB holds at most (R149). -/
def tlbCap (holder : Nat) : Nat := if holder < 64 then 256 else 4096

/-- Lists an entry in a TLB, dropping the oldest of a full one. -/
def addTlb (t : List TlbEntry) (e : TlbEntry) : List TlbEntry :=
  let full := decide (tlbCap e.holder ≤ (t.filter (·.holder == e.holder)).length)
  let t := if full then (match t.find? (·.holder == e.holder) with | some o => t.erase o | none => t) else t
  t ++ [e]

/-- The stage-2 leaf of an IPA is one of the sixteen of a 64 KiB page. -/
def State.contLeaf (s : State) (part ipa : Nat) : Bool :=
  match s.stage2 part ipa with
  | .ok (_, _, bytes, _) => bytes == 65536
  | .error _ => false

/-- The entry that a walk of an address gives a TLB. Where the sixteen leaves of a 64 KiB page differ in their attributes, which R206
excludes, the leaf walked serves them all; CONT of any other entry is ignored (the model's choices; log entry 95). -/
def State.walkedEntry (s : State) (part ctx : Nat) (va : Addr) (x : Xlat) (bytes : Nat) (holder : Nat) : TlbEntry :=
  let a := va.toNat % 2 ^ 57
  let step := if s.contLeaf part x.ipa then 8 else 0
  ⟨holder, part, ctx, a - a % bytes, bytes, step,
    { x with pa := x.pa - a % bytes, ipa := x.ipa - a % bytes, leaf := x.leaf - a % bytes / 4096 * step }⟩

/-- Brings the translation of an address into a core's L1 TLB and its gang's; one that either holds comes from there (R149,
R272). -/
def State.fillTlb (s : State) (core ctx : Nat) (va : Addr) : State :=
  match s.tlb.find? (TlbEntry.serves ctx va core), s.tlb.find? (TlbEntry.serves ctx va (64 + core / 4)) with
  | some _, some _ => s
  | some e, none => { s with tlb := addTlb s.tlb { e with holder := 64 + core / 4 } }
  | none, some g => { s with tlb := addTlb s.tlb { g with holder := core } }
  | none, none =>
    match s.walkBoth ctx va, s.ctxs.look ctx with
    | .ok (x, bytes), some c =>
      let e := s.walkedEntry c.part ctx va x bytes
      { s with tlb := addTlb (addTlb s.tlb (e core)) (e (64 + core / 4)) }
    | _, _ => s

/-! ### Bytes behind a translation -/

/-- The physical address of the copy that a die reads: its own copy of a replicated page (R147). The spec does not say where on
each die the copy lies: at the page's own offset in the die's 48 GiB (the model's choice; log entry 80). -/
def Xlat.readAt (x : Xlat) (die : Nat) : Nat :=
  if x.repl then die * Config.dieBytes + x.pa % Config.dieBytes else x.pa

/-- The physical addresses that a write reaches: all four copies of a replicated page (R147). -/
def Xlat.writeAt (x : Xlat) : List Nat :=
  if x.repl then (List.range 4).map (fun d => d * Config.dieBytes + x.pa % Config.dieBytes) else [x.pa]

/-- The 64-byte lines that n bytes touch. -/
def linesOf (a n : Nat) : List Nat :=
  if n = 0 then [] else (List.range ((a + n - 1) / 64 - a / 64 + 1)).map (fun i => a / 64 + i)

/-- Reads n bytes of a storage; DRAM's through the key of a slot (R153). -/
def State.spaceRead (s : State) (key : Nat) (sp : Space) (a n : Nat) : List Byte :=
  match sp with
  | .dram => s.keyedRead (s.keyTag key) a n
  | .vault => readMem s.vault a n
  | .host => readMem s.host a n

/-- One of the bytes is poisoned (R349). -/
def State.spacePoisoned (s : State) (sp : Space) (a n : Nat) : Bool :=
  (linesOf a n).any (fun l =>
    match sp with
    | .dram => s.poison.rd false l
    | .vault => s.vaultPoison.rd false l
    | .host => s.hostPoison.rd false l)

/-- The lines wholly covered by n bytes. -/
def wholeLines (a n : Nat) : List Nat := (linesOf a n).filter (fun l => decide (a ≤ 64 * l) && decide (64 * l + 64 ≤ a + n))

/-- The poison of a storage after a write: a line written whole loses it (R349), and carried poison marks every line
touched. -/
def repoison (p : Tab Bool) (a n : Nat) (carried : Bool) : Tab Bool :=
  if carried then (linesOf a n).foldl (fun p l => p.wr false l true) p
  else (wholeLines a n).foldl (fun p l => p.wr false l false) p

/-- DRAM with the lines that n bytes touch as they read under a key: what stood there under another is no longer what it was
(R153). -/
def State.rekeyed (s : State) (tag a n : Nat) : Mem :=
  (linesOf a n).foldl (fun m l => if s.keyed tag l then m else writeMem m (64 * l) (s.keyedRead tag (64 * l) 64)) s.dram

/-- Writes bytes to a storage, to DRAM under the key of a slot (R153); `carried` says that they are poisoned. -/
def State.spaceWrite (s : State) (key : Nat) (sp : Space) (a : Nat) (bs : List Byte) (carried : Bool) : State :=
  match sp with
  | .dram =>
    let tag := s.keyTag key
    { s with
      dram := writeMem (s.rekeyed tag a bs.length) a bs,
      lineKeys := (linesOf a bs.length).foldl (fun t l => t.wr 0 l tag) s.lineKeys,
      poison := repoison s.poison a bs.length carried }
  | .vault => { s with vault := writeMem s.vault a bs, vaultPoison := repoison s.vaultPoison a bs.length carried }
  | .host => { s with host := writeMem s.host a bs, hostPoison := repoison s.hostPoison a bs.length carried }

/-- Reads n bytes through a translation, with their poison. -/
def State.readX (s : State) (die : Nat) (x : Xlat) (n : Nat) : List Byte × Bool :=
  (s.spaceRead x.key x.space (x.readAt die) n, s.spacePoisoned x.space (x.readAt die) n)

/-- Sets DIRTY in the stage-2 leaf (R154, R207). -/
def State.markDirty (s : State) (x : Xlat) : State :=
  let e := BitVec.ofNat 64 (numOf (readMem s.dram x.leaf 8)) ||| (1#64 <<< 52)
  { s with dram := writeMem s.dram x.leaf (bytesOf e.toNat 8) }

/-- Writes bytes through a translation: every copy, and DIRTY (R147, R154). -/
def State.writeX (s : State) (x : Xlat) (bs : List Byte) (carried : Bool) : State :=
  (x.writeAt.foldl (fun s a => s.spaceWrite x.key x.space a bs carried) s).markDirty x

/-- The home of a line: the slices of gangs 0 to 15 for DRAM (R145), IO (20) for host memory. -/
def Xlat.home (x : Xlat) : Nat :=
  match x.space with
  | .dram => 4 * (x.pa / Config.dieBytes) + (x.pa / 256) % 4
  | .vault => 16 + x.pa / Config.vaultDie
  | .host => 20

end Sys2Proof.Machine
end

