-- ==== Sys2Proof/Machine/Ops.lean ====
section
/-! DEFINITION. The named operations over memory, outstanding operations, error logs and gang items, and the shared
operations that take a trap and return from one (R159 to R170, R265 to R284, R333 to R349). -/

namespace Sys2Proof.Machine

/-! ### Error logs (R197, R198, R348) -/

/-- Writes an entry to the physical log; one that overwrites the oldest advances the wrap count, which the entry carries
(R198, R214). -/
def State.logPhysical (s : State) (e : ErrEntry) : State :=
  let wrap := if (s.plog.look s.plogNext).isSome then s.plogWrap + 1 else s.plogWrap
  { s with plog := s.plog.ins s.plogNext (e, wrap), plogNext := (s.plogNext + 1) % 2048, plogWrap := wrap }

/-- The physical log takes an event for which the spec states no cause code: the code is a free value (R217, R359; log
entry 4). -/
def State.logDevice (s : State) : State :=
  ({ s with fresh := s.fresh + 1 } : State).logPhysical
    ⟨(Config.freeWord s.fresh).toNat % 65536, 0xFFFF, 0, 0xFFFFFFFF, 0, 0, s.now, 0⟩

/-- Puts an entry into a virtual error queue, or counts an overflow of a full one; `irq` says whether it raises MSI-X
vector 0 (R198, R348). -/
def ErrQueue.put (q : ErrQueue) (e : ErrEntry) (irq : Bool) : ErrQueue :=
  let q := { q with pendingIrq := q.pendingIrq || irq }
  if q.depth ≤ q.entries.length then { q with overflow := if q.overflow = 0xFFFFFFFF then q.overflow else q.overflow + 1 }
  else { q with entries := q.entries ++ [{ e with seq := q.seq }], seq := q.seq + 1 }

/-- The virtual error queue of a function (R183); one that no launch queue has given a depth holds 64 entries. -/
def State.errQueue (s : State) (fn : Nat) : ErrQueue := s.errqs.rd (.blank 64) fn

/-- The physical address of a guest address, for the physical log (R198): 0 where the entry has no address; a free value where
it has no physical one (log entry 4). -/
def State.physical (s : State) (ctx : Option Nat) (a : Addr) : Addr :=
  if a = 0 then 0
  else
    match ctx.map (fun c => s.walkBoth c a) with
    | some (.ok (x, _)) => BitVec.ofNat 64 x.pa
    | _ => Config.freeWord s.fresh

/-- F4 logs an event of a partition, with the context that its address belongs to; while F4 is being updated it is kept in its
buffer of 256 events (R361). The physical log takes physical addresses (R198). -/
def State.logError (s : State) (part : Nat) (ctx : Option Nat) (e : ErrEntry) (irq : Bool) : State :=
  let e := { e with time := s.now }
  let s := { s.logPhysical { e with addr := s.physical ctx e.addr } with fresh := s.fresh + 1 }
  match s.parts.look part with
  | none => s
  | some p =>
    if (s.fw.rd .blank 4).updating.isSome then
      if s.f4buf.length < 256 then { s with f4buf := s.f4buf ++ [(p.info.fn, e)] }
      else
        let q := s.errQueue p.info.fn
        { s with errqs := s.errqs.ins p.info.fn { q with dropped := q.dropped + 1 } }
    else { s with errqs := s.errqs.ins p.info.fn ((s.errQueue p.info.fn).put e irq) }

/-- The entry of an event of a gang item, and the item's partition. -/
def State.itemEntry (s : State) (item cause flags : Nat) (addr : Addr) : Nat × ErrEntry :=
  match s.items.look item with
  | none => (0, ⟨cause, 0xFFFF, 0, 0xFFFFFFFF, flags, addr, 0, 0⟩)
  | some it =>
    match s.launches.look it.launch with
    | none => (0, ⟨cause, 0xFFFF, 0, BitVec.ofNat 32 it.index, flags, addr, 0, 0⟩)
    | some la => (la.part, ⟨cause, la.q, la.id, BitVec.ofNat 32 it.index, flags, addr, 0, 0⟩)

/-- The context of a gang item. -/
def State.itemCtx (s : State) (item : Nat) : Option Nat :=
  (s.items.look item).bind (fun it => (s.launches.look it.launch).map (·.ctx))

/-- F4 logs an event of a gang item. -/
def State.logItem (s : State) (item cause flags : Nat) (addr : Addr) : State :=
  let (part, e) := s.itemEntry item cause flags addr
  s.logError part (s.itemCtx item) e (cause != 0xFF)

/-! ### Predecessors (R160 to R162) -/

/-- The bytes that an operation names: place and length. -/
def Op.ranges (o : Op) : List (Place × Nat) :=
  match o.kind with
  | .load p f _ => [(p, f.bytes)]
  | .store p data => [(p, data.length)]
  | .atomic p a _ | .release p a _ _ | .acquire p _ a _ _ _ | .acquired p a _ _ => [(p, if a.wide then 8 else 4)]
  | .copy d s n c _ => [(d, n), (s, n)] ++ (match c with | some p => [(p, 8)] | none => [])
  | .cwait p _ _ | .cread p _ => [(p, 8)]
  | _ => []

/-- What an operation touches (R161, R288). -/
def Op.extents (o : Op) : List Extent :=
  match o.kind with
  | .command _ _ _ es => es
  | _ => o.ranges.map (fun (p, n) => .bytes p n)

/-- Two ranges of numbers share one. -/
def rangesMeet (a n b m : Nat) : Bool := decide (0 < n) && decide (0 < m) && decide (a < b + m) && decide (b < a + n)

/-- Two extents share a byte, of memory or of a tile, or an accumulator, whose cnt and STAT every command of it shares; memory that
only a record tells may be any. Global bytes are compared by context and virtual address: two names of one physical byte are not
seen to meet (the model's choice; log entry 57). -/
def overlap : Extent → Extent → Bool
  | .bytes (.scratch b o _) n, .bytes (.scratch b' o' _) n' => b == b' && rangesMeet o n o' n'
  | .bytes (.global c a) n, .bytes (.global c' a') n' => c == c' && rangesMeet a.toNat n a'.toNat n'
  | .tile t r n c m, .tile t' r' n' c' m' => t == t' && rangesMeet r n r' n' && rangesMeet c m c' m'
  | .acc a, .acc a' => a == a'
  | .memory, .memory | .memory, .bytes .. | .bytes .., .memory => true
  | _, _ => false

/-- An operation writes plainly to memory: lanes of one instruction are performed in lane order where they overlap
(R270). -/
def Op.isStore (o : Op) : Bool := match o.kind with | .store .. => true | _ => false

/-- The kind and the lanes of a gate instruction's operation; `GFIN` is one of the arithmetic kind. -/
def Op.gateLanes (o : Op) : Option (GateKind × LaneMask) :=
  match o.kind with
  | .gate g => some (g.kind, g.lanes)
  | .gfin lanes _ _ => some (.arith, lanes)
  | _ => none

/-- Two gate operations of one kind have a lane in common: they are performed in program order (R316). -/
def Op.sameGate (o p : Op) : Bool :=
  match o.gateLanes, p.gateLanes with
  | some (k, a), some (k', b) => k == k' && a &&& b != 0
  | _, _ => false

/-- `o` may not be performed while the earlier operation `p` of its thread group is outstanding: an edge of its mask
(R160), overlapping extents on one stream (R161), overlapping stores of one instruction (R270), or the order of a lane's gate
instructions of one kind (R316). -/
def Op.after (o p : Op) : Bool :=
  let meets := o.extents.any (fun a => p.extents.any (overlap a))
  decide (p.id < o.id) &&
    ((p.lane == o.lane && (match p.stream with | some st => o.pm.getLsbD st | none => false) && o.stream.isSome) ||
      (p.lane == o.lane && p.stream.isSome && p.stream == o.stream && meets) ||
      (p.inst == o.inst && p.isStore && o.isStore && meets) || o.sameGate p)

/-- Every operation that `o` waits for is complete. -/
def Thread.free (t : Thread) (o : Op) : Bool := !t.ops.any (fun p => o.after p)

/-- Where an operation stands: its thread and itself. -/
def State.findOp (s : State) (id : Nat) : Option (Thr × Op) :=
  s.blocks.findSome? (fun (k, b) =>
    b.threads.findSome? (fun (w, t) => (t.ops.find? (·.id == id)).map (fun o => ((⟨k, w⟩ : Thr), o))))

/-- Removes an operation from its thread, then lets it write. -/
def State.complete (s : State) (r : Thr) (o : Op) (f : Thread → Thread) : State :=
  s.updThr r (fun t => f { t with ops := t.ops.filter (·.id != o.id) })

/-- Changes an outstanding operation. -/
def State.setKind (s : State) (r : Thr) (o : Op) (k : OpKind) : State :=
  s.updThr r (fun t => { t with ops := t.ops.map (fun p => if p.id == o.id then { p with kind := k } else p) })

/-- A copy whose bytes are all performed: its flag clears, its stream count falls with the counter add (R116, R163). -/
def State.setCopied (s : State) (r : Thr) (o : Op) (k : OpKind) : State :=
  s.updThr r (fun t => { t with ops := t.ops.map (fun p => if p.id == o.id then { p with kind := k, flag := none } else p) })

/-- Puts an operation into a list in issue order. -/
def insertOp (o : Op) : List Op → List Op
  | [] => [o]
  | p :: ps => if o.id ≤ p.id then o :: p :: ps else p :: insertOp o ps

/-- Two lists of operations as one, in issue order. -/
def mergeOps (xs ys : List Op) : List Op := xs.foldr insertOp ys

/-- An operation that waits on a faulted one, outstanding or withdrawn, is cancelled (R166); an engine command is cancelled
by its engine, to which a withdrawn one returns. -/
def Thread.cascadeOne (t : Thread) (o : Op) : Thread :=
  if !(o.stream.isSome && t.doomed o) then t
  else if o.isCommand then
    { t with
      ops := if t.withdrawn.any (·.id == o.id) then insertOp o t.ops else t.ops,
      withdrawn := t.withdrawn.filter (·.id != o.id) }
  else
    { t with ops := t.ops.filter (·.id != o.id), withdrawn := t.withdrawn.filter (·.id != o.id) }.cancelOp o

/-- Cancels every operation that waits on a faulted one, in issue order (R166). -/
def Thread.cascade (t : Thread) : Thread := (mergeOps t.withdrawn t.ops).foldl Thread.cascadeOne t

/-- A fault found after issue: the operation completes as faulted, and what waits on it is cancelled (R166). -/
def State.faultOp (s : State) (r : Thr) (o : Op) (c : Cause) (addr : Addr) (stage2 : Bool) : State :=
  s.updThr r (fun t =>
    let t := { t with ops := t.ops.filter (·.id != o.id) }
    let st := o.stream.getD 0
    let t := t.markFault o (some c)
    { t with unreported := t.unreported ++ [(⟨o.id, o.lane, st, o.seq, some c, addr, stage2, o.pc⟩ : FaultRec)] }.cascade)

/-! ### Results written at completion (R116, R121) -/

/-- Writes one v register at completion, unless a later instruction wrote it. -/
def Thread.arriveV (t : Thread) (o : Op) (l r : Nat) (x : Word) : Thread :=
  if o.dropped.contains (l * 1024 + r) then t else t.landV o.id l r x

/-- Writes one predicate at completion, unless a later instruction wrote it. -/
def Thread.arriveP (t : Thread) (o : Op) (l i : Nat) (x : Bool) : Thread :=
  if o.dropped.contains (l * 1024 + 512 + i) then t else t.landP o.id l i x

/-- Writes consecutive v registers at completion. -/
def Thread.arriveVs (t : Thread) (o : Op) (r : Nat) : List Word → Thread
  | [] => t
  | x :: xs => (t.arriveV o o.lane r x).arriveVs o (r + 1) xs

/-- Writes a value of `words` words to v registers, or the whole value to a k register. -/
def Thread.arrive (t : Thread) (o : Op) (d words : Nat) (x : Addr) : Thread :=
  if t.teller then (if o.dropped.contains d then t else t.landK o.id d x)
  else t.arriveVs o d ((List.range words).map (fun j => x.extractLsb' (32 * j) 32))

/-- The words of bytes; a rest of fewer than four is filled by `fill`. -/
def wordsFrom (fill : Byte) : List Byte → List Word
  | b0 :: b1 :: b2 :: b3 :: t => (b3 ++ b2 ++ b1 ++ b0) :: wordsFrom fill t
  | [b0, b1, b2] => [fill ++ b2 ++ b1 ++ b0]
  | [b0, b1] => [fill ++ fill ++ b1 ++ b0]
  | [b0] => [fill ++ fill ++ fill ++ b0]
  | [] => []

/-- Writes a loaded value, extended as its form says (R268). -/
def Thread.arriveLoad (t : Thread) (o : Op) (f : LoadForm) (d : Nat) (bs : List Byte) : Thread :=
  let neg := f.signed && (match bs.getLast? with | some b => b.msb | none => false)
  if t.teller then
    let n : Int := numOf bs
    t.arrive o d 2 (BitVec.ofInt 64 (if neg then n - (2 ^ (8 * bs.length) : Nat) else n))
  else t.arriveVs o d (wordsFrom (if neg then 0xFF else 0) bs)

/-- Writes the results of a computed operation. -/
def Thread.arriveAll (t : Thread) (o : Op) : List DReg → Thread
  | [] => t
  | .v l r x :: rs => (t.arriveV o l r x).arriveAll o rs
  | .p l i x :: rs => (t.arriveP o l i x).arriveAll o rs

/-! ### Places (R137 to R142) -/

/-- A place resolved: a block's scratchpad, or a translation. -/
inductive Target where
  | scratch (block off : Nat)
  | mem (x : Xlat)
deriving DecidableEq, Repr

/-- The resolution of a place: a target, a fault with its stage, a wait (a gang member not yet started, or host memory while
DMA is off), or an absent host page. -/
inductive Res where
  | ok (t : Target)
  | fault (c : Cause) (stage2 : Bool)
  | wait
  | absent (page : Nat)
deriving DecidableEq, Repr

/-- The partition's DMA to host memory is allowed: not while its TDI is locked or in error (R354). -/
def State.hostDma (s : State) (ctx : Nat) : Bool :=
  match (s.ctxs.look ctx).bind (fun c => s.parts.look c.part) with
  | none => true
  | some p => let t := (s.tdis.rd .blank p.info.fn).state; t == .unlocked || t == .run

/-- Resolves a place for n bytes (R138, R139, R141, R148); a target that `allow` refuses raises PROT. -/
def State.resolve (s : State) (core : Nat) (xl : Option Xlat) (p : Place) (n : Nat) (need : Need)
    (allow : Target → Bool) : Res :=
  match p with
  | .scratch k off _ =>
    match s.blk k with
    | none => .fault .prot false
    | some b =>
      if b.run == .posted then .wait
      else if b.scratchBytes < off + n then .fault .prot false
      else if allow (.scratch k off) then .ok (.scratch k off) else .fault .prot false
  | .global ctx va =>
    let r := match xl with
      | some x => x.permitted need
      | none => s.xlate core ctx va need
    match r with
    | .ok x =>
      if !allow (.mem x) then .fault .prot true
      else if x.space == .host && !s.hostDma ctx then .wait
      else .ok (.mem x)
    | .fault c st => .fault c st
    | .absent pg => .absent pg

/-- The address that a place's fault reports. -/
def Place.addr : Place → Addr
  | .scratch _ _ a => a
  | .global _ va => va

/-- A plain access: every target but the vault (R142). -/
def plainOk : Target → Bool
  | .scratch .. => true
  | .mem x => x.space != .vault

/-- A counter's targets: no replicated and no vault page (R215, R283). -/
def counterOk : Target → Bool
  | .scratch .. => true
  | .mem x => x.space != .vault && !x.repl

/-- An atomic's targets (R276): on host memory only FetchAdd, Swap and CAS. -/
def atomicOk (a : AtomSpec) : Target → Bool
  | .scratch .. => true
  | .mem x => !x.repl && (x.space == .dram || (x.space == .host && (a.op == 0 || a.op == 7 || a.op == 8)))

/-- A release's targets (R277): no scratchpad; on host memory a plain write or the AtomicOps. -/
def releaseOk (a : AtomSpec) : Target → Bool
  | .scratch .. => false
  | .mem x =>
    !x.repl && (x.space == .dram || (x.space == .host && (a.op == 0 || a.op == 7 || a.op == 8 || a.op == 9)))

/-- An acquire's targets (R278). -/
def acquireOk (f : AcqForm) : Target → Bool
  | .scratch .. => false
  | .mem x => !x.repl && (x.space == .dram || (x.space == .host && f != .waitge))

/-- The target lies on IO. -/
def Target.onHost : Target → Bool
  | .scratch .. => false
  | .mem x => x.space == .host

/-- One of n bytes of a block's scratchpad is poisoned (R349). -/
def Block.linePoisoned (b : Block) (off n : Nat) : Bool := (linesOf off n).any (fun l => b.poisonedLines.rd false l)

/-- Writes bytes to a block's scratchpad: carried poison marks every line touched, and a line written whole loses its poison
(R349). -/
def Block.writeScratch (b : Block) (off : Nat) (bs : List Byte) (carried : Bool) : Block :=
  { b with scratch := writeMem b.scratch off bs, poisonedLines := repoison b.poisonedLines off bs.length carried }

/-- Reads n bytes of a target with their poison. -/
def State.readT (s : State) (die : Nat) (t : Target) (n : Nat) : List Byte × Bool :=
  match t with
  | .scratch k off =>
    match s.blk k with
    | none => ([], false)
    | some b => (readMem b.scratch off n, b.linePoisoned off n)
  | .mem x => s.readX die x n

/-- Writes bytes to a target. -/
def State.writeT (s : State) (t : Target) (bs : List Byte) (carried : Bool) : State :=
  match t with
  | .scratch k off => s.updBlk k (·.writeScratch off bs carried)
  | .mem x => s.writeX x bs carried

/-- Writes bytes to a target from the device's own side: one to host memory leaves IO as a posted write, with the Relaxed
Ordering attribute unless it is a `.sys` release (R179). -/
def State.sendT (s : State) (t : Target) (bs : List Byte) (carried relaxed : Bool) : State :=
  let u := s.writeT t bs carried
  match t with
  | .mem x => if x.space = .host then { u with toHost := u.toHost ++ [.postedWrite x.pa bs carried relaxed] } else u
  | .scratch .. => u

/-! ### Gang items: commit marks, kills, context errors (R339, R344 to R347) -/

/-- Changes a gang item. -/
def State.updItem (s : State) (k : Nat) (f : Item → Item) : State := { s with items := s.items.upd k f }

/-- Sets the commit mark of a block's item (R345). -/
def State.commit (s : State) (block : Nat) : State :=
  match s.blk block with
  | none => s
  | some b => s.updItem b.item (fun it => { it with commit := true })

/-- The writes of a killed thread that have left its core: their predecessors were met (R346). -/
def Thread.strays (t : Thread) (gen key : Nat) : List Stray :=
  (t.ops.filter (fun o =>
    t.free o && (match o.kind with
      | .store .. | .atomic .. | .release .. | .copy .. | .acquire _ .cas .. | .acquire _ .xchg .. => true
      | _ => false))).map (fun o => ⟨gen, key, o⟩)

/-- A thread halted by a kill: nothing outstanding, nothing armed, no trap due. -/
def Thread.halt (t : Thread) : Thread :=
  { t with
    ops := [], armed := [], firing := [], firedWait := [], clause := none, hold := .none, handler := none, due := none, recorded := [],
    unreported := [], withdrawn := [], opbuf := [] }

/-- A block halted at once by a kill, its gate state zeroed (R313, R344). -/
def Block.halt (b : Block) : Block :=
  { b.mapThreads Thread.halt with
    run := .killed, saved := [], stopped := [], evicted := [], gate := b.gate.map (fun _ => ⟨0, [], [], [], [], [], [], []⟩) }

/-- An engine without the commands of a block. -/
def Engine.without (e : Engine) (key : Nat) : Engine :=
  let q := e.queue.filter (·.block != key)
  match e.cur with
  | some c => if c.block = key then { Engine.blank with queue := q } else { e with queue := q }
  | none => { e with queue := q }

/-- Halts the blocks of an item, drops its queued commands and disarms its sends (R344). -/
def State.haltItem (s : State) (item : Nat) : State :=
  s.blocks.foldl
    (fun s (k, b) =>
      if b.item ≠ item ∨ b.run = .killed then s
      else
        { s.updBlk k Block.halt with
          strays := s.strays ++ b.threads.flatMap (fun (_, t) => t.strays b.gen k),
          engines := s.engines.map (fun (i, e) => (i, e.without k)) }) s

/-- An item that can still be killed. -/
def Item.alive (it : Item) : Bool := it.life == .posted || it.life == .running

/-- Kills one part: halts it and logs the kill, with its relaunch or its context error (R344, R345, R348). -/
def State.killPart (s : State) (item cause : Nat) (again : Bool) (addr : Addr) : State :=
  (((s.haltItem item).updItem item (fun it => { it with life := .killed, cause, again }))).logItem item cause
    (if again then 2 else 4) addr

/-- A relaunch is allowed for an item (R345). -/
def Item.relaunchable (it : Item) : Bool := !it.commit && decide (it.relaunch < 2)

/-- A gang item is killed (R344), or ends as a context error with no relaunch; a joint peer ends with it, and the pair
is relaunched only together (R347). -/
def State.killItem (s : State) (item cause : Nat) (mayRelaunch : Bool) (addr : Addr) : State :=
  match s.items.look item with
  | none => s
  | some it =>
    if !it.alive then s
    else
      match it.peer.bind (fun p => (s.items.look p).map (fun q => (p, q))) with
      | none => s.killPart item cause (mayRelaunch && it.relaunchable) addr
      | some (p, q) =>
        let again := mayRelaunch && it.relaunchable && q.relaunchable && q.alive
        let s := s.killPart item cause again addr
        if q.alive then s.killPart p 0x0142 again 0 else s

/-- The item of a block consumes poison (R349). -/
def State.consumePoison (s : State) (block : Nat) (addr : Addr) : State :=
  match s.blk block with
  | none => s
  | some b => s.killItem b.item 0x0111 true addr

/-! ### Early trigger and early thread ends (R60, R74) -/

/-- Every lane of a thread group has performed `ETRIG` or exited. -/
def Thread.counted (t : Thread) : Bool := (t.triggered ||| t.exited) &&& t.allLanes == t.allLanes

/-- The launch has bound or discarded every item, and none waits to be bound again. -/
def Launch.allBound (la : Launch) : Bool := decide (la.nitems ≤ la.nextItem) && la.requeued.isEmpty

/-- Every lane and every teller of an item's blocks has performed `ETRIG` or exited; a killed block stands as at the kill. -/
def State.itemCounted (s : State) (k : Nat) : Bool :=
  s.blocks.all (fun (_, b) => b.item != k || b.run == .retired || b.threads.all (fun (_, t) => t.counted))

/-- Every thread of the bound items of a launch counts toward its trigger (R74); those of an item that was killed count as they
stood at the kill, unless the item is to be bound again. -/
def State.allCounted (s : State) (launch : Nat) : Bool :=
  s.items.all (fun (k, it) =>
    it.launch != launch ||
      (match it.life with
        | .posted | .waiting => false
        | .running => s.itemCounted k
        | .killed => !it.again && s.itemCounted k
        | .done => it.cause == 0 || it.counted))

/-- Marks a launch triggered once its conditions hold (R74); a cancelled one triggers with its completion record (R192). -/
def State.checkTrigger (s : State) (launch : Nat) : State :=
  { s with
    launches := s.launches.upd launch (fun la =>
      if !la.triggered && !la.cancelled && !la.refused && la.allBound && s.allCounted launch then { la with triggered := true } else la) }

/-- Checks the trigger of the launch of a block. -/
def State.checkBlockTrigger (s : State) (block : Nat) : State :=
  match (s.blk block).bind (fun b => s.items.look b.item) with
  | none => s
  | some it => s.checkTrigger it.launch

/-! ### Atomic updates (R274, R275) -/

/-- Bits of an atomic's operand width. -/
def AtomSpec.bits (a : AtomSpec) : Nat := if a.wide then 64 else 32

/-- The new value of an atomic update from the old (R274). -/
def AtomSpec.new (a : AtomSpec) (old : Addr) : Addr :=
  let y : IntTy := ⟨a.bits, a.signed⟩
  let b := a.b
  match a.op with
  | 0 => y.put (y.ext old + y.ext b)
  | 1 => if y.ext old ≤ y.ext b then old else b
  | 2 => if y.ext old ≤ y.ext b then b else old
  | 3 => old &&& b
  | 4 => old ||| b
  | 5 => old ^^^ b
  | 6 =>
    BitVec.ofNat 64 (Fmt.f32.put .rne a.mode
      ((Fmt.f32.xin a.mode (old.toNat % 2 ^ 32)).add .rne (Fmt.f32.xin a.mode (b.toNat % 2 ^ 32))))
  | 8 => if old.toNat % 2 ^ a.bits = b.toNat % 2 ^ a.bits then a.c else old
  | _ => b

/-- The old value as written to a destination: extended by TY in a k register (R274). -/
def AtomSpec.returned (a : AtomSpec) (old : Addr) : Addr := (⟨a.bits, a.signed⟩ : IntTy).put ((⟨a.bits, a.signed⟩ : IntTy).ext old)

/-- A write leaves IO with the Relaxed Ordering attribute unless it is a `.sys` release (R179). -/
def Op.relaxed (o : Op) : Bool := match o.kind with | .release _ _ _ scope => scope != 4 | _ => true

/-- Writes what an atomic gives at a resolved target; one on host memory leaves IO as an AtomicOp (R179, R276). -/
def State.writeAtomic (s : State) (t : Target) (bs : List Byte) (op : Nat) (relaxed : Bool) : State :=
  let u := s.writeT t bs false
  match t with
  | .mem x => if x.space = .host then { u with toHost := u.toHost ++ [.atomicOp x.pa op relaxed] } else u
  | .scratch .. => u

/-- Performs an atomic update at a resolved target: reads, writes, and gives the old value to a destination. -/
def State.doAtomic (s : State) (r : Thr) (b : Block) (o : Op) (t : Target) (a : AtomSpec) (rtn : Option Nat) : State :=
  let (bs, poison) := s.readT (b.core / 16) t (a.bits / 8)
  if poison then s.consumePoison r.block 0
  else
    let old := BitVec.ofNat 64 (numOf bs)
    let s := s.writeAtomic t (bytesOf (a.new old).toNat (a.bits / 8)) a.op o.relaxed
    s.complete r o (fun t =>
      match rtn with
      | some d => t.arrive o d (if a.wide then 2 else 1) (a.returned old)
      | none => t)

/-- An `FADD` to global memory that returns no old value: the atomic whose merging in the routers shows (R176). -/
def OpKind.fadd? : OpKind → Option (Place × AtomSpec)
  | .atomic (.global c v) a none => if a.op = 6 then some (.global c v, a) else none
  | _ => none

/-- The outstanding operations that the routers may merge with an `FADD`: `FADD`s to its address that return nothing,
have its scope, sampled the same FI32 and FO32, and have met their predecessors (R176). -/
def State.mergeable (s : State) (o : Op) : List (Thr × Op × AtomSpec) :=
  match o.kind.fadd? with
  | none => []
  | some (p, a) =>
    s.blocks.flatMap (fun (k, b) => b.threads.flatMap (fun (w, t) =>
      t.ops.filterMap (fun q =>
        match q.kind.fadd? with
        | some (p', a') =>
          if q.id ≠ o.id ∧ p' = p ∧ a'.scope = a.scope ∧ Fmt.f32.fi a'.mode = Fmt.f32.fi a.mode ∧ Fmt.f32.fo a'.mode = Fmt.f32.fo a.mode ∧
            t.free q = true then some ((⟨k, w⟩ : Thr), q, a') else none
        | none => none)))

/-- Operands added in pairs until one is left, each sum rounded; free words choose the pairs (R176: a tree order that is
not defined). -/
def mergeTree (add : Addr → Addr → Addr) : Nat → Nat → List Addr → Addr
  | 0, _, l => l.headD 0
  | n + 1, k, l =>
    match l with
    | [] => 0
    | [x] => x
    | _ =>
      let i := (Config.freeWord k).toNat % l.length
      let rest := l.eraseIdx i
      let j := (Config.freeWord (k + 1)).toNat % rest.length
      mergeTree add n (k + 2) (add (l.getD i 0) (rest.getD j 0) :: rest.eraseIdx j)

/-- The routers merge an `FADD` with others on their way to its home: free words choose which, the others complete with
it, and it carries their sum (R95, R176). -/
def State.mergeFadd (s : State) (o : Op) (a : AtomSpec) : State × AtomSpec :=
  let all := s.mergeable o
  let taken := (all.zipIdx.filter (fun (_, i) => (Config.freeWord (s.fresh + i)).getLsbD 0)).map Prod.fst
  let sum := mergeTree (fun x y => { a with b := y }.new x) taken.length (s.fresh + all.length)
    (a.b :: taken.map (fun (_, _, a') => a'.b))
  (taken.foldl (fun s (r, q, _) => s.complete r q id) { s with fresh := s.fresh + 3 * all.length }, { a with b := sum })

/-- Performs an `ATOM` or `CAS` at its home; an `FADD` may come merged with others (R176). A read that finds poison merges
nothing. -/
def State.doAtom (s : State) (r : Thr) (b : Block) (o : Op) (t : Target) (a : AtomSpec) (rtn : Option Nat) : State :=
  if (s.readT (b.core / 16) t (a.bits / 8)).2 then s.doAtomic r b o t a rtn
  else
    let (s, a) := s.mergeFadd o a
    s.doAtomic r b o t a rtn

/-! ### Performing an operation (R159, R162) -/

/-- The host is asked for a page, unless the same access waits for one already or 256 requests are outstanding (R151). -/
def State.askPage (s : State) (who : Asker) (ctx page : Nat) : State :=
  if s.pri.any (·.owner == who) || decide (Config.priLimit ≤ s.pri.length) then s
  else
    { s with
      pri := s.pri ++ [⟨s.nextId, who, ctx, page⟩], toHost := s.toHost ++ [.pageRequest s.nextId], nextId := s.nextId + 1 }

/-- The host has refused a page to an access, which then raises XLATE (R151). -/
def State.isRefused (s : State) (who : Asker) (page : Nat) : Bool := s.refused.contains (who, page)

/-- A refusal that an access has met is over. -/
def State.forget (s : State) (who : Asker) : State := { s with refused := s.refused.filter (fun (w, _) => w != who) }

/-- The context of a block. -/
def State.ctxOf (s : State) (block : Nat) : Nat := match s.blk block with | some b => b.ctx | none => 0

/-- An operation whose place did not resolve: it faults, waits, or asks the host for its page (R151, R166). -/
def State.unresolved (s : State) (r : Thr) (o : Op) (p : Place) : Res → State
  | .ok _ => s
  | .fault c st => s.faultOp r o c p.addr st
  | .wait => s
  | .absent pg =>
    if s.isRefused (.op o.id) pg then (s.forget (.op o.id)).faultOp r o .xlate p.addr false
    else s.askPage (.op o.id) (s.ctxOf r.block) pg

/-- The TLBs take the translation of a place (R149). -/
def State.fillPlace (s : State) (core : Nat) : Place → State
  | .scratch .. => s
  | .global ctx va => s.fillTlb core ctx va

/-- Poison forwarding of a partition's function is on for the way to a host page, PCIe or CXL (R350). -/
def State.forwards (s : State) (part page : Nat) : Bool :=
  match s.parts.look part with
  | some p => let t := s.tdis.rd .blank p.info.fn; if Config.overCxl page then t.fwdCxl else t.fwdPcie
  | none => false

/-- The host write of poisoned bytes is dropped while forwarding is off (R350). -/
def State.poisonBlocked (s : State) (part : Nat) (t : Target) (poison : Bool) : Bool :=
  poison && (match t with | .mem x => x.space == .host && !s.forwards part (x.pa / 4096) | .scratch .. => false)

/-- A per-lane copy: destination, source and counter are checked in this order, then the bytes are read and written (R281,
R282). -/
def State.doCopy (s : State) (r : Thr) (b : Block) (o : Op) (dst src : Place) (n : Nat) (ctr : Option Place) : State :=
  match s.resolve b.core none dst n 2 plainOk with
  | .ok td =>
    match s.resolve b.core none src n 1 plainOk with
    | .ok ts =>
      match ctr.map (fun p => (p, s.resolve b.core none p 8 3 counterOk)) with
      | some (p, .fault c st) => s.faultOp r o c p.addr st
      | some (_, .wait) => s
      | some (p, .absent pg) => s.unresolved r o p (.absent pg)
      | ok =>
        let (bs, poison) := s.readT (b.core / 16) ts n
        if s.poisonBlocked b.part td poison then s.killItem b.item 0x0112 true dst.addr
        else
          let s := s.sendT td bs poison true
          if ok.isSome then s.setCopied r o (.copy dst src n ctr true) else s.complete r o id
    | e => s.unresolved r o src e
  | e => s.unresolved r o dst e

/-- Adds n to the N64 counter at a resolved target (R215). -/
def State.addCounter (s : State) (die : Nat) (t : Target) (n : Nat) : State :=
  s.sendT t (bytesOf (numOf (s.readT die t 8).1 + n) 8) false true

/-- The value of a counter at a resolved target. -/
def State.counterValue (s : State) (die : Nat) (t : Target) : Addr := BitVec.ofNat 64 (numOf (s.readT die t 8).1)

/-- Performs an operation whose predecessors are complete; what is performed by another event stays. The spec does not say
whether a `PREF` of a host page that is absent has the page asked for: it completes with no request (the model's choice; log
entry 81). -/
def State.perform (s : State) (r : Thr) (b : Block) (o : Op) : State :=
  match o.kind with
  | .load p f d =>
    match s.resolve b.core o.xl p f.bytes 1 plainOk with
    | .ok t =>
      let (bs, poison) := s.readT (b.core / 16) t f.bytes
      if poison then s.consumePoison r.block p.addr
      else (s.fillPlace b.core p).complete r o (fun t => t.arriveLoad o f d bs)
    | e => s.unresolved r o p e
  | .store p data =>
    match s.resolve b.core o.xl p data.length 2 plainOk with
    | .ok t => ((s.fillPlace b.core p).sendT t data false true).complete r o id
    | e => s.unresolved r o p e
  | .prefetch p =>
    match s.resolve b.core o.xl p 1 1 plainOk with
    | .ok _ => (s.fillPlace b.core p).complete r o id
    | _ => s.complete r o id
  | .atomic p a rtn =>
    match s.resolve b.core o.xl p (a.bits / 8) 3 (atomicOk a) with
    | .ok t => if t.onHost then s else (s.fillPlace b.core p).doAtom r b o t a rtn
    | e => s.unresolved r o p e
  | .acquire p form a d scope _ =>
    match s.resolve b.core o.xl p (a.bits / 8) (if form = .waitge then 1 else 3) (acquireOk form) with
    | .ok t =>
      if t.onHost then s
      else if form = .waitge then
        let (bs, poison) := s.readT (b.core / 16) t (a.bits / 8)
        let y : IntTy := ⟨a.bits, a.signed⟩
        let v := BitVec.ofNat 64 (numOf bs)
        if poison then s.consumePoison r.block p.addr
        else if y.ext a.b ≤ y.ext v then
          (s.fillPlace b.core p).complete r o (fun t => t.arrive o d (if a.wide then 2 else 1) (a.returned v))
        else s.setKind r o (.acquire p form a d scope true)
      else (s.fillPlace b.core p).doAtomic r b o t a (some d)
    | e => s.unresolved r o p e
  | .acquired p a d v =>
    (s.fillPlace b.core p).complete r o (fun t => t.arrive o d (if a.wide then 2 else 1) (a.returned v))
  | .etrig _ =>
    (s.complete r o (fun t => { t with triggered := t.triggered ||| laneBit o.lane })).checkBlockTrigger r.block
  | .copy dst src n ctr written => if written then s else s.doCopy r b o dst src n ctr
  | .cread p d =>
    match s.resolve b.core o.xl p 8 1 counterOk with
    | .ok t =>
      let (bs, poison) := s.readT (b.core / 16) t 8
      if poison then s.consumePoison r.block p.addr
      else (s.fillPlace b.core p).complete r o (fun t => t.arrive o d 2 (BitVec.ofNat 64 (numOf bs)))
    | e => s.unresolved r o p e
  | .compute rs => s.complete r o (fun t => t.arriveAll o rs)
  | .release .. | .cwait .. | .gate .. | .gfin .. | .command .. => s

/-- Performs an operation by number if it is outstanding and its predecessors are complete. -/
def State.performOp (s : State) (id : Nat) (f : Thr → Block → Op → State) : State :=
  match s.findOp id with
  | none => s
  | some (r, o) =>
    match s.blk r.block, s.thr r with
    | some b, some t => if t.free o then f r b o else s
    | _, _ => s

/-! ### Traps (R333 to R339) -/

/-- The code of a cause (R333). -/
def Cause.code : Cause → Nat
  | .ill => 1
  | .trit => 2
  | .xlate => 3
  | .prot => 4
  | .window => 5
  | .align => 6
  | .btab => 7
  | .stream => 8
  | .shareMode => 9
  | .sharePolicy => 10
  | .bkpt => 11
  | .trap => 12

/-- The handler address that TRAPBASE holds, in canonical form (R128). -/
def handlerAddr (trapbase : Addr) : Addr := ((trapbase.extractLsb' 2 55 ++ (0 : BitVec 2)) : BitVec 57).signExtend 64

/-- The earliest record of a list by issue sequence number (R336). -/
def earliest : List FaultRec → Option FaultRec
  | [] => none
  | r :: t =>
    match earliest t with
    | none => some r
    | some q => some (if seqBefore q.seq r.seq then q else r)

/-- A field of the frame: its offset and its bytes. -/
abbrev FrameField := Nat × List Byte

/-- The frame of a trap (R336) as offset and bytes of each field; bytes not named are 0. -/
def frameFields (t : Thread) (d : TrapRec) (now : BitVec 48) : List FrameField :=
  let ls := lanesOf d.lanes
  let low := ls.headD 0
  let stream := d.cause == .stream
  let faults := fun l => t.unreported.filter (fun r => r.lane == l)
  let real := fun l => (faults l).filter (fun r => r.cause.isSome)
  let kind := earliest (real low)
  let fpc := match stream, kind with | true, some r => r.pc | _, _ => d.fpc
  let kindByte := match stream, kind.bind (·.cause) with | true, some c => c.code | _, _ => 0
  let addr := fun l =>
    if stream then (match earliest (real l) with | some r => r.addr | none => 0) else d.addrs.rd 0 l
  let strm := fun i =>
    (if (t.sflt.rd 0 low).getLsbD i then 2 ^ 8 else 0) +
      (match t.first.look (low * 8 + i) with
        | some (q, c) => q.toNat * 2 ^ 16 + (match c with | some c => c.code | none => 8) * 2 ^ 32
        | none => 0)
  let held := (List.range 32).filter (fun l => !d.lanes.getLsbD l && (t.waits.look l).isSome)
  [(0, bytesOf d.cause.code 2), (2, bytesOf kindByte 1), (3, bytesOf d.code 1), (4, bytesOf d.lanes.toNat 4),
   (8, bytesOf fpc.toNat 8), (16, bytesOf d.rpc.toNat 8), (24, bytesOf (maskOfLanes held).toNat 4),
   (28, bytesOf (if t.teller then 0 else t.exited.toNat) 4), (32, bytesOf now.toNat 6)]
    ++ ls.map (fun l => (64 + 8 * l, bytesOf (addr l).toNat 8))
    ++ (List.range 8).map (fun i => (320 + 8 * i, bytesOf (strm i) 8))
    ++ (List.range 12).map (fun n => (388 + 4 * n, bytesOf (t.mr n).toNat 4))

/-- Writes a frame over 512 zeroed bytes at an offset of a scratchpad (R335, R336). -/
def writeFrame (m : Mem) (off : Nat) (fs : List FrameField) : Mem :=
  fs.foldl (fun m (o, bs) => writeMem m (off + o) bs) (writeMem m off (List.replicate 512 0))

/-- The offset of a thread's frame (R335). -/
def Block.frameAt (b : Block) (w : Option Nat) : Nat := b.scratchBytes - 512 * ((match w with | some w => w | none => b.warpN) + 1)

/-- A trap reports a fault: STREAM the faults of its lanes; a teller's TRIT the `VLD` fault that it names, and the
cancellations that came with it (R293, R337). -/
def TrapRec.reports (d : TrapRec) (teller : Bool) (r : FaultRec) : Bool :=
  match d.cause with
  | .stream => d.lanes.getLsbD r.lane
  | .trit => teller && (r.cause.isNone || (r.cause == some .trit && r.pc == d.fpc && r.addr == d.addrs.rd 0 0))
  | _ => false

/-- Enters handler mode: handler lanes go to the handler, every other lane is held, and the faults that the frame reports
are no longer unreported (R334, R337). -/
def Thread.enter (t : Thread) (d : TrapRec) (h : Addr) : Thread :=
  { t with
    lpc := (lanesOf d.lanes).foldl (fun p l => p.wr 0 l (if t.teller then h + 0x1000 else h)) t.lpc,
    handler := some ⟨d.lanes, 0, d.rpc, d.saved, t.withdrawn⟩,
    withdrawn := [],
    due := none,
    opbuf := [],
    unreported := t.unreported.filter (fun r => !d.reports t.teller r) }

/-- A trap that ends its gang item: the trap and the context error are logged, and the item ends (R339, R348). -/
def State.contextError (s : State) (item : Nat) (d : TrapRec) (cause : Nat) : State :=
  let addr := d.addrs.rd 0 ((lanesOf d.lanes).headD 0)
  (s.logItem item d.cause.code (if d.stage2 then 1 else 0) addr).killItem item cause false addr

/-- Takes the trap due on a thread whose operations are all complete: the frame is written and the handler entered, or
the gang item ends as a context error (R334 to R336, R339). -/
def State.takeTrap (s : State) (r : Thr) (b : Block) (t : Thread) (d : TrapRec) : State :=
  if t.handler.isSome then s.contextError b.item d 0x0101
  else if handlerAddr b.trapbase = 0 then s.contextError b.item d 0x0100
  else if b.scratchBytes < 512 * (b.warpN + 1) then s.contextError b.item d 0x0102
  else
    (s.updBlk r.block (fun b =>
      { b with
        scratch := writeFrame b.scratch (b.frameAt r.warp) (frameFields t d s.now),
        poisonedLines := repoison b.poisonedLines (b.frameAt r.warp) 512 false })).updThr r
        (fun t => t.enter d (handlerAddr b.trapbase))

/-- The RPC that a frame holds (R336). -/
def Block.frameRpc (b : Block) (w : Option Nat) : Addr := BitVec.ofNat 64 (numOf (readMem b.scratch (b.frameAt w + 16) 8))

/-- The RPC of a frame lies in a scratchpad line that holds poison (R349). -/
def Block.frameRpcPoisoned (b : Block) (w : Option Nat) : Bool := b.linePoisoned (b.frameAt w + 16) 8

/-- `RTE`'s effect on its clause: the executing lanes go to RPC at the clause end, and have then returned (R338). -/
def Thread.returnTo (t : Thread) (ls : List Nat) (rpc : Addr) : Thread :=
  t.inClause (fun c =>
    { c with jumps := ls.foldl (fun m l => m.ins l rpc) c.jumps, returns := c.returns ||| maskOfLanes ls })

/-- The engine that performs a command. -/
def Op.engine (o : Op) : Option (Nat × Nat) := match o.kind with | .command core eng _ _ => some (core, eng) | _ => none

/-- Two commands of one engine are performed in the order of its queue (R164). -/
def Op.queuedAfter (o p : Op) : Bool := decide (p.id < o.id) && o.engine.isSome && o.engine == p.engine

/-- The outstanding operations that wait, directly or through others, on some of a list, and those of the list themselves
(R160, R161, R164). -/
def Thread.behind (t : Thread) (roots : List Op) : List Op :=
  t.ops.foldl (fun out o =>
    if (roots ++ out).any (fun p => p.id == o.id || o.after p || o.queuedAfter p) then out ++ [o] else out) []

/-- Takes operations out of those outstanding, to be issued again. -/
def Thread.setAside (t : Thread) (out : List Op) : Thread :=
  { t with ops := t.ops.filter (fun o => !out.any (·.id == o.id)), withdrawn := t.withdrawn ++ out }

/-- The operation is an acquire that waits at its home (R279). -/
def Op.waiting (o : Op) : Bool := match o.kind with | .acquire _ .waitge _ _ _ w => w | _ => false

/-- The operation is an acquire whose read a write has satisfied (R279). -/
def Op.isAcquired (o : Op) : Bool := match o.kind with | .acquired .. => true | _ => false

/-- An `ACQ.waitge` that no read has satisfied. -/
def Op.isWaitge (o : Op) : Bool := match o.kind with | .acquire _ .waitge .. => true | _ => false

/-- A drain withdraws every `ACQ.waitge` that is not satisfied (R279), and with it what waits on it, which must still follow
it (R371; log entry 58). -/
def Thread.withdraw (t : Thread) : Thread := t.setAside (t.behind (t.withdrawn ++ t.ops.filter Op.isWaitge))

/-- A withdrawn operation as it is issued again: an acquire is not yet waiting, and takes the next issue sequence number. -/
def Thread.renew (t : Thread) (o : Op) : Thread :=
  match o.kind with
  | .acquire p .waitge a d sc _ =>
    let q := t.seq.rd 0 o.lane
    { t with
      seq := t.seq.wr 0 o.lane (q + 1),
      ops := insertOp { o with seq := q, xl := none, kind := .acquire p .waitge a d sc false } t.ops }
  | _ => { t with ops := insertOp { o with xl := none } t.ops }

/-- What a drain withdrew is issued again, in its old order; every predecessor but one withdrawn with it, or an engine command
kept over a pre-emption, is met (R168, R279). -/
def Thread.reissue (t : Thread) : Thread := t.withdrawn.foldl Thread.renew { t with withdrawn := [] }

/-- A thread of the module issues again what a drain withdrew. -/
def State.reissue (s : State) (r : Thr) : State := s.updThr r Thread.reissue

end Sys2Proof.Machine
end

