-- ==== Sys2Proof/Machine/Memory.lean ====
section
/-! DEFINITION. Loads, stores, atomics, acquires, releases, copies and counters: majors 0x20 to 0x2D (R265 to R284). -/

namespace Sys2Proof

/-- The extended fields of a compact load: `.b32`, no index, s0 after s0 (R104, R269). -/
def Compact.load (c : Compact) : Ext := { c.ext with mod := 2, pm := 1 }

/-- The extended fields of a compact store: the data register stands in B (R104). -/
def Compact.store (c : Compact) : Ext := { c.load with d := c.b.setWidth 9, b := 0 }

end Sys2Proof

namespace Sys2Proof.Machine

/-! ### Addresses (R265, R266) -/

/-- The bytes of a WID (R268). -/
def widBytes (x : Ext) : Nat := if x.mf 2 0 = 5 then 64 else 2 ^ x.mf 2 0

/-- The index of a memory form: one register's low 32 bits, when IX is 1. -/
def Thread.index32 (t : Thread) (x : Ext) (r : BitVec 9) (l : Nat) : Addr :=
  if x.m 4 then ((t.reg l r.toNat).extractLsb' 0 32).setWidth 64 else 0

/-- A generic or global address (R265). -/
def Thread.address (t : Thread) (x : Ext) (l : Nat) : Addr := t.pairA x l + t.index32 x x.b l + x.offset

/-- A generic or global address with no index. -/
def Thread.baseOff (t : Thread) (x : Ext) (l : Nat) : Addr := t.pairA x l + x.offset

/-- A scratchpad offset, formed exactly (R265). -/
def Thread.scratchAddr (t : Thread) (x : Ext) (l : Nat) : Int :=
  (((t.reg l x.a.toNat).extractLsb' 0 32).toNat : Int) + (t.index32 x x.b l).toNat + x.offset.toInt

/-- The key of a gang member's block (R55, R137); none where the item has no such block. -/
def State.member (s : State) (block i : Nat) : Nat :=
  match s.blk block with
  | none => 2 ^ 40
  | some b =>
    match s.blocks.find? (fun (_, c) => c.item == b.item && c.blockId == i) with
    | some (k, _) => k
    | none => 2 ^ 40

/-- A place, or the check that it fails at issue with the address formed (R266). -/
abbrev Placed := Except (Cause × Addr) Place

/-- A generic address of w bytes: WINDOW, then ALIGN (R137, R138, R266). -/
def State.generic (s : State) (block : Nat) (a : Addr) (w al : Nat) : Placed :=
  match regionOf a w with
  | .window => .error (.window, a)
  | r =>
    if a.toNat % al ≠ 0 then .error (.align, a)
    else
      match r with
      | .scratch off => .ok (.scratch block off a)
      | .gang i off => .ok (.scratch (s.member block i) off a)
      | _ => .ok (.global (s.ctxOf block) a)

/-- A global address, whatever window it falls in (R137, R270). -/
def State.globalOnly (s : State) (block : Nat) (a : Addr) (al : Nat) : Placed :=
  if a.toNat % al ≠ 0 then .error (.align, a) else .ok (.global (s.ctxOf block) a)

/-- An offset of the issuer's own scratchpad; a negative one lies beyond every scratchpad (R139, R265). -/
def scratchOnly (block : Nat) (a : Int) (al : Nat) : Placed :=
  let v := BitVec.ofInt 64 a
  if a % (al : Int) ≠ 0 then .error (.align, v)
  else .ok (.scratch block (if a < 0 then 2 ^ 70 else a.toNat) v)

/-! ### Issue (R158, R162, R166) -/

/-- What one lane of a memory instruction issues, or the check that it fails. -/
abbrev Plan := Thread → State → Nat → Except (Cause × Addr) OpKind

/-- The lanes that fail a check, with the addresses they formed. -/
def failing (ps : List (Nat × Except (Cause × Addr) OpKind)) : List (Nat × Cause × Addr) :=
  ps.filterMap (fun (l, p) => match p with | .error (c, a) => some (l, c, a) | .ok _ => none)

/-- The lanes that issue, with their operations. -/
def issuing (ps : List (Nat × Except (Cause × Addr) OpKind)) : List (Nat × OpKind) :=
  ps.filterMap (fun (l, p) => match p with | .ok k => some (l, k) | .error _ => none)

/-- Stops the lanes that fail: WINDOW when any of them fails it, else ALIGN (R385). -/
def State.stopFailing (s : State) (bad : List (Nat × Cause × Addr)) : State :=
  let cause := if bad.any (fun (_, c, _) => c == .window) then .window else .align
  s.updThr s.cur (·.failLanes cause 0 (bad.map (fun (l, _, a) => (l, a))))

/-- An operation that sets its item's commit mark at issue: an atomic, a release, an acquire that writes, or a counter add,
outside the scratchpads (R345). -/
def OpKind.commits : OpKind → Bool
  | .atomic (.global ..) .. => true
  | .release (.global ..) .. => true
  | .acquire (.global ..) .cas .. => true
  | .acquire (.global ..) .xchg .. => true
  | .copy _ _ _ (some (.global ..)) _ => true
  | _ => false

/-- Issues the operations of lanes, in lane order. -/
def State.issueLanes (s : State) (i : Instr) (st : Nat) (pm : BitVec 8) (ks : List (Nat × OpKind)) : State :=
  ks.foldl (fun u (l, k) => (if k.commits then u.commit s.cur.block else u).issue i s.nextId l (some st) pm k) s

/-- Some issuing lane's stream has no room (R162). -/
def Thread.noRoom (t : Thread) (st : Nat) (ks : List (Nat × OpKind)) : Bool := ks.any (fun (l, _) => t.full l st)

/-- The hold of an instruction whose issuing lanes need room on a stream (R162). -/
def stall (st : Nat) (ks : List (Nat × OpKind)) : Hold := .streamFull (maskOfLanes (ks.map Prod.fst)) st

/-- A memory instruction: it stalls while a stream is full, stops the lanes that fail a check, and issues one operation
for each other executing lane (R158, R162, R166). -/
def memory (i : Instr) (x : Ext) (plan : Plan) : State → Host.Outcome State Fault Refusal :=
  fun s =>
    match s.thr s.cur with
    | none => .next s
    | some t =>
      let ps := (t.lanes x.guard).map (fun l => (l, plan t s l))
      if t.noRoom x.st.toNat (issuing ps) then .next (s.updThr s.cur (fun t => { t with hold := stall x.st.toNat (issuing ps) }))
      else .next (s.finish i ((s.stopFailing (failing ps)).issueLanes i x.st.toNat x.pm (issuing ps)))

/-- How a load extends its value (R268). -/
def loadForm (x : Ext) : LoadForm := ⟨widBytes x, x.ty = 2 ∨ x.ty = 4 ∨ (x.mf 2 0 = 2 ∧ x.ty = 6)⟩

/-- The data of a store, read at issue (R19, R269). -/
def Thread.storeData (t : Thread) (x : Ext) (l : Nat) : List Byte :=
  let d := x.d.toNat
  if t.teller then bytesOf (t.kr d).toNat (widBytes x)
  else ((List.range 4).flatMap (fun j => bytesOf (t.vr l (d + j)).toNat 4)).take (widBytes x)

/-- A load of a place. -/
def loadPlan (x : Ext) (place : Thread → State → Nat → Placed) : Plan :=
  fun t s l => (place t s l).map (fun p => .load p (loadForm x) x.d.toNat)

/-- A store to a place. -/
def storePlan (x : Ext) (place : Thread → State → Nat → Placed) : Plan :=
  fun t s l => (place t s l).map (fun p => .store p (t.storeData x l))

/-- The generic place of a form. -/
def genericPlace (x : Ext) : Thread → State → Nat → Placed :=
  fun t s l => s.generic s.cur.block (t.address x l) (widBytes x) (widBytes x)

/-- The global place of a form. -/
def globalPlace (x : Ext) : Thread → State → Nat → Placed :=
  fun t s l => s.globalOnly s.cur.block (t.address x l) (widBytes x)

/-- The own-scratchpad place of a form. -/
def scratchPlace (x : Ext) : Thread → State → Nat → Placed :=
  fun t s l => scratchOnly s.cur.block (t.scratchAddr x l) (widBytes x)

/-- The constant-data place of `LDC`: the launch's ARGS, the index in A and the offset (R265, R271). -/
def constantPlace (x : Ext) : Thread → State → Nat → Placed :=
  fun t s l =>
    let args := match (s.blk s.cur.block).bind (fun b => (s.items.look b.item).bind (fun it => s.launches.look it.launch)) with
      | some la => la.args
      | none => 0
    s.globalOnly s.cur.block (args + t.index32 x x.a l + x.offset) (widBytes x)

/-! ### Loads and stores (R269 to R273) -/

/-- `LD` (R269, R270). -/
def execLd (x : Ext) : State → Host.Outcome State Fault Refusal :=
  memory (.ld x) x (loadPlan x (genericPlace x))

/-- The compact form of `LD` (R104). -/
def execLdCompact (c : Compact) : State → Host.Outcome State Fault Refusal :=
  memory (.ldCompact c) c.load (loadPlan c.load (genericPlace c.load))

/-- `ST` (R269, R270). -/
def execSt (x : Ext) : State → Host.Outcome State Fault Refusal :=
  memory (.st x) x (storePlan x (genericPlace x))

/-- The compact form of `ST` (R104). -/
def execStCompact (c : Compact) : State → Host.Outcome State Fault Refusal :=
  memory (.stCompact c) c.store (storePlan c.store (genericPlace c.store))

/-- `LDS` (R269, R270). -/
def execLds (x : Ext) : State → Host.Outcome State Fault Refusal :=
  memory (.lds x) x (loadPlan x (scratchPlace x))

/-- The compact form of `LDS` (R104). -/
def execLdsCompact (c : Compact) : State → Host.Outcome State Fault Refusal :=
  memory (.ldsCompact c) c.load (loadPlan c.load (scratchPlace c.load))

/-- `STS` (R269, R270). -/
def execSts (x : Ext) : State → Host.Outcome State Fault Refusal :=
  memory (.sts x) x (storePlan x (scratchPlace x))

/-- The compact form of `STS` (R104). -/
def execStsCompact (c : Compact) : State → Host.Outcome State Fault Refusal :=
  memory (.stsCompact c) c.store (storePlan c.store (scratchPlace c.store))

/-- `LDG` (R269, R270). -/
def execLdg (x : Ext) : State → Host.Outcome State Fault Refusal :=
  memory (.ldg x) x (loadPlan x (globalPlace x))

/-- The compact form of `LDG` (R104). -/
def execLdgCompact (c : Compact) : State → Host.Outcome State Fault Refusal :=
  memory (.ldgCompact c) c.load (loadPlan c.load (globalPlace c.load))

/-- `STG` (R269, R270). -/
def execStg (x : Ext) : State → Host.Outcome State Fault Refusal :=
  memory (.stg x) x (storePlan x (globalPlace x))

/-- The compact form of `STG` (R104). -/
def execStgCompact (c : Compact) : State → Host.Outcome State Fault Refusal :=
  memory (.stgCompact c) c.store (storePlan c.store (globalPlace c.store))

/-- `LDC` (R271). -/
def execLdc (x : Ext) : State → Host.Outcome State Fault Refusal :=
  memory (.ldc x) x (loadPlan x (constantPlace x))

/-- The place of a `PREF`: none where an access would fault for any reason as things stand at issue, nor in a scratchpad (R272; log
entry 81). -/
def prefPlace (x : Ext) : Thread → State → Nat → Placed :=
  fun t s l =>
    match genericPlace x t s l, s.blk s.cur.block with
    | .ok (.global ctx va), some b =>
      match s.resolve b.core none (.global ctx va) 1 1 plainOk with
      | .fault c _ => .error (c, va)
      | _ => .ok (.global ctx va)
    | .ok p, _ => .error (.prot, p.addr)
    | .error e, _ => .error e

/-- `PREF` (R266, R272): in a lane whose address would fault it completes at once, with no effect; no check stops the lane. -/
def execPref (x : Ext) : State → Host.Outcome State Fault Refusal :=
  fun s =>
    match s.thr s.cur with
    | none => .next s
    | some t =>
      let ps := (t.lanes x.guard).map (fun l => (l, (prefPlace x t s l).map OpKind.prefetch))
      if t.noRoom x.st.toNat (issuing ps) then .next (s.updThr s.cur (fun t => { t with hold := stall x.st.toNat (issuing ps) }))
      else
        .next (s.finish (.pref x) ((s.updThr s.cur (·.number ((failing ps).map Prod.fst))).issueLanes (.pref x) x.st.toNat x.pm (issuing ps)))

/-- `STZ` (R273): a store of zeros. -/
def execStz (x : Ext) : State → Host.Outcome State Fault Refusal :=
  memory (.stz x) x (fun t s l => (genericPlace x t s l).map (fun p => .store p (List.replicate (widBytes x) 0)))

/-! ### Atomics (R274 to R276) -/

/-- The type of an atomic: 64 bits wide, signed (R274). -/
def atomTy (x : Ext) : Bool × Bool := (decide (6 ≤ x.ty.toNat), x.ty.toNat % 2 == 0)

/-- An atomic's operand in a field: a pair or register, or in B a literal, which for `.fadd` is the F32 of its value (R106, R274). -/
def Thread.atomB (t : Thread) (x : Ext) (l : Nat) : Addr :=
  if x.bl then (if x.mf 11 8 = 6 then BitVec.ofNat 64 (Fmt.f32.put .rne 0 (FVal.ofInt x.b.toInt)) else lit9 x.b) else if (atomTy x).1 then t.pair l x.b.toNat else t.reg l x.b.toNat

/-- The swap value of a compare-and-swap. -/
def Thread.atomC (t : Thread) (x : Ext) (l : Nat) : Addr :=
  if (atomTy x).1 then t.pair l x.c.toNat else t.reg l x.c.toNat

/-- The update that a lane asks for, with MODE sampled at issue. -/
def Thread.atomSpec (t : Thread) (x : Ext) (l op : Nat) : AtomSpec :=
  ⟨op, (atomTy x).1, (atomTy x).2, t.atomB x l, t.atomC x l, t.mode, x.mf 7 5⟩

/-- The place of an atomic: its base and literal offset, aligned to its width. -/
def atomPlace (x : Ext) : Thread → State → Nat → Placed :=
  fun t s l =>
    let w := if (atomTy x).1 then 8 else 4
    s.generic s.cur.block (t.baseOff x l) w w

/-- The destination of an atomic that returns the old value. -/
def atomDest (x : Ext) : Option Nat := if x.m 4 then some x.d.toNat else none

/-- `ATOM` (R275). -/
def execAtom (x : Ext) : State → Host.Outcome State Fault Refusal :=
  memory (.atom x) x (fun t s l =>
    (atomPlace x t s l).map (fun p => .atomic p (t.atomSpec x l (x.mf 11 8)) (atomDest x)))

/-- `CAS` (R275). -/
def execCas (x : Ext) : State → Host.Outcome State Fault Refusal :=
  memory (.cas x) x (fun t s l =>
    (atomPlace x t s l).map (fun p => .atomic p (t.atomSpec x l 8) (some x.d.toNat)))

/-! ### Release, acquire and trigger (R277 to R280) -/

/-- `ATOMR` (R277): held at its home until its predecessors are counted in (R169). -/
def execAtomr (x : Ext) : State → Host.Outcome State Fault Refusal :=
  memory (.atomr x) x (fun t s l =>
    (atomPlace x t s l).map (fun p => .release p (t.atomSpec x l (x.mf 11 8)) (atomDest x) (x.mf 7 5)))

/-- `REL` (R277). -/
def execRel (x : Ext) : State → Host.Outcome State Fault Refusal :=
  memory (.rel x) x (fun t s l =>
    (atomPlace x t s l).map (fun p => .release p (t.atomSpec x l 9) none (x.mf 7 5)))

/-- `ACQ` in its three forms (R278). -/
def execAcq (x : Ext) : State → Host.Outcome State Fault Refusal :=
  memory (.acq x) x (fun t s l =>
    (atomPlace x t s l).map (fun p =>
      match x.mf 9 8 with
      | 0 => .acquire p .waitge (t.atomSpec x l 9) x.d.toNat (x.mf 7 5) false
      | 1 => .acquire p .cas (t.atomSpec x l 8) x.d.toNat (x.mf 7 5) false
      | _ => .acquire p .xchg (t.atomSpec x l 7) x.d.toNat (x.mf 7 5) false))

/-- `ETRIG` (R280). -/
def execEtrig (x : Ext) : State → Host.Outcome State Fault Refusal :=
  memory (.etrig x) x (fun _ _ _ => .ok (.etrig (x.mf 7 5)))

/-! ### Copies and counters (R281 to R284) -/

/-- `CPY` (R281): destination, source and counter each pass the checks of R266. -/
def execCpy (x : Ext) : State → Host.Outcome State Fault Refusal :=
  memory (.cpy x) x (fun t s l =>
    let b := s.cur.block
    let n := widBytes x
    match s.generic b (t.pairA x l) n n, s.generic b (t.pair l x.b.toNat) n n,
        (if x.m 5 then (s.generic b (t.pair l x.c.toNat) 8 8).map some else .ok none) with
    | .ok d, .ok src, .ok c => .ok (.copy d src n c false)
    | .error (.window, a), _, _ | _, .error (.window, a), _ | _, _, .error (.window, a) => .error (.window, a)
    | .error e, _, _ => .error e
    | _, .error e, _ => .error e
    | _, _, .error e => .error e)

/-- Moves the clause past the instruction at its head, for an instruction whose hold has ended. -/
def Thread.skip (t : Thread) : Thread :=
  t.inClause (fun c =>
    let n := match c.rest with | w :: _ => wordsOfLen (lenOf w) | [] => 0
    { c with
      next := c.next + BitVec.ofNat 64 (4 * n), rest := c.rest.drop n, left := c.left - 1, idx := c.idx + 1 })

/-- Tests one waiting operation of a `CWAIT`: met, it completes; a fault completes it too (R283). -/
def State.tryWait (s : State) (r : Thr) (n : Nat) : State :=
  s.performOp n (fun _ b o =>
    match o.kind with
    | .cwait p thr _ =>
      match s.resolve b.core o.xl p 8 1 counterOk with
      | .ok t =>
        if (s.readT (b.core / 16) t 8).2 then s.consumePoison r.block p.addr
        else if thr ≤ s.counterValue (b.core / 16) t then (s.fillPlace b.core p).complete r o id
        else s
      | e => s.unresolved r o p e
    | _ => s)

/-- Tests every lane of a held `CWAIT`; when no lane waits any more the hold ends and the clause goes on (R283). -/
def State.tryCwait (s : State) (r : Thr) : State :=
  match s.thr r with
  | none => s
  | some t =>
    match t.hold with
    | .cwait ids =>
      (ids.foldl (fun s n => s.tryWait r n) s).updThr r (fun t =>
        match ids.filter (fun id => t.ops.any (·.id == id)) with
        | [] => match t.hold with | .cwait _ => { t with hold := .none }.skip | _ => t
        | left => match t.hold with | .cwait _ => { t with hold := .cwait left } | _ => t)
    | _ => s

/-- The numbers of the operations that an issue added. -/
def newIds (t0 t : Thread) : List Nat := (t.ops.filter (fun o => !t0.ops.any (·.id == o.id))).map (·.id)

/-- `CWAIT` (R283): holds its issuer until every lane's counter is at least its threshold; a wait that is met at once
ends at once. Lanes that fail a check stop. -/
def execCwait (x : Ext) : State → Host.Outcome State Fault Refusal :=
  fun s =>
    match s.thr s.cur with
    | none => .next s
    | some t =>
      let ps := (t.lanes x.guard).map (fun l =>
        (l, (s.generic s.cur.block (t.pairA x l + (if x.cl then lit9 x.c else 0)) 8 8).map
          (fun p => OpKind.cwait p (t.pairB x l) (x.mf 7 5))))
      if t.noRoom x.st.toNat (issuing ps) then .next (s.updThr s.cur (fun t => { t with hold := stall x.st.toNat (issuing ps) }))
      else
        let s' := (s.stopFailing (failing ps)).issueLanes (.cwait x) x.st.toNat x.pm (issuing ps)
        .next ((s'.updThr s.cur (fun u =>
          { u with hold := .cwait (newIds t u), opbuf := t.operandBuffer (.cwait x) })).tryCwait s.cur)

/-- `CREAD` (R284). -/
def execCread (x : Ext) : State → Host.Outcome State Fault Refusal :=
  memory (.cread x) x (fun t s l => (s.generic s.cur.block (t.baseOff x l) 8 8).map (fun p => .cread p x.d.toNat))

end Sys2Proof.Machine
end

