-- ==== Sys2Proof/Machine/Integer.lean ====
section
/-! DEFINITION. Integer, logic, shift, comparison and move instructions: majors 0x08 to 0x0D and their compact forms
(R222 to R233). -/

namespace Sys2Proof.Machine

/-! ### Shared operations -/

/-- An arithmetic instruction: `f` gives the exact result from ext(A), ext(B), ext(C) (R225). -/
def arith (i : Instr) (x : Ext) (f : IntTy → Int → Int → Int → Int) : State → Host.Outcome State Fault Refusal :=
  onThread i (fun t =>
    let y := intTy t.teller x.ty
    t.putRegs x.guard x.d.toNat (fun l =>
      y.result (x.m 0) (f y (y.ext (t.opA x l)) (y.ext (t.opB x l)) (y.ext (t.opC x l)))))

/-- An instruction on all W bits: `f` gets W and the operands A and B cut to W (R227, R228). -/
def logic (i : Instr) (x : Ext) (f : Nat → Addr → Addr → Addr) : State → Host.Outcome State Fault Refusal :=
  onThread i (fun t =>
    t.putRegs x.guard x.d.toNat (fun l => f t.width (t.cut (t.opA x l)) (t.cut (t.opB x l))))

/-- Exact result of `IADD`. -/
def addExact (_ : IntTy) (a b _c : Int) : Int := a + b

/-- Exact result of `ISUB`. -/
def subExact (_ : IntTy) (a b _c : Int) : Int := a - b

/-- Exact result of `INEG`. -/
def negExact (_ : IntTy) (a _b _c : Int) : Int := -a

/-- Exact result of `IABS`. -/
def absExact (_ : IntTy) (a _b _c : Int) : Int := if a < 0 then -a else a

/-- Exact result of `IMIN`. -/
def minExact (_ : IntTy) (a b _c : Int) : Int := min a b

/-- Exact result of `IMAX`. -/
def maxExact (_ : IntTy) (a b _c : Int) : Int := max a b

/-- Exact result of `IMUL`. -/
def mulExact (_ : IntTy) (a b _c : Int) : Int := a * b

/-- Exact result of `IMULH`: the high half of the product. -/
def mulhExact (y : IntTy) (a b _c : Int) : Int := (a * b) / (2 ^ y.bits : Nat)

/-- Exact result of `IMAD`. -/
def madExact (_ : IntTy) (a b c : Int) : Int := a * b + c

/-- `SHL` (R228). -/
def shlOp (w : Nat) (a n : Addr) : Addr := if w ≤ n.toNat then 0 else a <<< n.toNat

/-- `SHR` (R228). -/
def shrOp (w : Nat) (a n : Addr) : Addr := if w ≤ n.toNat then 0 else a >>> n.toNat

/-- A value of the register width, sign-extended. -/
def signOf (w : Nat) (a : Addr) : Addr := if w = 64 then a else (a.extractLsb' 0 32).signExtend 64

/-- `SAR` (R228): a count of W or more leaves the sign in every bit. -/
def sarOp (w : Nat) (a n : Addr) : Addr := (signOf w a).sshiftRight (min n.toNat 63)

/-- `ROL` (R228): the count is taken modulo W. -/
def rolOp (w : Nat) (a n : Addr) : Addr :=
  if w = 64 then a.rotateLeft (n.toNat % 64) else ((a.extractLsb' 0 32).rotateLeft (n.toNat % 32)).setWidth 64

/-- `ANDN` (R227). -/
def andnOp (_ : Nat) (a b : Addr) : Addr := a &&& ~~~b

/-- The number of one bits (R228). -/
def popcount (a : Addr) : Nat := (List.range 64).foldl (fun n i => if a.getLsbD i then n + 1 else n) 0

/-- The number of leading zero bits of a W-bit value (R228). -/
def clzOf (w : Nat) (a : Addr) : Nat := if a = 0 then w else w - 1 - Nat.log2 a.toNat

/-- Bit order reversed within W bits (R228). -/
def brevOf (w : Nat) (a : Addr) : Addr :=
  (List.range w).foldl (fun r i => if a.getLsbD i then r ||| (1#64 <<< (w - 1 - i)) else r) 0

/-- The field position and length of `BFX` and `BFI` (R228). -/
def fieldOf (w : Nat) (b c : Addr) : Nat × Nat :=
  let p := min (b.toNat % 256) w
  (p, min (c.toNat % 256) (w - p))

/-- `BFX` (R228). -/
def bfxOf (w : Nat) (signed : Bool) (a b c : Addr) : Addr :=
  let (p, n) := fieldOf w b c
  let f := (a.toNat / 2 ^ p) % 2 ^ n
  if n = 0 then 0
  else if signed && f.testBit (n - 1) then BitVec.ofInt 64 ((f : Int) - (2 ^ n : Nat))
  else BitVec.ofNat 64 f

/-- `BFI` (R228). -/
def bfiOf (w : Nat) (d a b c : Addr) : Addr :=
  let (p, n) := fieldOf w b c
  let m := BitVec.ofNat 64 ((2 ^ n - 1) * 2 ^ p)
  (d &&& ~~~m) ||| ((a <<< p) &&& m)

/-- The operands of `ICMP` and `ISET`, compared under their type; pairs for the 64-bit types in SIMT code (R229). -/
def Thread.compare (t : Thread) (x : Ext) (l : Nat) : Bool :=
  let y := intTy t.teller x.ty
  if !t.teller && decide (6 ≤ x.ty.toNat) then
    ccHolds (x.mf 2 0) (y.ext (t.pairA x l)) (y.ext (t.pairB x l))
  else ccHolds (x.mf 2 0) (y.ext (t.opA x l)) (y.ext (t.opB x l))

/-- A 64-bit pair instruction (R226). -/
def pairArith (i : Instr) (x : Ext) (f : Addr → Addr → Addr) : State → Host.Outcome State Fault Refusal :=
  onThread i (fun t => t.putPairs x.guard x.d.toNat (fun l => f (t.pairA x l) (t.pairB x l)))

/-- The item and launch of a block. -/
def State.itemOf (s : State) (b : Block) : Option (Item × Launch) :=
  match s.items.look b.item with
  | none => none
  | some it =>
    match s.launches.look it.launch with
    | none => none
    | some la => some (it, la)

/-- The value of a special register in a lane (R54, R125). -/
def State.special (s : State) (r : Thr) (l n : Nat) : Addr :=
  match s.blk r.block with
  | none => 0
  | some b =>
    let of := fun (f : Item → Launch → Nat) => match s.itemOf b with | some (it, la) => f it la | none => 0
    match n with
    | 0 => if r.warp.isNone then 0 else BitVec.ofNat 64 l
    | 1 => BitVec.ofNat 64 (r.warp.getD 0)
    | 2 => BitVec.ofNat 64 b.blockId
    | 3 => BitVec.ofNat 64 (of (fun it _ => it.index))
    | 4 => BitVec.ofNat 64 (of (fun _ la => la.nitems))
    | 5 => BitVec.ofNat 64 b.core
    | 6 => BitVec.ofNat 64 (b.core / 16)
    | 7 => BitVec.ofNat 64 b.party
    | 8 => s.now.setWidth 64
    | 9 => match s.itemOf b with | some (_, la) => la.deadline.setWidth 64 | none => 0
    | 10 => match s.itemOf b with | some (_, la) => la.id.setWidth 64 | none => 0
    | _ => 0

/-! ### Arithmetic (R225, R226) -/

/-- `IADD` (R225). -/
def execIadd (x : Ext) : State → Host.Outcome State Fault Refusal := arith (.iadd x) x addExact

/-- The compact form of `IADD` (R104). -/
def execIaddCompact (c : Compact) : State → Host.Outcome State Fault Refusal :=
  arith (.iaddCompact c) c.ext addExact

/-- `ISUB` (R225). -/
def execIsub (x : Ext) : State → Host.Outcome State Fault Refusal := arith (.isub x) x subExact

/-- The compact form of `ISUB` (R104). -/
def execIsubCompact (c : Compact) : State → Host.Outcome State Fault Refusal :=
  arith (.isubCompact c) c.ext subExact

/-- `INEG` (R225). -/
def execIneg (x : Ext) : State → Host.Outcome State Fault Refusal := arith (.ineg x) x negExact

/-- The compact form of `INEG` (R104). -/
def execInegCompact (c : Compact) : State → Host.Outcome State Fault Refusal :=
  arith (.inegCompact c) c.ext negExact

/-- `IABS` (R225). -/
def execIabs (x : Ext) : State → Host.Outcome State Fault Refusal := arith (.iabs x) x absExact

/-- The compact form of `IABS` (R104). -/
def execIabsCompact (c : Compact) : State → Host.Outcome State Fault Refusal :=
  arith (.iabsCompact c) c.ext absExact

/-- `IMIN` (R225). -/
def execImin (x : Ext) : State → Host.Outcome State Fault Refusal := arith (.imin x) x minExact

/-- `IMAX` (R225). -/
def execImax (x : Ext) : State → Host.Outcome State Fault Refusal := arith (.imax x) x maxExact

/-- `IMUL` (R225). -/
def execImul (x : Ext) : State → Host.Outcome State Fault Refusal := arith (.imul x) x mulExact

/-- `IMULH` (R225). -/
def execImulh (x : Ext) : State → Host.Outcome State Fault Refusal := arith (.imulh x) x mulhExact

/-- `IMAD` (R225). -/
def execImad (x : Ext) : State → Host.Outcome State Fault Refusal := arith (.imad x) x madExact

/-- `IMAD64` (R226). -/
def execImad64 (x : Ext) : State → Host.Outcome State Fault Refusal :=
  onThread (.imad64 x) (fun t =>
    let y := intTy t.teller x.ty
    t.putPairs x.guard x.d.toNat (fun l =>
      BitVec.ofInt 64 (y.ext (t.opA x l) * y.ext (t.opB x l) + (t.pairC x l).toNat)))

/-- `IADD64` (R226). -/
def execIadd64 (x : Ext) : State → Host.Outcome State Fault Refusal := pairArith (.iadd64 x) x (· + ·)

/-- `ISUB64` (R226). -/
def execIsub64 (x : Ext) : State → Host.Outcome State Fault Refusal := pairArith (.isub64 x) x (· - ·)

/-! ### Logic (R227) -/

/-- `AND` (R227). -/
def execAnd (x : Ext) : State → Host.Outcome State Fault Refusal := logic (.and x) x (fun _ a b => a &&& b)

/-- The compact form of `AND` (R104). -/
def execAndCompact (c : Compact) : State → Host.Outcome State Fault Refusal :=
  logic (.andCompact c) c.ext (fun _ a b => a &&& b)

/-- `OR` (R227). -/
def execOr (x : Ext) : State → Host.Outcome State Fault Refusal := logic (.or x) x (fun _ a b => a ||| b)

/-- The compact form of `OR` (R104). -/
def execOrCompact (c : Compact) : State → Host.Outcome State Fault Refusal :=
  logic (.orCompact c) c.ext (fun _ a b => a ||| b)

/-- `XOR` (R227). -/
def execXor (x : Ext) : State → Host.Outcome State Fault Refusal := logic (.xor x) x (fun _ a b => a ^^^ b)

/-- The compact form of `XOR` (R104). -/
def execXorCompact (c : Compact) : State → Host.Outcome State Fault Refusal :=
  logic (.xorCompact c) c.ext (fun _ a b => a ^^^ b)

/-- `ANDN` (R227). -/
def execAndn (x : Ext) : State → Host.Outcome State Fault Refusal := logic (.andn x) x andnOp

/-- The compact form of `ANDN` (R104). -/
def execAndnCompact (c : Compact) : State → Host.Outcome State Fault Refusal :=
  logic (.andnCompact c) c.ext andnOp

/-- `NOT` (R227). -/
def execNot (x : Ext) : State → Host.Outcome State Fault Refusal := logic (.not x) x (fun _ a _ => ~~~a)

/-- `SEL` (R227): A where the predicate holds, else B. -/
def execSel (x : Ext) : State → Host.Outcome State Fault Refusal :=
  onThread (.sel x) (fun t =>
    t.putRegs x.guard x.d.toNat (fun l => if t.pr l x.c.toNat then t.opA x l else t.opB x l))

/-! ### Shifts and bit fields (R228) -/

/-- `SHL` (R228). -/
def execShl (x : Ext) : State → Host.Outcome State Fault Refusal := logic (.shl x) x shlOp

/-- The compact form of `SHL` (R104). -/
def execShlCompact (c : Compact) : State → Host.Outcome State Fault Refusal :=
  logic (.shlCompact c) c.ext shlOp

/-- `SHR` (R228). -/
def execShr (x : Ext) : State → Host.Outcome State Fault Refusal := logic (.shr x) x shrOp

/-- The compact form of `SHR` (R104). -/
def execShrCompact (c : Compact) : State → Host.Outcome State Fault Refusal :=
  logic (.shrCompact c) c.ext shrOp

/-- `SAR` (R228). -/
def execSar (x : Ext) : State → Host.Outcome State Fault Refusal := logic (.sar x) x sarOp

/-- The compact form of `SAR` (R104). -/
def execSarCompact (c : Compact) : State → Host.Outcome State Fault Refusal :=
  logic (.sarCompact c) c.ext sarOp

/-- `ROL` (R228). -/
def execRol (x : Ext) : State → Host.Outcome State Fault Refusal := logic (.rol x) x rolOp

/-- The compact form of `ROL` (R104). -/
def execRolCompact (c : Compact) : State → Host.Outcome State Fault Refusal :=
  logic (.rolCompact c) c.ext rolOp

/-- `BFX` (R228). -/
def execBfx (x : Ext) : State → Host.Outcome State Fault Refusal :=
  onThread (.bfx x) (fun t =>
    t.putRegs x.guard x.d.toNat (fun l =>
      bfxOf t.width (intTy t.teller x.ty).signed (t.cut (t.opA x l)) (t.cut (t.opB x l)) (t.cut (t.opC x l))))

/-- `BFI` (R228): the destination is also a source. -/
def execBfi (x : Ext) : State → Host.Outcome State Fault Refusal :=
  onThread (.bfi x) (fun t =>
    t.putRegs x.guard x.d.toNat (fun l =>
      bfiOf t.width (t.reg l x.d.toNat) (t.cut (t.opA x l)) (t.cut (t.opB x l)) (t.cut (t.opC x l))))

/-- `BREV` (R228). -/
def execBrev (x : Ext) : State → Host.Outcome State Fault Refusal := logic (.brev x) x (fun w a _ => brevOf w a)

/-- `CLZ` (R228). -/
def execClz (x : Ext) : State → Host.Outcome State Fault Refusal := logic (.clz x) x (fun w a _ => BitVec.ofNat 64 (clzOf w a))

/-- `POPC` (R228). -/
def execPopc (x : Ext) : State → Host.Outcome State Fault Refusal := logic (.popc x) x (fun _ a _ => BitVec.ofNat 64 (popcount a))

/-! ### Comparisons and predicates (R229, R230) -/

/-- `ICMP` (R229). -/
def execIcmp (x : Ext) : State → Host.Outcome State Fault Refusal :=
  onThread (.icmp x) (fun t => t.putPreds x.guard x.d.toNat (fun l => t.compare x l))

/-- `ISET` (R229). -/
def execIset (x : Ext) : State → Host.Outcome State Fault Refusal :=
  onThread (.iset x) (fun t =>
    t.putRegs x.guard x.d.toNat (fun l => if t.compare x l then 0xFFFFFFFFFFFFFFFF else 0))

/-- `PLOP` (R230). -/
def execPlop (x : Ext) : State → Host.Outcome State Fault Refusal :=
  onThread (.plop x) (fun t =>
    t.putPreds x.guard x.d.toNat (fun l =>
      lutHolds (x.mf 7 0) (t.pr l x.a.toNat) (t.pr l x.b.toNat) (t.pr l x.c.toNat)))

/-! ### Moves and addresses (R231 to R233) -/

/-- `MOV` (R231). -/
def execMov (x : Ext) : State → Host.Outcome State Fault Refusal :=
  onThread (.mov x) (fun t => t.putRegs x.guard x.d.toNat (fun l => t.opA x l))

/-- The compact form of `MOV` (R104). -/
def execMovCompact (c : Compact) : State → Host.Outcome State Fault Refusal :=
  onThread (.movCompact c) (fun t => t.putRegs c.guard c.d.toNat (fun l => t.reg l c.a.toNat))

/-- `MOVL` (R231): the literal to a pair or a k register, or with B32 its low word to one v register. -/
def execMovl (f : MovlForm) : State → Host.Outcome State Fault Refusal :=
  onThread (.movl f) (fun t =>
    match f with
    | .ext x =>
      if x.m 0 then t.putRegs x.guard x.d.toNat (fun _ => x.lit.getD 0)
      else t.putPairs x.guard x.d.toNat (fun _ => x.lit.getD 0)
    | .compact c => t.putPairs c.guard c.d.toNat (fun _ => c.lit.getD 0))

/-- `LEA` (R232). -/
def execLea (x : Ext) : State → Host.Outcome State Fault Refusal :=
  onThread (.lea x) (fun t =>
    t.putPairs x.guard x.d.toNat (fun l =>
      t.pairA x l + (((t.opB9 x l).extractLsb' 0 32).setWidth 64 <<< x.mf 1 0) + x.offset))

/-- `SREAD` (R233): 48-bit registers go to a pair in SIMT code. -/
def execSread (x : Ext) : State → Host.Outcome State Fault Refusal :=
  fun s =>
    onThread (.sread x) (fun t =>
      if x.a = 8 ∨ x.a = 9 then t.putPairs x.guard x.d.toNat (fun l => s.special s.cur l x.a.toNat)
      else t.putRegs x.guard x.d.toNat (fun l => s.special s.cur l x.a.toNat)) s

end Sys2Proof.Machine
end

