-- ==== Sys2Proof/Machine/System.lean ====
section
/-! DEFINITION. Control registers, trap return, firmware calls, device time: majors 0x3C and 0x3D (R126 to R131, R328 to
R332). -/

namespace Sys2Proof.Machine

/-! ### Control registers (R126, R127) -/

/-- EVQSTAT (R194). -/
def Thread.evqstat (t : Thread) : Addr :=
  BitVec.ofNat 64 t.evq.length |||
    (if t.reserve.isSome then 1#64 <<< 15 else 0) ||| (t.rgrant.setWidth 64 <<< 16)

/-- The value of a control register in a lane. -/
def csrValue (s : State) (b : Block) (t : Thread) (l n : Nat) : Addr :=
  match n with
  | 0 => t.mode.setWidth 64
  | 1 => t.promo.setWidth 64
  | 2 => b.trapbase
  | 3 => t.trapscratch.rd 0 l
  | 4 => t.strmstat l
  | 5 => t.assayctl.setWidth 64
  | 6 => t.assaycnt
  | 7 => b.gatectl.setWidth 64
  | 8 => let d := s.dies.rd .blank (b.core / 16); (d.gen.setWidth 64 <<< 48) ||| d.epoch.setWidth 64
  | _ => t.evqstat

/-- The RW bits of a control register (R84, R94, R97, R128 to R131, R219). -/
def csrRw (n : Nat) : Addr :=
  match n with
  | 0 => 0x3FF
  | 1 => 0x3F
  | 2 => 0x01FFFFFFFFFFFFFC
  | 3 => 0xFFFFFFFFFFFFFFFF
  | 5 => 0x07FFFC03
  | 6 => 0x0000FFFFFFFFFFFF
  | 7 => 0x3FFF
  | _ => 0

/-- The W1C bits of a control register (R130). -/
def csrW1c (n : Nat) : Addr := if n = 4 then 0x00FF000000000000 else 0

/-- The writing CSR instructions. -/
inductive CsrOp where
  | write | set | clear
deriving DecidableEq, Repr

/-- The new value of a control register by its field types (R127). -/
def csrNew (op : CsrOp) (n : Nat) (old v : Addr) : Addr :=
  match op with
  | .write => ((old &&& ~~~csrRw n) ||| (v &&& csrRw n)) &&& ~~~(v &&& csrW1c n)
  | .set => old ||| (v &&& csrRw n)
  | .clear => old &&& ~~~(v &&& (csrRw n ||| csrW1c n))

/-- TOUT clamped to 1 to 10,000 (R131). -/
def clampTout (v : Addr) : Addr := if v = 0 then 1 else if 10000 < v then 10000 else v

/-- A control register held per thread lane (R127): TRAPSCRATCH and STRMSTAT. -/
def csrPerLane (n : Nat) : Bool := n == 3 || n == 4

/-- Stores a control register of a thread or its block. The other threads of a block see TRAPBASE and GATECTL at once: R127
leaves the time open (the model's choice; log entry 69). -/
def csrStore (r : Thr) (l n : Nat) (v : Addr) (s : State) : State :=
  let w := v.extractLsb' 0 32
  match n with
  | 0 => s.updThr r (fun t => { t with mode := w })
  | 1 => s.updThr r (fun t => { t with promo := w })
  | 2 => s.updBlk r.block (fun b => { b with trapbase := v })
  | 3 => s.updThr r (fun t =>
      { t with trapscratch := t.trapscratch.wr 0 l (if t.teller then v else w.setWidth 64) })
  | 4 => s.updThr r (fun t => t.setFaults l (v.extractLsb' 48 8))
  | 5 => s.updThr r (fun t => { t with assayctl := w })
  | 6 => s.updThr r (fun t => { t with assaycnt := v })
  | 7 => s.updBlk r.block (fun b => { b with gatectl := (clampTout v).extractLsb' 0 32 })
  | _ => s

/-- The register is 64 bits wide on the thread's side (R126). -/
def csrWide (t : Thread) (x : Ext) : Bool :=
  match csrInfo x.x9.toNat with
  | some i => i.wide (if t.teller then .teller else .simt)
  | none => false

/-- The operand of a writing CSR instruction, at the register's width (R329). -/
def csrOperand (t : Thread) (x : Ext) (l : Nat) : Addr :=
  if csrWide t x then t.pairB x l else (t.opB x l).setWidth 32 |>.setWidth 64

/-- Writes the old values to the executing lanes that name a destination. -/
def csrOld (s : State) (b : Block) (x : Ext) (t : Thread) (u : Thread) : Thread :=
  u.each (t.lanes x.guard) (fun l u =>
    if csrWide t x then u.setPair l x.d.toNat (csrValue s b t l x.x9.toNat)
    else u.setReg l x.d.toNat (csrValue s b t l x.x9.toNat))

/-- A write that sets INJ of ASSAYCTL asks for an injection of its own, whatever INJ stood at (R97). -/
def csrInject (op : CsrOp) (n : Nat) (operands : List Addr) (t : Thread) : Thread :=
  if n = 5 ∧ op ≠ .clear ∧ operands.any (·.getLsbD 1) then { t with injSet := t.injSet + 1 } else t

/-- A writing CSR instruction (R127, R329): a shared register takes the operand of the lowest executing lane, a register
held per lane that of each lane; MOD[0] names no destination. -/
def csrWrite (i : Instr) (x : Ext) (op : CsrOp) : State → Host.Outcome State Fault Refusal :=
  onState i (fun t s =>
    match s.blk s.cur.block with
    | none => s
    | some b =>
      let n := x.x9.toNat
      let ls := if csrPerLane n then t.lanes x.guard else (t.lanes x.guard).take 1
      let s' := ls.foldl (fun u l => csrStore s.cur l n (csrNew op n (csrValue s b t l n) (csrOperand t x l)) u) s
      let s' := s'.updThr s.cur (csrInject op n (ls.map (csrOperand t x)))
      if x.m 0 then s' else s'.updThr s.cur (csrOld s b x t))

/-- `CSRR` (R329). -/
def execCsrr (x : Ext) : State → Host.Outcome State Fault Refusal :=
  onState (.csrr x) (fun t s =>
    match s.blk s.cur.block with
    | none => s
    | some b => s.updThr s.cur (csrOld s b x t))

/-- `CSRW` (R127). -/
def execCsrw (x : Ext) : State → Host.Outcome State Fault Refusal := csrWrite (.csrw x) x .write

/-- `CSRS` (R127). -/
def execCsrs (x : Ext) : State → Host.Outcome State Fault Refusal := csrWrite (.csrs x) x .set

/-- `CSRC` (R127). -/
def execCsrc (x : Ext) : State → Host.Outcome State Fault Refusal := csrWrite (.csrc x) x .clear

/-! ### Return, calls and time (R330 to R332, R338) -/

/-- An operation of one of the lanes is outstanding; results that count on no stream belong to the whole warp. -/
def Thread.busy (t : Thread) (ls : List Nat) : Bool := t.ops.any (fun o => ls.contains o.lane || o.stream.isNone)

/-- `RTE` (R330, R338): ILL outside a handler; else it waits for every earlier operation of its lanes, reads RPC from the
frame and returns at the clause end. A poisoned RPC is consumed (R349). -/
def execRte (x : Ext) : State → Host.Outcome State Fault Refusal :=
  fun s =>
    match s.thr s.cur, s.blk s.cur.block with
    | some t, some b =>
      let ls := t.lanes x.guard
      let inside := fun l => match t.handler with | some h => h.lanes.getLsbD l | none => false
      let bad := ls.filter (fun l => !inside l)
      let good := ls.filter inside
      if t.busy good then .next s
      else if !good.isEmpty && b.frameRpcPoisoned s.cur.warp then .next (s.consumePoison s.cur.block 0)
      else
        onThread (.rte x)
          (fun t => (t.returnTo good (b.frameRpc s.cur.warp)).failLanes .ill 0 (bad.map (fun l => (l, 0)))) s
    | _, _ => .next s

/-- `HCALL` (R331): the request is sent with the argument of the lowest executing lane, and the issuer is held until the
reply. -/
def execHcall (x : Ext) : State → Host.Outcome State Fault Refusal :=
  fun s =>
    onThread (.hcall x) (fun t =>
      match t.lanes x.guard with
      | [] => t
      | l :: ls =>
        { t with
          hold := .hcall x.d.toNat x.a.toNat (t.cut (t.reg l x.b.toNat)) (maskOfLanes (l :: ls)) s.now }) s

/-- DEADLINE - NOW as an I64, or the largest value where there is no deadline (R332). -/
def remaining (deadline now : BitVec 48) : Addr :=
  if deadline = 0xFFFFFFFFFFFF then 0x7FFFFFFFFFFFFFFF else deadline.setWidth 64 - now.setWidth 64

/-- `CLK` (R332). -/
def execClk (x : Ext) : State → Host.Outcome State Fault Refusal :=
  fun s =>
    onThread (.clk x) (fun t =>
      t.putPairs x.guard x.d.toNat (fun l =>
        if x.m 0 then
          remaining ((s.special s.cur l 9).extractLsb' 0 48) s.now
        else s.now.setWidth 64)) s

/-- `SLEEP` (R332): the issuer is held, past the instruction, until NOW has advanced Bm + 1 times. -/
def execSleep (x : Ext) : State → Host.Outcome State Fault Refusal :=
  onThread (.sleep x) (fun t =>
    match t.lanes x.guard with
    | [] => t
    | ls =>
      { t with
        hold := .sleep (ls.foldl (fun m l => max m (min ((t.opB x l).extractLsb' 0 32).toNat 65535)) 0 + 1) })

end Sys2Proof.Machine
end

