-- ==== Sys2Proof/Machine/Engine.lean ====
section
/-! DEFINITION. The teller's engine commands as they issue, and its event queue: majors 0x30 to 0x36 (R286 to R288, R291,
R305). What a command does is in EngineRun. -/

namespace Sys2Proof.Machine

/-- The key of an engine. -/
def engineKey (core eng : Nat) : Nat := core * 8 + eng

/-- An engine of a core. -/
def State.engine (s : State) (core eng : Nat) : Engine := s.engines.rd .blank (engineKey core eng)

/-- Puts an engine. -/
def State.setEngine (s : State) (core eng : Nat) (e : Engine) : State := { s with engines := s.engines.ins (engineKey core eng) e }

/-- GRAN (R287). -/
def granOf (x : Ext) : Nat := (x.x9.extractLsb' 7 2).toNat

/-- The completion pair, read at issue (R287). -/
def Thread.cmpPair (t : Thread) (x : Ext) : Option CmpPair :=
  if x.x9.getLsbD 5 then
    let k := 2 * (x.x9.extractLsb' 0 5).toNat
    let w := t.kr (k + 1)
    some ⟨t.kr k, (w.extractLsb' 16 16).toNat, w.extractLsb' 0 16⟩
  else none

/-- An address that a command forms from its registers, its length in bytes and its alignment. -/
abbrev EarlyCheck := Addr × Nat × Nat

/-- The check found at issue (R266, R288): WINDOW of the first address that fails it, else ALIGN. -/
def earlyFail (cs : List EarlyCheck) : Option (Cause × Addr) :=
  match cs.find? (fun (a, w, _) => regionOf a w == .window) with
  | some (a, _, _) => some (.window, a)
  | none => (cs.find? (fun (a, _, al) => a.toNat % al != 0)).map (fun (a, _, _) => (.align, a))

/-- The accumulators that a command writes (R124, R302). -/
def CmdKind.accs : CmdKind → List Nat
  | .array c => [c.d]
  | .drain _ a _ _ _ _ _ => [a]
  | .aclr tm => (List.range 4).filter tm.testBit
  | .astat _ a clr => if clr then [a] else []
  | _ => []

/-- `p` is ordered before `o` by the edges among the thread's outstanding operations (R160, R161). -/
def Thread.ordered (t : Thread) (o p : Op) : Bool :=
  (t.ops.reverse.foldl (fun seen q => if seen.any (fun x => x.after q) then q :: seen else seen) [o]).any (·.id == p.id)

/-- The queued or running commands of other engines of a core that write an accumulator of a new command with no order
between the two (R299). -/
def State.rivals (s : State) (t : Thread) (core eng : Nat) (o : Op) (k : CmdKind) : List Nat :=
  ((List.range 7).filter (· != eng)).flatMap (fun e =>
    let en := s.engine core e
    ((en.cur.toList ++ en.queue ++ (match s.blk s.cur.block with | some b => b.saved.rd [] e | none => [])).filter (fun c =>
      c.kind.accs.any k.accs.contains &&
        (match t.ops.find? (·.id == c.op) with | some p => !t.ordered o p | none => false))).map (·.op))

/-- A command whose operation is listed is marked. -/
def Cmd.markRacy (ids : List Nat) (c : Cmd) : Cmd := if ids.contains c.op then { c with racy := true } else c

/-- Marks the commands of an engine whose operations are listed. -/
def Engine.markRacy (e : Engine) (ids : List Nat) : Engine :=
  { e with queue := e.queue.map (Cmd.markRacy ids), cur := e.cur.map (Cmd.markRacy ids) }

/-- Marks the commands of a core whose operations are listed, those of a block that wait to re-enter their queues too (R133). -/
def State.markRacy (s : State) (key core : Nat) (ids : List Nat) : State :=
  ({ s with engines := s.engines.map (fun (i, e) => (i, if i / 8 = core then Engine.markRacy e ids else e)) } : State).updBlk key (fun b =>
    { b with saved := Tab.mapVals b.saved (fun cs => cs.map (Cmd.markRacy ids)) })

/-- An engine's queue takes no new command of a block: it is full, or commands of the block wait to re-enter it first (R133,
R183). -/
def State.engineFull (s : State) (b : Block) (eng : Nat) : Bool :=
  decide (Config.engineDepth ≤ (s.engine b.core eng).queue.length) || !(b.saved.rd [] eng).isEmpty

/-- A running block's commands that wait to re-enter an engine's queue do so, in their order, while it has room (R133, R183). -/
def State.refill (s : State) (key eng : Nat) : State :=
  match s.blk key with
  | none => s
  | some b =>
    let cs := b.saved.rd [] eng
    let en := s.engine b.core eng
    let n := Config.engineDepth - en.queue.length
    if b.run ≠ .running ∨ cs = [] ∨ n = 0 then s
    else
      (s.setEngine b.core eng { en with queue := en.queue ++ cs.take n }).updBlk key (fun b =>
        { b with saved := b.saved.wr [] eng (cs.drop n) })

/-- Commands re-enter an engine's queue, those of the blocks of a core in slot order; where other blocks have filled the queue
meanwhile the rest wait for room (the model's choice; log entry 67). -/
def State.refillQueue (s : State) (core eng : Nat) : State :=
  s.blocks.foldl (fun s (k, b) => if b.core = core then s.refill k eng else s) s

/-- Commands re-enter every queue of a core. -/
def State.refillAll (s : State) (core : Nat) : State := (List.range 7).foldl (fun s e => s.refillQueue core e) s

/-- The command sets its item's commit mark at issue (R345). -/
def CmdKind.commits : CmdKind → Bool
  | .lsend _ => true
  | _ => false

/-- A generic address as a place, whatever checks it fails. -/
def State.placeOf (s : State) (block : Nat) (a : Addr) : Place :=
  match s.generic block a 1 1 with
  | .ok p => p
  | .error _ => .global (s.ctxOf block) a

/-- The bytes of a drained element (R300). -/
def drainSize (fmt : Nat) : Nat := if fmt = 0 then 4 else if fmt < 3 then 2 else 1

/-- Bytes of a tile from an offset on. -/
def tileSpan (t off n : Nat) : List Extent :=
  let head := min n ((128 - off % 128) % 128)
  let full := (n - head) / 128
  [.tile t (off / 128) 1 (off % 128) head, .tile t ((off + head) / 128) full 0 128,
    .tile t ((off + head) / 128 + full) 1 0 ((n - head) % 128)]

/-- What an array command reads of its tiles, scales and bitmaps, and its accumulator (R294, R295); nothing where it computes no
element. -/
def ArrayCmd.extents (c : ArrayCmd) (block : Nat) : List Extent :=
  let m := (c.shape.extractLsb' 0 8).toNat
  let n := (c.shape.extractLsb' 8 8).toNat
  let kc := (c.shape.extractLsb' 16 5).toNat
  let sao := (c.shape.extractLsb' 32 19).toNat
  let off := (c.shape1.extractLsb' 0 19).toNat
  let pairs := if c.fp8 then (kc + 1) / 2 else kc
  let depth := fun p => if c.fp8 && decide (2 * p + 1 = kc) then 64 else 128
  if m = 0 ∨ n = 0 then []
  else
    .acc c.d :: .bytes (.scratch block off 0) (if c.fp8 then 4 * pairs else 16 * kc) :: (List.range pairs).flatMap (fun p =>
      [if c.ta then .tile (c.a + p) 0 (depth p) 0 m else .tile (c.a + p) 0 m 0 (depth p),
       if c.tb then .tile (c.b + p) 0 n 0 (depth p) else .tile (c.b + p) 0 (depth p) 0 n,
       .bytes (.scratch block (sao + 512 * p) 0) (4 * m)])

/-- What a command touches, as far as its registers tell it: bytes, tiles and accumulators, and the bytes of its descriptor or of its
record's head (R161, R208, R288, R303, R306). -/
def CmdKind.named (s : State) (block : Nat) : CmdKind → List Extent
  | .gath _ rec => [.bytes (s.placeOf block rec) 16]
  | .tlds t off n => [.tile t 0 n.toNat 0 128, .bytes (.scratch block off.toNat 0) (128 * n.toNat)]
  | .tsts t off n tr =>
    [if tr then .tile t 0 128 0 n.toNat else .tile t 0 n.toNat 0 128, .bytes (.scratch block off.toNat 0) (128 * n.toNat)]
  | .tzero t => [.tile t 0 128 0 128]
  | .vld t x => [.tile t 0 128 0 128, .bytes (s.placeOf block x) 3328]
  | .array c => c.extents block
  | .drain dst a params rec fmt _ sw =>
    let m := (params.extractLsb' 0 8).toNat
    let n := (params.extractLsb' 8 8).toNat
    let pitch := (params.extractLsb' 16 16).toNat
    .acc a ::
      ((match rec with
        | some r => [.bytes (s.placeOf block r) 16]
        | none => (List.range m).map (fun r =>
            .bytes (s.placeOf block (dst + BitVec.ofNat 64 (pitch * r))) (n * drainSize fmt))) ++
        (if sw then [.bytes (.scratch block (params.extractLsb' 32 19).toNat 0) 512] else []))
  | .aclr tm => ((List.range 4).filter tm.testBit).map .acc
  | .astat _ a _ => [.acc a]
  | .tcpy _ _ desc _ _ _ _ => [.bytes (s.placeOf block desc) 64]
  | .lsend desc | .larm desc _ => [.bytes (s.placeOf block desc) 64]
  | .ldisarm .. => []

/-- What a command may touch besides while its record or descriptor has not been looked at: what it tells may be any. -/
def CmdKind.untold : CmdKind → List Extent
  | .gath t _ => [.tile t 0 128 0 128, .memory]
  | .drain _ _ _ (some _) _ _ _ => [.memory]
  | .tcpy dst src _ _ _ ts td =>
    (if ts then [.tile src.toNat 0 128 0 128] else []) ++ (if td then [.tile dst.toNat 0 128 0 128] else []) ++ [.memory]
  | .lsend _ => [.memory]
  | _ => []

/-- What a command touches when it enters its queue; its record is looked at before anything else moves (log entry 14). -/
def CmdKind.extents (s : State) (block : Nat) (k : CmdKind) : List Extent := k.named s block ++ k.untold

/-- The completion counter that a command adds to. -/
def CmpPair.extents (s : State) (block : Nat) (k : CmdKind) : Option CmpPair → List Extent
  | some p =>
    match k with
    | .larm .. => []
    | _ => if p.inc = 0 then [] else [.bytes (s.placeOf block p.caddr) 8]
  | none => []

/-- Places a command in its engine's queue, as an operation on its stream (R163, R288). -/
def State.placeCommand (s : State) (i : Instr) (x : Ext) (core eng : Nat) (dest : Option Nat) (t : Thread) (k : CmdKind) : State :=
  let id := s.nextId
  let es := k.extents s s.cur.block ++ CmpPair.extents s s.cur.block k (t.cmpPair x)
  let s := (if k.commits then s.commit s.cur.block else s).issue i id 0 (some x.st.toNat) x.pm (.command core eng dest es)
  match s.thr s.cur with
  | none => s
  | some u =>
    let o := u.ops.find? (·.id == id)
    let rivals := match o with | some o => s.rivals u core eng o k | none => []
    let c : Cmd := ⟨id, s.cur.block, k, granOf x, x.x9.getLsbD 6, t.cmpPair x, t.mode, !rivals.isEmpty⟩
    let s := if rivals.isEmpty then s else s.markRacy s.cur.block core rivals
    let e := s.engine core eng
    s.setEngine core eng { e with queue := e.queue ++ [c] }

/-- The check of a completion pair's address; none where the increment is 0 (R287). -/
def Thread.pairCheck (t : Thread) (x : Ext) : List EarlyCheck :=
  match t.cmpPair x with
  | some p => if p.inc = 0 then [] else [(p.caddr, 8, 8)]
  | none => []

/-- An engine command (R288): it traps precisely on a check found at issue, stalls while its stream or its engine's queue
is full, and else enters the queue with the register values read now. -/
def command (i : Instr) (x : Ext) (eng : Nat) (dest : Option Nat) (checks : Thread → List EarlyCheck)
    (kind : Thread → CmdKind) : State → Host.Outcome State Fault Refusal :=
  fun s =>
    match s.thr s.cur, s.blk s.cur.block with
    | some t, some b =>
      if (t.lanes x.guard).isEmpty then .next (s.finish i s)
      else
        match earlyFail (checks t ++ t.pairCheck x) with
        | some (c, a) => .next (s.finish i (s.updThr s.cur (·.failLanes c 0 [(0, a)])))
        | none =>
          if t.full 0 x.st.toNat then .next (s.updThr s.cur (fun t => { t with hold := .streamFull 1 x.st.toNat }))
          else if s.engineFull b eng then
            .next (s.updThr s.cur (fun t => { t with blocked := some (eng, t.here) }))
          else .next (s.finish i (s.placeCommand i x b.core eng dest t (kind t)))
    | _, _ => .next s

/-- The scratchpad offset of `TLDS` and `TSTS`, formed exactly from all of kA (R292). -/
def Thread.tileOffset (t : Thread) (x : Ext) : Int := ((t.kr x.a.toNat).toNat : Int) + x.offset.toInt

/-- `GATH` (R292). -/
def execGath (x : Ext) : State → Host.Outcome State Fault Refusal :=
  command (.gath x) x 0 none (fun t => [(t.kr x.a.toNat, 16, 64)]) (fun t => .gath x.d.toNat (t.kr x.a.toNat))

/-- `TLDS` (R292). -/
def execTlds (x : Ext) : State → Host.Outcome State Fault Refusal :=
  command (.tlds x) x 0 none (fun _ => []) (fun t => .tlds x.d.toNat (t.tileOffset x) (t.opB9 x 0))

/-- `TSTS` (R292). -/
def execTsts (x : Ext) : State → Host.Outcome State Fault Refusal :=
  command (.tsts x) x 0 none (fun _ => []) (fun t => .tsts x.d.toNat (t.tileOffset x) (t.opB9 x 0) (x.m 0))

/-- `TZERO` (R292). -/
def execTzero (x : Ext) : State → Host.Outcome State Fault Refusal :=
  command (.tzero x) x 0 none (fun _ => []) (fun _ => .tzero x.d.toNat)

/-- `VLD` (R293). -/
def execVld (x : Ext) : State → Host.Outcome State Fault Refusal :=
  command (.vld x) x 1 none (fun t => [(t.kr x.a.toNat + x.offset, 3328, 64)])
    (fun t => .vld x.d.toNat (t.kr x.a.toNat + x.offset))

/-- The parameters of an array command (R294). -/
def Thread.arrayCmd (t : Thread) (x : Ext) (fp8 : Bool) : ArrayCmd :=
  ⟨fp8, x.m 0, x.m 1, x.m 2, x.d.toNat, x.a.toNat, x.b.toNat, t.kr x.c.toNat, t.kr (x.c.toNat + 1), t.promo, t.assayctl,
    t.injSet⟩

/-- `TMMA` (R296). -/
def execTmma (x : Ext) : State → Host.Outcome State Fault Refusal :=
  command (.tmma x) x 2 none (fun _ => []) (fun t => .array (t.arrayCmd x false))

/-- `FMMA` (R296). -/
def execFmma (x : Ext) : State → Host.Outcome State Fault Refusal :=
  command (.fmma x) x 3 none (fun _ => []) (fun t => .array (t.arrayCmd x true))

/-- `DRAIN` (R301). -/
def execDrain (x : Ext) : State → Host.Outcome State Fault Refusal :=
  command (.drain x) x 4 none
    (fun t => (t.kr x.d.toNat, drainSize (x.mf 2 0), drainSize (x.mf 2 0)) :: (if x.m 4 then [(t.kr x.b.toNat, 16, 64)] else []))
    (fun t => .drain (t.kr x.d.toNat) x.a.toNat (t.kr x.c.toNat) (if x.m 4 then some (t.kr x.b.toNat) else none) (x.mf 2 0)
      (x.m 3) (x.m 5))

/-- `ACLR` (R302). -/
def execAclr (x : Ext) : State → Host.Outcome State Fault Refusal :=
  command (.aclr x) x 4 none (fun _ => []) (fun _ => .aclr (x.mf 3 0))

/-- `ASTAT` (R302). -/
def execAstat (x : Ext) : State → Host.Outcome State Fault Refusal :=
  command (.astat x) x 4 (some x.d.toNat) (fun _ => []) (fun _ => .astat x.d.toNat x.a.toNat (x.m 0))

/-- An operand of `TCPY`: a tile's number, or the address in a register (R291). -/
def Thread.tcpySide (t : Thread) (tile : Bool) (r : BitVec 9) : Addr := if tile then r.setWidth 64 else t.kr r.toNat

/-- `TCPY` (R303, R304). -/
def execTcpy (x : Ext) : State → Host.Outcome State Fault Refusal :=
  command (.tcpy x) x 5 none
    (fun t =>
      let es := if x.mf 1 0 = 0 then 1 else 2 ^ (x.mf 1 0 - 1)
      (t.kr x.b.toNat, 64, 64) :: ((if x.m 3 then [] else [(t.kr x.a.toNat, es, es)]) ++
        (if x.m 4 then [] else [(t.kr x.d.toNat, es, es)])))
    (fun t => .tcpy (t.tcpySide (x.m 4) x.d) (t.tcpySide (x.m 3) x.a) (t.kr x.b.toNat) (x.mf 1 0) (x.m 2) (x.m 3) (x.m 4))

/-- `EVWAIT` (R305): the teller is held at the instruction until its event queue holds n records. -/
def execEvwait (x : Ext) : State → Host.Outcome State Fault Refusal :=
  fun s =>
    match s.thr s.cur with
    | none => .next s
    | some t =>
      let n := x.a.toNat
      if (t.lanes x.guard).isEmpty ∨ n ≤ t.evq.length then .next (s.finish (.evwait x) s)
      else .next (s.updThr s.cur (fun t => { t with hold := .evwait n, opbuf := [] }))

/-- The ordinary entries of the event queue are all held (R183). -/
def Thread.evFull (t : Thread) : Bool := decide (Config.eventDepth ≤ t.evq.length - (if t.reserve.isSome then 1 else 0))

/-- A pending record enters the event queue: behind every other, or before the record in the reserve entry while that one is the
later posting (R195, R310; log entry 86). -/
def Thread.letIn (t : Thread) (r : Addr) : Thread :=
  match t.reserve, t.ahead with
  | some i, n + 1 => { t with evq := t.evq.take i ++ r :: t.evq.drop i, reserve := some (i + 1), ahead := n }
  | _, _ => { t with evq := t.evq ++ [r] }

/-- Pending records of fired sends enter while there is room, ahead of any later posting (R310). -/
def Thread.enterPending (t : Thread) : Thread :=
  t.pend.foldl (fun t r => if t.evFull then { t with pend := t.pend ++ [r] } else t.letIn r) { t with pend := [] }

/-- The oldest record, removed (R305); the reserve entry becomes free when its record is consumed (R195). -/
def Thread.popRecord (t : Thread) : Addr × Thread :=
  match t.evq with
  | [] => (0x0F00000000000000, t)
  | r :: rs =>
    (r, ({ t with
      evq := rs,
      reserve := match t.reserve with | some (n + 1) => some n | _ => none } : Thread).enterPending)

/-- `EVPOP` (R305). -/
def execEvpop (x : Ext) : State → Host.Outcome State Fault Refusal :=
  onThread (.evpop x) (fun t =>
    if (t.lanes x.guard).isEmpty then t
    else
      let (r, u) := t.popRecord
      u.setK x.d.toNat r)

/-- `EQSTAT` (R305). -/
def execEqstat (x : Ext) : State → Host.Outcome State Fault Refusal :=
  onThread (.eqstat x) (fun t => t.putRegs x.guard x.d.toNat (fun _ => t.evqstat))

/-- `LSEND` (R307). -/
def execLsend (x : Ext) : State → Host.Outcome State Fault Refusal :=
  command (.lsend x) x 6 none (fun t => [(t.kr x.a.toNat, 64, 64)]) (fun t => .lsend (t.kr x.a.toNat))

/-- `LARM` (R308). -/
def execLarm (x : Ext) : State → Host.Outcome State Fault Refusal :=
  command (.larm x) x 6 none (fun t => [(t.kr x.a.toNat, 64, 64)]) 
    (fun t => .larm (t.kr x.a.toNat) (decide (Config.armedLimit ≤ t.armed.length)))

/-- `LDISARM` (R309). -/
def execLdisarm (x : Ext) : State → Host.Outcome State Fault Refusal :=
  command (.ldisarm x) x 6 (some x.d.toNat) (fun t => [(t.kr x.a.toNat, 1, 1)])
    (fun t => .ldisarm x.d.toNat (t.kr x.a.toNat))

end Sys2Proof.Machine
end

