-- ==== Sys2Proof/Machine/Bulk.lean ====
section
/-! DEFINITION. Reads and writes of many bytes by engines and ports, counter adds, and event records (R138, R142, R193 to
R195, R215, R288). -/

namespace Sys2Proof.Machine

/-- Why a command does not go on: a fault, a gang member not yet started (R141), a host page not present (R151), poison
met by a consumer (R349), a poisoned write dropped on its way to the host (R350). Each but the wait comes with the address. -/
inductive Halt where
  | fault (c : Cause) (addr : Addr) (stage2 : Bool)
  | wait
  | absent (page : Nat) (addr : Addr)
  | poison (addr : Addr)
  | dropped (addr : Addr)
deriving DecidableEq, Repr

/-- A fault of cause PROT. -/
def Halt.prot (addr : Addr) : Halt := .fault .prot addr false

/-- A block with its key. -/
abbrev At := Nat × Block

/-- Resolves `n` bytes at a generic address of a block, which a counter's 8 bytes must be aligned in. -/
def State.locate (s : State) (b : At) (a : Addr) (n : Nat) (need : Need) (allow : Target → Bool) (align : Nat := 1) :
    Except Halt Target :=
  match s.generic b.1 a n align with
  | .error (c, v) => .error (.fault c v false)
  | .ok p =>
    match s.resolve b.2.core none p n need allow with
    | .ok t => .ok t
    | .fault c st => .error (.fault c a st)
    | .wait => .error .wait
    | .absent pg => .error (.absent pg a)

/-- `n` bytes from an address cut at 64-byte lines: offset and length of each piece. -/
def pieces : Nat → Nat → Nat → Nat → List (Nat × Nat)
  | 0, _, _, _ => []
  | fuel + 1, off, a, n =>
    if n = 0 then []
    else
      let k := min n (64 - a % 64)
      (off, k) :: pieces fuel (off + k) (a + k) (n - k)

/-- The pieces of `n` bytes at an address. -/
def piecesOf (a : Addr) (n : Nat) : List (Nat × Nat) := pieces (n / 64 + 2) 0 a.toNat n

/-- The WINDOW check of a whole access (R138). -/
def spans (a : Addr) (n : Nat) : Except Halt Unit :=
  if n ≠ 0 ∧ regionOf a n = .window then .error (.fault .window a false) else .ok ()

/-! ### Who waits for a write (R216, R279, R308) -/

/-- The value of an armed send's trigger counter as it stands, whatever the permissions; none where it does not translate. -/
def State.trigger (s : State) (b : At) (a : Armed) : Option Addr :=
  match s.locate b a.desc.tctr 8 0 (fun _ => true) with
  | .ok t => some (s.counterValue (b.2.core / 16) t)
  | .error _ => none

/-- An armed send is no longer armed: it fires, in the order of arming. -/
def Thread.fires (t : Thread) (a : Armed) : Thread :=
  { t with armed := t.armed.filter (·.id != a.id), firing := t.firing ++ [a] }

/-- An armed send may read its trigger counter, which has reached its threshold. -/
def State.readyToFire (s : State) (b : At) (a : Armed) : Bool :=
  match s.locate b a.desc.tctr 8 1 counterOk with
  | .ok t => !(s.readT (b.2.core / 16) t 8).2 && decide (a.desc.thresh ≤ s.counterValue (b.2.core / 16) t)
  | .error _ => false

/-- A waiting acquire of a core makes its read where its word satisfies it (R279). -/
def State.noteMet (s : State) (core : Nat) (o : Op) : Op :=
  match o.kind with
  | .acquire p .waitge a d _ true =>
    match s.resolve core o.xl p (a.bits / 8) 1 (acquireOk .waitge) with
    | .ok t =>
      let (bs, poison) := s.readT (core / 16) t (a.bits / 8)
      let y : IntTy := ⟨a.bits, a.signed⟩
      let v := BitVec.ofNat 64 (numOf bs)
      if !poison && decide (y.ext a.b ≤ y.ext v) then { o with kind := .acquired p a d v } else o
    | _ => o
  | _ => o

/-- A block has an armed send or a waiting acquire. -/
def Block.listens (b : Block) : Bool := !b.tel.armed.isEmpty || b.threads.any (fun (_, t) => t.ops.any Op.waiting)

/-- A block after a write: its waiting acquires that the write satisfies have their value, and its armed sends whose threshold
is reached fire, in the order of arming. -/
def State.noteBlock (s : State) (k : Nat) (b : Block) : Block :=
  if !b.listens then b
  else
    let u := b.mapThreads (fun t => { t with ops := t.ops.map (s.noteMet b.core) })
    { u with tel := (u.tel.armed.filter (s.readyToFire (k, b))).foldl Thread.fires u.tel }

/-- Every waiting acquire and armed send tests the word it waits for, as after each of several writes of one step (R279,
R308). -/
def State.noteWrites (s : State) : State :=
  if s.blocks.any (fun (_, b) => b.listens) then { s with blocks := s.blocks.map (fun (k, b) => (k, s.noteBlock k b)) } else s

/-! ### Reads and writes -/

/-- Reads `n` bytes at a generic address: its pieces in order, each with its poison. -/
def State.grabPieces (s : State) (b : At) (a : Addr) (n : Nat) (allow : Target → Bool) : Except Halt (List (List Byte × Bool)) := do
  spans a n
  (piecesOf a n).mapM (fun (off, k) => (s.locate b (a + BitVec.ofNat 64 off) k 1 allow).map (fun t => s.readT (b.2.core / 16) t k))

/-- Reads `n` bytes at a generic address, and whether any of them is poisoned. -/
def State.grab (s : State) (b : At) (a : Addr) (n : Nat) (allow : Target → Bool) : Except Halt (List Byte × Bool) :=
  (s.grabPieces b a n allow).map (fun ps => (ps.flatMap Prod.fst, ps.any Prod.snd))

/-- Reads bytes that the reader consumes: poison halts it (R349). -/
def State.consume (s : State) (b : At) (a : Addr) (n : Nat) (allow : Target → Bool) : Except Halt (List Byte) :=
  match s.grab b a n allow with
  | .error e => .error e
  | .ok (bs, p) => if p then .error (.poison a) else .ok bs

/-- Writes bytes at a generic address piece by piece; a fault leaves the pieces before it written. -/
def State.putBytes (s : State) (b : At) (a : Addr) (bs : List Byte) (carried : Bool) (allow : Target → Bool) :
    Except (Halt × State) State :=
  match spans a bs.length with
  | .error e => .error (e, s)
  | .ok _ =>
    (piecesOf a bs.length).foldlM (fun s (off, k) =>
      match s.locate b (a + BitVec.ofNat 64 off) k 2 allow with
      | .error e => .error (e, s)
      | .ok t =>
        if s.poisonBlocked b.2.part t carried then .error (.dropped a, s)
        else .ok (s.sendT t ((bs.drop off).take k) carried true).noteWrites) s

/-- The target lies in global memory. -/
def Target.isGlobal : Target → Bool
  | .scratch .. => false
  | .mem _ => true

/-- The counter add of a completion pair (R215, R287): the new counter value, or 0 where there is no add. A global add
sets the commit mark (R345). -/
def State.addPair (s : State) (b : At) (c : Option CmpPair) : Except Halt (State × Addr) :=
  match c with
  | none => .ok (s, 0)
  | some p =>
    if p.inc = 0 then .ok (s, 0)
    else
      match s.locate b p.caddr 8 3 counterOk 8 with
      | .error e => .error e
      | .ok t =>
        if (s.readT (b.2.core / 16) t 8).2 then .error (.poison p.caddr)
        else
          let s := s.addCounter (b.2.core / 16) t p.inc
          .ok (if t.isGlobal then s.commit b.1 else s, s.counterValue (b.2.core / 16) t)

/-- An event record (R193). -/
def eventRecord (eng code stat : Nat) (tag : BitVec 16) (cval : Addr) : Addr :=
  (BitVec.ofNat 4 eng ++ BitVec.ofNat 4 code ++ BitVec.ofNat 8 stat ++ tag ++ cval.extractLsb' 0 32 : BitVec 64)

/-- A poster may post a record: an ordinary entry is free and no pending record comes first (R183, R310). -/
def Thread.mayPost (t : Thread) : Bool := !t.evFull && t.pend.isEmpty

/-- Posts a record (R193). -/
def Thread.post (t : Thread) (r : Addr) : Thread := { t with evq := t.evq ++ [r] }

/-- The record of a fired send: into the pending store while the block is pre-empted, else into the queue as any command's,
where it waits while the queue is full (R193, R310). -/
def Thread.postFired (t : Thread) (saved : Bool) (r : Addr) : Thread :=
  if saved then { t with pend := t.pend ++ [r] }
  else if t.mayPost && t.firedWait.isEmpty then t.post r
  else { t with firedWait := t.firedWait ++ [r] }

/-- The oldest record of a fired send that waits enters the queue when there is room. -/
def Thread.postWaiting (t : Thread) : Thread :=
  match t.firedWait with
  | r :: rs => if t.mayPost then { t with firedWait := rs }.post r else t
  | [] => t

/-- The block is pre-empted or being pre-empted (R133). -/
def Block.preempted (b : Block) : Bool := b.run == .saved || b.run == .stopping

/-- Posts a fired send's record to the teller of a block. -/
def State.postFired (s : State) (key : Nat) (r : Addr) : State :=
  match s.blk key with
  | none => s
  | some b => s.updThr ⟨key, none⟩ (·.postFired (b.run == .saved) r)

/-- Takes the tag of a completion pair. -/
def tagOf (c : Option CmpPair) : BitVec 16 := match c with | some p => p.tag | none => 0

end Sys2Proof.Machine
end

