-- ==== Sys2Proof/Machine/Link.lean ====
section
/-! DEFINITION. Krovix Link: sends, armed sends, ports, flits, receive counters and connections (R216, R306 to R310, R358,
R359). -/

namespace Sys2Proof.Machine

/-! ### Ports (R183, R358) -/

/-- A port of the device; port numbers are 0 to 15. -/
def State.port (s : State) (p : Nat) : Port := s.ports.rd .blank p

/-- Puts a port. -/
def State.setPort (s : State) (p : Nat) (x : Port) : State := { s with ports := s.ports.ins p x }

/-- The code of a flit's TYPE (R358). -/
def FlitType.code : FlitType → Nat
  | .data => 0
  | .ack => 1
  | .nak => 2
  | .credit => 3
  | .idle => 4

/-- Bytes 0 to 3 of a flit: SEQ, TYPE, ACKSEQ (R358). The split of bytes 4 to 7 is not given, and the rest is encrypted (log
entry 63). -/
def flitHead (f : Flit) : List Byte := bytesOf (f.seq.toNat + 4096 * FlitType.code f.typ) 2 ++ bytesOf f.ackseq.toNat 2

/-- An ordinary entry of the send queue is free (R183). -/
def Port.room (x : Port) : Bool := decide (x.sendq.length - (if x.reserve.isSome then 1 else 0) < 128)

/-- The place of the reserve entry's flit once the flit at the head has left; the entry becomes free with its flit (R195). -/
def Port.reserveNext (x : Port) : Option Nat := match x.reserve with | some (n + 1) => some n | _ => none

/-- Moves the flits of blocked senders into the send queue, and sends queued flits while the peer has given credit and the replay
buffer has room; `n` bounds the moves. -/
def Port.pump : Nat → Port → List Flit → Port × List Flit
  | 0, x, out => (x, out)
  | n + 1, x, out =>
    match x.backlog, x.room with
    | f :: fs, true => { x with backlog := fs, sendq := x.sendq ++ [f] }.pump n out
    | _, _ =>
      match x.sendq with
      | [] => (x, out)
      | f :: fs =>
        if !x.up || x.credits = 0 || decide (512 ≤ x.replay.length) then (x, out)
        else
          let f := { f with seq := x.txSeq, ackseq := x.rxSeq - 1 }
          ({ x with sendq := fs, reserve := x.reserveNext, txSeq := x.txSeq + 1, credits := x.credits - 1, replay := x.replay ++ [(f, 0)] } : Port).pump n
            (out ++ [f])

/-- Runs a port's transmitter. -/
def State.pumpPort (s : State) (p : Nat) : State :=
  let x := s.port p
  let (x, out) := x.pump (2 * (x.backlog.length + x.sendq.length) + 1) []
  { s.setPort p x with toHost := s.toHost ++ out.map (HostMsg.flit p) }

/-- Queues flits on a port: those that find its send queue full stay with their sender, which is blocked with them (R183). -/
def State.queueFlits (s : State) (p : Nat) (fs : List Flit) : State :=
  let x := s.port p
  (s.setPort p { x with backlog := x.backlog ++ fs }).pumpPort p

/-! ### Descriptors (R306) -/

/-- A little-endian field of bytes. -/
def field (bs : List Byte) (off n : Nat) : Nat := numOf ((bs.drop off).take n)

/-- A send descriptor's fields. -/
def descOf (bs : List Byte) : SendDesc :=
  ⟨BitVec.ofNat 64 (field bs 0 8), BitVec.ofNat 64 (field bs 8 8), BitVec.ofNat 64 (field bs 16 8), field bs 24 4,
    field bs 28 2, BitVec.ofNat 16 (field bs 30 2), BitVec.ofNat 64 (field bs 32 8), BitVec.ofNat 64 (field bs 40 8),
    field bs 48 2⟩

/-- What this host has registered of a connection that exists: both hosts have registered it and F0 has loaded its key (R359). -/
def Conn.live (c : Conn) : Option ConnInfo := if c.keyed then c.here else none

/-- The connection of a partition to a device through a port (R359). -/
def State.connTo (s : State) (part dev port : Nat) : Option Nat :=
  (s.conns.find? (fun (_, c) => c.live.any (fun i => i.part == part && i.dev == dev && i.ports.getLsbD port))).map Prod.fst

/-- The routes reach a device through a port (R306, R359). -/
def State.routed (s : State) (part dev port : Nat) : Bool :=
  (s.routes.rd 0 dev).getLsbD port && (s.connTo part dev port).isSome

/-- Reads and checks a send descriptor (R288, R306): `armed` allows TCTR and THRESH. A counter address that is not 8-aligned is
outside its limits, whatever RINC is (log entry 60). -/
def State.sendDesc (s : State) (b : At) (a : Addr) (armed : Bool) : Except Halt SendDesc :=
  match s.consume b a 64 plainOk with
  | .error e => .error e
  | .ok bs =>
    let d := descOf bs
    if d.len = 0 ∨ 2 ^ 24 < d.len ∨ 15 < d.port ∨ 4095 < d.dev ∨ (bs.drop 50).any (· != 0) ∨
        d.rctr.toNat % 8 ≠ 0 ∨ d.tctr.toNat % 8 ≠ 0 ∨ (!armed ∧ (d.tctr ≠ 0 ∨ d.thresh ≠ 0)) ∨ !s.routed b.2.part d.dev d.port then .error (.prot a)
    else .ok d

/-! ### Sends (R307, R308) -/

/-- The bytes of a send, each with its poison, in parts of at most 232, one flit each, of poisoned bytes alone or of none (R349,
R358; log entry 63). -/
def sendParts : Nat → List (Byte × Bool) → List (List Byte × Bool)
  | n + 1, (x, p) :: rest =>
    let same := (rest.take 231).takeWhile (fun e => e.2 == p)
    (x :: same.map Prod.fst, p) :: sendParts n (rest.drop same.length)
  | _, _ => []

/-- The flits of a send's parts, from an offset on, the last of them marked. -/
def sendFlits (conn id : Nat) (d : SendDesc) : Nat → List (List Byte × Bool) → List Flit
  | _, [] => []
  | off, (bs, poison) :: rest =>
    ⟨0, .data, 0, conn, 0, true, .data id (d.dst + BitVec.ofNat 64 off) bs poison rest.isEmpty d.rctr d.rinc⟩ ::
      sendFlits conn id d (off + bs.length) rest

/-- Carries a send out: reads SRC and queues its flits; on a port that is down it ends as failed (R307, R358, R365).
Answers the number of the send. -/
def State.beginSend (s : State) (b : At) (d : SendDesc) (fired : Bool) (cmp : Option CmpPair) (ev : Bool) :
    Except Halt (State × Nat) :=
  match s.grabPieces b d.src d.len plainOk with
  | .error e => .error e
  | .ok pieces =>
    let id := s.nextId
    let up := (s.port d.port).up
    let r : SendRec := ⟨d.port, b.1, b.2.core, b.2.ctx, b.2.item, fired, b.2.gen, cmp, ev, if up then none else some false⟩
    let s := { s with nextId := id + 1, sends := s.sends.ins id r }
    if up then
      let conn := (s.connTo b.2.part d.dev d.port).getD 0
      .ok (s.queueFlits d.port (sendFlits conn id d 0 (sendParts d.len (pieces.flatMap (fun (bs, p) => bs.map (fun x => (x, p)))))), id)
    else .ok (s, id)

/-- The block that a send came from, while it is still that block. -/
def State.sender (s : State) (r : SendRec) : Option Block :=
  match s.blk r.block with
  | some b => if b.item = r.item ∧ b.gen = r.gen then some b else none
  | none => none

/-- A fired send that completes as faulted: only a CODE 2 record, when EV is 1 and its block still stands, reports it
(R308). -/
def State.firedFault (s : State) (r : SendRec) : State :=
  if r.ev && (s.sender r).isSome then s.postFired r.block (eventRecord 6 2 0 (tagOf r.cmp) 0) else s

/-- The counter add of a fired send whose block has retired and left its slot: in global memory, through the block's
context; its scratchpad is gone, and an add to it does nothing (R308, R309; log entry 61). -/
def State.addLate (s : State) (r : SendRec) (p : CmpPair) : Except Halt State :=
  if p.inc = 0 ∨ regionOf p.caddr 8 ≠ .global ∨ p.caddr.toNat % 8 ≠ 0 then .ok s
  else
    match s.resolve r.core none (.global r.ctx p.caddr) 8 3 counterOk with
    | .ok t =>
      if (s.readT (r.core / 16) t 8).2 then .ok s else .ok (s.addCounter (r.core / 16) t p.inc)
    | .fault .. => .ok s
    | .wait => .error .wait
    | .absent pg => .error (.absent pg p.caddr)

/-- The counter add of a fired send (R308): as for a command of its block, or after it. -/
def State.firedAdd (s : State) (r : SendRec) : Except Halt State :=
  match s.sender r with
  | some b => (s.addPair (r.block, b) r.cmp).map Prod.fst
  | none => match r.cmp with | some p => s.addLate r p | none => .ok s

/-- The item of a send has been killed: nothing more of the send is performed (R344). -/
def State.sendKilled (s : State) (r : SendRec) : Bool := match s.items.look r.item with | some it => it.life == .killed | none => false

/-- A fired send whose outcome is known completes: its own counter add, which may fault, or may have to wait for a host page
(R151, R308). -/
def State.firedDone (s : State) (id : Nat) (r : SendRec) : State :=
  let gone : State := { s with sends := s.sends.rem id }
  if s.sendKilled r then gone
  else
    match r.done with
    | none => s
    | some false => gone.firedFault r
    | some true =>
      match s.firedAdd r with
      | .ok s => { s with sends := s.sends.rem id }
      | .error (.poison a) => gone.consumePoison r.block a
      | .error .wait => s
      | .error (.absent pg _) =>
        if s.isRefused (.send id) pg then (gone.forget (.send id)).firedFault r else s.askPage (.send id) r.ctx pg
      | .error _ => gone.firedFault r

/-- The peer's report on a send: a queued `LSEND` then goes on; a fired send completes (R307, R308). -/
def State.sendEnd (s : State) (id : Nat) (ok : Bool) : State :=
  match s.sends.look id with
  | none => s
  | some r =>
    if r.done.isSome then s
    else
      let r := { r with done := some ok }
      let s := { s with sends := s.sends.ins id r }
      if r.fired then s.firedDone id r else s

/-- A port goes down: every send on it completes as faulted, what has arrived of sends not yet whole is not performed, and the
host is told (R216, R358). -/
def State.portDown (s : State) (p : Nat) : State :=
  let x := s.port p
  let s := { s.setPort p { x with
      up := false, backlog := [], sendq := [], reserve := none, replay := [], receiving := x.receiving.filter (·.complete) } with
    toHost := s.toHost ++ [HostMsg.portDown p] }
  s.sends.foldl (fun s ((id, r) : Nat × SendRec) => if r.port = p then s.sendEnd id false else s) s

/-! ### Armed sends (R308 to R310) -/

/-- An armed send has made its comparison with a value. -/
def Thread.compared (t : Thread) (a : Armed) (v : Addr) : Thread :=
  { t with armed := t.armed.map (fun x => if x.id = a.id then { x with seen := some v } else x) }

/-- An armed send compares its trigger counter, where it has not yet compared the value that stands there: at arming, and
after each write (R216, R308). A counter that it may not read ends the send as faulted (R215; log entry 62), a poisoned one
is consumed (R349). -/
def State.compareArmed (s : State) (b : At) (a : Armed) : State :=
  match s.trigger b a with
  | none => s
  | some v =>
    if a.seen = some v then s
    else
      match s.locate b a.desc.tctr 8 1 counterOk with
      | .ok t =>
        if (s.readT (b.2.core / 16) t 8).2 then s.consumePoison b.1 a.desc.tctr
        else if a.desc.thresh ≤ v then s.updThr ⟨b.1, none⟩ (·.fires a)
        else s.updThr ⟨b.1, none⟩ (·.compared a v)
      | .error (.absent ..) | .error .wait => s
      | .error _ =>
        let s := s.updThr ⟨b.1, none⟩ (fun t => { t with armed := t.armed.filter (·.id != a.id) })
        if a.ev then s.postFired b.1 (eventRecord 6 2 0 (tagOf a.cmp) 0) else s

/-- Every armed send of the device makes the comparisons that are due. -/
def State.latchArmed (s : State) : State :=
  s.blocks.foldl (fun s (k, b) =>
    b.tel.armed.foldl (fun s a => match s.blk k with | some c => s.compareArmed (k, c) a | none => s) s) s

/-- Records of fired sends of a core's blocks that wait enter their event queues where there is room (R310). -/
def State.postFiredWaiting (s : State) (core : Nat) : State :=
  s.blocks.foldl (fun s (k, b) => if b.core = core ∧ b.run ≠ .saved then s.updThr ⟨k, none⟩ Thread.postWaiting else s) s

/-- A flit carries a part of one of some sends. -/
def ofSends (ids : List Nat) (f : Flit) : Bool :=
  match f.payload with | .data id .. => ids.contains id | _ => false

/-- The send of a core whose flits wait for a full send queue, with its port: the core's link port is blocked on it (R183). -/
def State.linkWait (s : State) (core : Nat) : Option (Nat × Nat) :=
  (s.sends.find? (fun (id, r) => r.core == core && (s.port r.port).backlog.any (ofSends [id]))).map
    (fun (id, r) => (id, r.port))

/-- The link port of a core is blocked: the record of a fired send of a block waits for a full event queue, or flits of a send for
a full send queue (R183, R310). -/
def State.portBlocked (s : State) (core : Nat) : Bool :=
  s.blocks.any (fun (_, b) => b.core == core && b.run != .saved && !b.tel.firedWait.isEmpty) || (s.linkWait core).isSome

/-- A blocked sender's next flit takes the reserve entry of a port's send queue, if that is free (R195). -/
def State.grantLink (s : State) (core : Nat) : State :=
  match s.linkWait core with
  | none => s
  | some (id, p) =>
    let x := s.port p
    match x.reserve, x.backlog.find? (ofSends [id]) with
    | none, some f =>
      (s.setPort p { x with backlog := x.backlog.erase f, sendq := x.sendq ++ [f], reserve := some x.sendq.length }).pumpPort p
    | _, _ => s

/-- A send that has fired sets its item's commit mark, and with EV posts its CODE 3 record, once (R308, R345). -/
def State.beginFire (s : State) (b : At) (a : Armed) : State :=
  if a.begun then s
  else
    let s := (s.updThr ⟨b.1, none⟩ (fun t =>
      { t with firing := t.firing.map (fun x => if x.id = a.id then { x with begun := true } else x) })).commit b.1
    if a.ev then s.postFired b.1 (eventRecord 6 3 0 (tagOf a.cmp) 0) else s

/-- A fired send has been carried out. -/
def State.endFire (s : State) (b : At) (a : Armed) : State :=
  s.updThr ⟨b.1, none⟩ (fun t => { t with firing := t.firing.filter (·.id != a.id) })

/-- Carries out a fired send (R308): it reads SRC and is sent; an absent host page is asked for, and a fault in reading SRC
completes it as faulted. Its CODE 3 record blocks the link port while the event queue is full (R183, R310). -/
def State.fire (s : State) (b : At) (a : Armed) : State :=
  let s := s.beginFire b a
  if s.portBlocked b.2.core then s
  else
  let failed : SendRec := ⟨a.desc.port, b.1, b.2.core, b.2.ctx, b.2.item, true, b.2.gen, a.cmp, a.ev, some false⟩
  match s.beginSend b a.desc true a.cmp a.ev with
  | .ok (s, id) =>
    let s := s.endFire b a
    if (s.port a.desc.port).up then s else s.firedDone id { failed with done := some false }
  | .error .wait => s
  | .error (.absent pg _) =>
    if s.isRefused (.send a.id) pg then ((s.forget (.send a.id)).endFire b a).firedFault failed
    else s.askPage (.send a.id) b.2.ctx pg
  | .error _ => (s.endFire b a).firedFault failed

/-- `ARMED_SEND_FIRE`: a fired send of a block's teller is carried out; those that fired before it have begun (R308). -/
def execArmedSendFire (block idx : Nat) : State → Host.Outcome State Fault Refusal :=
  fun s =>
    .next (match s.blk block with
      | none => s
      | some b =>
        let s := s.postFiredWaiting b.core
        match b.tel.firing[idx]? with
        | none => s
        | some a => if (b.tel.firing.take idx).all (·.begun) ∧ !s.portBlocked b.core then s.fire (block, b) a else s)

/-! ### Receiving (R216, R307, R358, R359) -/

/-- Sends a flit that carries no data. -/
def State.control (s : State) (p : Nat) (typ : FlitType) (seq ack : BitVec 12) (credit : Nat) : State :=
  { s with toHost := s.toHost ++ [.flit p ⟨seq, typ, ack, 0, credit, true, .none⟩] }

/-- A translation by a port or by F1, under a link or queue context (R359); no TLB of a core serves it. -/
def State.linkXlate (s : State) (ctx : Nat) (va : Addr) (need : Need) : XRes :=
  if !canonical va then .fault .xlate false
  else
    match s.walkBoth ctx va with
    | .error (c, st) => .fault c st
    | .ok (x, _) =>
      match x.permitted need with
      | .ok x => if x.space == .host && s.absent.rd false (x.pa / 4096) then .absent (x.pa / 4096) else .ok x
      | r => r

/-- Resolves a global place for a port or for F1: what `allow` refuses faults (R142, R147), host memory waits while DMA is off
(R354). -/
def State.portResolve (s : State) (ctx : Nat) (va : Addr) (need : Need) (allow : Target → Bool) : Res :=
  match s.linkXlate ctx va need with
  | .ok x =>
    if !allow (.mem x) then .fault .prot true
    else if x.space == .host && !s.hostDma ctx then .wait
    else .ok (.mem x)
  | .fault c st => .fault c st
  | .absent pg => .absent pg

/-- Performs the bytes of one received part piece by piece at DST (R216): what the translation refuses stops it; a poisoned write to
host memory is dropped while forwarding is off, and logged in the owner's queue (R348, R350). -/
def State.receiveBytes (s : State) (part ctx : Nat) (x : RecvPart) : Except (Halt × State) State :=
  (piecesOf x.dst x.bytes.length).foldlM (fun s (off, k) =>
    let a := x.dst + BitVec.ofNat 64 off
    match s.portResolve ctx a 2 plainOk with
    | .ok t =>
      if s.poisonBlocked part t x.poison then
        .ok (s.logError part (some ctx) ⟨0x0112, 0xFFFF, 0, 0xFFFFFFFF, 0, a, 0, 0⟩ true)
      else .ok (s.sendT t ((x.bytes.drop off).take k) x.poison true).noteWrites
    | .fault c st => .error (.fault c a st, s)
    | .wait => .error (.wait, s)
    | .absent pg => .error (.absent pg a, s)) s

/-- A receiver's record of a send, made at its first flit. -/
def Port.receiver (x : Port) (conn send : Nat) : RecvRec :=
  (x.receiving.find? (fun r => r.conn == conn && r.send == send)).getD ⟨conn, send, [], false, 0, false, false, 0, 0⟩

/-- Puts a receiver's record, new ones last. -/
def Port.setReceiver (x : Port) (r : RecvRec) : Port :=
  let same := fun (q : RecvRec) => q.conn == r.conn && q.send == r.send
  if x.receiving.any same then { x with receiving := x.receiving.map (fun q => if same q then r else q) }
  else { x with receiving := x.receiving ++ [r] }

/-- A connection that exists (R359). -/
def State.knownConn (s : State) (conn : Nat) : Option ConnInfo := (s.conns.look conn).bind Conn.live

/-- The parts of a whole send are performed in order; a fault ends them, a wait leaves the rest for later (R216). -/
def State.performParts (s : State) (p : Nat) (c : ConnInfo) (r : RecvRec) : List RecvPart → State
  | [] => s.setPort p ((s.port p).setReceiver { r with parts := [] })
  | x :: xs =>
    match s.receiveBytes c.part c.ctx x with
    | .ok s => s.performParts p c r xs
    | .error (.fault _ a st, s) =>
      s.setPort p ((s.port p).setReceiver { r with parts := [], faulted := true, faultAddr := a, faultStage2 := st })
    | .error (.absent pg a, s) =>
      let who := Asker.receive p r.conn r.send
      if s.isRefused who pg then
        (s.forget who).setPort p ((s.port p).setReceiver { r with parts := [], faulted := true, faultAddr := a })
      else (s.askPage who c.ctx pg).setPort p ((s.port p).setReceiver { r with parts := x :: xs })
    | .error (_, s) => s.setPort p ((s.port p).setReceiver { r with parts := x :: xs })

/-- A received data flit in order: it waits until the whole send has arrived, whose bytes are then performed under the link
context (R216, R359). -/
def State.receiveData (s : State) (p conn send : Nat) (c : ConnInfo) (x : RecvPart) (last : Bool) (rctr : Addr) (rinc : BitVec 16) :
    State :=
  let r := (s.port p).receiver conn send
  let r := { r with parts := r.parts ++ [x], complete := last, rctr, rinc }
  let s := s.setPort p ((s.port p).setReceiver r)
  if last then s.performParts p c r r.parts else s

/-- Replays from a SEQ out of the replay buffer; a flit replayed 16 times in a row takes the port down (R358). -/
def State.replayFrom (s : State) (p : Nat) (seq : BitVec 12) : State :=
  let x := s.port p
  if !x.up then s
  else
    let before := x.replay.takeWhile (fun (f, _) => f.seq != seq)
    let again := (x.replay.dropWhile (fun (f, _) => f.seq != seq)).map (fun (f, n) => (f, n + 1))
    if again.any (fun (_, n) => decide (16 ≤ n)) then s.portDown p
    else
      { s.setPort p { x with replay := before ++ again } with
        toHost := s.toHost ++ again.map (fun (f, _) => HostMsg.flit p f) }

/-- An acknowledgement removes what it covers from the replay buffer (R358). -/
def Port.ack (x : Port) (seq : BitVec 12) : Port :=
  if x.replay.any (fun (f, _) => f.seq == seq) then { x with replay := (x.replay.dropWhile (fun (f, _) => f.seq != seq)).drop 1 }
  else x

/-- `FLIT_RECEIVE`: a flit reaches a port (R358): a tag failure or a gap in SEQ is answered by a nak with the expected
SEQ; a data flit in order is taken and acknowledged with the credit of its queue entry; one of an unknown connection is
dropped and logged (R359). No port serves before the device is ready, nor where the manifest failed its signature (R362, R364). -/
def execFlitReceive (port : Nat) (flit : Flit) : State → Host.Outcome State Fault Refusal :=
  fun s =>
    .next (
      let x := s.port port
      if !x.up ∨ !s.ready ∨ !s.manifest.valid then s
      else if !flit.tagOk then s.control port .nak x.rxSeq (x.rxSeq - 1) 0
      else
        match flit.typ with
        | .idle => s
        | .ack => (s.setPort port { x.ack flit.ackseq with credits := x.credits + flit.credit }).pumpPort port
        | .credit => (s.setPort port { x with credits := x.credits + flit.credit }).pumpPort port
        | .nak => s.replayFrom port flit.seq
        | .data =>
          if flit.seq ≠ x.rxSeq then s.control port .nak x.rxSeq (x.rxSeq - 1) 0
          else
            let s := s.setPort port { x.ack flit.ackseq with rxSeq := x.rxSeq + 1, credits := x.credits + flit.credit }
            let s := match s.knownConn flit.conn, flit.payload with
              | none, _ => s.logDevice
              | some _, .none => s
              | some c, .data send dst bs poison last rctr rinc =>
                s.receiveData port flit.conn send c ⟨dst, bs, poison⟩ last rctr rinc
              | some _, .notice send ok => s.sendEnd send ok
            (s.control port .ack 0 flit.seq 1).pumpPort port)

/-- `FLIT_NAK`: the sender replays from the expected SEQ (R358). -/
def execFlitNak (port : Nat) (seq : BitVec 12) : State → Host.Outcome State Fault Refusal :=
  fun s => .next (s.replayFrom port seq)

/-- The receive counter's add (R216, R307): with RINC 0 the counter is neither translated nor checked. -/
def State.receiveAdd (s : State) (ctx : Nat) (r : RecvRec) : Except Halt State :=
  if r.faulted then .error (.fault .prot r.faultAddr r.faultStage2)
  else if r.rinc = 0 then .ok s
  else if r.rctr.toNat % 8 ≠ 0 then .error (.prot r.rctr)
  else
    match s.portResolve ctx r.rctr 3 counterOk with
    | .ok (.mem x) => .ok (s.addCounter (x.pa / Config.dieBytes) (.mem x) r.rinc.toNat)
    | .ok t => .ok (s.addCounter 0 t r.rinc.toNat)
    | .fault c st => .error (.fault c r.rctr st)
    | .wait => .error .wait
    | .absent pg => .error (.absent pg r.rctr)

/-- A received send is over: it leaves the port, and its sender is told. -/
def State.endReceive (s : State) (p : Nat) (r : RecvRec) : State :=
  let x := s.port p
  s.setPort p { x with receiving := x.receiving.filter (fun q => q.conn != r.conn || q.send != r.send) }

/-- Tells the sender the outcome of a send. -/
def State.notify (s : State) (p : Nat) (r : RecvRec) (ok : Bool) : State :=
  s.queueFlits p [⟨0, .data, 0, r.conn, 0, true, .notice r.send ok⟩]

/-- A receive fault is logged in the receiving partition, with its stage, and the sender told (R148, R197, R307, R348). -/
def State.receiveFault (s : State) (p : Nat) (c : ConnInfo) (r : RecvRec) (a : Addr) (stage2 : Bool) : State :=
  ((s.endReceive p r).logError c.part (some c.ctx)
    ⟨0x0150, 0xFFFF, 0, 0xFFFFFFFF, if stage2 then 1 else 0, a, 0, 0⟩ true).notify p r false

/-- A whole send goes on: the parts still to perform, then the counter add (R151, R216). -/
def State.finishReceive (s : State) (p : Nat) (c : ConnInfo) (r : RecvRec) : State :=
  let who := Asker.receive p r.conn r.send
  if !r.parts.isEmpty then s.performParts p c r r.parts
  else
    match s.receiveAdd c.ctx r with
    | .ok s => (s.endReceive p r).notify p r true
    | .error (.fault _ a st) => s.receiveFault p c r a st
    | .error (.absent pg a) =>
      if s.isRefused who pg then (s.forget who).receiveFault p c r a false else s.askPage who c.ctx pg
    | .error _ => s

/-- `RECEIVE_COUNTER_ADD`: the first send of a port that has arrived whole takes its counter add once its bytes are all
performed, or is logged as a link receive fault; the sender is told (R216, R307). -/
def execReceiveCounterAdd (port : Nat) : State → Host.Outcome State Fault Refusal :=
  fun s =>
    .next (match (s.port port).receiving.find? (·.complete) with
      | none => s
      | some r =>
        match s.knownConn r.conn with
        | none => s.endReceive port r
        | some c => s.finishReceive port c r)

/-- Both hosts have registered a connection, and join the same two (partition, device) pairs by it (R359). -/
def Conn.agreed (c : Conn) : Bool :=
  match c.here, c.there with
  | some a, some b => a.part == b.part && a.dev == b.dev && a.peerPart == b.peerPart
  | _, _ => false

/-- F0 loads the key of a connection on which both hosts agree: it then exists, its route is open and the host is told
(R359). -/
def State.loadConn (s : State) (conn : Nat) (c : Conn) : State :=
  match c.here with
  | none => s
  | some i =>
    if !c.agreed ∨ c.keyed ∨ (s.fw.rd .blank 0).updating.isSome then s
    else
      { s with
        conns := s.conns.ins conn { c with keyed := true },
        routes := s.routes.ins i.dev (s.routes.rd 0 i.dev ||| i.ports),
        toHost := s.toHost ++ [.registered conn] }

/-- F0 loads the keys of every connection that waits for one. -/
def State.loadConns (s : State) : State := s.conns.foldl (fun s (k, c) => s.loadConn k c) s

/-- The route to a device is through the ports of the connections to it that exist (R359). -/
def State.reroute (s : State) (dev : Nat) : State :=
  { s with
    routes := s.routes.wr 0 dev (s.conns.foldl (fun m (_, c) =>
      match c.live with | some i => if i.dev = dev then m ||| i.ports else m | none => m) 0) }

/-- A registration of one host: a connection that existed goes on existing only where it says the same as before (R359). -/
def Conn.register (c : Conn) (byPeer : Bool) (i : ConnInfo) : Conn :=
  let new := if byPeer then { c with there := some i } else { c with here := some i }
  { new with keyed := c.keyed && new.here == c.here && new.agreed }

/-- `CONNECTION_REGISTER`: one of the two hosts registers a connection; it exists once both have and F0 has loaded its key
(R359). The route table has 4,096 entries. While F5 is updated, connection changes are held (R361), and a manifest that failed
its signature leaves none (R362). -/
def execConnectionRegister (conn : Nat) (byPeer : Bool) (c : ConnInfo) : State → Host.Outcome State Fault Refusal :=
  fun s =>
    .next (
      if (s.fw.rd .blank 5).updating.isSome ∨ 4096 ≤ c.dev ∨ !s.manifest.valid then s
      else
        let old := (s.conns.look conn).getD ⟨none, none, false⟩
        let new := old.register byPeer c
        let s : State := { s with conns := s.conns.ins conn new }
        let s := match old.live with | some i => if new.keyed then s else s.reroute i.dev | none => s
        s.loadConn conn new)

end Sys2Proof.Machine
end

