-- ==== Sys2Proof/Machine/FloatOps.lean ====
section
/-! DEFINITION. F32 and packed 16-bit arithmetic, unary functions and comparisons: majors 0x10 to 0x13 (R245 to R251). -/

namespace Sys2Proof.Machine

/-! ### Float operands (R245) -/

/-- The bits of one half, or of the whole word in F32. -/
def halfOf (f : Fmt) (h : Nat) (x : Word) : Nat := (x.toNat / 2 ^ (16 * h)) % 2 ^ (1 + f.ebits + f.fbits)

/-- ABS, then NEG. -/
def modified (x : Ext) (k : Nat) (v : FVal) : FVal :=
  let v := if x.m k then v.abs else v
  if x.m (k + 1) then v.neg else v

/-- A literal of nine bits as a float: the integer, exactly (R106). -/
def FVal.lit9 (v : BitVec 9) : FVal := .ofInt v.toInt

/-- Float operand A: read, flushed, modified. -/
def Thread.fa (t : Thread) (f : Fmt) (h : Nat) (x : Ext) (l : Nat) : FVal :=
  modified x 3 (f.xin t.mode (halfOf f h (t.vr l x.a.toNat)))

/-- Float operand B: a register, an integer literal, or a bit pattern. -/
def Thread.fb (t : Thread) (f : Fmt) (h : Nat) (x : Ext) (l : Nat) : FVal :=
  match x.lit with
  | some v => f.xin t.mode (halfOf f h (v.extractLsb' 0 32))
  | none => if x.bl then .lit9 x.b else modified x 5 (f.xin t.mode (halfOf f h (t.vr l x.b.toNat)))

/-- Float operand C. -/
def Thread.fc (t : Thread) (f : Fmt) (h : Nat) (x : Ext) (l : Nat) : FVal :=
  if x.cl then .lit9 x.c else modified x 7 (f.xin t.mode (halfOf f h (t.vr l x.c.toNat)))

/-- The 16-bit format of a TY (R246). -/
def halfFmt (x : Ext) : Fmt := if x.ty = 1 then .f16 else .bf16

/-! ### Shared operations -/

/-- The exact result of a float instruction from its operands and rounding mode. -/
abbrev FloatOp := Rm → FVal → FVal → FVal → FVal

/-- `FADD`. -/
def addF : FloatOp := fun rm a b _ => a.add rm b
/-- `FSUB`: the addends are a and -b. -/
def subF : FloatOp := fun rm a b _ => a.add rm b.neg
/-- `FMUL`. -/
def mulF : FloatOp := fun _ a b _ => a.mul b
/-- `FFMA`: the exact product and c, added. -/
def fmaF : FloatOp := fun rm a b c => (a.mul b).add rm c
/-- `FMIN`. -/
def minF : FloatOp := fun _ a b _ => a.pick false b
/-- `FMAX`. -/
def maxF : FloatOp := fun _ a b _ => a.pick true b

/-- An F32 instruction: one rounding of the exact result, then the result flush (R247). -/
def float32 (i : Instr) (x : Ext) (rm : Nat) (op : FloatOp) : State → Host.Outcome State Fault Refusal :=
  onThread i (fun t =>
    t.putVs x.guard x.d.toNat (fun l =>
      let m := rmOf rm t.mode
      [BitVec.ofNat 32 (Fmt.f32.put m t.mode (op m (t.fa .f32 0 x l) (t.fb .f32 0 x l) (t.fc .f32 0 x l)))]))

/-- A packed 16-bit instruction: both halves, independently (R251). -/
def float16 (i : Instr) (x : Ext) (rm : Nat) (op : FloatOp) : State → Host.Outcome State Fault Refusal :=
  onThread i (fun t =>
    t.putVs x.guard x.d.toNat (fun l =>
      let m := rmOf rm t.mode
      let f := halfFmt x
      let half := fun h => f.put m t.mode (op m (t.fa f h x l) (t.fb f h x l) (t.fc f h x l))
      [BitVec.ofNat 32 (half 0 + 2 ^ 16 * half 1)]))

/-- A long-latency unary function: `f` gives the result's bits from the thread and operand (R248). -/
def unary32 (i : Instr) (x : Ext) (f : Thread → Nat → FVal → Nat) : State → Host.Outcome State Fault Refusal :=
  issueCompute i (fun t =>
    (t.lanes x.guard).map (fun l =>
      .v l x.d.toNat (BitVec.ofNat 32 (f t (t.vr l x.a.toNat).toNat (t.fa .f32 0 x l)))))

/-- The pattern of an operand after flush and modifiers: what a faithful function depends on (R248). -/
def operandBits (v : FVal) : Word := BitVec.ofNat 32 (Fmt.f32.rnd .rz v)

/-! ### F32 arithmetic (R247) -/

/-- `FADD` (R247). -/
def execFadd (x : Ext) : State → Host.Outcome State Fault Refusal := float32 (.fadd x) x (x.mf 1 0) addF

/-- The compact form of `FADD` (R104). -/
def execFaddCompact (c : Compact) : State → Host.Outcome State Fault Refusal :=
  float32 (.faddCompact c) c.ext 0 addF

/-- `FSUB` (R247). -/
def execFsub (x : Ext) : State → Host.Outcome State Fault Refusal := float32 (.fsub x) x (x.mf 1 0) subF

/-- The compact form of `FSUB` (R104). -/
def execFsubCompact (c : Compact) : State → Host.Outcome State Fault Refusal :=
  float32 (.fsubCompact c) c.ext 0 subF

/-- `FMUL` (R247). -/
def execFmul (x : Ext) : State → Host.Outcome State Fault Refusal := float32 (.fmul x) x (x.mf 1 0) mulF

/-- The compact form of `FMUL` (R104). -/
def execFmulCompact (c : Compact) : State → Host.Outcome State Fault Refusal :=
  float32 (.fmulCompact c) c.ext 0 mulF

/-- `FFMA` (R247). -/
def execFfma (x : Ext) : State → Host.Outcome State Fault Refusal := float32 (.ffma x) x (x.mf 1 0) fmaF

/-- The compact form of `FFMA`: D := A x B + D (R104). -/
def execFfmaCompact (c : Compact) : State → Host.Outcome State Fault Refusal :=
  float32 (.ffmaCompact c) { c.ext with c := c.d.setWidth 9 } 0 fmaF

/-- `FMIN` (R247). -/
def execFmin (x : Ext) : State → Host.Outcome State Fault Refusal := float32 (.fmin x) x 0 minF

/-- `FMAX` (R247). -/
def execFmax (x : Ext) : State → Host.Outcome State Fault Refusal := float32 (.fmax x) x 0 maxF

/-! ### Unary functions (R248, R249) -/

/-- `FRCP` (R248). -/
def execFrcp (x : Ext) : State → Host.Outcome State Fault Refusal :=
  unary32 (.frcp x) x (fun t _ a => Fmt.f32.put (rmOf (x.mf 1 0) t.mode) t.mode ((FVal.fin false 1 0).div a))

/-- `FSQRT` (R248). -/
def execFsqrt (x : Ext) : State → Host.Outcome State Fault Refusal :=
  unary32 (.fsqrt x) x (fun t _ a => Fmt.f32.put (rmOf (x.mf 1 0) t.mode) t.mode a.sqrt)

/-- `FRSQ` (R248). -/
def execFrsq (x : Ext) : State → Host.Outcome State Fault Refusal :=
  unary32 (.frsq x) x (fun t _ a => faithful 0 t.mode (operandBits a) a.rsqrt)

/-- `FEXP2` (R248). -/
def execFexp2 (x : Ext) : State → Host.Outcome State Fault Refusal :=
  unary32 (.fexp2 x) x (fun t _ a => faithful 1 t.mode (operandBits a) a.exp2)

/-- `FLOG2` (R248). -/
def execFlog2 (x : Ext) : State → Host.Outcome State Fault Refusal :=
  unary32 (.flog2 x) x (fun t _ a => faithful 2 t.mode (operandBits a) a.log2)

/-- `FRND` (R249). -/
def execFrnd (x : Ext) : State → Host.Outcome State Fault Refusal :=
  float32 (.frnd x) x (x.mf 1 0) (fun rm a _ _ => a.frnd rm)

/-- `FCLASS` (R249): the raw bits, with no flush. -/
def execFclass (x : Ext) : State → Host.Outcome State Fault Refusal :=
  onThread (.fclass x) (fun t =>
    t.putVs x.guard x.d.toNat (fun l => [BitVec.ofNat 32 (2 ^ fclassOf (t.vr l x.a.toNat).toNat)]))

/-! ### Comparisons (R250) -/

/-- `FCMP` (R250). -/
def execFcmp (x : Ext) : State → Host.Outcome State Fault Refusal :=
  onThread (.fcmp x) (fun t =>
    t.putPreds x.guard x.d.toNat (fun l => fcc (x.mf 2 0) (t.fa .f32 0 x l) (t.fb .f32 0 x l)))

/-- `FSET` (R250). -/
def execFset (x : Ext) : State → Host.Outcome State Fault Refusal :=
  onThread (.fset x) (fun t =>
    t.putVs x.guard x.d.toNat (fun l =>
      [if fcc (x.mf 2 0) (t.fa .f32 0 x l) (t.fb .f32 0 x l) then (if x.m 9 then 0x3F800000 else 0xFFFFFFFF) else 0]))

/-! ### Packed 16-bit arithmetic (R251) -/

/-- `HADD2` (R251). -/
def execHadd2 (x : Ext) : State → Host.Outcome State Fault Refusal := float16 (.hadd2 x) x (x.mf 1 0) addF

/-- `HMUL2` (R251). -/
def execHmul2 (x : Ext) : State → Host.Outcome State Fault Refusal := float16 (.hmul2 x) x (x.mf 1 0) mulF

/-- `HFMA2` (R251). -/
def execHfma2 (x : Ext) : State → Host.Outcome State Fault Refusal := float16 (.hfma2 x) x (x.mf 1 0) fmaF

/-- `HMIN2` (R251). -/
def execHmin2 (x : Ext) : State → Host.Outcome State Fault Refusal := float16 (.hmin2 x) x 0 minF

/-- `HMAX2` (R251). -/
def execHmax2 (x : Ext) : State → Host.Outcome State Fault Refusal := float16 (.hmax2 x) x 0 maxF

end Sys2Proof.Machine
end

