-- ==== Sys2Proof/Machine/Narrow.lean ====
section
/-! DEFINITION. Conversions, 8-bit packing and scaled vectors: majors 0x18 and 0x19 (R252 to R255). -/

namespace Sys2Proof.Machine

/-- The float format of a `CVT` type code (R252). -/
def fmtOfCode (c : Nat) : Fmt :=
  match c with
  | 8 => .f32
  | 9 => .f16
  | 10 => .bf16
  | 11 => .e4m3
  | _ => .e5m2

/-- The integer type of a `CVT` type code below 8: the SIMT codes of R222. -/
def intOfCode (c : Nat) : IntTy := intTy false (BitVec.ofNat 3 c)

/-- A `CVT` source: an exact integer or a float read under its flush (R253). -/
def cvtSource (t : Thread) (x : Ext) (l : Nat) : Int × FVal :=
  let ft := x.mf 7 4
  if ft < 8 then
    let n := (intOfCode ft).ext (if 6 ≤ ft then t.pairA x l else t.reg l x.a.toNat)
    (n, .ofInt n)
  else
    let f := fmtOfCode ft
    (0, f.xin t.mode (halfOf f 0 (t.vr l x.a.toNat)))

/-- `CVT`'s result (R253). -/
def cvtResult (t : Thread) (x : Ext) (l : Nat) : Addr :=
  let dt := x.mf 3 0
  let rm := rmOf (x.mf 9 8) t.mode
  let (n, v) := cvtSource t x l
  if dt < 8 then
    let y := intOfCode dt
    if x.mf 7 4 < 8 then y.result (x.m 10) n else y.put (v.toInt rm y.lo y.hi)
  else
    let f := fmtOfCode dt
    BitVec.ofNat 64 (f.xout t.mode (if f.cls = 2 then f.cvt8 (x.m 10) v else f.rnd rm v))

/-- `CVT` (R252, R253). -/
def execCvt (x : Ext) : State → Host.Outcome State Fault Refusal :=
  onThread (.cvt x) (fun t =>
    if x.mf 3 0 = 6 ∨ x.mf 3 0 = 7 then t.putPairs x.guard x.d.toNat (fun l => cvtResult t x l)
    else t.putRegs x.guard x.d.toNat (fun l => cvtResult t x l))

/-- The 8-bit format of a TY (R254). -/
def fmt8 (x : Ext) : Fmt := if x.ty = 3 then .e4m3 else .e5m2

/-- Four bytes as a word, byte 0 lowest. -/
def wordOf4 (f : Nat → Nat) : Word := BitVec.ofNat 32 (f 0 + 2 ^ 8 * f 1 + 2 ^ 16 * f 2 + 2 ^ 24 * f 3)

/-- Byte `i` of a word. -/
def byteOf (w : Word) (i : Nat) : Nat := (w.extractLsb' (8 * i) 8).toNat

/-- Source `i` of the four registers from A, flushed and modified (R245, R254). -/
def Thread.fa4 (t : Thread) (x : Ext) (l i : Nat) : FVal :=
  modified x 3 (Fmt.f32.xin t.mode (t.vr l (x.a.toNat + i)).toNat)

/-- The scale of `QVEC` and `DQV`: a register or a bit pattern, under FI32 (R255). -/
def Thread.scale (t : Thread) (x : Ext) (l : Nat) : FVal := Fmt.f32.xin t.mode ((t.opB x l).extractLsb' 0 32).toNat

/-- `PK8` (R254). -/
def execPk8 (x : Ext) : State → Host.Outcome State Fault Refusal :=
  onThread (.pk8 x) (fun t =>
    t.putVs x.guard x.d.toNat (fun l =>
      [wordOf4 (fun i => (fmt8 x).xout t.mode ((fmt8 x).cvt8 (x.m 0) (t.fa4 x l i)))]))

/-- `UPK8` (R254): every 8-bit value is exact in F32. -/
def execUpk8 (x : Ext) : State → Host.Outcome State Fault Refusal :=
  onThread (.upk8 x) (fun t =>
    t.putVs x.guard x.d.toNat (fun l =>
      (List.range 4).map (fun i =>
        BitVec.ofNat 32 (Fmt.f32.rnd .rne ((fmt8 x).xin t.mode (byteOf (t.vr l x.a.toNat) i))))))

/-- `QVEC` (R255): the exact quotient, rounded once. -/
def execQvec (x : Ext) : State → Host.Outcome State Fault Refusal :=
  onThread (.qvec x) (fun t =>
    t.putVs x.guard x.d.toNat (fun l =>
      [wordOf4 (fun i => (fmt8 x).xout t.mode ((fmt8 x).cvt8 (x.m 0) ((t.fa4 x l i).div (t.scale x l))))]))

/-- `DQV` (R255). -/
def execDqv (x : Ext) : State → Host.Outcome State Fault Refusal :=
  onThread (.dqv x) (fun t =>
    t.putVs x.guard x.d.toNat (fun l =>
      (List.range 4).map (fun i =>
        BitVec.ofNat 32 (Fmt.f32.put (rmOf (x.mf 1 0) t.mode) t.mode
          (((fmt8 x).xin t.mode (byteOf (t.vr l x.a.toNat) i)).mul (t.scale x l))))))

end Sys2Proof.Machine
end

