-- ==== Sys2Proof/Machine/Trit.lean ====
section
/-! DEFINITION. Trits: packed bytes, codes and major 0x1A (R86, R87, R256, R257). -/

namespace Sys2Proof.Machine

/-- Digit `i` of a packed byte (R87). -/
def digit (b i : Nat) : Nat := (b / 3 ^ i) % 3

/-- `digit_ok`: a byte that holds `h` trits is legal (R87). -/
def digitOk (b h : Nat) : Bool := decide (b < 3 ^ h)

/-- The count of trits that NM1 names (R256). -/
def tritCount (x : Ext) : Nat := x.mf 4 0 + 1

/-- The number of bytes that hold n trits (R256). -/
def bytesUsed (n : Nat) : Nat := (n + 4) / 5

/-- The number of trits in byte `j` of n trits (R256). -/
def tritsIn (n j : Nat) : Nat := min 5 (n - 5 * j)

/-- Code `i` of a pair (R256). -/
def codeAt (p : Addr) (i : Nat) : Nat := (p.extractLsb' (2 * i) 2).toNat

/-- A byte packed from codes; a code 0b11 makes it 0xFF (R256). -/
def packByte (code : Nat → Nat) (h : Nat) : Nat :=
  if (List.range h).any (fun i => code i == 3) then 0xFF
  else (List.range h).foldl (fun b i => b + code i * 3 ^ i) 0

/-- The first byte used that is illegal (R87). -/
def firstIllegal (w : Word) (n : Nat) : Option Nat :=
  (List.range (bytesUsed n)).find? (fun j => !digitOk (byteOf w j) (tritsIn n j))

/-- The codes of n trits as a pair (R256). -/
def unpackCodes (w : Word) (n : Nat) : Addr :=
  (List.range n).foldl
    (fun p i => p ||| (BitVec.ofNat 64 (digit (byteOf w (i / 5)) (i % 5)) <<< (2 * i))) 0

/-- `TRPK` (R256). -/
def execTrpk (x : Ext) : State → Host.Outcome State Fault Refusal :=
  onThread (.trpk x) (fun t =>
    t.putVs x.guard x.d.toNat (fun l =>
      [wordOf4 (fun j =>
        if j < bytesUsed (tritCount x) then packByte (fun i => codeAt (t.pairA x l) (5 * j + i)) (tritsIn (tritCount x) j) else 0)]))

/-- `TRUP` (R256, R257): a lane with an illegal byte stops and traps TRIT; the others write their codes. -/
def execTrup (x : Ext) : State → Host.Outcome State Fault Refusal :=
  onThread (.trup x) (fun t =>
    let ls := t.lanes x.guard
    let bad := ls.filterMap (fun l =>
      (firstIllegal (t.vr l x.a.toNat) (tritCount x)).map (fun j =>
        (l, (t.vr l x.a.toNat).setWidth 64 ||| (BitVec.ofNat 64 j <<< 62))))
    let good := ls.filter (fun l => (firstIllegal (t.vr l x.a.toNat) (tritCount x)).isNone)
    (t.each good (fun l u => u.setPair l x.d.toNat (unpackCodes (t.vr l x.a.toNat) (tritCount x)))).failLanes .trit 0 bad)

/-- `TRCHK` (R256). -/
def execTrchk (x : Ext) : State → Host.Outcome State Fault Refusal :=
  onThread (.trchk x) (fun t =>
    t.putPreds x.guard x.d.toNat (fun l => (firstIllegal (t.vr l x.a.toNat) (tritCount x)).isNone))

end Sys2Proof.Machine
end

