-- ==== Sys2Proof/Machine/EngineRun.lean ====
section
/-! DEFINITION. What engine commands do when they are performed, and the engines' events (R142, R144, R193, R195, R208,
R215, R288 to R304). -/

namespace Sys2Proof.Machine

/-! ### Tiles and accumulators (R124, R297) -/

/-- A byte of a tile (R124). -/
def Block.tileByte (b : Block) (t row col : Nat) : Nat := (b.tile.rd 0 (t * 16384 + row * 128 + col)).toNat

/-- A unit of a block is poisoned (R349). -/
def Block.isPoisoned (b : Block) (u : EvictUnit) : Bool := b.poisoned.contains u

/-- One of `n` bytes of a tile from an offset lies in a line that is poisoned (R349). -/
def Block.tilePoisoned (b : Block) (t off n : Nat) : Bool :=
  b.isPoisoned (.tile t) && (linesOf off n).any (fun l => !b.cleanLines.rd false (t * 256 + l))

/-- A part of a tile, rows from `r` and columns from `c` on, has a byte in a line that is poisoned. -/
def Block.areaPoisoned (b : Block) (t r rows c cols : Nat) : Bool :=
  (List.range rows).any (fun i => b.tilePoisoned t (128 * (r + i) + c) cols)

/-- Lines of a tile have been written whole, which clears their poison; with its last line the tile has none (R349). -/
def Block.cleanTile (b : Block) (t : Nat) (ls : List Nat) : Block :=
  if !b.isPoisoned (.tile t) then b
  else
    let clean := ls.foldl (fun m l => m.wr false (t * 256 + l) true) b.cleanLines
    if (List.range 256).all (fun l => clean.rd false (t * 256 + l)) then
      { b with poisoned := b.poisoned.filter (· != .tile t), cleanLines := clean.filter (fun e => e.1 / 256 != t) }
    else { b with cleanLines := clean }

/-- Writes bytes of a tile from an offset: a line written whole loses its poison (R349). -/
def Block.setTile (b : Block) (t off : Nat) (bs : List Byte) : Block :=
  { b with tile := writeMem b.tile (t * 16384 + off) bs }.cleanTile t
    ((linesOf off bs.length).filter (fun l => decide (off ≤ 64 * l) && decide (64 * l + 64 ≤ off + bs.length)))

/-- Writes bytes of a tile of a block. -/
def State.setTile (s : State) (k t off : Nat) (bs : List Byte) : State := s.updBlk k (·.setTile t off bs)

/-- A unit written whole loses its poison (R349). -/
def State.cleanse (s : State) (k : Nat) (u : EvictUnit) : State :=
  s.updBlk k (fun b => { b with poisoned := b.poisoned.filter (· != u) })

/-- Fails when an engine reads one of a list of poisoned units. -/
def Block.readable (b : Block) (us : List EvictUnit) : Except Halt Unit :=
  if us.any b.isPoisoned then .error (.poison 0) else .ok ()

/-- The whole of `n` scratchpad bytes lies in the block's scratchpad (R139). -/
def Block.within (b : Block) (off n : Nat) : Except Halt Unit :=
  if b.scratchBytes < off + n then .error (.prot (BitVec.ofNat 64 off)) else .ok ()

/-- Scratchpad bytes that an engine consumes. -/
def Block.scratchAt (b : Block) (off n : Nat) : Except Halt (List Byte) := do
  b.within off n
  if b.linePoisoned off n then .error (.poison 0)
  .ok (readMem b.scratch off n)

/-- The status bits of STAT (R297). -/
def statCorr : Nat := 1
/-- STAT.C11. -/
def statC11 : Nat := 2
/-- STAT.NAN. -/
def statNan : Nat := 4
/-- STAT.INF. -/
def statInf : Nat := 8
/-- STAT.SATX. -/
def statSatx : Nat := 16

/-- Sets bits of an accumulator's STAT (R297). -/
def Block.mark (b : Block) (a bits : Nat) : Block :=
  { b with stat := b.stat.wr 0 a (b.stat.rd 0 a ||| BitVec.ofNat 8 bits) }

/-- The STAT bit of a part that became infinite or NaN (R297). -/
def special (f : Fmt) (bits : Nat) : Nat :=
  match f.dec bits with
  | .nan => statNan
  | .inf _ => statInf
  | _ => 0

/-- Writes the F26 part of an element. -/
def Block.put26 (b : Block) (a e bits : Nat) : Block :=
  { b with acc26 := b.acc26.wr 0 (a * 16384 + e) (BitVec.ofNat 26 bits) }.mark a (special .f26 bits)

/-- Writes the F32 part of an element. -/
def Block.put32 (b : Block) (a e bits : Nat) : Block :=
  { b with acc32 := b.acc32.wr 0 (a * 16384 + e) (BitVec.ofNat 32 bits) }.mark a (special .f32 bits)

/-- `rne26f` (R99). -/
def rne26f (mode : Word) (v : FVal) : Nat := Fmt.f26.put .rne mode v

/-- `rne32f` (R99). -/
def rne32f (mode : Word) (v : FVal) : Nat := Fmt.f32.put .rne mode v

/-- The elements of an accumulator that are not +0 in both parts; +0 + +0 stays +0, so no other is changed by a
promotion. -/
def Block.listed (b : Block) (a : Nat) : List Nat :=
  let mine := fun (k : Nat) => if k / 16384 = a then some (k % 16384) else none
  let e26 := b.acc26.filterMap (fun (k, _) => mine k)
  e26 ++ (b.acc32.filterMap (fun (k, _) => mine k)).filter (fun e => !e26.contains e)

/-- Promotion of one element, from the parts that it has in `b0` (R92, R93). -/
def Block.promoteOne (b0 : Block) (mode : Word) (a : Nat) (b : Block) (e : Nat) : Block :=
  let x := Fmt.f32.dec (b0.acc32.rd 0 (a * 16384 + e)).toNat
  let y := Fmt.f26.dec (b0.acc26.rd 0 (a * 16384 + e)).toNat
  let r := rne32f mode (x.add .rne y)
  { b with acc26 := b.acc26.rem (a * 16384 + e) }.put32 a e r

/-- Promotion of all 16,384 elements of an accumulator; cnt becomes 0 (R92, R296, R301). -/
def Block.promote (b : Block) (mode : Word) (a : Nat) : Block :=
  let b := (b.listed a).foldl (b.promoteOne mode a) b
  { b with cnt := b.cnt.wr 0 a 0 }

/-- Clears an accumulator: every part, cnt and STAT (R302). -/
def Block.clearAcc (b : Block) (a : Nat) : Block :=
  { b with
    acc26 := b.acc26.filter (fun (k, _) => k / 16384 != a),
    acc32 := b.acc32.filter (fun (k, _) => k / 16384 != a),
    cnt := b.cnt.wr 0 a 0,
    stat := b.stat.wr 0 a 0 }

/-- Values not defined in an accumulator (R299): free words from number `n` on, 32,770 of them. -/
def Block.scramble (b : Block) (n a : Nat) : Block :=
  let w := fun i => Config.freeWord (n + i)
  let b := b.clearAcc a
  let b := (List.range 16384).foldl (fun b e =>
    { b with
      acc26 := b.acc26.wr 0 (a * 16384 + e) ((w (2 * e)).extractLsb' 0 26),
      acc32 := b.acc32.wr 0 (a * 16384 + e) ((w (2 * e + 1)).extractLsb' 0 32) }) b
  { b with
    cnt := b.cnt.wr 0 a ((w 32768).toNat % 64),
    stat := b.stat.wr 0 a (BitVec.ofNat 8 ((w 32769).toNat % 32)) }

/-- The accumulators of a racing command hold values that are not defined (R299). -/
def State.scramble (s : State) (c : Cmd) : State :=
  if !c.racy then s
  else
    c.kind.accs.foldl (fun s a =>
      { s.updBlk c.block (·.scramble s.fresh a) with fresh := s.fresh + 32770 }) s

/-! ### Shape records (R208) -/

/-- A shape record: its total rows, ZFILL, and the tile row and scratchpad row of each row in entry order. -/
structure Shape where
  rows : Nat
  zfill : Bool
  pairs : List (Nat × Nat)
deriving DecidableEq, Repr

/-- The rows of a record's entries from a tile row on. -/
def shapeRows : Nat → List (Nat × Nat) → List (Nat × Nat)
  | _, [] => []
  | t, (first, len) :: es => (List.range len).map (fun j => (t + j, first + j)) ++ shapeRows (t + len) es

/-- The bytes of a shape record at a generic address: its head and its entries (R208). -/
def State.shapeBytes (s : State) (b : At) (rec : Addr) : Except Halt (List Byte) := do
  let h ← s.consume b rec 16 plainOk
  let body ← s.consume b (rec + 16) (4 * field h 0 1) plainOk
  .ok (h ++ body)

/-- A shape record from its bytes, checked (R208); `rec` is the address that a fault reports. -/
def shapeOf (rec : Addr) (bs : List Byte) : Except Halt Shape :=
  let n := field bs 0 1
  let es := (List.range n).map (fun i => (field bs (16 + 4 * i) 2, field bs (18 + 4 * i) 2))
  let rows := field bs 2 2
  let total := es.foldl (fun m (_, len) => m + len) 0
  if field bs 1 1 ≠ 0 ∨ 1 < field bs 4 2 ∨ ((bs.take 16).drop 6).any (· != 0) ∨ 128 < rows ∨ rows ≠ total then .error (.prot rec)
  else .ok ⟨rows, field bs 4 2 = 1, shapeRows 0 es⟩

/-- Reads and checks a shape record at a generic address (R208). -/
def State.shape (s : State) (b : At) (rec : Addr) : Except Halt Shape := (s.shapeBytes b rec).bind (shapeOf rec)

/-! ### Tile moves (R292, R293) -/

/-- A command that stopped part-way: why, and the state with what it had written. -/
abbrev Run' := Except (Halt × State) State

/-- A halt before any effect. -/
def atOnce (s : State) {α : Type} (x : Except Halt α) (f : α → Run') : Run' :=
  match x with
  | .ok a => f a
  | .error e => .error (e, s)

/-- The rows of a command that one run of it performs: from `lo` on, and up to a split granule where it stops there (R290). A
run from a later row than the first uses the record or descriptor and the column scales that the first one read. -/
structure Part where
  lo : Nat
  stop : Option Nat
  record : List Byte
  scales : List Byte
deriving DecidableEq, Repr

/-- Bytes kept since the first part of a command, or read now. -/
def Part.kept (p : Part) (bytes : List Byte) (read : Except Halt (List Byte)) : Except Halt (List Byte) :=
  if p.lo = 0 then read else .ok bytes

/-- The row after the last of a part, of a command of `n` rows. -/
def Part.hi (p : Part) (n : Nat) : Nat := min n (p.stop.getD n)

/-- The members of a list of rows that a part performs. -/
def Part.of {α : Type} (p : Part) (rows : List α) : List α := (rows.take (p.hi rows.length)).drop p.lo

/-- `GATH` (R292); the rows that ZFILL clears are cleared after the last. -/
def runGath (s : State) (b : At) (p : Part) (t : Nat) (rec : Addr) : Run' :=
  atOnce s (do
    let sh ← (p.kept p.record (s.shapeBytes b rec)).bind (shapeOf rec)
    sh.pairs.forM (fun (_, q) => b.2.within (128 * q) 128)
    let rows ← (p.of sh.pairs).mapM (fun (r, q) => (b.2.scratchAt (128 * q) 128).map (fun bs => (r, bs)))
    .ok (sh, rows)) (fun (sh, rows) =>
      let s := rows.foldl (fun s (r, bs) => s.setTile b.1 t (128 * r) bs) s
      .ok (if sh.zfill && p.stop.isNone then s.setTile b.1 t (128 * sh.rows) (List.replicate (128 * (128 - sh.rows)) 0) else s))

/-- The limits of `TLDS` and `TSTS` (R292); the offset is formed exactly. -/
def Block.tileRange (b : Block) (off : Int) (n : Addr) : Except Halt Unit :=
  if 128 < n ∨ off % 4 ≠ 0 then .error (.prot (BitVec.ofInt 64 off))
  else if n = 0 then .ok ()
  else if off < 0 then .error (.prot (BitVec.ofInt 64 off))
  else b.within off.toNat (128 * n.toNat)

/-- `TLDS` (R292). -/
def runTlds (s : State) (b : At) (p : Part) (t : Nat) (off : Int) (n : Addr) : Run' :=
  atOnce s (do
    b.2.tileRange off n
    if n = 0 then .ok [] else b.2.scratchAt (off.toNat + 128 * p.lo) (128 * (p.hi n.toNat - p.lo)))
    (fun bs => .ok (s.setTile b.1 t (128 * p.lo) bs))

/-- `TSTS`, by rows or through the column port (R292). -/
def runTsts (s : State) (b : At) (p : Part) (t : Nat) (off : Int) (n : Addr) (tr : Bool) : Run' :=
  atOnce s (do
    b.2.tileRange off n
    let lo := p.lo
    let rows := p.hi n.toNat - p.lo
    if if tr then b.2.areaPoisoned t 0 128 lo rows else b.2.areaPoisoned t lo rows 0 128 then .error (.poison 0)) (fun _ =>
      let bytes := (p.of (List.range n.toNat)).flatMap (fun r =>
        (List.range 128).map (fun j => BitVec.ofNat 8 (if tr then b.2.tileByte t j r else b.2.tileByte t r j)))
      .ok (s.writeT (.scratch b.1 (off.toNat + 128 * p.lo)) bytes false))

/-- `TZERO` (R292). -/
def runTzero (s : State) (b : At) (t : Nat) : Run' := .ok (s.setTile b.1 t 0 (List.replicate 16384 0))

/-- A vault target: what `VLD` alone may read (R142). -/
def vaultOnly : Target → Bool
  | .scratch .. => false
  | .mem x => x.space == .vault

/-- The first illegal byte of a tile image, in its order (R87, R293). -/
def badTrit (img : List Byte) : Option Nat :=
  (List.range img.length).find? (fun i => !digitOk (img.getD i 0).toNat (if i % 26 < 25 then 5 else 3))

/-- The tile bytes of an image: row k, byte n holds the code of trit k of column n (R88, R293). -/
def imageCodes (img : List Byte) : List Byte :=
  (List.range 128).flatMap (fun k => (List.range 128).map (fun n =>
    BitVec.ofNat 8 (digit (img.getD (26 * n + k / 5) 0).toNat (k % 5))))

/-- `VLD` (R293): the image is validated whole before the tile is written. -/
def runVld (s : State) (b : At) (t : Nat) (x : Addr) : Run' :=
  atOnce s (s.consume b x 3328 vaultOnly) (fun img =>
    match badTrit img with
    | some i => .error (.fault .trit (x + BitVec.ofNat 64 i) false, s)
    | none => .ok (s.setTile b.1 t 0 (imageCodes img)))

/-- The vault bank of a byte (R142). -/
def bankOf (pa : Nat) : Nat := (pa / 2 ^ 15) % 64

/-- A bank refreshes at a time of the period, in ns (R143). -/
def refreshing (bank ns : Nat) : Bool := decide (1560 * bank ≤ ns) && decide (ns < 1560 * bank + 1600)

/-- The banks that an image lies in, with its die (R142); none where it does not translate. -/
def State.banks (s : State) (b : At) (x : Addr) : List (Nat × Nat) :=
  [0, 3327].filterMap (fun i =>
    match s.locate b (x + BitVec.ofNat 64 i) 1 1 vaultOnly with
    | .ok (.mem y) => some (y.pa / Config.vaultDie, bankOf y.pa)
    | _ => none)

/-- The microsecond of a die's refresh period (R143, R217). -/
def State.period (s : State) (die : Nat) : Nat := (s.now - (s.dies.rd .blank die).epoch).toNat % 100

/-- No bank of an image refreshes, in its own die's calendar, at a part of the present microsecond, in ns (R143, R144). -/
def State.banksFree (s : State) (b : At) (x : Addr) (ns : Nat) : Bool :=
  (s.banks b x).all (fun (d, k) => !refreshing k (s.period d * 1000 + ns))

/-- The microsecond of the refresh period of the die that an image begins on. -/
def State.imagePeriod (s : State) (b : At) (x : Addr) : Nat :=
  match s.banks b x with
  | (d, _) :: _ => s.period d
  | [] => 0

/-- No bank of an image refreshes in any part of the present microsecond. -/
def State.banksIdle (s : State) (b : At) (x : Addr) : Bool :=
  (s.banks b x).all (fun (d, k) =>
    let us := s.period d * 1000
    decide (us + 1000 ≤ 1560 * k) || decide (1560 * k + 1600 ≤ us))

/-! ### Drain, clear, status (R300 to R302) -/

/-- The format of FMT (R300). -/
def drainFmt (fmt : Nat) : Fmt :=
  match fmt with
  | 0 => .f32
  | 1 => .f16
  | 2 => .bf16
  | 3 => .e4m3
  | _ => .e5m2

/-- `convert` of a drained value and whether it saturated or gave NaN (R93, R99, R297). -/
def convertOut (mode : Word) (fmt : Nat) (sat : Bool) (y : Nat) : Nat × Bool :=
  let f := drainFmt fmt
  let v := Fmt.f32.dec y
  if f.cls = 2 then
    let r := f.cvt8 sat v
    (f.xout mode r, (f.dec r).isNan || r != f.cvt8 false v)
  else if fmt = 0 then (y, false)
  else (f.xout mode (f.rnd .rne v), false)

/-- A drained row: its bytes, and whether an element saturated (R301). -/
def Block.drainRow (b : Block) (mode : Word) (a t n fmt : Nat) (sat : Bool) (scale : Nat → FVal) : List Byte × Bool :=
  (List.range n).foldl (fun (bs, x) j =>
    let y := rne32f mode ((Fmt.f32.dec (b.acc32.rd 0 (a * 16384 + t * 128 + j)).toNat).mul (scale j))
    let (o, sx) := convertOut mode fmt sat y
    (bs ++ bytesOf o (drainSize fmt), x || sx)) ([], false)

/-- `DRAIN` (R301): parameters, shape record and alignment are checked before the promotion, which is made once; rows are
then written in order, and a fault in one leaves those before it. A row is one access for the WINDOW check of R138 (the model's
choice; log entry 90). -/
def runDrain (s : State) (b : At) (part : Part) (mode : Word) (dst : Addr) (a : Nat) (params : Addr) (rec : Option Addr) (fmt : Nat)
    (sat sw : Bool) : Run' :=
  let m := (params.extractLsb' 0 8).toNat
  let n := (params.extractLsb' 8 8).toNat
  let pitch := (params.extractLsb' 16 16).toNat
  let swo := (params.extractLsb' 32 19).toNat
  atOnce s (do
    if params.extractLsb' 51 13 ≠ 0 ∨ pitch % 4 ≠ 0 ∨ swo % 4 ≠ 0 ∨ 128 < n ∨ (rec.isNone ∧ 128 < m) then
      .error (.prot 0)
    let rows ← match rec with
      | some r => ((part.kept part.record (s.shapeBytes b r)).bind (shapeOf r)).map (·.pairs)
      | none => .ok ((List.range m).map (fun t => (t, t)))
    let scales ← if sw then part.kept part.scales (b.2.scratchAt swo 512) else .ok []
    if regionOf dst (drainSize fmt) = .window then .error (.fault .window dst false)
    if dst.toNat % drainSize fmt ≠ 0 then .error (.fault .align dst false)
    b.2.readable [.acc a]
    .ok (rows, scales)) (fun (rows, scales) =>
      let scale := fun j => if sw then Fmt.f32.xin mode (field scales (4 * j) 4) else FVal.ofInt 1
      let p := if part.lo = 0 then b.2.promote mode a else b.2
      let s := if part.lo = 0 then s.updBlk b.1 (·.promote mode a) else s
      (part.of rows).foldlM (fun s (t, r) =>
        let (bs, satx) := p.drainRow mode a t n fmt sat scale
        let s := if satx then s.updBlk b.1 (·.mark a statSatx) else s
        s.putBytes b (dst + BitVec.ofNat 64 (pitch * r)) bs false plainOk) s)

/-- `ACLR` (R302). -/
def runAclr (s : State) (b : At) (tm : Nat) : Run' :=
  .ok (((List.range 4).filter tm.testBit).foldl (fun s a => (s.updBlk b.1 (·.clearAcc a)).cleanse b.1 (.acc a)) s)

/-- A late k result of a command (R116, R121). -/
def State.lateK (s : State) (b : At) (o : Op) (d : Nat) (x : Addr) : State :=
  s.updThr ⟨b.1, none⟩ (fun t => if o.dropped.contains d then t else t.landK o.id d x)

/-- STAT and cnt of an accumulator at the start of an engine's array command on it that is not complete: one that runs, or one
that has stopped at a granule (R290, R311). Those of a racing command's accumulator are not defined (R299), and stand as they
are. -/
def State.statBefore (s : State) (b : At) (a eng : Nat) : Option Nat :=
  let on := fun (c : Cmd) => match c.kind with | .array x => c.block == b.1 && x.d == a && !c.racy | _ => false
  let en := s.engine b.2.core eng
  match en.cur, en.phase, b.2.stopped.look eng with
  | some c, .running, _ => if on c then some en.prog.statStart else none
  | some c, .posting _ (.stopped p), _ => if on c then some p.statStart else none
  | none, _, some (c, p) => if on c then some p.statStart else none
  | _, _, _ => none

/-- STAT and cnt of an accumulator as `ASTAT` reports them (R302): where a command of an array on it is under way, as they stood
before that command (R311). -/
def State.statOf (s : State) (b : At) (a : Nat) : Nat :=
  ([2, 3].findSome? (s.statBefore b a)).getD ((b.2.stat.rd 0 a).toNat + 256 * b.2.cnt.rd 0 a)

/-- `ASTAT` (R302). -/
def runAstat (s : State) (b : At) (o : Op) (d a : Nat) (clr : Bool) : Run' :=
  atOnce s (b.2.readable [.acc a]) (fun _ =>
    let s' := s.lateK b o d (BitVec.ofNat 64 (s.statOf b a))
    .ok (if clr then s'.updBlk b.1 (fun b => { b with stat := b.stat.wr 0 a 0 }) else s'))

/-! ### Tensor copy (R303, R304) -/

/-- A `TCPY` descriptor (R303): counts and the four signed strides. -/
structure CopyDesc where
  nx : Nat
  ny : Nat
  nz : Nat
  ssy : Addr
  ssz : Addr
  dsy : Addr
  dsz : Addr
deriving DecidableEq, Repr

/-- A `TCPY` descriptor from its bytes, checked; `esz` 0 is the 4-bit element (R303, R304). -/
def copyDescOf (a : Addr) (esz : Nat) (tr : Bool) (bs : List Byte) : Except Halt CopyDesc :=
  let q := fun i => BitVec.ofNat 64 (field bs i 8)
  let d : CopyDesc := ⟨field bs 0 4, field bs 4 4, field bs 8 4, q 16, q 24, q 32, q 40⟩
  let none := d.nx = 0 ∨ d.ny = 0 ∨ d.nz = 0
  if field bs 12 4 ≠ 0 ∨ (bs.drop 48).any (· != 0) ∨ 2 ^ 24 < d.nx ∨ 2 ^ 24 < d.ny ∨ 2 ^ 24 < d.nz ∨
      (¬none ∧ esz = 0 ∧ (d.nx % 2 ≠ 0 ∨ (tr ∧ d.ny % 2 ≠ 0))) then .error (.prot a)
  else .ok d

/-- Reads and checks a `TCPY` descriptor (R303). -/
def State.copyDesc (s : State) (b : At) (a : Addr) (esz : Nat) (tr : Bool) : Except Halt CopyDesc :=
  (s.consume b a 64 plainOk).bind (copyDescOf a esz tr)

/-- The vault segments that resident launches name (R142, R188), as die x 256 + unit. The spec does not define which launches are
resident: those with an item posted or running (the model's choice; log entry 84). -/
def State.namedSegments (s : State) : List Nat :=
  s.items.flatMap (fun (_, it) =>
    if it.alive then (match s.launches.look it.launch with | some la => la.vaults | none => []) else [])

/-- The segment of a vault address. -/
def segmentOf (pa : Nat) : Nat := pa / Config.vaultDie * 256 + pa % Config.vaultDie / 2 ^ 21

/-- `TCPY`'s destinations: everything but vault segments that a resident launch names (R142). -/
def State.copyOk (s : State) : Target → Bool
  | .scratch .. => true
  | .mem x => x.space != .vault || !s.namedSegments.contains (segmentOf x.pa)

/-- One side of a `TCPY`: a tile of bytes, or generic addresses. -/
inductive CopySide where
  | tile (t : Nat)
  | mem
deriving DecidableEq, Repr

/-- An element's place: WINDOW, then alignment to its size (R138), and a tile's bytes lie within 16 KiB (R304). -/
def checkPlace (side : CopySide) (a : Addr) (n : Nat) : Except Halt Unit :=
  match side with
  | .tile _ => if a.toNat % n ≠ 0 then .error (.fault .align a false) else if 16384 < a.toNat + n then .error (.prot a) else .ok ()
  | .mem =>
    if regionOf a n = .window then .error (.fault .window a false)
    else if a.toNat % n ≠ 0 then .error (.fault .align a false)
    else .ok ()

/-- Reads the bytes of an element. -/
def State.copyRead (s : State) (b : At) (side : CopySide) (a : Addr) (n : Nat) : Except Halt (List Byte × Bool) := do
  checkPlace side a n
  match side with
  | .mem => s.grab b a n plainOk
  | .tile t =>
    match s.blk b.1 with
    | none => .ok ([], false)
    | some c => .ok (readMem c.tile (t * 16384 + a.toNat) n, c.tilePoisoned t a.toNat n)

/-- The byte that holds a 4-bit destination element, read at its home to be written back with one half replaced; poison of a tile
stays where it is. -/
def State.copyCurrent (s : State) (b : At) (side : CopySide) (a : Addr) : Except Halt (List Byte × Bool) :=
  match side with
  | .tile _ => (s.copyRead b side a 1).map (fun r => (r.1, false))
  | .mem => (s.locate b a 1 2 s.copyOk).map (fun t => s.readT (b.2.core / 16) t 1)

/-- Writes the bytes of an element; poison put into a tile is consumed, elsewhere it is carried (R349). -/
def State.copyWrite (s : State) (b : At) (side : CopySide) (a : Addr) (bs : List Byte) (poison : Bool) : Run' :=
  match checkPlace side a bs.length with
  | .error e => .error (e, s)
  | .ok _ =>
    match side with
    | .mem => s.putBytes b a bs poison s.copyOk
    | .tile t => if poison then .error (.poison a, s) else .ok (s.setTile b.1 t a.toNat bs)

/-- The four bits of an element in a byte. -/
def nibble (x : Nat) (half : Bool) : Nat := if half then x / 16 else x % 16

/-- A byte with one of its halves replaced. -/
def withNibble (x : Nat) (half : Bool) (v : Nat) : Nat := if half then x % 16 + 16 * v else x / 16 * 16 + v

/-- An element of a copy: its addresses, and which half of its byte it is, at the source and at the destination. -/
structure CopyElement where
  sa : Addr
  da : Addr
  sx : Bool
  dx : Bool
deriving DecidableEq, Repr

/-- What a copy moves between: the sides and the element size. -/
structure CopyWay where
  src : CopySide
  dst : CopySide
  esz : Nat
deriving DecidableEq, Repr

/-- The bytes of an element. -/
def CopyWay.bytes (w : CopyWay) : Nat := if w.esz = 0 then 1 else 2 ^ (w.esz - 1)

/-- Puts the source bytes of an element at its destination. -/
def State.putElement (s : State) (b : At) (w : CopyWay) (e : CopyElement) (bs : List Byte) (poison : Bool) : Run' :=
  if w.esz = 0 then
    match s.copyCurrent b w.dst e.da with
    | .ok (cur, q) =>
      s.copyWrite b w.dst e.da [BitVec.ofNat 8 (withNibble (numOf cur) e.dx (nibble (numOf bs) e.sx))] (poison || q)
    | .error h => .error (h, s)
  else s.copyWrite b w.dst e.da bs poison

/-- Copies one element from the source as it stood at the start, `s0` (R304). -/
def copyElement (s0 : State) (b : At) (w : CopyWay) (s : State) (e : CopyElement) : Run' :=
  match s0.copyRead b w.src e.sa w.bytes with
  | .ok (bs, p) => s.putElement b w e bs p
  | .error h => .error (h, s)

/-- A list in an order that free words choose, from number `n` on. -/
def shuffle {α : Type} (n : Nat) (xs : List α) : List α :=
  (List.range xs.length).foldl (fun (out, left) i =>
    let j := (Config.freeWord (n + i)).toNat % left.length
    (out ++ (left[j]?).toList, left.eraseIdx j)) (([], xs) : List α × List α) |>.1

/-- The bytes of an element as elements of their own. -/
def CopyElement.singles (e : CopyElement) (w : CopyWay) : List CopyElement :=
  (List.range w.bytes).map (fun j => { e with sa := e.sa + BitVec.ofNat 64 j, da := e.da + BitVec.ofNat 64 j })

/-- Copies one byte, or one 4-bit element, where source and destination overlap (R304): a free word picks the value that its
source had at the start or the one that it has by now. -/
def recopyByte (s0 : State) (b : At) (w : CopyWay) (s : State) (e : CopyElement) : State :=
  let from' := if (Config.freeWord s.fresh).getLsbD 0 then s0 else s
  match from'.copyRead b w.src e.sa 1 with
  | .ok (bs, p) =>
    match ({ s with fresh := s.fresh + 1 } : State).putElement b w e bs p with
    | .ok s => s
    | .error (_, s) => s
  | .error _ => s

/-- Copies elements from the old source. Where that has changed the source of some of them, the copy is made again from the start
byte by byte, in an order that free words choose: each destination byte receives the old value of its source byte, or the new
one, which the copy has put there before (R304). -/
def State.copyAll (s : State) (b : At) (w : CopyWay) (es : List CopyElement) : Run' :=
  (es.foldlM (copyElement s b w) s).map (fun u =>
    if es.all (fun e => decide ((s.copyRead b w.src e.sa w.bytes).toOption = (u.copyRead b w.src e.sa w.bytes).toOption)) then u
    else
      let ones := es.flatMap (·.singles w)
      (shuffle s.fresh ones).foldl (recopyByte s b { w with esz := if w.esz = 0 then 0 else 1 })
        { s with fresh := s.fresh + ones.length })

/-- A copy puts every bit of a destination byte. -/
def CopyWay.covers (w : CopyWay) (es : List CopyElement) (a : Nat) : Bool :=
  let on := fun (e : CopyElement) => decide (e.da.toNat ≤ a) && decide (a < e.da.toNat + w.bytes)
  if w.esz = 0 then es.any (fun e => on e && !e.dx) && es.any (fun e => on e && e.dx) else es.any on

/-- The 64-byte lines that a copy writes whole. -/
def CopyWay.wholeLines (w : CopyWay) (es : List CopyElement) : List Nat :=
  (es.map (fun e => e.da.toNat / 64)).eraseDups.filter (fun l => (List.range 64).all (fun j => w.covers es (64 * l + j)))

/-- A line that a copy has written whole loses its poison, unless an element has carried some there (R349); `s0` is the state at the
start. -/
def State.cleanLine (s0 : State) (b : At) (w : CopyWay) (es : List CopyElement) (s : State) (l : Nat) : State :=
  match w.dst with
  | .tile t => s.updBlk b.1 (·.cleanTile t [l])
  | .mem =>
    let carried := es.any (fun e => e.da.toNat / 64 == l && (match s0.copyRead b w.src e.sa w.bytes with | .ok r => r.2 | .error _ => false))
    match s.locate b (BitVec.ofNat 64 (64 * l)) 64 2 s.copyOk with
    | .ok t =>
      let (bs, poison) := s.readT (b.2.core / 16) t 64
      if poison && !carried then s.writeT t bs false else s
    | .error _ => s

/-- The destination rows of a plane (R304): the rows, or with TR the elements of the inner dimension. -/
def CopyDesc.planeRows (d : CopyDesc) (tr : Bool) : Nat := if tr then d.nx else d.ny

/-- The elements of a destination row. -/
def CopyDesc.rowLength (d : CopyDesc) (tr : Bool) : Nat := if tr then d.ny else d.nx

/-- The elements of the destination rows of a copy that a part performs, in order (R304). -/
def CopyDesc.elements (d : CopyDesc) (part : Part) (esz : Nat) (tr : Bool) (sbase dbase : Addr) : List CopyElement :=
  let place := fun (k : Nat) => BitVec.ofNat 64 (if esz = 0 then k / 2 else k * 2 ^ (esz - 1))
  let times := fun (a : Addr) (k : Nat) => a * BitVec.ofNat 64 k
  let rows := d.planeRows tr
  (part.of (List.range (d.nz * rows))).flatMap (fun r =>
    let z := r / rows
    (List.range (d.rowLength tr)).map (fun k =>
      let y := if tr then k else r % rows
      let x := if tr then r % rows else k
      ⟨sbase + times d.ssz z + times d.ssy y + place x, dbase + times d.dsz z + times d.dsy (r % rows) + place k,
        x % 2 == 1, k % 2 == 1⟩))

/-- `TCPY` (R304), by destination rows. -/
def runTcpy (s : State) (b : At) (part : Part) (dst src desc : Addr) (esz : Nat) (tr ts td : Bool) : Run' :=
  atOnce s ((part.kept part.record (s.consume b desc 64 plainOk)).bind (copyDescOf desc esz tr)) (fun d =>
    let w : CopyWay := ⟨if ts then .tile src.toNat else .mem, if td then .tile dst.toNat else .mem, esz⟩
    let es := d.elements part esz tr (if ts then 0 else src) (if td then 0 else dst)
    (s.copyAll b w es).map (fun u => (w.wholeLines es).foldl (s.cleanLine b w es) u))

/-! ### Link commands (R307 to R309) -/

/-- `LARM` (R308): arms one send from a copy of the descriptor, unless 32 were armed when it issued or are now; its completion pair and EV belong to the send. Its comparison
at arming follows at once. -/
def runLarm (s : State) (b : At) (desc : Addr) (full : Bool) (cmp : Option CmpPair) (ev : Bool) : Run' :=
  atOnce s (do
    let d ← s.sendDesc b desc true
    if full ∨ Config.armedLimit ≤ b.2.tel.armed.length then .error (.prot desc)
    let _ ← s.locate b d.tctr 8 1 counterOk
    .ok d) (fun d =>
      .ok { s.updThr ⟨b.1, none⟩ (fun t =>
          { t with armed := t.armed ++ [(⟨s.nextId, desc, d, cmp, ev, none, false⟩ : Armed)] }) with
        nextId := s.nextId + 1 })

/-- `LDISARM` (R309): disarms the oldest send armed from the descriptor address. -/
def runLdisarm (s : State) (b : At) (o : Op) (d : Nat) (desc : Addr) : Run' :=
  match b.2.tel.armed.find? (·.descAddr == desc) with
  | none => .ok (s.lateK b o d 0)
  | some a =>
    .ok ((s.updThr ⟨b.1, none⟩ (fun t => { t with armed := t.armed.filter (·.id != a.id) })).lateK b o d 1)

/-! ### Arrays (R92, R96, R97, R294 to R296) -/

/-- The shape pair of an array command (R294). -/
structure ArrayShape where
  m : Nat
  n : Nat
  kc : Nat
  sao : Nat
  off : Nat
deriving DecidableEq, Repr

/-- The fields of a shape pair (R294). -/
def ArrayCmd.fields (c : ArrayCmd) : ArrayShape :=
  ⟨(c.shape.extractLsb' 0 8).toNat, (c.shape.extractLsb' 8 8).toNat, (c.shape.extractLsb' 16 5).toNat,
    (c.shape.extractLsb' 32 19).toNat, (c.shape1.extractLsb' 0 19).toNat⟩

/-- The tile pairs that a command uses (R294). -/
def ArrayCmd.pairs (c : ArrayCmd) : Nat := if c.fp8 then (c.fields.kc + 1) / 2 else c.fields.kc

/-- The limits of an array command (R288, R294). -/
def Block.arrayOk (b : Block) (c : ArrayCmd) : Except Halt Unit := do
  let f := c.fields
  if c.shape.extractLsb' 51 13 ≠ 0 ∨ c.shape.extractLsb' 21 11 ≠ 0 ∨ c.shape1.extractLsb' 19 45 ≠ 0 ∨ 128 < f.m ∨ 128 < f.n ∨
      (if c.fp8 then 16 else 8) < f.kc ∨ f.sao % 4 ≠ 0 ∨ f.off % (if c.fp8 then 4 else 16) ≠ 0 ∨
      b.tiles < c.a + c.pairs ∨ b.tiles < c.b + c.pairs then
    .error (.prot 0)
  if f.m = 0 ∨ c.pairs = 0 then .ok () else b.within f.sao (4 * (128 * (c.pairs - 1) + f.m))
  if f.kc = 0 then .ok () else b.within f.off (if c.fp8 then 4 * c.pairs else 16 * f.kc)

/-- A step of an array command reads poison in a chunk (R349): in its tile pair, its scales and bitmap, or the accumulator. -/
def Block.arrayPoisoned (b : Block) (c : ArrayCmd) (chunk : Nat) : Bool :=
  let f := c.fields
  let (p, k0) := if c.fp8 then (chunk / 2, 64 * (chunk % 2)) else (chunk, 0)
  let depth := if c.fp8 then 64 else 128
  (if c.ta then b.areaPoisoned (c.a + p) k0 depth 0 f.m else b.areaPoisoned (c.a + p) 0 f.m k0 depth) ||
    (if c.tb then b.areaPoisoned (c.b + p) 0 f.n k0 depth else b.areaPoisoned (c.b + p) k0 depth 0 f.n) ||
    b.isPoisoned (.acc c.d) || b.linePoisoned (f.sao + 512 * p) (4 * f.m) ||
    (if c.fp8 then b.linePoisoned (f.off + 4 * p) 4 else b.linePoisoned (f.off + 16 * chunk) 16)

/-- The accumulator at the start of an array command (R296): with ACC 0 the elements computed become +0, cnt and STAT 0; where
that is the whole accumulator, its poison is gone (R349). -/
def Block.arrayStart (b : Block) (c : ArrayCmd) : Block :=
  let f := c.fields
  if f.m = 0 ∨ f.n = 0 ∨ c.acc then b
  else
    let keep := fun (k : Nat) => k / 16384 != c.d || decide (f.m ≤ k % 16384 / 128) || decide (f.n ≤ k % 128)
    { b with
      acc26 := b.acc26.filter (fun (k, _) => keep k),
      acc32 := b.acc32.filter (fun (k, _) => keep k),
      cnt := b.cnt.wr 0 c.d 0,
      stat := b.stat.wr 0 c.d 0,
      poisoned := if f.m = 128 ∧ f.n = 128 then b.poisoned.filter (· != .acc c.d) else b.poisoned }

/-- The K positions of a chunk (R91). -/
def ArrayCmd.depth (c : ArrayCmd) : Nat := if c.fp8 then 64 else 128

/-- The tile pair of a chunk and the first position within it (R294). -/
def ArrayCmd.chunkAt (c : ArrayCmd) (chunk : Nat) : Nat × Nat := if c.fp8 then (chunk / 2, 64 * (chunk % 2)) else (chunk, 0)

/-- The activation byte a(m, k) of a chunk (R295). -/
def Block.actByte (b : Block) (c : ArrayCmd) (chunk m k : Nat) : Nat :=
  let (p, k0) := c.chunkAt chunk
  if c.ta then b.tileByte (c.a + p) (k0 + k) m else b.tileByte (c.a + p) m (k0 + k)

/-- The weight byte of position k, column n of a chunk (R295). -/
def Block.weightByte (b : Block) (c : ArrayCmd) (chunk k n : Nat) : Nat :=
  let (p, k0) := c.chunkAt chunk
  if c.tb then b.tileByte (c.b + p) n (k0 + k) else b.tileByte (c.b + p) (k0 + k) n

/-- A column of a chunk is live (R90, R295). -/
def Block.live (b : Block) (c : ArrayCmd) (chunk n : Nat) : Bool :=
  c.fp8 || (b.scratch.rd 0 (c.fields.off + 16 * chunk + n / 8)).toNat.testBit (n % 8)

/-- An E4M3 byte as a count of 2^-9, under the input flush; NaN counts 0 (R92). -/
def units8 (mode : Word) (x : Nat) : Int :=
  match Fmt.e4m3.xin mode x with
  | .fin s m e => signedAt s m e (-9)
  | _ => 0

/-- An E4M3 byte is NaN. -/
def nan8 (x : Nat) : Bool := (Fmt.e4m3.dec x).isNan

/-- `trit_of` (R99). -/
def tritOf (code : Nat) : Int := if code = 1 then 1 else if code = 2 then -1 else 0

/-- The weight of position k, column n: a trit, or a count of 2^-9; 0 in a dead column (R90, R92). -/
def Block.weight (b : Block) (c : ArrayCmd) (mode : Word) (chunk k n : Nat) : Int :=
  let w := b.weightByte c chunk k n
  if c.fp8 then units8 mode w else if b.live c chunk n then tritOf (w % 4) else 0

/-- The exact sum of an element over a chunk (R92). -/
def Block.chunkSum (b : Block) (c : ArrayCmd) (mode : Word) (chunk m n : Nat) : Int :=
  (List.range c.depth).foldl (fun z k => z + units8 mode (b.actByte c chunk m k) * b.weight c mode chunk k n) 0

/-- `nan_in` of an element (R92). -/
def Block.nanIn (b : Block) (c : ArrayCmd) (chunk m n : Nat) : Bool :=
  (List.range c.depth).any (fun k => nan8 (b.actByte c chunk m k) || (c.fp8 && nan8 (b.weightByte c chunk k n)))

/-- The command meets the code 0b11 in a chunk: in a live column below N (R89). -/
def Block.meets11 (b : Block) (c : ArrayCmd) (chunk : Nat) : Bool :=
  !c.fp8 && (List.range c.fields.n).any (fun n =>
    b.live c chunk n && (List.range 128).any (fun k => b.weightByte c chunk k n % 4 == 3))

/-- A scale of four scratchpad bytes under the input flush (R80, R92). -/
def Block.scaleAt (b : Block) (mode : Word) (off : Nat) : FVal := Fmt.f32.xin mode (numOf (readMem b.scratch off 4))

/-- The scale of a row of a chunk (R92, R294, R295). -/
def Block.rowScale (b : Block) (c : ArrayCmd) (mode : Word) (chunk m : Nat) : FVal :=
  let p := (c.chunkAt chunk).1
  let sa := b.scaleAt mode (c.fields.sao + 4 * (128 * p + m))
  if c.fp8 then sa.mul (b.scaleAt mode (c.fields.off + 4 * p)) else sa

/-- The width of a chunk sum (R92). -/
def ArrayCmd.width (c : ArrayCmd) : Nat := if c.fp8 then 44 else 26

/-- A change of a sum, kept in the sum's two's-complement width. -/
def ArrayCmd.changed (c : ArrayCmd) (sum delta : Int) : Int := (BitVec.ofInt c.width (sum + delta)).toInt

/-- The change that the injection makes to a sum: bit IBIT inverted (R97). -/
def ArrayCmd.injected (c : ArrayCmd) (sum : Int) : Int :=
  let bit := (c.assayctl.extractLsb' 10 6).toNat % c.width
  (BitVec.ofInt c.width sum ^^^ BitVec.ofNat c.width (2 ^ bit)).toInt - sum

/-- The sum of the errors at one position of a step. -/
def errorAt (errs : List SumError) (row col : Nat) : Int :=
  errs.foldl (fun z e => if e.row = row ∧ e.col = col then z + e.delta else z) 0

/-- The assay's verdict on the errors of a step (R96). -/
inductive Assay where
  | clean
  | corrected (row col : Nat)
  | uncorrectable
deriving DecidableEq, Repr

/-- The rows and columns whose errors do not cancel, with their sums (R96). -/
def badLines (errs : List SumError) (line : SumError → Nat) (n : Nat) : List (Nat × Int) :=
  (List.range n).filterMap (fun i =>
    let z := errs.foldl (fun z e => if line e = i then z + e.delta else z) 0
    if z = 0 then none else some (i, z))

/-- The assay check of a step (R96). -/
def assay (errs : List SumError) : Assay :=
  match badLines errs (·.row) 16, badLines errs (·.col) 128 with
  | [], [] => .clean
  | [(r, x)], [(c, y)] => if x = y then .corrected r c else .uncorrectable
  | _, _ => .uncorrectable

/-- The errors of a step after the correction of one element. -/
def corrected (errs : List SumError) (row col : Nat) : List SumError :=
  let z := (badLines errs (·.row) 16).foldl (fun z (_, d) => z + d) 0
  errs ++ [⟨row, col, -z⟩]

/-- Adds the scaled sum of an element into its F26 part (R92). -/
def Block.addSum (b : Block) (c : ArrayCmd) (mode : Word) (chunk m n : Nat) (sum : Int) : Block :=
  let v := if b.nanIn c chunk m n then Fmt.f26.nan
    else rne26f mode ((FVal.fin (decide (sum < 0)) sum.natAbs (if c.fp8 then -18 else -9)).mul (b.rowScale c mode chunk m))
  let e := m * 128 + n
  let old := Fmt.f26.xin mode (b.acc26.rd 0 (c.d * 16384 + e)).toNat
  b.put26 c.d e (rne26f mode (old.add .rne (Fmt.f26.xin mode v)))

/-- The rows of a 16-row step. -/
def stepRows (m row : Nat) : List Nat := (List.range (min 16 (m - row))).map (row + ·)

/-- One 16-row step of a chunk, given the errors left in its sums (R296). -/
def Block.arrayStep (b : Block) (c : ArrayCmd) (mode : Word) (chunk row : Nat) (errs : List SumError) : Block :=
  (stepRows c.fields.m row).foldl (fun u m =>
    (List.range c.fields.n).foldl (fun u n =>
      let z := errorAt errs (m - row) n
      u.addSum c mode chunk m n (c.changed (b.chunkSum c mode chunk m n) z)) u) b

/-! ### Tiles that change under a running array command (R311) -/

/-- The tile that a command writes. -/
def CmdKind.tileOut : CmdKind → Option Nat
  | .gath t _ | .tlds t _ _ | .tzero t | .vld t _ => some t
  | .tcpy dst _ _ _ _ _ true => some dst.toNat
  | _ => none

/-- An array command of a block that runs on an engine reads a tile. -/
def Engine.readsTile (e : Engine) (block t : Nat) : Bool :=
  match e.cur with
  | some c =>
    match c.kind with
    | .array a =>
      c.block == block && e.phase == .running &&
        ((decide (a.a ≤ t) && decide (t < a.a + a.pairs)) || (decide (a.b ≤ t) && decide (t < a.b + a.pairs)))
    | _ => false
  | none => false

/-- An engine keeps a tile's bytes as they stand, beside those it has kept already. -/
def Engine.tear (e : Engine) (t : Nat) (bytes : List Byte) : Engine :=
  { e with prog := { e.prog with torn := e.prog.torn.ins t (e.prog.torn.rd [] t ++ bytes) } }

/-- A command is about to write a tile: an array command that runs on it keeps the old rows, of which it may still read any
(R311). -/
def State.tear (s : State) (b : At) (c : Cmd) : State :=
  match c.kind.tileOut with
  | none => s
  | some t =>
    [2, 3].foldl (fun s e =>
      let en := s.engine b.2.core e
      if en.readsTile b.1 t then s.setEngine b.2.core e (en.tear t (readMem b.2.tile (t * 16384) 16384)) else s) s

/-- A tile as a racing reader finds it: each row from one of the versions kept, or as it stands; free words choose (R311). -/
def Block.tornTile (n t : Nat) (versions : List Byte) (b : Block) : Block :=
  let k := versions.length / 16384
  { b with
    tile := (List.range 128).foldl (fun m r =>
      let v := (Config.freeWord (n + r)).toNat % (k + 1)
      if v = k then m else writeMem m (t * 16384 + 128 * r) ((versions.drop (16384 * v + 128 * r)).take 128)) b.tile }

/-- A block as an array command reads it. -/
def Block.torn (b : Block) (n : Nat) (ts : Tab (List Byte)) : Block :=
  ts.zipIdx.foldl (fun b ((t, vs), i) => b.tornTile (n + 128 * i) t vs) b

/-- P (R94). -/
def ArrayCmd.interval (c : ArrayCmd) : Nat := (c.promo.extractLsb' 0 6).toNat + 1

/-- The close of a chunk (R296). -/
def Block.closeChunk (b : Block) (c : ArrayCmd) (mode : Word) : Block :=
  let n := b.cnt.rd 0 c.d + 1
  if c.interval ≤ n then b.promote mode c.d else { b with cnt := b.cnt.wr 0 c.d n }

/-- Advances the corrected count of ASSAYCNT, which saturates (R219). -/
def bumpCorr (x : Addr) : Addr :=
  if x.extractLsb' 0 32 = 0xFFFFFFFF then x else x + 1

/-- Advances the C11 count of ASSAYCNT, which saturates (R219). -/
def bumpC11 (x : Addr) : Addr := if x.extractLsb' 32 16 = 0xFFFF then x else x + 0x100000000

/-- Advances a die's count of uncorrectable assay chunks, which saturates (R220). -/
def State.countAssay (s : State) (die : Nat) : State :=
  { s with dies := s.dies.ins die (let d := s.dies.rd .blank die
      { d with uassay := if d.uassay = 0xFFFFFFFF then d.uassay else d.uassay + 1 }) }

/-! ### The life of a command (R164, R288, R289) -/

/-- A command's operation and its teller. -/
def State.cmdOp (s : State) (c : Cmd) : Option (Block × Op) :=
  match s.blk c.block with
  | none => none
  | some b => (b.tel.ops.find? (·.id == c.op)).map (fun o => (b, o))

/-- The accumulator whose STAT a command's record shows (R193). -/
def CmdKind.statAcc : CmdKind → Option Nat
  | .array c => some c.d
  | .drain _ a _ _ _ _ _ => some a
  | .astat _ a _ => some a
  | _ => none

/-- The command is a `LARM`: its completion pair and EV belong to the armed send (R308). -/
def CmdKind.isLarm : CmdKind → Bool
  | .larm .. => true
  | _ => false

/-- Ends a command: its operation completes, faults or is cancelled (R166, R288), or its remainder is kept with the block
(R290); its engine is free. -/
def State.retireCmd (s : State) (core eng : Nat) (c : Cmd) (e : Ending) : State :=
  let s := s.setEngine core eng { s.engine core eng with cur := none, phase := .running, prog := .start }
  match s.cmdOp c with
  | none => s
  | some (_, o) =>
    let r : Thr := ⟨c.block, none⟩
    match e with
    | .done => s.complete r o id
    | .fault x a st => s.faultOp r o x a st
    | .cancelled => s.updThr r (fun t => ({ t with ops := t.ops.filter (·.id != o.id) }.cancelOp o).cascade)
    | .stopped p => s.updBlk c.block (fun b => { b with stopped := b.stopped.ins eng (c, p) })

/-- Posts the record due, if the event queue takes it, and ends the command; else the engine stays blocked (R183, R193). The
link port posts the records of fired sends too. -/
def State.tryPost (s : State) (core eng : Nat) : State :=
  let s := if eng = 6 then s.postFiredWaiting core else s
  let en := s.engine core eng
  match en.cur, en.phase with
  | some c, .posting r e =>
    match s.thr ⟨c.block, none⟩ with
    | none => s
    | some t => if t.mayPost then (s.updThr ⟨c.block, none⟩ (·.post r)).retireCmd core eng c e else s
  | _, _ => s

/-- A command has made its last write and its counter add, or has faulted: its record is due if it has EV, else it ends
(R288). -/
def State.endCmd (s : State) (core eng : Nat) (c : Cmd) (e : Ending) (stat : Nat) (cval : Addr) : State :=
  if c.ev && !(c.kind.isLarm && e == .done) then
    let code := if e = .done then 0 else 2
    let r := eventRecord eng code stat (tagOf c.cmp) (if e = .done then cval else 0)
    s.setEngine core eng { s.engine core eng with cur := some c, phase := .posting r e }
  else s.retireCmd core eng c e

/-- The STAT byte for a command's record, as it stands (R193). An `ASTAT` that faulted or was cancelled has read no STAT, and the
spec does not say what its record shows: the accumulator's present STAT (the model's choice; log entry 82). -/
def State.recordStat (s : State) (c : Cmd) : Nat :=
  match s.blk c.block, c.kind.statAcc with
  | some b, some a => (b.stat.rd 0 a).toNat
  | _, _ => 0

/-- The STAT that an `ASTAT` reads, for its record (R193). -/
def State.statStart (s : State) (b : At) (c : Cmd) : Nat :=
  match c.kind with
  | .astat _ a _ => s.statOf b a % 256
  | _ => 0

/-- What a halt does to a command: a fault ends it, poison or a dropped write kills its item, a wait leaves it for later (R151,
R288, R349, R350). `s0` is the state before, `s` the state with what it wrote. -/
def State.haltCmd (s0 s : State) (core eng : Nat) (c : Cmd) (b : At) (o : Op) : Halt → State
  | .fault x a st => s.endCmd core eng c (.fault x a st) (s.recordStat c) 0
  | .poison a => s.consumePoison b.1 a
  | .dropped a => s.killItem b.2.item 0x0112 true a
  | .wait => s0
  | .absent pg a =>
    if s.isRefused (.op o.id) pg then (s.forget (.op o.id)).endCmd core eng c (.fault .xlate a false) (s.recordStat c) 0
    else s0.askPage (.op o.id) b.2.ctx pg

/-- Performs a command's reads and writes, or a part of them (R290, R292 to R304). -/
def runCmd (s : State) (b : At) (o : Op) (c : Cmd) (part : Part) : Run' :=
  match c.kind with
  | .gath t rec => runGath s b part t rec
  | .tlds t off n => runTlds s b part t off n
  | .tsts t off n tr => runTsts s b part t off n tr
  | .tzero t => runTzero s b t
  | .vld t x => runVld s b t x
  | .array _ => .ok s
  | .drain dst a params rec fmt sat sw => runDrain s b part c.mode dst a params rec fmt sat sw
  | .aclr tm => runAclr s b tm
  | .astat d a clr => runAstat s b o d a clr
  | .tcpy dst src desc esz tr ts td => runTcpy s b part dst src desc esz tr ts td
  | .lsend _ => .ok s
  | .larm desc full => runLarm s b desc full c.cmp c.ev
  | .ldisarm d desc => runLdisarm s b o d desc

/-- The rest of a command after its writes: the counter add, then the end (R288). A `LARM` makes no add. -/
def State.addAndEnd (s0 s : State) (core eng : Nat) (c : Cmd) (b : At) (o : Op) (stat : Nat) : State :=
  match s.noteWrites.addPair b (if c.kind.isLarm then none else c.cmp) with
  | .ok (s, cval) => s.endCmd core eng c .done stat cval
  | .error h => s0.haltCmd s core eng c b o h

/-- The part of a command that is left after what it has done. -/
def Progress.part (p : Progress) (stop : Option Nat) : Part := ⟨p.row, stop, p.record, p.scales⟩

/-- Performs a command, or the rest of one that was stopped: its writes, its counter add and the end short of its record
(R288, R290, R299). -/
def State.performCmd (s0 : State) (core eng : Nat) (c : Cmd) (b : At) (o : Op) : State :=
  let s := (s0.scramble c).tear b c
  let stat0 := s.statStart b c
  match s.blk b.1 with
  | none => s0
  | some blk =>
    match runCmd s (b.1, blk) o c ((s0.engine core eng).prog.part none) with
    | .error (h, s') => s0.haltCmd s' core eng c b o h
    | .ok s' =>
      let s' := s'.scramble c
      let stat := match c.kind with | .astat .. => stat0 | _ => s'.recordStat c
      s0.addAndEnd s' core eng c b o stat

/-- A command stops at a granule: its remainder is kept with the block, once with EV it has posted a record of CODE 1 (R290). -/
def State.stopCmd (s : State) (core eng : Nat) (c : Cmd) (p : Progress) : State :=
  if c.ev then
    s.setEngine core eng { s.engine core eng with
      cur := some c, phase := .posting (eventRecord eng 1 (s.recordStat c) (tagOf c.cmp) 0) (.stopped p) }
  else s.retireCmd core eng c (.stopped p)

/-- What a command keeps over a stop of what it reads before its first row (R290). -/
def State.keptBy (s : State) (b : At) (c : Cmd) (p : Progress) : Progress :=
  if p.row ≠ 0 then p
  else
    let got := fun (x : Except Halt (List Byte)) => match x with | .ok bs => bs | .error _ => []
    match c.kind with
    | .gath _ rec => { p with record := got (s.shapeBytes b rec) }
    | .drain _ _ params rec _ _ sw =>
      { p with
        record := match rec with | some r => got (s.shapeBytes b r) | none => [],
        scales := if sw then got (b.2.scratchAt (params.extractLsb' 32 19).toNat 512) else [] }
    | .tcpy _ _ desc _ _ _ _ => { p with record := got (s.consume b desc 64 plainOk) }
    | _ => p

/-- The rows of a split granule of a command that no array performs, and the rows of the whole command (R290). A command
that cannot stop, or whose record cannot be read, has none. -/
def State.granules (s : State) (b : At) (c : Cmd) (p : Progress) : Nat × Nat :=
  let total := fun (rec : Addr) => match shapeOf rec (s.keptBy b c p).record with | .ok sh => sh.rows | .error _ => 0
  if c.gran = 0 then (0, 0)
  else
    match c.kind with
    | .gath _ rec => (16, total rec)
    | .tlds _ _ n => (16, n.toNat)
    | .tsts _ _ n _ => (16, n.toNat)
    | .drain _ _ params rec _ _ _ => (16, match rec with | some r => total r | none => (params.extractLsb' 0 8).toNat)
    | .tcpy _ _ desc esz tr _ _ =>
      match copyDescOf desc esz tr (s.keptBy b c p).record with
      | .ok d => (if c.gran = 1 then 16 else if c.gran = 2 then d.planeRows tr else 128, d.nz * d.planeRows tr)
      | .error _ => (0, 0)
    | _ => (0, 0)

/-- The split granule at which a command of a block that is being pre-empted stops: a free word says which of those left,
or none (R133, R290). -/
def State.stopRow (s : State) (b : At) (c : Cmd) (p : Progress) : Option Nat :=
  let (g, total) := s.granules b c p
  if b.2.run ≠ .stopping ∨ g = 0 then none
  else
    let r := p.row + g * ((Config.freeWord s.fresh).toNat % ((total - p.row) / g + 1))
    if r < total then some r else none

/-- Performs a command up to the split granule before row `r`, and stops it there (R290). -/
def State.performPart (s0 : State) (core eng : Nat) (c : Cmd) (b : At) (o : Op) (r : Nat) : State :=
  let p := (s0.engine core eng).prog
  if r = p.row then s0.stopCmd core eng c p
  else
    let s := (s0.scramble c).tear b c
    match s.blk b.1 with
    | none => s0
    | some blk =>
      match runCmd s (b.1, blk) o c (p.part (some r)) with
      | .error (h, s') => s0.haltCmd s' core eng c b o h
      | .ok s' => (s'.scramble c).stopCmd core eng c { s.keptBy (b.1, blk) c p with row := r }

/-- Performs a command to its end, or, where its block is being pre-empted, to the split granule at which it stops (R133,
R290). -/
def State.performOrStop (s : State) (core eng : Nat) (c : Cmd) (b : At) (o : Op) : State :=
  let next := if b.2.run = .stopping then { s with fresh := s.fresh + 1 } else s
  match s.stopRow b c (s.engine core eng).prog with
  | some r => next.performPart core eng c b o r
  | none => next.performCmd core eng c b o

/-- An array command has done its last chunk (R296). -/
def ArrayCmd.finished (c : ArrayCmd) (p : Progress) : Bool :=
  decide (c.fields.m = 0) || decide (c.fields.n = 0) || decide (c.fields.kc ≤ p.chunk)

/-- An engine of a core is the link port, blocked by the record of a fired send (R183, R310). -/
def State.engineBlocked (s : State) (core eng : Nat) : Bool := eng == 6 && s.portBlocked core

/-- Carries a running command to its end when nothing is left to wait for and its engine is not blocked. -/
def State.advanceCmd (s : State) (core eng : Nat) : State :=
  let en := s.engine core eng
  match en.cur with
  | none => s
  | some c =>
    if s.engineBlocked core eng then s
    else
    match s.cmdOp c with
    | none => s.setEngine core eng { en with cur := none, phase := .running, prog := .start }
    | some (b, o) =>
      match en.phase, c.kind with
      | .posting .., _ => s
      | .sending id, _ =>
        match (s.sends.look id).bind (·.done) with
        | some true => s.addAndEnd { s with sends := s.sends.rem id } core eng c (c.block, b) o 0
        | some false => ({ s with sends := s.sends.rem id } : State).endCmd core eng c (.fault .prot 0 false) 0 0
        | none => s
      | .running, .array a => if a.finished en.prog then s.performCmd core eng c (c.block, b) o else s
      | .running, .vld _ x => if s.banksIdle (c.block, b) x then s.performCmd core eng c (c.block, b) o else s
      | .running, _ => s.performOrStop core eng c (c.block, b) o

/-- `ENGINE_COMMAND_COMPLETE`: the engine's command makes its last write, its counter add and its event record, in that
order (R288). A command of a block that is being pre-empted may stop at a split granule instead (R290). -/
def execEngineCommandComplete (core eng : Nat) : State → Host.Outcome State Fault Refusal :=
  fun s =>
    let s := if eng = 6 then s.postFiredWaiting core else s
    .next ((s.advanceCmd core eng).tryPost core eng)

/-- A fired send whose add had to wait makes it now (R151, R308). -/
def State.retryFired (s : State) (id : Nat) : State :=
  match s.sends.look id with
  | some r => if r.fired then s.firedDone id r else s
  | none => s

/-- `COUNTER_ADD`: a `CPY` lane, an engine command or a fired send makes its counter add after every write; a record still due
is posted later (R165, R215, R281, R308). -/
def execCounterAdd (op : Nat) : State → Host.Outcome State Fault Refusal :=
  fun s =>
    .next (match s.findOp op with
      | none => s.retryFired op
      | some (r, o) =>
        match s.blk r.block, o.kind with
        | some b, .copy _ _ _ (some p) true =>
          match s.resolve b.core none p 8 3 counterOk with
          | .ok t =>
            if (s.readT (b.core / 16) t 8).2 then s.consumePoison r.block p.addr
            else (s.addCounter (b.core / 16) t 1).complete r o id
          | e => s.unresolved r o p e
        | some _, .command core eng _ _ =>
          match (s.engine core eng).cur with
          | some c => if c.op = op then s.advanceCmd core eng else s
          | none => s
        | _, _ => s)

/-- The start of a link send (R307): descriptor and SRC are read, and the send is carried out. -/
def State.startSend (s0 s : State) (core eng : Nat) (c : Cmd) (b : At) (o : Op) (desc : Addr) : State :=
  match (s.sendDesc b desc false).bind (fun d => s.beginSend b d false none false) with
  | .ok (s, id) => s.setEngine core eng { s.engine core eng with phase := .sending id }
  | .error h => s0.haltCmd s core eng c b o h

/-- What a command does at its start: an array command's checks and clearing (R294, R296), a send's reads (R307). A wait
leaves the command in its queue, as in `s0`. -/
def State.startCmd (s0 s : State) (core eng : Nat) (c : Cmd) (b : At) (o : Op) : State :=
  match c.kind with
  | .array a =>
    match b.2.arrayOk a with
    | .error h => s0.haltCmd s core eng c b o h
    | .ok _ =>
      let s := s.scramble c
      let p := { Progress.start with statStart := s0.statOf b a.d }
      (s.setEngine core eng { s.engine core eng with prog := p }).updBlk b.1 (·.arrayStart a)
  | .lsend desc => s0.startSend s core eng c b o desc
  | _ => s

/-- The progress at which a command of a block was stopped for pre-emption (R168, R290). -/
def Block.stoppedAt (b : Block) (eng : Nat) (c : Cmd) : Option Progress :=
  match b.stopped.look eng with
  | some (d, p) => if d.op = c.op then some p else none
  | none => none

/-- A command that a drain has withdrawn stays in its engine's queue until it is issued again (R279; log entry 58). -/
def State.heldBack (s : State) (c : Cmd) : Bool :=
  match s.thr ⟨c.block, none⟩ with
  | some t => (t.withdrawn ++ t.held).any (·.id == c.op)
  | none => false

/-- `ENGINE_COMMAND_START`: an idle engine takes the first command of its queue that no drain holds back, once the command's
predecessors are complete; a command that waits on a faulted operation is cancelled, and one whose operation is gone is dropped
(R164, R166, R289). A command that was stopped continues where it stood (R168). No command of a block that is being pre-empted
starts (R133), and none of a link port that the record of a fired send blocks (R310). -/
def execEngineCommandStart (core eng : Nat) : State → Host.Outcome State Fault Refusal :=
  fun s =>
    .next (
      let s := s.refillQueue core eng
      let en := s.engine core eng
      match en.cur, en.queue.find? (fun c => !s.heldBack c) with
      | none, some c =>
        let q := en.queue.erase c
        match s.cmdOp c with
        | none => s.setEngine core eng { en with queue := q }
        | some (b, o) =>
          if b.run ≠ .running ∨ s.engineBlocked core eng then s
          else
            match b.stoppedAt eng c with
            | some p =>
              (s.setEngine core eng ⟨q, some c, .running, p⟩).updBlk c.block (fun b => { b with stopped := b.stopped.rem eng })
            | none =>
              if !b.tel.free o then s
              else
                let s' := s.setEngine core eng ⟨q, some c, .running, .start⟩
                if b.tel.doomed o then s'.endCmd core eng c .cancelled (s.recordStat c) 0
                else s.startCmd s' core eng c (c.block, b) o
      | _, _ => s)

/-- `VLD_STALL_END`: at a time of the refresh period of the die that the image begins on, within the present microsecond, at which
no bank of the image is refreshing, a stalled `VLD` reads its tile (R143, R144). -/
def execVldStallEnd (core nsInPeriod : Nat) : State → Host.Outcome State Fault Refusal :=
  fun s =>
    .next (
      let en := s.engine core 1
      match en.cur, en.phase with
      | some c, .running =>
        match s.cmdOp c, c.kind with
        | some (b, o), .vld _ x =>
          if s.imagePeriod (c.block, b) x = nsInPeriod / 1000 ∧ s.banksFree (c.block, b) x (nsInPeriod % 1000) then
            (s.performCmd core 1 c (c.block, b) o).tryPost core 1
          else s
        | _, _ => s
      | _, _ => s)

/-- The injection of ASSAYCTL is due: the command sampled INJ, it is the command's first step, and no other command has made
that injection (R97). Of two commands that sampled the same setting, the spec does not say which is the next array command: the
one that performs its first step first (the model's choice; log entry 83). -/
def Thread.injects (t : Thread) (a : ArrayCmd) (p : Progress) : Bool :=
  a.assayctl.getLsbD 1 && p.chunk == 0 && p.row == 0 && decide (t.injMade < a.inj)

/-- The hardware clears INJ when the injection is made (R97). Where software has set it again since the command sampled it, it stays set
for a second injection (the model's choice; log entry 89). -/
def Thread.injectionMade (t : Thread) (a : ArrayCmd) : Thread :=
  { t with injMade := a.inj, assayctl := if t.injSet = a.inj then t.assayctl &&& ~~~(2#32) else t.assayctl }

/-- An accumulator's F26 parts. -/
def Block.parts26 (b : Block) (a : Nat) : Tab (BitVec 26) := b.acc26.filter (fun e => e.1 / 16384 == a)

/-- An accumulator as it was after the chunk before: its F26 parts, and STAT but for what the check and the code 0b11 have set
(R96). -/
def Block.undoChunk (b : Block) (a : Nat) (p : Progress) : Block :=
  { b with
    acc26 := b.acc26.filter (fun e => decide (e.1 / 16384 < a)) ++ p.undo ++ b.acc26.filter (fun e => decide (a < e.1 / 16384)),
    stat := b.stat.wr 0 a (p.undoStat ||| (b.stat.rd 0 a &&& BitVec.ofNat 8 (statCorr + statC11))) }

/-- The progress of an array command at a step: at the first of a chunk it keeps the accumulator as it stands (R96). -/
def Progress.keep (p : Progress) (b : Block) (a : Nat) : Progress :=
  if p.row = 0 then { p with undo := b.parts26 a, undoStat := b.stat.rd 0 a } else p

/-- One 16-row step with its assay check (R96, R296): corrected errors are counted; an uncorrectable chunk is not added, the
accumulator is as after the chunk before, and the item is killed. Poison among what the step reads kills the item too (R349). -/
def State.stepArray (s : State) (core eng : Nat) (c : Cmd) (b : At) (a : ArrayCmd) (p : Progress) (errs : List SumError) :
    State :=
  let view := b.2.torn s.fresh p.torn
  let s := { s with fresh := s.fresh + 128 * p.torn.length }
  let r : Thr := ⟨b.1, none⟩
  let inj := b.2.tel.injects a p
  let p := p.keep b.2 a.d
  let irow := (a.assayctl.extractLsb' 16 4).toNat
  let icol := (a.assayctl.extractLsb' 20 7).toNat
  let clean := if irow < a.fields.m ∧ icol < a.fields.n then view.chunkSum a c.mode p.chunk irow icol else 0
  let errs := if inj then errs ++ [⟨irow, icol, a.injected (clean + errorAt errs irow icol)⟩] else errs
  let s := if inj then s.updThr r (·.injectionMade a) else s
  let met := view.meets11 a p.chunk
  let s := if met then s.updBlk b.1 (·.mark a.d statC11) else s
  let s := if met && !p.met11 then s.updThr r (fun t => { t with assaycnt := bumpC11 t.assaycnt }) else s
  let go := fun (s : State) (errs : List SumError) =>
    let last := decide (a.fields.m ≤ p.row + 16)
    let s := s.updBlk b.1 (fun u =>
      let v := { ({ u with tile := view.tile }).arrayStep a c.mode p.chunk p.row errs with tile := u.tile }
      if last then v.closeChunk a c.mode else v)
    let next : Progress := if last then { p with chunk := p.chunk + 1, row := 0, met11 := p.met11 || met, undo := [], undoStat := 0 }
      else { p with row := p.row + 16, met11 := p.met11 || met }
    s.setEngine core eng { s.engine core eng with prog := next }
  if b.2.arrayPoisoned a p.chunk then s.consumePoison b.1 0
  else if !a.assayctl.getLsbD 0 then go s errs
  else
    match assay errs with
    | .clean => go s errs
    | .corrected row col =>
      go ((s.updThr r (fun t => { t with assaycnt := bumpCorr t.assaycnt })).updBlk b.1 (·.mark a.d statCorr))
        (corrected errs row col)
    | .uncorrectable => ((s.updBlk b.1 (·.undoChunk a.d p)).countAssay (core / 16)).killItem b.2.item 0x0110 true 0

/-- An array command stands at a split granule of its GRAN (R290): every 16-row step, every K-chunk, every tile pair. -/
def ArrayCmd.atGranule (a : ArrayCmd) (gran : Nat) (p : Progress) : Bool :=
  match gran with
  | 0 => false
  | 1 => true
  | 2 => p.row == 0
  | _ => p.row == 0 && (!a.fp8 || p.chunk % 2 == 0)

/-- `ARRAY_STEP`: an array performs the next 16-row step of its command; `errs` are the errors of the array hardware in
the step's sums (R96, R296). At a split granule the command of a block that is being pre-empted stops instead (R133). -/
def execArrayStep (core eng : Nat) (errs : List SumError) : State → Host.Outcome State Fault Refusal :=
  fun s =>
    .next (
      let en := s.engine core eng
      match en.cur, en.phase with
      | some c, .running =>
        match s.cmdOp c, c.kind with
        | some (b, _), .array a =>
          if a.finished en.prog then s
          else if b.run = .stopping ∧ a.atGranule c.gran en.prog then s.stopCmd core eng c en.prog
          else s.stepArray core eng c (c.block, b) a en.prog errs
        | _, _ => s
      | _, _ => s)

/-! ### Probe tokens (R195) -/

/-- The unit number of a block's teller. -/
def Block.unit (b : Block) (key : Nat) : Nat := 8 + (key - b.core * 8)

/-- A block of a core has the record of a fired send that waits for its event queue (R310). -/
def State.firedBlocked (s : State) (core : Nat) : Option Nat :=
  (s.blocks.find? (fun (_, b) => b.core == core && b.run != .saved && !b.tel.firedWait.isEmpty && !b.tel.mayPost)).map Prod.fst

/-- The teller whose full event queue an engine is blocked on with its command's record (R183). -/
def State.recordBlocked (s : State) (core eng : Nat) : Option Nat :=
  let en := s.engine core eng
  match en.cur, en.phase with
  | some c, .posting .. =>
    match s.thr ⟨c.block, none⟩ with
    | some t => if t.mayPost then none else some c.block
    | none => none
  | _, _ => none

/-- The teller that an engine is blocked on: its command's record, or for the link port one of a fired send, finds the event
queue full (R183, R310). -/
def State.blockedOn (s : State) (core eng : Nat) : Option Nat :=
  match s.recordBlocked core eng with
  | some k => some k
  | none => if eng = 6 then s.firedBlocked core else none

/-- The port whose full send queue the link port of a core is blocked on with flits of a command or of a fired send (R183). -/
def State.linkBlocked (s : State) (core eng : Nat) : Option Nat := if eng = 6 then (s.linkWait core).map Prod.snd else none

/-- The engine whose full queue a block's teller is stalled on: the teller still stands at the instruction that met it (R183). -/
def State.tellerStall (s : State) (key : Nat) : Option Nat :=
  match s.blk key with
  | none => none
  | some b =>
    match b.tel.blocked, b.tel.clause with
    | some (e, pc), some c =>
      if b.run = .running ∧ c.next = pc ∧ c.left ≠ 0 ∧ b.tel.hold = .none ∧ b.tel.due.isNone ∧
          s.engineFull b e then some e
      else none
    | _, _ => none

/-- The consumer of the full queue that a unit of a core is blocked on: engines 0 to 6, tellers 8 to 15; the transmitter of a
port, 16 + port, is blocked on no queue of this device (R195; log entry 65). -/
def State.consumerOf (s : State) (core unit : Nat) : Option Nat :=
  if 16 ≤ unit then none
  else if 8 ≤ unit then s.tellerStall (core * 8 + (unit - 8))
  else
    match s.blockedOn core unit with
    | some k => some (8 + (k - core * 8))
    | none => (s.linkBlocked core unit).map (16 + ·)

/-- `PROBE_TOKEN_SEND`: a unit of a core that stays blocked on a full queue sends a token to the queue's consumer (R195). -/
def execProbeTokenSend (core eng : Nat) : State → Host.Outcome State Fault Refusal :=
  fun s =>
    .next (match s.consumerOf core eng with
      | none => s
      | some u => { s with tokens := s.tokens ++ [(⟨s.nextId, core, eng, u⟩ : Token)], nextId := s.nextId + 1 })

/-- A record enters the reserve entry, at its place in the queue's order; RGRANT saturates (R194, R195). Records of the pending
store are still ahead of it (R310; log entry 86). -/
def Thread.grantReserve (t : Thread) (r : Addr) : Thread :=
  { t with
    evq := t.evq ++ [r],
    reserve := some t.evq.length,
    ahead := t.pend.length,
    rgrant := if t.rgrant = 255 then 255 else t.rgrant + 1 }

/-- The origin of a returned token places its blocked record, or flit, in the reserve entry of the queue that it is blocked on, if
that is free (R195). The queue of an engine, on which a teller is blocked, has no reserve entry. -/
def State.grant (s : State) (core eng : Nat) : State :=
  if 7 ≤ eng then s
  else
  let en := s.engine core eng
  let free := fun (t : Thread) => t.reserve.isNone
  match en.cur, en.phase, s.recordBlocked core eng with
  | some c, .posting r e, some k =>
    match s.thr ⟨k, none⟩ with
    | some t => if free t then (s.updThr ⟨k, none⟩ (·.grantReserve r)).retireCmd core eng c e else s
    | none => s
  | _, _, _ =>
    match s.blockedOn core eng with
    | none => if eng = 6 then s.grantLink core else s
    | some k =>
      s.updThr ⟨k, none⟩ (fun t =>
        match t.firedWait with
        | r :: rs => if free t then { t with firedWait := rs }.grantReserve r else t
        | [] => t)

/-- `PROBE_TOKEN_HOP`: the consumer that a token has reached passes it on when it is itself blocked on a full queue, else
drops it; a token that reaches its origin grants the reserve entry (R195). -/
def execProbeTokenHop (token : Nat) : State → Host.Outcome State Fault Refusal :=
  fun s =>
    .next (match s.tokens.find? (·.id == token) with
      | none => s
      | some tk =>
        let s := { s with tokens := s.tokens.filter (·.id != token) }
        match s.consumerOf tk.core tk.unit with
        | none => s
        | some u =>
          if u = tk.origin then s.grant tk.core tk.origin
          else { s with tokens := s.tokens ++ [{ tk with unit := u }] })

end Sys2Proof.Machine
end

