-- ==== Sys2Proof/Machine/Share.lean ====
section
/-! DEFINITION. Shares and the clearing gate: majors 0x38 to 0x3A and the gate's own steps (R312 to R327). -/

namespace Sys2Proof.Machine

/-! ### Gate state of a block (R209, R313) -/

/-- The number of a kind in keys. -/
def GateKind.no : GateKind → Nat
  | .arith => 0
  | .binary => 1
  | .eda => 2
  | .opening => 3

/-- The cursor table of a pool kind. -/
def Gate.cursors (g : Gate) : GateKind → Tab Nat
  | .arith => g.atc
  | .binary => g.btc
  | _ => g.ebc

/-- The cursor of a lane (key warp x 32 + lane) in a pool. -/
def Gate.cursor (g : Gate) (k : GateKind) (lane : Nat) : Nat := (g.cursors k).rd 0 lane

/-- Changes a cursor. -/
def Gate.setCursor (g : Gate) (k : GateKind) (lane n : Nat) : Gate :=
  match k with
  | .arith => { g with atc := g.atc.wr 0 lane n }
  | .binary => { g with btc := g.btc.wr 0 lane n }
  | .eda => { g with ebc := g.ebc.wr 0 lane n }
  | .opening => g

/-- The key of a pool entry. -/
def entryKey (k : GateKind) (lane i : Nat) : Nat := k.no * 2 ^ 20 + lane * 1024 + i

/-- The entry is burnt: its id is 0xFFFF_FFFF (R209). -/
def Gate.isBurnt (g : Gate) (k : GateKind) (lane i : Nat) : Bool := g.burnt.rd false (entryKey k lane i)

/-- Burns an entry (R209). -/
def Gate.burn (g : Gate) (k : GateKind) (lane i : Nat) : Gate := { g with burnt := g.burnt.wr false (entryKey k lane i) true }

/-- A lane without an exchange. -/
def Slot.none : Slot := ⟨0, 0, 0, 0, 0, 0, 0, 0, 0⟩

/-- The SLOT of a lane (R313). -/
def Gate.slot (g : Gate) (lane : Nat) : Slot := g.slots.rd .none lane

/-- Changes a SLOT. -/
def Gate.setSlot (g : Gate) (lane : Nat) (x : Slot) : Gate := { g with slots := g.slots.wr .none lane x }

/-- A party's words of a pool entry (R209, R313): its shares of a, b and c, or for an edaBit its arithmetic share and its
binary share of r. The dealt words are free; party 1's words make the entry's relation hold. -/
def entryWords (item : Nat) (k : GateKind) (party lane i : Nat) : List Word :=
  let w := Config.dealt item k.no lane i
  let a0 := w.getD 0 0
  let a1 := w.getD 1 0
  let b0 := w.getD 2 0
  let b1 := w.getD 3 0
  let c0 := w.getD 4 0
  match k, party with
  | .arith, 0 => [a0, b0, c0]
  | .arith, _ => [a1, b1, (a0 + a1) * (b0 + b1) - c0]
  | .binary, 0 => [a0, b0, c0]
  | .binary, _ => [a1, b1, ((a0 ^^^ a1) &&& (b0 ^^^ b1)) ^^^ c0]
  | .eda, 0 => [a0, b0]
  | .eda, _ => [a1, (a0 + a1) ^^^ b0]
  | .opening, _ => []

/-- The bytes in DRAM of a party's pool entry (R157, R209): the id that both parties' entries share, 0xFFFF_FFFF once it is burnt, then
the shares. -/
def Gate.entryBytes (g : Gate) (item : Nat) (k : GateKind) (party lane key i : Nat) : List Byte :=
  let id : Word := if g.isBurnt k key i then 0xFFFFFFFF else (Config.dealt item k.no lane i).getD 5 0
  (id :: entryWords item k party lane i).flatMap (fun w => bytesOf w.toNat 4)

/-- The party-0 item of a block: what names a joint item pair. -/
def State.jointItem (s : State) (b : Block) : Nat :=
  if b.party = 0 then b.item
  else match s.items.look b.item with | some it => it.peer.getD b.item | none => b.item

/-- Changes the gate state of a block. -/
def State.updGate (s : State) (k : Nat) (f : Gate → Gate) : State :=
  s.updBlk k (fun b => { b with gate := b.gate.map f })

/-! ### Shared operations (R314) -/

/-- The lanes' common handling: outside a joint launch every executing lane stops with SHARE_MODE (R314). -/
def joint (i : Instr) (f : Thread → Block → Gate → State → State) : State → Host.Outcome State Fault Refusal :=
  onState i (fun t s =>
    match s.blk s.cur.block with
    | none => s
    | some b =>
      match b.gate with
      | none => s.updThr s.cur (fun t => t.failLanes .shareMode 0 ((t.lanes i.guard).map (fun l => (l, 0))))
      | some g => f t b g s)

/-- An instruction on the lane's own shares (R317, R318). -/
def ownShares (i : Instr) (x : Ext) (f : Thread → Nat → Nat → Word) : State → Host.Outcome State Fault Refusal :=
  joint i (fun t b _ s => s.updThr s.cur (fun u => u.each (t.lanes x.guard) (fun l u => u.setV l x.d.toNat (f t b.party l))))

/-- Operand A as a word. -/
def Thread.wordA (t : Thread) (x : Ext) (l : Nat) : Word := t.vr l x.a.toNat

/-- Operand B as a word. -/
def Thread.wordB (t : Thread) (x : Ext) (l : Nat) : Word := (t.opB x l).extractLsb' 0 32

/-- `SADDC` (R317). -/
def execSaddc (x : Ext) : State → Host.Outcome State Fault Refusal :=
  ownShares (.saddc x) x (fun t party l => if party = 0 then t.wordA x l + t.wordB x l else t.wordA x l)

/-- `SMULC` (R317). -/
def execSmulc (x : Ext) : State → Host.Outcome State Fault Refusal :=
  ownShares (.smulc x) x (fun t _ l => t.wordA x l * t.wordB x l)

/-- `STRUNC` (R318). -/
def execStrunc (x : Ext) : State → Host.Outcome State Fault Refusal :=
  ownShares (.strunc x) x (fun t party l =>
    let f := (t.wordB x l).toNat % 32
    if party = 0 then (t.wordA x l).sshiftRight f else -((-(t.wordA x l)).sshiftRight f))

/-- `GSTAT` (R325). -/
def execGstat (x : Ext) : State → Host.Outcome State Fault Refusal :=
  joint (.gstat x) (fun t _ g s =>
    let w := s.cur.warp.getD 0
    s.updThr s.cur (fun u => u.each (t.lanes x.guard) (fun l u =>
      let k := w * 32 + l
      u.setV l x.d.toNat (BitVec.ofNat 32 (match x.mf 2 0 with
        | 0 => g.cursor .arith k
        | 1 => g.cursor .binary k
        | 2 => g.cursor .eda k
        | 3 => g.opl.rd 0 k
        | _ => (g.slot k).state)))))

/-! ### What gate instructions contribute (R319 to R324) -/

/-- What a live lane contributes: the entry it popped (none for an opening or a burnt entry), the words sent, its own
values for the result. -/
structure LanePart where
  lane : Nat
  entry : Option Nat
  sent : Option (List Word)
  own : List Word
deriving DecidableEq, Repr

/-- Issues the operations of the lanes of a gate instruction that sends a packet: they are answered together, by the decision of
their one exchange, and are kept as one (R319; log entry 66). -/
def State.issueLanesOne (s : State) (i : Instr) (ls : List Nat) (k : OpKind) : State :=
  (s.issue i s.nextId 0 none 0 k).updThr s.cur (·.number ls)

/-- Issues one `GFIN` operation for each lane, in lane order: each waits for its own SLOT (R158, R321). -/
def State.issueFins (s : State) (i : Instr) (x : Ext) (ls : List Nat) : State :=
  ls.foldl (fun u l => (u.issue i s.nextId l none 0 (.gfin (laneBit l) x.d.toNat x.c.toNat)).updThr s.cur (·.number [l])) s

/-! ### The clearing gate (R319) -/

/-- The key of the other party's block. -/
def State.peerBlock (s : State) (b : Block) : Option Nat :=
  match s.items.look b.item with
  | none => none
  | some it =>
    match it.peer with
    | none => none
    | some p => (s.blocks.find? (fun (_, c) => c.item == p && c.blockId == b.blockId)).map Prod.fst

/-- The exchange of a packet. -/
def State.findExchange (s : State) (item blk warp : Nat) (kind : GateKind) (n : Nat) : Option (Nat × Exchange) :=
  s.exchanges.find? (fun (_, e) => e.item == item && e.blk == blk && e.warp == warp && e.kind == kind && e.n == n)

/-- The blocks of an exchange's pair that stand: party 0's and party 1's. -/
def State.pairOf (s : State) (e : Exchange) : List (Nat × Nat) :=
  s.blocks.filterMap (fun (k, b) =>
    if s.jointItem b = e.item ∧ b.blockId = e.blk ∧ b.gate.isSome ∧ b.run ≠ .killed then some (k, b.party) else none)

/-- A party's packet of an exchange. -/
def Exchange.packet (e : Exchange) (party : Nat) : Option GatePacket := if party = 0 then e.pk0 else e.pk1

/-- An abort burns the entries of an arrived packet in both pools (R319). -/
def State.burnPacket (s : State) (e : Exchange) (p : GatePacket) : State :=
  (s.pairOf e).foldl (fun s (k, _) =>
    s.updGate k (fun g => p.entries.foldl (fun g (l, i) => g.burn e.kind (e.warp * 32 + l) i) g)) s

/-- Sets the SLOTs that wait on an arithmetic exchange (R320, R321). -/
def State.settleSlots (s : State) (e : Exchange) : State :=
  if e.kind ≠ .arith then s
  else
    (s.pairOf e).foldl (fun s (k, party) =>
      let peer := e.packet (1 - party)
      s.updGate k (fun g => (List.range 32).foldl (fun g l =>
        let key := e.warp * 32 + l
        let c := g.slot key
        if c.state = 1 ∧ c.n = e.n then
          match e.verdict, peer.bind (fun p => p.words.look l) with
          | .pending, _ => g
          | .matched, some ws => g.setSlot key { c with state := 2, peerD := ws.getD 0 0, peerE := ws.getD 1 0 }
          | _, _ => g.setSlot key { c with state := 3 }
        else g) g)) s

/-- Lockstep after an abort with both packets in (R319): in each party, every lane of the union that did not execute, or
every lane of it where the party refused, advances its cursor past an entry burnt in both pools, or is charged. -/
def State.lockstep (s : State) (e : Exchange) : State :=
  match e.pk0, e.pk1 with
  | some p0, some p1 =>
    let u := p0.lanes ||| p1.lanes
    (s.pairOf e).foldl (fun s (k, party) =>
      let mine := if party = 0 then p0 else p1
      let due := lanesOf (if mine.refusal then u else u &&& ~~~mine.lanes)
      due.foldl (fun s l =>
        let key := e.warp * 32 + l
        match (s.blk k).bind (·.gate) with
        | none => s
        | some g =>
          if e.kind = .opening then s.updGate k (fun g => { g with opl := g.opl.wr 0 key (g.opl.rd 0 key - 1) })
          else
            let i := g.cursor e.kind key
            if i < g.triples then
              ((s.pairOf e).foldl (fun s (j, _) => s.updGate j (·.burn e.kind key i)) s).updGate k
                (·.setCursor e.kind key (i + 1))
            else s) s) s
  | _, _ => s

/-- The joint items of an exchange: party 0's, and its peer. -/
def State.itemsOf (s : State) (e : Exchange) : List Nat :=
  e.item :: (match (s.items.look e.item).bind (·.peer) with | some p => [p] | none => [])

/-- The gate logs an abort in both partitions, also where an item has ended meanwhile (R319, R348). -/
def State.logAbort (s : State) (e : Exchange) : State := (s.itemsOf e).foldl (fun s k => s.logItem k 0x0120 0 0) s

/-- Carries out an exchange's decision: burns, logs, settles the waiting SLOTs. -/
def State.settle (s : State) (key : Nat) (e : Exchange) : State :=
  let s := { s with exchanges := s.exchanges.ins key e }
  let s := if e.verdict = .matched then s
    else ((e.pk0.toList ++ e.pk1.toList).foldl (fun s p => s.burnPacket e p) s).logAbort e
  s.settleSlots e

/-- The time-out of an exchange has passed (R319). -/
def Exchange.overdue (e : Exchange) (now : BitVec 48) : Bool := decide (e.tout ≤ (now - e.first).toNat)

/-- A time-out that has passed decides an exchange before anything that arrives later (R319). -/
def State.expire (s : State) (key : Nat) (e : Exchange) : State × Exchange :=
  if e.verdict = .pending ∧ e.overdue s.now then
    let e := { e with verdict := .timeout }
    (s.settle key e, e)
  else (s, e)

/-- The verdict of two packets (R319). -/
def verdictOf (e : Exchange) (now : BitVec 48) (p0 p1 : GatePacket) : Verdict :=
  if p0.refusal || p1.refusal then .refused
  else if e.overdue now then .timeout
  else if p0.lanes = p1.lanes then .matched
  else .mismatch

/-- A packet reaches the gate (R319). -/
def State.gateArrive (s : State) (b : Block) (warp : Nat) (g : GateOp) : State :=
  let pk : GatePacket := ⟨g.lanes, g.refusal, g.tout, g.words, g.entries⟩
  let item := s.jointItem b
  let (key, e, fresh) := match s.findExchange item b.blockId warp g.kind g.n with
    | some (key, e) => (key, e, false)
    | none => (s.nextId, ⟨item, b.blockId, warp, g.kind, g.n, none, none, s.now, g.tout, .pending⟩, true)
  let (s, e) := if fresh then ({ s with nextId := s.nextId + 1 }, e) else s.expire key e
  let e := if b.party = 0 then { e with pk0 := some pk } else { e with pk1 := some pk }
  if e.verdict ≠ .pending then
    -- a packet after the abort: its entries burn, and the two parties come back into step
    (({ s with exchanges := s.exchanges.ins key e }).burnPacket e pk).settleSlots e |>.lockstep e
  else
    let e := { e with tout := min e.tout g.tout }
    match e.pk0, e.pk1 with
    | some p0, some p1 =>
      let e := { e with verdict := verdictOf e s.now p0 p1 }
      let s := s.settle key e
      if e.verdict = .matched then s else s.lockstep e
    | _, _ =>
      if g.refusal then s.settle key { e with verdict := .refused }
      else { s with exchanges := s.exchanges.ins key e }

/-- Every executing lane of a `GSND` found a burnt entry (R320). -/
def GateOp.burntWhole (g : GateOp) : Bool := g.kind == .arith && !g.refusal && g.lanes != 0 && g.words.isEmpty

/-- Issues a gate instruction: its commit mark is set, its packet is on its way, and an empty packet sets no flag. A `GSND` whose
lanes all found burnt entries completes at once: its packet is at the gate (R316, R319, R320, R345). -/
def State.issueGate (s : State) (i : Instr) (b : Block) (g : GateOp) : State :=
  let s := s.commit s.cur.block
  if g.burntWhole then (s.gateArrive b (s.cur.warp.getD 0) g).updThr s.cur (·.number (lanesOf g.lanes))
  else
    let s' := s.issueLanesOne i (lanesOf g.lanes) (.gate g)
    if g.lanes = 0 then
      s'.updThr s.cur (fun t => { t with ops := t.ops.map (fun o => if o.id = s.nextId then { o with flag := none } else o) })
    else s'

/-- A gate instruction that sends a packet (R314, R319): it takes the next exchange number; when some lane fails its
check the whole instruction is refused, else each lane pops its entry, which burns it in this party, or is charged an
opening. `part` gives a lane's contribution from its entry. The spec does not say whether a lane that fails its check
takes an issue sequence number: every executing lane does, as its packet carries them all (the model's choice; log entry 66). -/
def gateSend (i : Instr) (x : Ext) (kind : GateKind) (check : Gate → Nat → Bool)
    (part : Thread → Nat → List Word → List Word × List Word) : State → Host.Outcome State Fault Refusal :=
  joint i (fun t b g s =>
    let w := s.cur.warp.getD 0
    let key := fun l => w * 32 + l
    let ls := t.lanes x.guard
    let n := g.xn.rd 0 (w * 4 + kind.no)
    let bad := ls.filter (fun l => !check g (key l))
    let good := ls.filter (fun l => check g (key l))
    let s := s.updGate s.cur.block (fun g => { g with xn := g.xn.wr 0 (w * 4 + kind.no) (n + 1) })
    let tout := (b.gatectl.extractLsb' 0 14).toNat
    let answer := fun (m : List Nat) => if kind = .arith then 0 else maskOfLanes m
    if !bad.isEmpty then
      let s := s.updThr s.cur (·.failLanes .sharePolicy 0 (bad.map (fun l => (l, 0))))
      let s := if kind = .arith then
          s.updGate s.cur.block (fun g => good.foldl (fun g l => g.setSlot (key l) { Slot.none with state := 3, n }) g)
        else s
      s.issueGate i b ⟨kind, n, maskOfLanes ls, answer good, true, tout, false, [], [], [], x.d.toNat, x.c.toNat⟩
    else
      let item := s.jointItem b
      let parts := ls.map (fun l =>
        if kind = .opening then
          let (sent, own) := part t l []
          (⟨l, none, some sent, own⟩ : LanePart)
        else
          let e := g.cursor kind (key l)
          if g.isBurnt kind (key l) e then ⟨l, some e, none, []⟩
          else
            let (sent, own) := part t l (entryWords item kind b.party (b.blockId * 1024 + key l) e)
            ⟨l, some e, some sent, own⟩)
      let s := s.updGate s.cur.block (fun g => parts.foldl (fun g p =>
        let k := key p.lane
        match p.entry with
        | none => { g with opl := g.opl.wr 0 k (g.opl.rd 0 k - 1) }
        | some e =>
          let g := (g.setCursor kind k (e + 1)).burn kind k e
          if kind = .arith then
            match p.sent with
            | none => g.setSlot k { Slot.none with state := 3, n }
            | some ws => g.setSlot k ⟨1, n, p.own.getD 0 0, p.own.getD 1 0, p.own.getD 2 0, ws.getD 0 0, ws.getD 1 0, 0, 0⟩
          else g) g)
      let words := parts.foldl (fun m p => match p.sent with | some ws => Tab.ins m p.lane ws | none => m) ([] : Tab (List Word))
      let own := parts.foldl (fun m p => if p.sent.isSome then Tab.ins m p.lane p.own else m) ([] : Tab (List Word))
      let entries := parts.foldl (fun m p => match p.entry with | some e => Tab.ins m p.lane e | none => m) ([] : Tab Nat)
      s.issueGate i b ⟨kind, n, maskOfLanes ls, answer ls, false, tout, false, words, own, entries, x.d.toNat, x.c.toNat⟩)

/-- A pool pop is allowed while the cursor is below TRIPLES (R314). -/
def popOk (k : GateKind) (g : Gate) (lane : Nat) : Bool := decide (g.cursor k lane < g.triples)

/-- `GSND` (R320). -/
def execGsnd (x : Ext) : State → Host.Outcome State Fault Refusal :=
  gateSend (.gsnd x) x .arith (fun g l => (g.slot l).state == 0 && popOk .arith g l) (fun t l w =>
    ([t.wordA x l - w.getD 0 0, t.vr l x.b.toNat - w.getD 1 0], w))

/-- `GXAND` (R322). -/
def execGxand (x : Ext) : State → Host.Outcome State Fault Refusal :=
  gateSend (.gxand x) x .binary (popOk .binary) (fun t l w =>
    ([t.wordA x l ^^^ w.getD 0 0, t.vr l x.b.toNat ^^^ w.getD 1 0], w))

/-- `EDAB` (R323): its exchange carries no words. -/
def execEdab (x : Ext) : State → Host.Outcome State Fault Refusal :=
  gateSend (.edab x) x .eda (popOk .eda) (fun _ _ w => ([], w))

/-- `GOPEN` (R324). -/
def execGopen (x : Ext) : State → Host.Outcome State Fault Refusal :=
  gateSend (.gopen x) x .opening (fun g l => g.opl.rd 0 l != 0) (fun t l _ => ([t.wordA x l], [t.wordA x l]))

/-- `GFIN` (R321): a lane whose SLOT is none stops with SHARE_POLICY, and issues nothing; each of the others waits for its SLOT. -/
def execGfin (x : Ext) : State → Host.Outcome State Fault Refusal :=
  joint (.gfin x) (fun t _ g s =>
    let w := s.cur.warp.getD 0
    let ls := t.lanes x.guard
    let bad := ls.filter (fun l => (g.slot (w * 32 + l)).state == 0)
    let good := ls.filter (fun l => (g.slot (w * 32 + l)).state != 0)
    let s := s.updThr s.cur (·.failLanes .sharePolicy 0 (bad.map (fun l => (l, 0))))
    s.issueFins (.gfin x) x good)

/-! ### The gate's events (R319) -/

/-- Changes a gate operation in place. -/
def GateOp.landed (g : GateOp) : GateOp := { g with arrived := true }

/-- A gate packet that has not reached the gate. -/
def Op.onItsWay (o : Op) : Bool := match o.kind with | .gate g => !g.arrived | _ => false

/-- The earlier packets of a lane and kind have reached the gate before a packet does (R316). -/
def Thread.mayArrive (t : Thread) (o : Op) : Bool := !t.ops.any (fun p => decide (p.id < o.id) && o.sameGate p && p.onItsWay)

/-- `GATE_PACKET_ARRIVE`: the packet of a gate instruction reaches the gate; a `GSND` is then complete, unless it was
refused (R319, R320). -/
def execGatePacketArrive (op : Nat) : State → Host.Outcome State Fault Refusal :=
  fun s =>
    .next (match s.findOp op with
      | none => s
      | some (r, o) =>
        match s.blk r.block, s.thr r, o.kind with
        | some b, some t, .gate g =>
          if g.arrived ∨ !t.mayArrive o then s
          else
            let s := s.gateArrive b (r.warp.getD 0) g
            if (g.kind = .arith ∧ !g.refusal) ∨ g.lanes = 0 then s.complete r o (fun t => t)
            else s.setKind r o (.gate g.landed)
        | _, _, _ => s)

/-- A gang item has ended. -/
def State.itemOver (s : State) (k : Nat) : Bool := match s.items.look k with | some it => it.life == .done | none => true

/-- `GATE_TIMEOUT`: the smaller TOUT of the arrived packets has passed without a decision (R319). An exchange whose items have
both ended goes with its decision (R375). -/
def execGateTimeout (exchange : Nat) : State → Host.Outcome State Fault Refusal :=
  fun s =>
    .next (match s.exchanges.look exchange with
      | none => s
      | some e =>
        let s := (s.expire exchange e).1
        if (s.itemsOf e).all s.itemOver then { s with exchanges := s.exchanges.filter (fun (k, x) => k != exchange || x.verdict == .pending) }
        else s)

/-- The result of a matched lane (R322 to R324): from the kind, the party, the lane's own values, its words and the
peer's. -/
def gateResult (k : GateKind) (party : Nat) (own mine peer : List Word) : List Word :=
  match k with
  | .binary =>
    let dv := mine.getD 0 0 ^^^ peer.getD 0 0
    let ev := mine.getD 1 0 ^^^ peer.getD 1 0
    [own.getD 2 0 ^^^ (dv &&& own.getD 1 0) ^^^ (ev &&& own.getD 0 0) ^^^ (if party = 0 then dv &&& ev else 0)]
  | .eda => [own.getD 0 0, own.getD 1 0]
  | _ => [own.getD 0 0 + peer.getD 0 0]

/-- The verdict of a gate instruction is performed: matched lanes take their results, aborted lanes only a false
predicate; a refused `GSND` only ends (R314, R319). -/
def Thread.answer (t : Thread) (o : Op) (g : GateOp) (party : Nat) (e : Exchange) : Thread :=
  (lanesOf g.answers).foldl (fun t l =>
    match e.verdict, g.words.look l, (e.packet (1 - party)).bind (fun p => p.words.look l) with
    | .matched, some mine, some peer =>
      let rs := gateResult g.kind party ((g.own.look l).getD []) mine peer
      (rs.zipIdx.foldl (fun t (w, j) => t.arriveV o l (g.d + j) w) t).arriveP o l g.pred true
    | _, _, _ => t.arriveP o l g.pred false) t

/-- The result of `GFIN` in a lane (R321). -/
def finResult (party : Nat) (c : Slot) : Word :=
  let dv := c.d + c.peerD
  let ev := c.e + c.peerE
  c.c + dv * c.b + ev * c.a + (if party = 0 then dv * ev else 0)

/-- `GFIN` is performed: matched lanes take the product share, aborted lanes a false predicate (R321). -/
def Thread.finish (t : Thread) (o : Op) (g : Gate) (w party : Nat) (lanes : LaneMask) (d pred : Nat) : Thread :=
  (lanesOf lanes).foldl (fun t l =>
    let c := g.slot (w * 32 + l)
    if c.state = 2 then (t.arriveV o l d (finResult party c)).arriveP o l pred true else t.arriveP o l pred false) t

/-- `GATE_VERDICT`: a gate instruction whose exchange is decided, or a `GFIN` whose lanes are all matched or aborted, is
performed (R316, R319, R321). -/
def execGateVerdict (op : Nat) : State → Host.Outcome State Fault Refusal :=
  fun s =>
    .next (s.performOp op (fun r b o =>
      let w := r.warp.getD 0
      match o.kind with
      | .gate g =>
        match s.findExchange (s.jointItem b) b.blockId w g.kind g.n with
        | none => s
        | some (_, e) =>
          if g.arrived ∧ e.verdict ≠ .pending then s.complete r o (fun t => t.answer o g b.party e) else s
      | .gfin lanes d pred =>
        match b.gate with
        | none => s
        | some g =>
          if (lanesOf lanes).all (fun l => 2 ≤ (g.slot (w * 32 + l)).state) then
            (s.complete r o (fun t => t.finish o g w b.party lanes d pred)).updGate r.block (fun g =>
              (lanesOf lanes).foldl (fun g l => g.setSlot (w * 32 + l) .none) g)
          else s
      | _ => s))

end Sys2Proof.Machine
end

