-- ==== Sys2Proof/Machine/Sched.lean ====
section
/-! DEFINITION. Clause boundaries, the fetch and check of clauses, issue slots, and the events that perform outstanding
operations and end holds (R61 to R69, R112 to R117, R162, R218). -/

namespace Sys2Proof

/-- The v registers that an operand field of a kind names. -/
def Kind.regs (k : Kind) (n : Nat) : List Nat :=
  match k with
  | .reg => [n]
  | .pair => [n, n + 1]
  | .quad => [n, n + 1, n + 2, n + 3]
  | _ => []

/-- Instructions that read the register that D names: stores their data (R269), `BFI` and the compact `FFMA` the value they
change (R104, R236). -/
def Instr.readsD : Instr → Bool
  | .bfi _ | .ffmaCompact _ | .st _ | .sts _ | .stg _ | .stCompact _ | .stsCompact _ | .stgCompact _ => true
  | _ => false

/-- The v registers that an instruction reads. -/
def Instr.sources (i : Instr) : List Nat :=
  let r := rule .simt i
  let x := match i.ext?, i.compact? with
    | some x, _ => x
    | _, some c => c.ext
    | _, _ => (Compact.mk ⟨false, 7⟩ 0 0 0 none).ext
  let l := x.lit.isSome
  (if x.al then [] else r.a.regs x.a.toNat) ++ (if x.bl || (l && r.lit == .giveB) then [] else r.b.regs x.b.toNat) ++
    (if x.cl || (l && r.lit == .giveC) then [] else r.c.regs x.c.toNat) ++ (if i.readsD then r.d.regs x.d.toNat else [])

end Sys2Proof

namespace Sys2Proof.Machine

/-! ### The end of a clause (R63, R64, R385) -/

/-- The traps of a clause, one for each instruction at which lanes failed, in clause order (R385): WINDOW where any lane
failed WINDOW, and RPC is the fall-through address. -/
def Clause.traps (c : Clause) : List TrapRec :=
  ((c.fails.map (·.idx)).eraseDups).filterMap (fun i =>
    let fs := c.fails.filter (·.idx == i)
    fs.head?.map (fun f =>
      { cause := if fs.any (·.cause == .window) then .window else f.cause,
        lanes := maskOfLanes (fs.map (·.lane)), fpc := f.pc, rpc := c.fall, code := f.code,
        addrs := fs.foldl (fun m f => m.wr 0 f.lane f.value) [], stage2 := false, saved := none }))

/-- A trap falls due: the operand buffer is dropped, and the drain withdraws unsatisfied acquires (R108, R167, R279). -/
def Thread.raise (t : Thread) (d : TrapRec) : Thread := ({ t with due := some d, opbuf := [] } : Thread).withdraw

/-- The first trap of a list falls due, the others are recorded (R385). -/
def Thread.raiseAll (t : Thread) : List TrapRec → Thread
  | [] => t
  | d :: ds => { t with recorded := t.recorded ++ ds }.raise d

/-- The lanes of a clause that take its status changes: those that did not stop (R385). -/
def Clause.live (c : Clause) : LaneMask := c.issue &&& ~~~c.stopped

/-- The lanes that a clause makes wait, with their masks; a lane that also exits does not wait (R64). -/
def Clause.newWaits (c : Clause) : List (Nat × Nat) :=
  (lanesOf (c.live &&& ~~~c.exits)).filterMap (fun l => (c.waits.look l).map (fun n => (l, n)))

/-- A clause ends (R63, R64): program counters, exits, waits, lanes returned by `RTE`, the valve count on a status change,
the pass that `YIELD` asks for, and the traps of its stopped lanes. -/
def Thread.endClause (t : Thread) (c : Clause) : Thread :=
  let exits := c.exits &&& c.live
  ({ t with
    lpc := (lanesOf c.issue).foldl (fun p l => p.wr 0 l (c.jumps.rd c.fall l)) t.lpc,
    exited := t.exited ||| exits,
    waits := c.newWaits.foldl (fun m (l, n) => m.ins l n) t.waits,
    handler := t.handler.map (fun h => { h with returned := h.returned ||| (c.returns &&& c.live) }),
    yielded := if c.yields then 64 else t.yielded,
    quiet := if exits = 0 ∧ c.newWaits = [] then t.quiet else 0,
    opbuf := [],
    clause := none } : Thread).raiseAll c.traps

/-! ### Mask releases (R65) -/

/-- Releases the lanes that wait on mask n, where every lane of it waits or has exited. -/
def Thread.release (t : Thread) (n : Nat) : Thread :=
  let w := t.waiters n
  if w ≠ 0 ∧ t.mr n &&& ~~~(w ||| t.exited) = 0 then
    { t with waits := (lanesOf w).foldl Tab.rem t.waits, quiet := 0 }
  else t

/-- Tests each mask from 0 to 11 in turn. -/
def Thread.releaseMasks (t : Thread) : Thread := (List.range 12).foldl Thread.release t

/-! ### Leaving handler mode (R338, R385) -/

/-- A teller whose RPC the handler left unchanged continues its interrupted clause (R338). -/
def Thread.resumeSaved (t : Thread) (h : Handler) : Thread :=
  match h.saved with
  | some c =>
    if t.exited = 0 ∧ t.pcOf 0 = h.rpc then { t with clause := some c, lpc := t.lpc.wr 0 0 c.hdr } else t
  | none => t

/-- Handler mode ends once every handler lane has returned or exited; a recorded trap then falls due (R338, R385). -/
def Thread.leaveHandler (t : Thread) : Thread :=
  let t :=
    match t.handler with
    | none => t
    | some h =>
      if t.due.isNone ∧ h.lanes &&& ~~~(h.returned ||| t.exited) = 0 then
        { t with handler := none, withdrawn := h.held ++ t.withdrawn }.resumeSaved h
      else t
  match t.handler, t.due, t.recorded with
  | none, none, d :: ds => { t with recorded := ds }.raise d
  | _, _, _ => t

/-- What a boundary does before it chooses an issue set (R62). -/
def Thread.boundary (t : Thread) : Thread :=
  let t := match t.clause with
    | some c => t.endClause c
    | none => t
  t.releaseMasks.leaveHandler

/-! ### The issue set (R62, R67, R334) -/

/-- The candidates of a boundary: ready lanes, in handler mode only handler lanes that have not returned. -/
def Thread.candidates (t : Thread) : LaneMask :=
  let ready := maskOfLanes ((lanesOf t.allLanes).filter t.isReady)
  match t.handler with
  | none => ready
  | some h => ready &&& h.lanes &&& ~~~h.returned

/-- The least of a list of addresses, compared unsigned (R61). -/
def minAddr : List Addr → Addr
  | [] => 0
  | [a] => a
  | a :: t => let m := minAddr t; if a.toNat ≤ m.toNat then a else m

/-- The clause chosen by the minimum PC or by the valve, its issue set and the valve count after its issue (R62, R67). -/
def Thread.choose (t : Thread) : Option (Addr × LaneMask × Nat) :=
  match lanesOf t.candidates with
  | [] => none
  | ls =>
    let lo := minAddr (ls.map t.pcOf)
    let higher := (ls.map t.pcOf).filter (fun a => decide (lo.toNat < a.toNat))
    let at' := fun pc => maskOfLanes (ls.filter (fun l => t.pcOf l == pc))
    if t.teller then some (lo, at' lo, 0)
    else if t.quiet = Config.valve ∧ higher ≠ [] then some (minAddr higher, at' (minAddr higher), 0)
    else some (lo, at' lo, min (t.quiet + 1) Config.valve)

/-- The trap for faults found after issue that a set of lanes has not yet reported (R166, R337): STREAM, or for a teller
whose first fault is an illegal trit TRIT with its address (R293). -/
def Thread.streamTrap (t : Thread) (set : LaneMask) (rpc : Addr) (saved : Option Clause) : Option TrapRec :=
  let mine := t.unreported.filter (fun r => set.getLsbD r.lane)
  match mine with
  | [] => none
  | _ =>
    let stream : TrapRec :=
      { cause := .stream, lanes := maskOfLanes (mine.map (·.lane)), fpc := 0, rpc, code := 0, addrs := [], stage2 := false,
        saved }
    match t.teller, earliest (mine.filter (fun r => r.cause.isSome)) with
    | true, some r =>
      if r.cause = some .trit then some { stream with cause := .trit, fpc := r.pc, addrs := [(0, r.addr)] }
      else some { stream with stage2 := r.stage2 }
    | _, some r => some { stream with stage2 := r.stage2 }
    | _, none => some stream

/-! ### Fetch and check of a clause (R100, R112 to R117) -/

/-- Why a fetch stops: a trap at a word with the value of its ADDR slot, an absent host page, poison. -/
inductive FetchStop where
  | trap (c : Cause) (word addr : Addr) (stage2 : Bool)
  | absent (page : Nat)
  | poison (addr : Addr)
deriving DecidableEq, Repr

/-- Who fetches: core, context, side, limits, and a host page that the host has refused. -/
structure Fetcher where
  core : Nat
  ctx : Nat
  side : Side
  lim : Limits
  denied : Option Nat
deriving DecidableEq, Repr

/-- A clause word (R100, R114): PROT outside the global region and on a vault page. -/
def State.fetchWord (s : State) (f : Fetcher) (a : Addr) : Except FetchStop Word :=
  match regionOf a 4 with
  | .global =>
    match s.xlate f.core f.ctx a 4 with
    | .fault c st => .error (.trap c a a st)
    | .absent pg => if f.denied = some pg then .error (.trap .xlate a a false) else .error (.absent pg)
    | .ok x =>
      if x.space = .vault then .error (.trap .prot a a true)
      else
        let (bs, p) := s.readX (f.core / 16) x 4
        if p then .error (.poison a) else .ok (BitVec.ofNat 32 (numOf bs))
  | _ => .error (.trap .prot a a false)

/-- ILL at a word (R114). -/
def ill {α : Type} (a : Addr) : Except FetchStop α := .error (.trap .ill a 0 false)

/-- Words that complete the first words of an instruction, enough of them that one decodes if any completion does: every TY and
literal flag, a field A that suits a literal, the X9 of every control register, and fields of 0. -/
def completions (ws : List Word) : List (List Word) :=
  let second := (List.range 32).flatMap (fun i => [BitVec.ofNat 32 (i * 2 ^ 27), BitVec.ofNat 32 (i * 2 ^ 27 + 2 ^ 9)])
  let third := (List.range 10).flatMap (fun i => [BitVec.ofNat 32 (i * 2 ^ 23), BitVec.ofNat 32 (i * 2 ^ 23 + 2 ^ 9)])
  match ws with
  | [w] =>
    if (lenOf w).getLsbD 0 then second.flatMap (fun w1 => third.map (fun w2 => [w, w1, w2, 0, 0])) else [[w, 0, 0, 0, 0]]
  | [w, w1] => if (lenOf w).getLsbD 0 then third.map (fun w2 => [w, w1, w2, 0, 0]) else [[w, w1, 0, 0, 0]]
  | _ => [ws ++ [0, 0]]

/-- An instruction that stands where it stands in its clause: it decodes, and is a transfer only where it is the last (R17,
R114). -/
def fits (f : Fetcher) (last : Bool) (ws : List Word) : Option Instr :=
  match decode f.side f.lim ws with
  | .error _ => none
  | .ok i => if i.isTransfer && !last then none else some i

/-- Words from an address, as far as they can be read, and what stops the reading. -/
def State.readWords (s : State) (f : Fetcher) : Nat → Addr → List Word × Option FetchStop
  | 0, _ => ([], none)
  | n + 1, a =>
    match s.fetchWord f a with
    | .error e => ([], some e)
    | .ok w =>
      let (ws, e) := s.readWords f n (a + 4)
      (w :: ws, e)

/-- One instruction of a clause, checked: its words and itself. The first failure in address order is the one reported: ILL at
the instruction, where the words before one that cannot be read already refuse it (R114). -/
def State.fetchInstr (s : State) (f : Fetcher) (last : Bool) (a : Addr) : Except FetchStop (List Word × Instr) :=
  match s.fetchWord f a with
  | .error e => .error e
  | .ok w =>
    match s.readWords f (wordsOfLen (lenOf w)) a with
    | (ws, some e) => if (completions ws).any (fun ws => (fits f last ws).isSome) then .error e else ill a
    | (ws, none) =>
      match fits f last ws with
      | some i => .ok (ws, i)
      | none => ill a

/-- The instructions of a clause from an address, n + 1 of them: their words, the address after them, whether the last
takes a target list. -/
def State.fetchInstrs (s : State) (f : Fetcher) : Nat → Addr → Except FetchStop (List Word × Addr × Bool)
  | 0, a => (s.fetchInstr f true a).map (fun (ws, i) => (ws, a + BitVec.ofNat 64 (4 * ws.length), i.hasList))
  | n + 1, a =>
    match s.fetchInstr f false a with
    | .error e => .error e
    | .ok (ws, _) =>
      (s.fetchInstrs f n (a + BitVec.ofNat 64 (4 * ws.length))).map (fun (vs, b, l) => (ws ++ vs, b, l))

/-- The targets of a list's entries; word 0 stands at `q` (R117). -/
def State.fetchTargets (s : State) (f : Fetcher) (q : Addr) : Nat → Addr → Except FetchStop (List Addr)
  | 0, _ => .ok []
  | n + 1, a =>
    match s.fetchWord f a with
    | .error e => .error e
    | .ok w =>
      if w.extractLsb' 0 2 ≠ 3 then ill a
      else (s.fetchTargets f q n (a + 4)).map ((q + ((w.extractLsb' 2 30).signExtend 64 <<< 2)) :: ·)

/-- The target list at an address, checked (R117). -/
def State.fetchList (s : State) (f : Fetcher) (q : Addr) : Except FetchStop (List Addr) :=
  match s.fetchWord f q with
  | .error e => .error e
  | .ok w =>
    if w.extractLsb' 28 4 ≠ 0 ∨ w.extractLsb' 8 8 ≠ 0 ∨ w.extractLsb' 0 8 ≠ 1 then ill q
    else s.fetchTargets f q ((w.extractLsb' 16 12).toNat + 1) (q + 4)

/-- A flag field of a header that raises ILL (R20). -/
def badFlag (f : BitVec 4) : Bool := decide (12 ≤ f.toNat) && decide (f.toNat ≤ 14)

/-- A word that is a clause header (R112). -/
def isHeader (w : Word) : Bool := w.extractLsb' 0 8 == 0

/-- The header word at an address, checked (R114); a program counter that is no multiple of 4 names no header. -/
def State.fetchHeader (s : State) (f : Fetcher) (h : Addr) : Except FetchStop Word :=
  if h.extractLsb' 0 2 ≠ 0 then ill h
  else
    match s.fetchWord f h with
    | .error e => .error e
    | .ok w => if !isHeader w || badFlag (w.extractLsb' 16 4) || badFlag (w.extractLsb' 12 4) then ill h else .ok w

/-- A clause, fetched whole and checked (R113, R114). -/
def State.fetchClause (s : State) (f : Fetcher) (h : Addr) (issue : LaneMask) : Except FetchStop Clause :=
  match s.fetchHeader f h with
  | .error e => .error e
  | .ok w =>
    match s.fetchInstrs f (w.extractLsb' 8 4).toNat (h + 4) with
    | .error e => .error e
    | .ok (ws, q, hasList) =>
      match (if hasList then s.fetchList f q else .ok []) with
      | .error e => .error e
      | .ok ts =>
        .ok
          { hdr := h, issue, setf1 := (w.extractLsb' 16 4).toNat, setf2 := (w.extractLsb' 12 4).toNat, next := h + 4,
            rest := ws, left := (w.extractLsb' 8 4).toNat + 1, idx := 0, longSeen := false,
            fall := if hasList then q + BitVec.ofNat 64 (4 * (ts.length + 1)) else q, listAddr := q, targets := ts,
            exits := 0, waits := [], jumps := [], returns := 0, yields := false, fails := [], stopped := 0 }

/-! ### CLAUSE_BOUNDARY (R62) -/

/-- The issue side of a thread. -/
def Thread.side (t : Thread) : Side := if t.teller then .teller else .simt

/-- How a thread of a block fetches. -/
def Thread.fetcher (t : Thread) (b : Block) : Fetcher := ⟨b.core, b.ctx, t.side, ⟨b.regs, b.tiles⟩, t.denied⟩

/-- Checks and issues a chosen clause, or raises the trap of its check for the whole issue set (R114, R19). -/
def State.issueClause (s : State) (r : Thr) (b : Block) (t : Thread) (pc : Addr) (set : LaneMask) (quiet : Nat) : State :=
  let f := t.fetcher b
  let waits := match s.fetchHeader f pc with
    | .ok w => t.waitPending (w.extractLsb' 20 12)
    | .error _ => false
  if waits then s
  else
    match s.fetchClause f pc set with
    | .ok c => s.updThr r (fun t => { t with clause := some c, quiet, denied := none })
    | .error (.trap c word addr st) =>
      s.updThr r (fun t =>
        { t with denied := none }.raise
          { cause := c, lanes := set, fpc := word, rpc := pc, code := 0,
            addrs := (lanesOf set).foldl (fun m l => m.wr 0 l addr) [], stage2 := st, saved := none })
    | .error (.absent pg) => s.askPage (.fetch r) b.ctx pg
    | .error (.poison a) => s.consumePoison r.block a

/-- Chooses an issue set at a boundary; faults that its lanes have not reported trap in place of the issue (R337). -/
def State.chooseIssue (s : State) (r : Thr) (b : Block) : State :=
  match s.thr r with
  | none => s
  | some t =>
    match t.choose with
    | none => s
    | some (pc, set, quiet) =>
      match t.streamTrap set pc none with
      | some d => s.updThr r (fun _ => t.raise d)
      | none => s.issueClause r b t pc set quiet

/-- A thread at a boundary: no instruction of a clause is left, and nothing holds it. -/
def Thread.atBoundary (t : Thread) : Bool :=
  t.hold == .none && t.due.isNone && (match t.clause with | some c => c.left == 0 | none => true)

/-- Applies a boundary's status changes and checks the launch's trigger for its exits (R62, R74). -/
def State.applyBoundary (s : State) (r : Thr) : State := (s.updThr r Thread.boundary).checkBlockTrigger r.block

/-- `CLAUSE_BOUNDARY` (R62): a thread whose block is being stopped issues nothing, and its unsatisfied acquires are
withdrawn (R133, R279). -/
def execClauseBoundary (r : Thr) : State → Host.Outcome State Fault Refusal :=
  fun s =>
    match s.blk r.block, s.thr r with
    | some b, some t =>
      if !t.atBoundary then .next s
      else if b.run = .running then
        let s := s.applyBoundary r
        match s.thr r with
        | some u =>
          if u.due.isSome then .next s
          else
            let s := s.reissue r
            if u.atBoundary then .next (s.chooseIssue r b) else .next s
        | none => .next s
      else if b.run = .stopping then .next ((s.applyBoundary r).updThr r Thread.withdraw)
      else .next s
    | _, _ => .next s

/-! ### The next instruction of a thread (R133, R166, R218, R242, R349) -/

/-- A thread has an instruction to issue. -/
def Thread.canIssue (t : Thread) (b : Block) : Bool :=
  (b.run == .running || (b.run == .stopping && !t.teller)) && t.hold == .none && t.due.isNone &&
    (match t.clause with | some c => decide (0 < c.left) | none => false)

/-- An instruction of a warp reads a register-file row that holds poisoned bytes (R349). -/
def Block.readsPoison (b : Block) (w : Option Nat) (t : Thread) (i : Instr) : Bool :=
  match w with
  | none => false
  | some w => !(t.lanes i.guard).isEmpty && i.sources.any (fun n => b.poisoned.contains (.row w (n / 8)))

/-- What a thread does when it moves: a boundary, a trap to deliver, an instruction, words that are none, or a change with
no instruction. -/
inductive Turn where
  | boundary
  | deliver
  | run (i : Instr)
  | broken
  | stay (s : State)
deriving DecidableEq, Repr

/-- A thread is ready to issue: it has an instruction of its clause to issue, or it stands at a boundary and would issue its next
clause, or go on with an interrupted one, with no flag to wait for and nothing to trap (R62, R69). -/
def State.wants (s : State) (b : Block) (t : Thread) : Bool :=
  t.canIssue b || (b.run == .running && t.atBoundary &&
    (let u := t.boundary.reissue
     u.due.isNone &&
      (if !u.atBoundary then u.canIssue b
       else
        match u.choose with
        | none => false
        | some (pc, set, _) =>
          (u.streamTrap set pc none).isNone &&
            (match s.fetchHeader (u.fetcher b) pc, s.fetchClause (u.fetcher b) pc set with
              | .ok w, .ok _ => !u.waitPending (w.extractLsb' 20 12)
              | _, _ => false))))

/-- The threads of a block that are ready to issue. -/
def State.readyThreads (s : State) (b : Block) : List (Option Nat × Thread) := b.threads.filter (fun (_, t) => s.wants b t)

/-- A thread that yielded is passed over while another of its context is ready (R242). -/
def passes (ready : List (Option Nat × Thread)) (w : Option Nat) (t : Thread) : Bool :=
  decide (0 < t.yielded) && ready.any (fun (v, _) => v != w)

/-- The thread that must issue before the other ready ones: the one passed over longest, once that is `Config.patience` slots
(R69). -/
def urgent (ready : List (Option Nat × Thread)) : Option (Option Nat) :=
  (ready.foldl (fun m (w, t) =>
    if t.starved < Config.patience then m
    else
      match m with
      | some (_, n) => if n < t.starved then some (w, t.starved) else m
      | none => some (w, t.starved)) (none : Option (Option Nat × Nat))).map Prod.fst

/-- A thread may use its context's slot now: it need not let another issue first (R69, R242). -/
def State.mayUse (s : State) (b : Block) (w : Option Nat) (t : Thread) : Bool :=
  let ready := s.readyThreads b
  match urgent ready with
  | some u => u == w
  | none => !passes ready w t

/-- Every ready thread of a block is passed over: the slot goes unused (R242). -/
def State.allPassed (s : State) (b : Block) : Bool :=
  let ready := s.readyThreads b
  (urgent ready).isNone && ready.all (fun (w, t) => passes ready w t)

/-- A thread of a block after an issue slot of its context, used by `user` or by nobody: one that yielded has one slot less to
wait where another was ready (R242), one that was ready has been passed over once more (R69). -/
def Thread.seated (t : Thread) (ready : List (Option Nat × Thread)) (user : Option (Option Nat)) (w : Option Nat) : Thread :=
  { t with
    yielded := if ready.any (fun (v, _) => v != w) then t.yielded - 1 else t.yielded,
    starved := if user = some w then 0 else if ready.any (fun (v, _) => v == w) then t.starved + 1 else 0 }

/-- The arbiter of a core. -/
def State.arbiter (s : State) (core : Nat) : Arbiter := s.arbiters.rd .blank core

/-- The context slot of a block (R57). -/
def Block.slot (b : Block) (key : Nat) : Nat := key - b.core * Config.slots

/-- An issue slot of a core's granted context is over, used by a thread or by nobody (R218). -/
def State.useSlot (s : State) (key : Nat) (b : Block) (user : Option (Option Nat)) : State :=
  let ready := s.readyThreads b
  ({ s with arbiters := s.arbiters.ins b.core { s.arbiter b.core with granted := none } } : State).updBlk key (fun b =>
    { b with warps := b.warps.map (fun (w, t) => (w, t.seated ready user (some w))), tel := b.tel.seated ready user none })

/-- The turn of a thread. A thread that may not use the slot leaves it to others, and one of threads that are all passed over
leaves it unused (R242). -/
def State.turn (s : State) (r : Thr) : Turn :=
  match s.blk r.block, s.thr r with
  | some b, some t =>
    if t.due.isSome then .deliver
    else if t.atBoundary then .boundary
    else if !t.canIssue b then .stay s
    else
      match (if t.teller then t.streamTrap 1 t.here t.clause else none) with
      | some d => .stay (s.updThr r (fun _ => { t with clause := none }.raise d))
      | none =>
        match parseWords (match t.clause with | some c => c.rest | none => []) with
        | .error _ => .broken
        | .ok i =>
          if b.readsPoison r.warp t i then .stay (s.consumePoison r.block 0)
          else if (s.arbiter b.core).granted ≠ some (b.slot r.block) then .stay s
          else if s.mayUse b r.warp t then .run i
          else .stay (if s.allPassed b then s.useSlot r.block b none else s)
  | _, _ => .stay s

/-- The state in which a granted thread performs its instruction: the slot is used (R218). -/
def State.seat (s : State) (r : Thr) : State :=
  match s.blk r.block with
  | none => s
  | some b => { s.useSlot r.block b (some r.warp) with cur := r }

/-! ### ISSUE_SLOT_GRANT (R218) -/

/-- The key of the block in a context slot of a core. -/
def slotKey (core slot : Nat) : Nat := core * Config.slots + slot

/-- A context slot is resident: its block runs or is being stopped. -/
def State.slotResident (s : State) (core slot : Nat) : Bool :=
  match s.blk (slotKey core slot) with
  | some b => b.run == .running || b.run == .stopping
  | none => false

/-- A context slot has a thread that is ready to issue. -/
def State.slotReady (s : State) (core slot : Nat) : Bool :=
  match s.blk (slotKey core slot) with
  | some b => b.threads.any (fun (_, t) => s.wants b t)
  | none => false

/-- The context slots after one, in slot order. -/
def slotsAfter (last : Nat) : List Nat := (List.range Config.slots).map (fun i => (last + 1 + i) % Config.slots)

/-- Grants a slot to a context. -/
def Arbiter.grant (a : Arbiter) (c : Nat) : Arbiter :=
  { a with deficit := a.deficit.wr 0 c (a.deficit.rd 0 c - 1), last := c, granted := some c }

/-- `ISSUE_SLOT_GRANT` (R218): the next ready context with deficit left; where there is none a new round gives every
resident context its weight. A grant still to be used stands. -/
def execIssueSlotGrant (core : Nat) : State → Host.Outcome State Fault Refusal :=
  fun s =>
    let a := s.arbiter core
    let held := match a.granted with | some c => s.slotReady core c | none => false
    if held then .next s
    else
      let order := slotsAfter a.last
      let put := fun a => Host.Outcome.next ({ s with arbiters := s.arbiters.ins core a } : State)
      match order.find? (fun c => s.slotReady core c && decide (0 < a.deficit.rd 0 c)) with
      | some c => put (a.grant c)
      | none =>
        let round := (List.range Config.slots).foldl (fun d c =>
          d.wr 0 c (if s.slotResident core c then a.weight.rd 0 c else 0)) a.deficit
        let a := { a with deficit := round, granted := none }
        match order.find? (fun c => s.slotReady core c) with
        | some c => put (a.grant c)
        | none => put a

/-! ### Performing operations (R159, R162, R166, R169, R276, R279) -/

/-- An operation has left a fault behind (R166). -/
def State.faulted (s : State) (r : Thr) (id : Nat) : Bool :=
  match s.thr r with
  | some t => t.unreported.any (fun q => q.op == id && q.cause.isSome)
  | none => false

/-- Keeps a performance that did not fault (`ok`), or only one that did. -/
def State.sift (s : State) (id : Nat) (fault : Bool) (s' : State) : State :=
  match s.findOp id with
  | none => s
  | some (r, _) => if s'.faulted r id = fault then s' else s

/-- Performs a release whose predecessors are counted in (R169, R277): a plain write for `REL`, an atomic update for
`ATOMR`; an AtomicOp on host memory waits for its completion. -/
def State.doRelease (s : State) (r : Thr) (b : Block) (o : Op) : State :=
  match o.kind with
  | .release p a rtn _ =>
    match s.resolve b.core o.xl p (a.bits / 8) (if a.op = 9 then 2 else 3) (releaseOk a) with
    | .ok t =>
      if a.op = 9 then
        ((s.fillPlace b.core p).sendT t (bytesOf a.b.toNat (a.bits / 8)) false o.relaxed).complete r o id
      else if t.onHost then s
      else (s.fillPlace b.core p).doAtomic r b o t a rtn
    | e => s.unresolved r o p e
  | _ => s

/-- The operation is performed by `OPERATION_COMPLETE`: no waiting acquire. -/
def State.performPlain (s : State) (id : Nat) : State :=
  s.performOp id (fun r b o => if o.waiting then s else s.perform r b o)

/-- The receiver that a write of a killed item goes to: the home of its line (R145, R346). -/
def State.strayHome (s : State) (y : Stray) : Option Nat :=
  match y.op.ranges with
  | (.global ctx va, _) :: _ =>
    match s.linkXlate ctx va 2 with | .ok x => some x.home | _ => none
  | _ => none

/-- A receiver drops every arriving write of a generation once it has the retire notice (R346). -/
def State.dropsGen (s : State) (gen receiver : Nat) : Bool := s.retiring.any (fun r => r.gen == gen && r.receiver == receiver)

/-- The bytes that a write of a killed item puts at its home; no register takes a result. -/
def Op.strayBytes (o : Op) (old : List Byte) : Option (List Byte) :=
  match o.kind with
  | .store _ data => some data
  | .atomic _ a _ | .release _ a _ _ | .acquire _ _ a _ _ _ => some (bytesOf (a.new (BitVec.ofNat 64 (numOf old))).toNat (a.bits / 8))
  | _ => none

/-- The permission and the targets that a write of a killed item needs, as when its thread performs it (R147, R276 to R278). -/
def Op.strayNeed (o : Op) : Need × (Target → Bool) :=
  match o.kind with
  | .atomic _ a _ => (3, atomicOk a)
  | .release _ a _ _ => (if a.op = 9 then 2 else 3, releaseOk a)
  | .acquire _ f _ _ _ _ => (3, acquireOk f)
  | _ => (2, plainOk)

/-- The place, update and destination of an operation that may be a PCIe AtomicOp, and the targets it allows (R276). -/
def Op.atomicOp (o : Op) : Option (Place × AtomSpec × Option Nat × (Target → Bool)) :=
  match o.kind with
  | .atomic p a rtn => some (p, a, rtn, atomicOk a)
  | .release p a rtn _ => if a.op = 9 then none else some (p, a, rtn, releaseOk a)
  | .acquire p .cas a d _ _ => some (p, a, some d, acquireOk .cas)
  | .acquire p .xchg a d _ _ => some (p, a, some d, acquireOk .xchg)
  | _ => none

/-- The write of an operation of a killed item at its home: to host memory as an AtomicOp or a posted write (R179). -/
def State.writeStray (s : State) (o : Op) (x : Xlat) (bs : List Byte) : State :=
  match o.atomicOp with
  | some (_, a, _) => s.writeAtomic (.mem x) bs a.op o.relaxed
  | none => s.sendT (.mem x) bs false o.relaxed

/-- An operation of a killed item that had left its core arrives at its home: performed, or dropped where the receiver
holds its retired generation or the access faults (R346); an absent host page is asked for (R151). -/
def State.performStray (s : State) (id : Nat) : State :=
  match s.strays.find? (fun y => y.op.id == id) with
  | none => s
  | some y =>
    let gone : State := { s with strays := s.strays.filter (fun y => y.op.id != id) }
    match y.op.ranges with
    | (.global ctx va, n) :: _ =>
      match s.portResolve ctx va y.op.strayNeed.1 y.op.strayNeed.2 with
      | .ok (.mem x) =>
        if s.dropsGen y.gen x.home then gone
        else
          match y.op.strayBytes (s.readX (x.pa / Config.dieBytes) x n).1 with
          | some bs => gone.writeStray y.op x bs
          | none => gone
      | .wait => s
      | .absent pg => if s.isRefused (.stray id) pg then gone.forget (.stray id) else s.askPage (.stray id) ctx pg
      | _ => gone
    | _ => gone

/-- `OPERATION_COMPLETE` (R162); the arrival of a write whose item has been killed meanwhile (R346). -/
def execOperationComplete (op : Nat) : State → Host.Outcome State Fault Refusal :=
  fun s =>
    .next (match s.findOp op with
      | some _ => s.sift op false (s.performPlain op)
      | none => s.performStray op)

/-- `OPERATION_FAULT` (R166): an operation whose performance faults completes as faulted, and what waits on it is
cancelled. -/
def execOperationFault (op : Nat) : State → Host.Outcome State Fault Refusal :=
  fun s =>
    .next (s.sift op true (s.performOp op (fun r b o =>
      match o.kind with
      | .release .. => s.doRelease r b o
      | .cwait .. => s.tryWait r op
      | _ => s.perform r b o)))

/-- `RELEASE_PERFORM` (R169). -/
def execReleasePerform (op : Nat) : State → Host.Outcome State Fault Refusal :=
  fun s => .next (s.sift op false (s.performOp op (fun r b o => s.doRelease r b o)))

/-- `WAITGE_SATISFIED` (R279): the home slice tests a waiting acquire again; one that a write has satisfied meanwhile completes
with what it read then. -/
def execWaitgeSatisfied (op : Nat) : State → Host.Outcome State Fault Refusal :=
  fun s => .next (s.sift op false (s.performOp op (fun r b o => if o.waiting ∨ o.isAcquired then s.perform r b o else s)))

/-- `ATOMICOP_COMPLETION` (R276): the host performs the AtomicOp, or its completion reports Unsupported Request or
Completer Abort and the atomic faults with PROT. -/
def execAtomicopCompletion (op : Nat) (ok : Bool) : State → Host.Outcome State Fault Refusal :=
  fun s =>
    .next (s.performOp op (fun r b o =>
      match o.atomicOp with
      | none => s
      | some (p, a, rtn, allow) =>
        match s.resolve b.core o.xl p (a.bits / 8) 3 allow with
        | .ok t =>
          if !t.onHost then s
          else if ok then (s.fillPlace b.core p).doAtomic r b o t a rtn
          else s.faultOp r o .prot p.addr false
        | _ => s))

/-! ### Ends of holds (R162, R283, R305, R331, R332) -/

/-- `STREAM_STALL_END` (R162): the count of every lane that would issue has fallen below the limit. -/
def execStreamStallEnd (r : Thr) : State → Host.Outcome State Fault Refusal :=
  fun s =>
    .next (s.updThr r (fun t =>
      match t.hold with
      | .streamFull lanes st => if (lanesOf lanes).any (fun l => t.full l st) then t else { t with hold := .none }
      | _ => t))

/-- `CWAIT_SATISFIED` (R283). -/
def execCwaitSatisfied (r : Thr) : State → Host.Outcome State Fault Refusal := fun s => .next (s.tryCwait r)

/-- `EVWAIT_SATISFIED` (R305). -/
def execEvwaitSatisfied (r : Thr) : State → Host.Outcome State Fault Refusal :=
  fun s =>
    .next (s.updThr r (fun t =>
      match t.hold with
      | .evwait n => if n ≤ t.evq.length then { t with hold := .none }.skip else t
      | _ => t))

/-- `SLEEP_END` (R332): NOW has advanced as often as the sleep asks. -/
def execSleepEnd (r : Thr) : State → Host.Outcome State Fault Refusal :=
  fun s => .next (s.updThr r (fun t => if t.hold = .sleep 0 then { t with hold := .none } else t))

/-- A reply of the firmware is written to the lanes of an `HCALL` (R331). -/
def Thread.reply (t : Thread) (d : Nat) (lanes : LaneMask) (x : Word) : Thread :=
  { t with hold := .none }.each (lanesOf lanes) (fun l u => u.setReg l d (x.setWidth 64))

/-- The unbound items of a launch are discarded late (R60, R331). -/
def Launch.discardRest (la : Launch) : Launch :=
  let n := la.nitems - la.nextItem + la.requeued.length
  { la with late := la.late + n, nextItem := max la.nextItem la.nitems, requeued := [] }

/-- The records of items that were to be bound again end with them. -/
def State.endItems (s : State) (ks : List Nat) : State :=
  ks.foldl (fun s k => s.updItem k (fun it => { it with life := .done, cause := 0 })) s

/-- Discards every unbound item of a launch, and answers how many there were. -/
def State.discardUnbound (s : State) (launch : Nat) : State × Nat :=
  match s.launches.look launch with
  | none => (s, 0)
  | some la =>
    let s := s.endItems la.requeued
    (({ s with launches := s.launches.upd launch Launch.discardRest } : State).checkTrigger launch,
      la.nitems - la.nextItem + la.requeued.length)

/-- The errors queue of an item's partition is full (R198). -/
def State.errFull (s : State) (part : Nat) : Bool :=
  match s.parts.look part with
  | some p => let q := s.errQueue p.info.fn; decide (q.depth ≤ q.entries.length)
  | none => true

/-- What the firmware does for an `HCALL` and what it replies (R331). -/
def State.serve (s : State) (b : Block) (n : Nat) (arg : Addr) : State × Word :=
  match n with
  | 0 => (s, 0)
  | 1 => (s, BitVec.ofNat 32 s.watts)
  | 2 => (s.logItem b.item 0xFF 0 arg, if s.errFull b.part then 1 else 0)
  | 3 =>
    match (s.items.look b.item).bind (fun it => (s.launches.look it.launch).map (fun la => (it.launch, la.peer))) with
    | some (la, peer) =>
      let (s, k) := s.discardUnbound la
      let s := match peer with | some p => (s.discardUnbound p).1 | none => s
      (s, BitVec.ofNat 32 k)
    | none => (s, 0)
  | _ => (s, 0xFFFFFFFF)

/-- `HCALL_REPLY` (R331): a reply that comes later than 100 microseconds is none. -/
def execHcallReply (r : Thr) : State → Host.Outcome State Fault Refusal :=
  fun s =>
    match s.blk r.block, s.thr r with
    | some b, some t =>
      match t.hold with
      | .hcall d n arg lanes since =>
        if 100 < (s.now - since).toNat then .next (s.updThr r (·.reply d lanes 0xFFFFFFFF))
        else
          let (s, x) := s.serve b n arg
          .next (s.updThr r (·.reply d lanes x))
      | _ => .next s
    | _, _ => .next s

/-- `HCALL_TIMEOUT` (R331): 100 microseconds without a reply. -/
def execHcallTimeout (r : Thr) : State → Host.Outcome State Fault Refusal :=
  fun s =>
    .next (s.updThr r (fun t =>
      match t.hold with
      | .hcall d _ _ lanes since => if 100 ≤ (s.now - since).toNat then t.reply d lanes 0xFFFFFFFF else t
      | _ => t))

end Sys2Proof.Machine
end

