-- ==== Sys2Proof/Machine/Trap.lean ====
section
/-! DEFINITION. Trap delivery, pre-emption, eviction and resumption (R132 to R136, R168, R334 to R340). -/

namespace Sys2Proof.Machine

/-- `TRAP_DELIVERY` (R334): once every operation of the thread is complete, the frame is written and the handler entered,
or the gang item ends as a context error. A trap of a block that is being stopped waits for its resumption (R340). -/
def execTrapDelivery (r : Thr) : State → Host.Outcome State Fault Refusal :=
  fun s =>
    match s.blk r.block, s.thr r with
    | some b, some t =>
      match t.due with
      | some d => if t.ops = [] ∧ b.run = .running then .next (s.takeTrap r b t d) else .next s
      | none => .next s
    | _, _ => .next s

/-! ### Pre-emption (R133, R290, R340) -/

/-- The blocks that are pre-empted or resumed with a block: those of both parts of a joint item (R340), else itself. -/
def State.together (s : State) (key : Nat) : List Nat :=
  match s.blk key with
  | none => []
  | some b =>
    match (s.items.look b.item).bind (·.peer) with
    | none => [key]
    | some p => (s.blocks.filter (fun (_, c) => c.item == b.item || c.item == p)).map Prod.fst

/-- What a pre-emption request does to a thread at once: a `SLEEP` ends (R332), and a thread that stands at its boundary
begins its drain, which withdraws unsatisfied acquires (R279). -/
def Thread.askStop (t : Thread) : Thread :=
  let t := match t.hold with
    | .sleep _ => { t with hold := .none }
    | _ => t
  if t.teller || t.clause.isNone then t.withdraw else t

/-- `PREEMPT_REQUEST` (R340): the block is to stop. -/
def execPreemptRequest (block : Nat) : State → Host.Outcome State Fault Refusal :=
  fun s =>
    let ks := s.together block
    if ks.all (fun k => match s.blk k with | some b => b.run == .running || b.run == .retired | none => false) then
      .next (ks.foldl (fun s k =>
        s.updBlk k (fun b => if b.run = .running then { b.mapThreads Thread.askStop with run := .stopping } else b)) s)
    else .next s

/-- A teller stops at its next instruction boundary; at `EVWAIT`, `CWAIT` or a full stream it stops at that instruction
(R133, R283, R305). A warp stops at its clause boundary. -/
def Thread.stopsHere (t : Thread) : Bool :=
  match t.hold with
  | .none => t.teller || t.clause.isNone
  | .hcall .. => false
  | _ => t.teller

/-- A teller's waiting operations of a `CWAIT`, which it will execute again (R283). -/
def Thread.dropCwait (t : Thread) : Thread :=
  match t.hold with
  | .cwait ids => { t with ops := t.ops.filter (fun o => !ids.contains o.id) }
  | _ => t

/-- The commands of a core's queues, and those of a block that are stopped or wait to re-enter their queues, by operation (R133,
R168). -/
def State.keptCmds (s : State) (b : Block) : List Nat :=
  (List.range 7).flatMap (fun e => ((s.engine b.core e).queue ++ b.saved.rd [] e).map (·.op)) ++ b.stopped.map (fun (_, c, _) => c.op)

/-- Every operation of a stopped block is complete, its waiting and stopped commands excepted (R133, R168), and those that wait
on such a command, which cannot complete before it (the model's choice; log entry 58). -/
def State.drained (s : State) (b : Block) : Bool :=
  b.threads.all (fun (_, t) =>
    let u := t.dropCwait
    t.stopsHere && u.ops.all (fun o => (u.behind (u.ops.filter (fun p => (s.keptCmds b).contains p.id))).any (·.id == o.id)))

/-- A thread as it is saved: no hold, no operand buffer (R108, R136), no translation; the records of fired sends that wait are
in the pending store (R310). The flag of a command that the block keeps stays pending, as it is not complete (R116, R168),
although R133 calls the flags clear when saved (the model's choice; log entry 58). -/
def Thread.save (t : Thread) : Thread :=
  { t.dropCwait with
    hold := .none, opbuf := [], ops := t.dropCwait.ops.map (fun o => { o with xl := none }), pend := t.pend ++ t.firedWait,
    firedWait := [] }

/-- The commands of a block still waiting in the engine queues, or to re-enter them, by engine (R132). -/
def State.waitingCmds (s : State) (key : Nat) (b : Block) : Tab (List Cmd) :=
  (List.range 7).foldl (fun m e => m.wr [] e ((s.engine b.core e).queue.filter (·.block == key) ++ b.saved.rd [] e)) []

/-- The queues of a core without the commands of a block. -/
def State.takeCmds (s : State) (key core : Nat) : State :=
  (List.range 7).foldl (fun s e =>
    let en := s.engine core e
    if en.queue.any (·.block == key) then s.setEngine core e { en with queue := en.queue.filter (·.block != key) } else s) s

/-- Saves a stopped block (R132, R133); its context is no longer resident on the core, so its deficit is 0 (R218). -/
def State.saveBlock (s : State) (key : Nat) : State :=
  match s.blk key with
  | none => s
  | some b =>
    let a := s.arbiter b.core
    ({ s.takeCmds key b.core with
        arbiters := s.arbiters.ins b.core { a with deficit := a.deficit.wr 0 (b.slot key) 0 } } : State).updBlk key (fun b =>
      { b.mapThreads Thread.save with run := .saved, saved := s.waitingCmds key b })

/-- `PREEMPT_SAVE` (R133): the small state is saved once every operation outstanding has completed or faulted. Each block
is saved by itself. -/
def execPreemptSave (block : Nat) : State → Host.Outcome State Fault Refusal :=
  fun s =>
    match s.blk block with
    | some b => if b.run = .stopping ∧ s.drained b then .next (s.saveBlock block) else .next s
    | none => .next s

/-! ### Room on a core (R57, R119, R124, R134, R139) -/

/-- What a block needs or holds of a core: resident warps, register rows, scratchpad units of 4 KiB, tile registers,
accumulators. -/
structure Room where
  warps : Nat
  rows : Nat
  scratch : Nat
  tiles : Nat
  accs : Nat
deriving DecidableEq, Repr

/-- The sum of two needs. -/
def Room.add (a b : Room) : Room :=
  ⟨a.warps + b.warps, a.rows + b.rows, a.scratch + b.scratch, a.tiles + b.tiles, a.accs + b.accs⟩

/-- A core's storage (R38). -/
def Room.core : Room := ⟨Config.coreWarps, Config.coreRows, Config.coreScratch / 4096, Config.coreTiles, 4⟩

/-- A need fits a storage. -/
def Room.fits (a b : Room) : Bool :=
  decide (a.warps ≤ b.warps) && decide (a.rows ≤ b.rows) && decide (a.scratch ≤ b.scratch) && decide (a.tiles ≤ b.tiles) && decide (a.accs ≤ b.accs)

/-- The need of a block by its launch's figures. -/
def roomOf (warps regs scratch tiles : Nat) : Room :=
  ⟨warps, warps * (regs / 8), (scratch + 4095) / 4096, tiles, if tiles = 0 then 0 else 4⟩

/-- What a block holds: warps, rows and tiles until it retires, its scratchpad until its item does; evicted units are free, and
the warps of a saved block are not resident. -/
def Block.held (b : Block) : Room :=
  let r := roomOf b.warpN b.regs b.scratchBytes b.tiles
  let out := fun (f : EvictUnit → Bool) => (b.evicted.filter f).length
  let s := r.scratch - out (fun | .scratch _ => true | _ => false)
  if b.run = .retired then ⟨0, 0, s, 0, 0⟩
  else
    ⟨if b.run = .saved then 0 else r.warps, r.rows - out (fun | .row .. => true | _ => false), s, r.tiles - out (fun | .tile _ => true | _ => false),
      r.accs - out (fun | .acc _ => true | _ => false)⟩

/-- The storage of a core in use by the blocks that a test names. -/
def State.inUse (s : State) (core : Nat) (f : Nat → Block → Bool) : Room :=
  (s.blocks.filter (fun (k, b) => b.core == core && f k b)).foldl (fun a (_, b) => a.add b.held) ⟨0, 0, 0, 0, 0⟩

/-- A unit of large state that a block has (R134). -/
def Block.has (b : Block) : EvictUnit → Bool
  | .row w r => decide (w < b.warpN) && decide (r < b.regs / 8)
  | .tile t => decide (t < b.tiles)
  | .acc a => decide (a < 4) && b.tiles != 0
  | .scratch u => decide (u < (b.scratchBytes + 4095) / 4096)

/-- The kind of unit is short on a core: the incoming blocks do not fit beside what is held. -/
def Room.short (use : Room) (u : EvictUnit) : Bool :=
  match u with
  | .row .. => decide (Room.core.rows < use.rows)
  | .tile _ => decide (Room.core.tiles < use.tiles)
  | .acc _ => decide (Room.core.accs < use.accs)
  | .scratch _ => decide (Room.core.scratch < use.scratch)

/-- `LARGE_STATE_EVICT` (R134): a unit that a pre-empted block still holds and an incoming block needs is written to the
save area; the unit is zeroed for its new holder. -/
def execLargeStateEvict (block : Nat) (unit : EvictUnit) : State → Host.Outcome State Fault Refusal :=
  fun s =>
    match s.blk block with
    | some b =>
      let incoming := s.blocks.any (fun (_, c) => c.core == b.core && c.run == .posted)
      if b.run = .saved ∧ b.has unit ∧ !b.evicted.contains unit ∧ incoming ∧ (s.inUse b.core (fun _ _ => true)).short unit then
        .next (s.updBlk block (fun b => { b with evicted := unit :: b.evicted }))
      else .next s
    | none => .next s

/-! ### Resumption (R136, R168, R310) -/

/-- A block resumed, with nothing evicted. -/
def Block.whole (b : Block) : Block := { b with run := .running, evicted := [] }

/-- A saved block's units, all reloaded, fit its core beside what else is held. -/
def State.canReload (s : State) (key : Nat) (b : Block) : Bool :=
  ((s.inUse b.core (fun k _ => k != key)).add b.whole.held).fits .core

/-- The commands of a saved block that are to re-enter an engine's queue: the remainder of a stopped one first (R133, R168). -/
def Block.returning (b : Block) (eng : Nat) : List Cmd :=
  let rest := b.saved.rd [] eng
  (match b.stopped.look eng with | some (c, _) => if rest.any (·.op == c.op) then [] else [c] | none => []) ++ rest

/-- The commands of a block are all still to re-enter their queues (R133, R168). -/
def Block.recalled (b : Block) : Block :=
  { b with saved := (List.range 7).foldl (fun m e => m.wr [] e (b.returning e)) [] }

/-- A block runs again: records of sends fired meanwhile enter the event queue before any later posting (R310). -/
def State.resumeBlock (s : State) (key : Nat) : State :=
  match s.blk key with
  | none => s
  | some b =>
    if b.run ≠ .saved then s
    else
      (s.updBlk key (fun b => { b.recalled with run := .running, evicted := [], tel := b.tel.enterPending })).refillAll b.core

/-- The threads of a resumed block issue again the acquires that the drain withdrew, those with a trap to deliver after
their handler (R279). -/
def State.reissueAll (s : State) (key : Nat) : State :=
  match s.blk key with
  | none => s
  | some b => b.threads.foldl (fun s (w, t) => if t.due.isSome then s else s.reissue ⟨key, w⟩) s

/-- `BLOCK_RESUME` (R136): a pre-empted block, with the blocks pre-empted with it, resumes on its core. -/
def execBlockResume (block : Nat) : State → Host.Outcome State Fault Refusal :=
  fun s =>
    let ks := s.together block
    if ks.all (fun k => match s.blk k with
        | some b => b.run == .retired || (b.run == .saved && s.canReload k b)
        | none => false) then
      .next (ks.foldl (fun s k => (s.resumeBlock k).reissueAll k) s)
    else .next s

end Sys2Proof.Machine
end

