-- ==== Sys2Proof/Machine/Queue.lean ====
section
/-! DEFINITION. Launch queues: control blocks, doorbells, packets, launches and their completion (R53, R60, R184 to R192,
R201 to R203, R210, R312). -/

namespace Sys2Proof.Machine

/-! ### F1's accesses through a context (R184, R203) -/

/-- Why an access of F1 gives nothing: it faults, or waits for a host page (R151). -/
inductive IoStop where
  | fault
  | absent (page : Nat)
deriving DecidableEq, Repr

/-- One translated access of F1 for a queue; host memory only where the partition's DMA is allowed, and no vault page. -/
def State.ioXlate (s : State) (q ctx : Nat) (a : Addr) (need : Need) : Except IoStop Xlat :=
  match s.portResolve ctx a need plainOk with
  | .ok (.mem x) => .ok x
  | .absent pg => .error (if s.isRefused (.queue q) pg then .fault else .absent pg)
  | _ => .error .fault

/-- Reads bytes through a context; an access that faults or meets poison gives none. -/
def State.ioRead (s : State) (q ctx : Nat) (a : Addr) (n : Nat) : Except IoStop (List Byte) :=
  (piecesOf a n).foldlM (fun acc (off, k) =>
    match s.ioXlate q ctx (a + BitVec.ofNat 64 off) 1 with
    | .error e => .error e
    | .ok x =>
      let (bs, p) := s.readX (x.pa / Config.dieBytes) x k
      if p then .error .fault else .ok (acc ++ bs)) []

/-- Writes bytes through a context, with Relaxed Ordering to host memory or as a `.sys` release (R179); a piece whose access faults
is not written (log entry 22). -/
def State.ioWrite (s : State) (q ctx : Nat) (a : Addr) (bs : List Byte) (relaxed : Bool) : Except IoStop State :=
  (piecesOf a bs.length).foldlM (fun (s : State) (off, k) =>
    match s.ioXlate q ctx (a + BitVec.ofNat 64 off) 2 with
    | .error (.absent pg) => .error (.absent pg)
    | .error .fault => .ok s
    | .ok x => .ok (s.sendT (.mem x) ((bs.drop off).take k) false relaxed)) s

/-- What F1 does with the outcome of its accesses; one that meets an absent host page asks for it and is made again later
(R151). -/
def State.ioThen {α : Type} (s : State) (q ctx : Nat) (r : Except IoStop α) (k : Option α → State) : State :=
  match r with
  | .ok x => (k (some x)).forget (.queue q)
  | .error .fault => (k none).forget (.queue q)
  | .error (.absent pg) => s.askPage (.queue q) ctx pg

/-! ### CRC-16/CCITT-FALSE (R186) -/

/-- One bit of the CRC. -/
def crcBit (c : BitVec 16) : BitVec 16 := if c.msb then (c <<< 1) ^^^ 0x1021 else c <<< 1

/-- One byte of the CRC. -/
def crcByte (c : BitVec 16) (b : Byte) : BitVec 16 := (List.range 8).foldl (fun c _ => crcBit c) (c ^^^ (b.setWidth 16 <<< 8))

/-- The CRC of bytes. -/
def crc16 (bs : List Byte) : BitVec 16 := bs.foldl crcByte 0xFFFF

/-! ### Queue control blocks (R184) -/

/-- The committed weight: 0 is read as 1, a value above 64 as 64 (R184, R211). -/
def clampWeight (w : Nat) : Nat := if w = 0 then 1 else min w 64

/-- A valid copy of a control block: its CRC matches and no reserved field is set (R6, R184). A copy whose RBASE is not 4 KiB
aligned, or whose RLOG or MODE R184 does not name, is no valid one (the model's choice; log entry 36). -/
def qcbOf (bs : List Byte) : Option Qcb :=
  let crc := crc16 (bs.take 52 ++ bs.drop 56)
  let rlog := field bs 8 1
  let ok := decide (field bs 52 4 = crc.toNat) && decide (field bs 11 1 = 0) && decide (field bs 12 4 < 2 ^ 20) &&
    decide (field bs 24 28 = 0) && decide (4 ≤ rlog) && decide (rlog ≤ 12) && decide (field bs 9 1 ≤ 1) &&
    decide (field bs 0 8 % 4096 = 0)
  if ok then
    some ⟨BitVec.ofNat 64 (field bs 0 8), rlog, decide (field bs 9 1 = 1), clampWeight (field bs 10 1), field bs 12 4,
      BitVec.ofNat 64 (field bs 16 8), BitVec.ofNat 64 (field bs 56 8)⟩
  else none

/-- The valid copy with the higher VER; of two with one VER, copy A (the model's choice; log entry 36). -/
def newest : Option Qcb → Option Qcb → Option Qcb
  | some a, some b => some (if a.ver.toNat < b.ver.toNat then b else a)
  | some a, none => some a
  | none, b => b

/-- A launch queue. -/
def State.queue (s : State) (q : Nat) : Option LQueue := s.queues.look q

/-- Changes a launch queue. -/
def State.updQueue (s : State) (q : Nat) (f : LQueue → LQueue) : State := { s with queues := s.queues.upd q f }

/-- The context that a queue's PASID names comes to exist with the queue's first control block (R184, R206). -/
def State.openContext (s : State) (info : QueueInfo) (pasid : Nat) : State :=
  match s.ctxs.look pasid with
  | some c => if c.dead then { s with ctxs := s.ctxs.ins pasid ⟨info.part, info.s1root, false, [], []⟩ } else s
  | none => { s with ctxs := s.ctxs.ins pasid ⟨info.part, info.s1root, false, [], []⟩ }

/-- F1 commits the newest valid copy of a queue's control block; with none valid, the committed one stands. -/
def State.commitQcb (s : State) (q : Nat) : State :=
  match s.queue q with
  | none => s
  | some x =>
    match newest (qcbOf (readMem s.dram x.info.qcbA 64)) (qcbOf (readMem s.dram x.info.qcbB 64)) with
    | none => s
    | some c =>
      let s := if x.qcb.isNone then s.openContext x.info c.pasid else s
      s.updQueue q (fun x => { x with qcb := some c })

/-- A firmware core is being updated; F1 then fetches and acts on no packet (R361). -/
def State.updating (s : State) (core : Nat) : Bool := (s.fw.rd .blank core).updating.isSome

/-- Sends a message to the outside world. -/
def State.tell (s : State) (m : HostMsg) : State := { s with toHost := s.toHost ++ [m] }

/-- A function's configuration. -/
def State.fn (s : State) (fn : Nat) : FnConfig := s.fns.rd .blank fn

/-- Changes a function's configuration. -/
def State.setFn (s : State) (fn : Nat) (x : FnConfig) : State := { s with fns := s.fns.ins fn x }

/-- A function that the host reaches: the PF, or an enabled VF (R352, R353). -/
def State.fnExists (s : State) (fn : Nat) : Bool := fn == 0 || (decide (fn ≤ 16) && decide (fn ≤ (s.fn 0).numVfs))

/-- Records an uncorrectable error in a function's AER registers (R352; log entry 77). -/
def FnConfig.noteError (c : FnConfig) (bit : Nat) : FnConfig :=
  { c with aer := { c.aer with uncorrectable := c.aer.uncorrectable ||| BitVec.ofNat 32 (2 ^ bit) } }

/-- Answers an access of a function with an error, which its AER registers record (R352; log entry 77). -/
def State.reject (s : State) (fn : Nat) (m : HostMsg) (bit : Nat) : State :=
  if s.fnExists fn then (s.tell m).setFn fn ((s.fn fn).noteError bit) else s.tell m

/-- Answers an access with Unsupported Request. -/
def State.unsupported (s : State) (fn : Nat) : State := s.reject fn (.unsupportedRequest fn) 20

/-- `QCB_COMMIT` (R184). -/
def execQcbCommit (q : Nat) : State → Host.Outcome State Fault Refusal :=
  fun s => .next (if s.updating 1 then s else s.commitQcb q)

/-- `F1_WATCHDOG_RESET` (R184): F1 takes the newest valid copy of every queue again. -/
def execF1WatchdogReset : State → Host.Outcome State Fault Refusal :=
  fun s => .next (s.queues.foldl (fun s (q, _) => s.commitQcb q) s)

/-- A queue just created (R191), which launches of numbers from `born` on belong to. -/
def LQueue.new (info : QueueInfo) (born : Nat) : LQueue :=
  ⟨info, none, [], 0, 0, 0, 0, 0, 0xFFFF, 0xFFFF, none, none, [], none, born⟩

/-- `QUEUE_CREATE` (R191): a queue that does not exist, or is dead, is created for a partition's function; up to 256
(R183). A partition being reset accepts none (R343), nor a device whose manifest failed its signature (R362). -/
def execQueueCreate (q : Nat) (c : QueueInfo) : State → Host.Outcome State Fault Refusal :=
  fun s =>
    .next (match s.parts.look c.part with
      | none => s
      | some p =>
        let free := match s.queue q with | some x => x.state == 2 | none => true
        if !free ∨ p.resetStep ≠ 0 ∨ p.info.fn ≠ c.fn ∨ 256 ≤ q ∨ s.updating 1 ∨ !s.manifest.valid then s
        else
          let e := s.errQueue c.fn
          let depth := max e.depth (min c.errDepth 4096)
          { s with queues := s.queues.ins q (.new c s.nextId), errqs := s.errqs.ins c.fn { e with depth } })

/-! ### Packet completion (R191, R203) -/

/-- Moves the watermark past every finished packet in order; `fuel` is the number of finished packets. -/
def LQueue.advance : Nat → LQueue → LQueue
  | 0, x => x
  | n + 1, x =>
    let next := (x.lastCmpl + 1).toNat
    if x.finished.contains next then
      LQueue.advance n { x with lastCmpl := x.lastCmpl + 1, finished := x.finished.filter (· != next) }
    else x

/-- A packet is complete (R191). -/
def LQueue.packetDone (x : LQueue) (seq : BitVec 16) : LQueue :=
  let x := { x with finished := seq.toNat :: x.finished }
  x.advance x.finished.length

/-- The context of a queue. -/
def LQueue.ctx (x : LQueue) : Nat := match x.qcb with | some c => c.pasid | none => 2 ^ 20

/-- The status of a launch in its completion record (R203). -/
def Launch.status (la : Launch) : Nat := if la.refused then 1 else if la.cancelled then 2 else 0

/-- The completion record's bytes 8 to 31, then bytes 0 to 7 (R203). -/
def State.writeRecord (s : State) (la : Launch) : Except IoStop State :=
  match (s.queue la.q).bind (·.qcb) with
  | none => .error .fault
  | some c =>
    let a := c.cmpl + BitVec.ofNat 64 (32 * (la.seq.toNat % 2 ^ c.rlog))
    (s.ioWrite la.q c.pasid (a + 8)
      (bytesOf la.retiredN 4 ++ bytesOf la.late 4 ++ bytesOf la.errors 4 ++ bytesOf s.now.toNat 6 ++ bytesOf 0 6) true).bind (fun s =>
        s.ioWrite la.q c.pasid a (bytesOf la.seq.toNat 2 ++ bytesOf la.status 2 ++ bytesOf la.id.toNat 4) true)

/-- Changes a launch. -/
def State.updLaunch (s : State) (k : Nat) (f : Launch → Launch) : State := { s with launches := s.launches.upd k f }

/-- A launch completes: its record is written, and it counts as triggered and completed (R60, R192, R202, R203); while the
record's host page is absent it does not complete (R151). A cancelled launch reports as ended by context error every item that
was neither retired nor discarded. -/
def State.completeLaunch (s : State) (k : Nat) : State :=
  match s.launches.look k with
  | none => s
  | some la =>
    let la := if la.cancelled then { la with errors := la.nitems - la.retiredN - la.late } else la
    s.ioThen la.q la.ctx (s.writeRecord la) (fun r =>
      ({ (r.getD s) with launches := s.launches.ins k { la with completed := true, triggered := true } } : State).updQueue la.q
        (·.packetDone la.seq))

/-- Every item of a launch has been bound or discarded, and has ended (R60). -/
def State.launchOver (s : State) (k : Nat) (la : Launch) : Bool :=
  la.allBound && s.items.all (fun (_, it) => it.launch != k || it.life == .done)

/-- Completes a launch once its items have ended. -/
def State.checkLaunch (s : State) (k : Nat) : State :=
  match s.launches.look k with
  | none => s
  | some la =>
    if !la.completed && s.launchOver k la then s.completeLaunch k else s

/-- Completes the launches of a queue whose completion had to wait for a host page (R151). -/
def State.finishLaunches (s : State) (q : Nat) : State :=
  s.launches.foldl (fun s (k, la) => if la.q = q then s.checkLaunch k else s) s

/-! ### Doorbells (R189, R191, R192, R354) -/

/-- What a write to a function's doorbell page meets (R354): served, ignored, or Unsupported Request. -/
inductive Door where
  | served | ignored | unsupported
deriving DecidableEq, Repr

/-- What a write to a function's doorbell meets, by the TDI's state and the TEE bit; a VF that is not enabled has none (R353). A
write without the TEE bit in RUN is answered as one with it in CONFIG_UNLOCKED (log entry 71). -/
def State.door (s : State) (fn : Nat) (tee : Bool) : Door :=
  if !s.fnExists fn then .unsupported
  else match (s.tdis.rd .blank fn).state with
  | .unlocked => if tee then .unsupported else .served
  | .locked => .ignored
  | .run => if tee then .served else .unsupported
  | .error => .unsupported

/-- An error-queue entry of a queue (R197). -/
def State.logQueue (s : State) (part q cause : Nat) (id : Word) : State :=
  s.logError part none ⟨cause, q, id, 0xFFFFFFFF, 0, 0, 0, 0⟩ true

/-- The tail that a KICK names is one the ring has (R189). -/
def Qcb.tailOk (c : Qcb) (tail : Addr) : Bool :=
  if c.fixed then decide (tail.toNat < 2 ^ c.rlog) else decide (tail.toNat < 256 * 2 ^ c.rlog) && tail.toNat % 8 == 0

/-- `KICK` (R189): a new tail restarts fetching at the same head; a bad one is ignored and logged. One to a queue that has no committed
control block yet is ignored (the model's choice; log entry 93). -/
def execKick (q : Nat) (w : KickWrite) : State → Host.Outcome State Fault Refusal :=
  fun s =>
    .next (match s.queue q with
      | none => s
      | some x =>
        match s.door x.info.fn w.tee, x.qcb with
        | .unsupported, _ => s.unsupported x.info.fn
        | .served, some c =>
          if x.state = 2 then s
          else if c.tailOk w.tail then s.updQueue q (fun x => { x with tail := w.tail.toNat, state := 0, waited := none })
          else s.logQueue x.info.part q 0x0133 0
        | _, _ => s)

/-- A killed item that waits to be bound again ends as a context error (R192, R343, R347). -/
def State.endWaiting (s : State) (k cause : Nat) : State :=
  match s.items.look k with
  | none => s
  | some it =>
    match s.launches.look it.launch with
    | none => s
    | some la =>
      if !la.requeued.contains k then s
      else
        let s := (s.logItem k cause 4 0).updItem k (fun it => { it with life := .done, cause })
        let s := s.updLaunch it.launch (fun la => { la with requeued := la.requeued.filter (· != k), errors := la.errors + 1 })
        (s.checkTrigger it.launch).checkLaunch it.launch

/-- A killed item that was to be bound again, its generation retired or not, ends as a context error instead, with an entry of
its own (R192, R343, R347, R348). -/
def State.endAgain (s : State) (k cause : Nat) : State :=
  match s.items.look k with
  | none => s
  | some it =>
    if it.life = .killed ∧ it.again then
      ((s.logItem k cause 4 0).updItem k (fun it => { it with again := false, cause })).checkTrigger it.launch
    else s.endWaiting k cause

/-- The bound items of a launch that can still be killed. -/
def State.liveItems (s : State) (launch : Nat) : List Nat :=
  (s.items.filter (fun (_, it) => it.launch == launch && it.alive)).map Prod.fst

/-- The items of a launch that have a record. -/
def State.retainedOf (s : State) (launch : Nat) : List Nat := (s.items.filter (fun (_, it) => it.launch == launch)).map Prod.fst

/-- Cancels one launch: unbound items are discarded, bound ones killed with no relaunch, and those that a kill was to relaunch end
as context errors (R192). -/
def State.cancelLaunch (s : State) (k : Nat) : State :=
  match s.launches.look k with
  | none => s
  | some la =>
    if la.completed then s
    else
      let s := s.updLaunch k (fun la => { la with cancelled := true, nextItem := max la.nextItem la.nitems })
      let s := (s.liveItems k).foldl (fun s i => s.killPart i 0x0141 false 0) s
      ((s.retainedOf k).foldl (fun s i => s.endAgain i 0x0141) s).checkLaunch k

/-- LAUNCHID: SEQ, and the wraps before its packet (R202). -/
def LQueue.launchId (x : LQueue) (seq : BitVec 16) : Word := (if seq = 0xFFFF then x.wraps - 1 else x.wraps) ++ seq

/-- Cancels a launch, and its joint peer (R192). -/
def State.cancelBoth (s : State) (k : Nat) (la : Launch) : State :=
  let s := s.cancelLaunch k
  match la.peer with | some p => s.cancelLaunch p | none => s

/-- The launch of a queue's accepted packet that has not been acted on is cancelled (R192). -/
def LQueue.cancelPending (x : LQueue) (launchid : Word) : LQueue :=
  { x with
    pending := x.pending.map (fun p => if p.typ = 0 ∧ x.launchId p.seq = launchid then { p with cancelled := true } else p) }

/-- `CANCEL` (R192): both parts of a joint launch are cancelled. -/
def execCancel (q : Nat) (w : CancelWrite) : State → Host.Outcome State Fault Refusal :=
  fun s =>
    .next (match s.queue q with
      | none => s
      | some x =>
        match s.door x.info.fn w.tee with
        | .unsupported => s.unsupported x.info.fn
        | .ignored => s
        | .served =>
          if x.state = 2 then s
          else
            match s.launches.find? (fun (k, la) => la.q == q && decide (x.born ≤ k) && la.id == w.launchid && !la.completed) with
            | none => s.updQueue q (·.cancelPending w.launchid)
            | some (k, la) => s.cancelBoth k la)

/-! ### Fetching packets (R185 to R189) -/

/-- Bytes of a delta ring, which wraps at its end. -/
def State.ringRead (s : State) (q : Nat) (c : Qcb) (off n : Nat) : Except IoStop (List Byte) :=
  let size := 256 * 2 ^ c.rlog
  let first := min n (size - off)
  match s.ioRead q c.pasid (c.rbase + BitVec.ofNat 64 off) first with
  | .error e => .error e
  | .ok a =>
    if first = n then .ok a else (s.ioRead q c.pasid c.rbase (n - first)).map (a ++ ·)

/-- The registers that a delta packet's MASK names, lowest first. -/
def maskRegs (m : Nat) : List Nat := (List.range 32).filter m.testBit

/-- A packet at a head that passes its checks: the values for the shadow registers, and its size in the ring's units
(R185 to R187, R189). -/
def State.packetAt (s : State) (q : Nat) (x : LQueue) (c : Qcb) : Except IoStop (Option (List (Nat × Addr) × Nat)) :=
  let seqOk := fun (bs : List Byte) =>
    decide (field bs 0 2 = x.expect.toNat) && decide (field bs 2 2 = (crc16 (bs.take 2 ++ [0, 0] ++ bs.drop 4)).toNat)
  if c.fixed then
    (s.ioRead q c.pasid (c.rbase + BitVec.ofNat 64 (256 * x.head)) 256).map (fun bs =>
      if seqOk bs ∧ field bs 255 1 = 0xA5 then
        some ((0, BitVec.ofNat 64 (field bs 252 3)) ::
          (List.range 31).map (fun i => (i + 1, BitVec.ofNat 64 (field bs (8 * i + 4) 8))), 1)
      else none)
  else
    (s.ringRead q c x.head 8).bind (fun h =>
      let rs := maskRegs (field h 4 4)
      let n := 8 + 8 * rs.length
      (s.ringRead q c x.head n).map (fun bs =>
        if seqOk bs then some (rs.zipIdx.map (fun (r, i) => (r, BitVec.ofNat 64 (field bs (8 + 8 * i) 8))), n) else none))

/-- TYPE, OCLS and FSCOPE of D0 (R201). -/
def typeOf (d0 : Addr) : Nat := (d0.extractLsb' 12 4).toNat
/-- OCLS (R185). -/
def oclsOf (d0 : Addr) : Nat := (d0.extractLsb' 8 4).toNat
/-- FSCOPE (R185). -/
def fscopeOf (d0 : Addr) : Nat := (d0.extractLsb' 4 4).toNat

/-- A launch has triggered, or is gone. -/
def State.hasTriggered (s : State) (k : Option Nat) : Bool :=
  match k.bind s.launches.look with | some la => la.triggered | none => true

/-- A launch has completed, or is gone. -/
def State.hasCompleted (s : State) (k : Option Nat) : Bool :=
  match k.bind s.launches.look with | some la => la.completed | none => true

/-- The order class and the fence scope are met for a previous launch (R185, R202): a nonzero FSCOPE waits until its writes are
visible, which they are when it has completed (log entry 9). -/
def State.orderMet (s : State) (ocls fscope : Nat) (prev : Option Nat) : Bool :=
  (match ocls with
    | 1 => s.hasTriggered prev
    | 2 => s.hasCompleted prev
    | _ => true) && (fscope == 0 || s.hasCompleted prev)

/-- A shadow register (R201). -/
def LQueue.d (x : LQueue) (n : Nat) : Addr := x.shadow.rd 0 n

/-- Accepts the packet at the head (R186, R189). -/
def State.accept (s : State) (q : Nat) (x : LQueue) (c : Qcb) (ds : List (Nat × Addr)) (size : Nat) : State :=
  let shadow := ds.foldl (fun t (n, v) => t.wr 0 n v) x.shadow
  let ring := if c.fixed then 2 ^ c.rlog else 256 * 2 ^ c.rlog
  let d0 := shadow.rd 0 0
  s.updQueue q (fun x =>
    { x with
      shadow, expect := x.expect + 1, wraps := if x.expect = 0xFFFF then x.wraps + 1 else x.wraps,
      head := (x.head + size) % ring, lastAcc := x.expect, waited := none,
      pending := some ⟨x.expect, typeOf d0, s.orderMet (oclsOf d0) (fscopeOf d0) x.lastLaunch, false, false⟩ })

/-- A queue whose head F1 may read: it has packets, none accepted is waiting to be acted on. A delta packet that begins before the tail
and runs past it is accepted, and the head then goes on round the ring until it meets the tail (the model's choice; log entry 92). -/
def State.fetching (s : State) (x : LQueue) : Bool :=
  x.state == 0 && x.pending.isNone && x.head != x.tail && !s.updating 1

/-- `PACKET_FETCH` (R189): the packet at the head is accepted, or has not become visible yet. -/
def execPacketFetch (q : Nat) : State → Host.Outcome State Fault Refusal :=
  fun s =>
    .next (match s.queue q with
      | none => s
      | some x =>
        match x.qcb with
        | none => s
        | some c =>
          if !s.fetching x ∨ x.waited.isSome then s
          else
            s.ioThen q c.pasid (s.packetAt q x c) (fun r =>
              match r.join with
              | some (ds, n) => s.accept q x c ds n
              | none => s.updQueue q (fun x => { x with waited := some (0, s.now) })))

/-- `PACKET_RECHECK` (R189): two microseconds after the last reading the packet is read again; after 64 microseconds of
failed checks a stale kick is logged and fetching stops. The wait is counted in advances of NOW. -/
def execPacketRecheck (q : Nat) : State → Host.Outcome State Fault Refusal :=
  fun s =>
    .next (match s.queue q with
      | none => s
      | some x =>
        match x.qcb, x.waited with
        | some c, some (t, last) =>
          if !s.fetching x ∨ (s.now - last).toNat < 2 then s
          else
            s.ioThen q c.pasid (s.packetAt q x c) (fun r =>
              match r.join with
              | some (ds, n) => s.accept q x c ds n
              | none =>
                if 64 ≤ t + 2 then
                  (s.updQueue q (fun x => { x with waited := none, state := 1 })).logQueue x.info.part q 0x0131
                    (x.expect.setWidth 32)
                else s.updQueue q (fun x => { x with waited := some (t + 2, s.now) }))
        | _, _ => s)

/-! ### Acceptance of launches (R53, R188, R190, R201, R210, R384) -/

/-- The bits of Dn outside its fields (R201). -/
def reservedBits (n : Nat) : Addr :=
  match n with
  | 0 => ~~~0xFFF0
  | 1 | 2 => ~~~0x01FFFFFFFFFFFFFC
  | 3 => ~~~0x01FFFFFF0000031F
  | 4 => ~~~0x0007FFFFFFFFFFFF
  | 5 => ~~~0x0000001FFFFFF07F
  | 6 => ~~~0x00000001FFFFFFFF
  | 7 => ~~~0x01FFFFFFFFFFFFFF
  | 8 | 9 | 10 | 11 => ~~~0x00FF03FF
  | 12 => ~~~0x0000FFFFFFFF0F01
  | 13 => ~~~0xFFFFFFFF
  | 14 | 15 => 0
  | _ => ~~~0

/-- A field of a shadow register. -/
def LQueue.f (x : LQueue) (n lo w : Nat) : Nat := (x.d n).toNat / 2 ^ lo % 2 ^ w

/-- A packet leaves a reserved field nonzero, or its TYPE, OCLS or FSCOPE is refused (R185, R201). -/
def LQueue.malformed (x : LQueue) : Bool :=
  (List.range 32).any (fun n => x.d n &&& reservedBits n != 0) || decide (3 < typeOf (x.d 0)) || decide (2 < oclsOf (x.d 0)) ||
    decide (2 < fscopeOf (x.d 0))

/-- An address field, canonical by sign extension from bit 56 (R128, R201). -/
def canon57 (v : Addr) : Addr := (v.extractLsb' 0 57).signExtend 64

/-- The vault units of the launch's list: die x 256 + unit (R201). -/
def LQueue.vaultList (x : LQueue) : List Nat :=
  [8, 9, 10, 11].flatMap (fun n => (List.range (x.f n 16 8)).map (fun i => x.f n 8 2 * 256 + x.f n 0 8 + i))

/-- The vault list lies in the partition, without a run past a die's last unit (R188). -/
def LQueue.vaultOk (x : LQueue) (p : PartInfo) : Bool :=
  [8, 9, 10, 11].all (fun n => decide (x.f n 0 8 + x.f n 16 8 ≤ 256)) && x.vaultList.all p.vaultUnits.contains

/-- The limits of a launch's fields, and one block fits an empty core (R52, R53, R201, R312). -/
def LQueue.limitsOk (x : LQueue) : Bool :=
  let items := x.f 3 32 25
  let rows := x.f 5 0 7
  let warps := x.f 3 0 5 + 1
  decide (1 ≤ items) && decide (items ≤ 2 ^ 24) && decide (1 ≤ rows) && decide (rows ≤ 64) &&
    decide (warps * rows ≤ Config.coreRows) && decide (x.f 5 12 20 ≤ Config.coreScratch) && x.f 5 12 20 % 4 == 0 &&
    decide (x.f 5 32 5 ≤ Config.coreTiles) && decide (x.f 12 16 16 ≤ 1024) && decide (x.f 12 32 16 ≤ 1024)

/-- The lower of the two entries (R201, R384). -/
def LQueue.lowEntry (x : LQueue) : Addr := minAddr [canon57 (x.d 1), canon57 (x.d 2)]

/-- The kernel's resource record agrees with the launch (R384). -/
def recordAgrees (x : LQueue) (bs : List Byte) : Bool :=
  let w := fun i => field bs (4 * i) 4
  (List.range 4).all (fun i => w i % 256 == 3) && w 0 / 256 % 512 == 0 && decide (w 2 / 2 ^ 13 = 0) && decide (w 3 / 256 = 0) &&
    w 0 / 2 ^ 27 == x.f 3 0 5 && w 0 / 2 ^ 25 % 4 == x.f 3 8 2 && w 0 / 2 ^ 24 % 2 == x.f 12 0 1 &&
    w 0 / 2 ^ 17 % 128 == x.f 5 0 7 && w 1 / 256 * 4 == x.f 5 12 20 && w 2 / 256 % 32 == x.f 5 32 5

/-- A valid consent entry of one partition names another and a hash (R210). -/
def State.consents (s : State) (part peer : Nat) (h : BitVec 512) : Bool :=
  match s.parts.look part with
  | none => false
  | some p => p.consent.any (fun (_, e) => e.valid && e.peer == peer && e.hash == h)

/-- The hash of the kernel image, if it can be read (R210). -/
def State.imageHash (s : State) (q : Nat) (x : LQueue) : Except IoStop (BitVec 512) :=
  (s.ioRead q x.ctx x.lowEntry (x.f 13 0 32)).map sha512

/-- The launch that PRED names, accepted earlier in this queue (R202). A malformed packet of any TYPE is a refused launch that PRED
may name (the model's choice; log entry 37). -/
def State.predOf (s : State) (q : Nat) (x : LQueue) : Option Nat :=
  (s.launches.find? (fun (k, la) => la.q == q && decide (x.born ≤ k) && la.id.toNat == x.f 6 0 32)).map Prod.fst

/-- The launch of an accepted packet, refused on its own account where the answer is none (R53, R188, R190, R201, R202,
R210, R312, R384). -/
def State.launchOf (s : State) (q : Nat) (x : LQueue) (seq : BitVec 16) (id : Word) : Except IoStop (Option Launch) :=
  let joint := x.f 12 0 1 == 1
  let peer := x.f 12 8 4
  (if joint then s.imageHash q x else .ok 0).bind (fun h =>
    (s.ioRead q x.ctx (x.lowEntry - 16) 16).map (fun rec =>
      let consent := !joint || (s.consents x.info.part peer h && s.consents peer x.info.part h)
      match s.parts.look x.info.part, (if x.f 6 32 1 = 1 then (s.predOf q x).map some else some none) with
      | some p, some pr =>
        if x.malformed ∨ !x.limitsOk ∨ !recordAgrees x rec ∨ !x.vaultOk p.info ∨ !consent ∨ peer = x.info.part ∧ joint then none
        else
          let ocls := oclsOf (x.d 0)
          let fscope := fscopeOf (x.d 0)
          some
            { q, seq, id, ctx := x.ctx, part := x.info.part, tentry := canon57 (x.d 1), sentry := canon57 (x.d 2),
              nitems := x.f 3 32 25, bpg := x.f 3 8 2 + 1, wpb := x.f 3 0 5 + 1, prio := x.f 4 48 3,
              deadline := (x.d 4).extractLsb' 0 48, tiles := x.f 5 32 5, scratch := x.f 5 12 20, rows := x.f 5 0 7,
              args := canon57 (x.d 7), vaults := x.vaultList,
              joint := if joint then some (peer, x.f 12 16 16, x.f 12 32 16) else none, hash := h, klen := x.f 13 0 32, pred := pr,
              prev := x.lastLaunch, ocls, fscope, released := s.orderMet ocls fscope x.lastLaunch && s.hasTriggered pr,
              peer := none, nextItem := 0, requeued := [], late := 0, retiredN := 0, errors := 0, triggered := false,
              cancelled := false, refused := false, completed := false }
      | _, _ => none))

/-- A launch that runs nothing (R190). -/
def refusedLaunch (q : Nat) (x : LQueue) (seq : BitVec 16) (id : Word) : Launch where
  q := q
  seq := seq
  id := id
  ctx := x.ctx
  part := x.info.part
  tentry := 0
  sentry := 0
  nitems := 0
  bpg := 0
  wpb := 0
  prio := 0
  deadline := 0
  tiles := 0
  scratch := 0
  rows := 0
  args := 0
  vaults := []
  joint := none
  hash := 0
  klen := 0
  pred := none
  prev := none
  ocls := 0
  fscope := 0
  released := true
  peer := none
  nextItem := 0
  requeued := []
  late := 0
  retiredN := 0
  errors := 0
  triggered := false
  cancelled := false
  refused := true
  completed := false

/-- A refused launch is passed over as a previous launch: its own previous one stands in its place (R202). -/
def State.passOver (s : State) (k : Nat) (prev : Option Nat) : State :=
  { s with
    queues := Tab.mapVals s.queues (fun x => if x.lastLaunch = some k then { x with lastLaunch := prev } else x),
    launches := Tab.mapVals s.launches (fun la => if la.prev = some k then { la with prev } else la) }

/-- Refuses a launch: zero items run, and a refusal is logged (R190). -/
def State.refuse (s : State) (k : Nat) : State :=
  match s.launches.look k with
  | none => s
  | some la =>
    let s := (s.passOver k la.prev).updLaunch k (fun la => { la with nitems := 0, joint := none, refused := true })
    (s.logQueue la.part la.q 0x0130 la.id).completeLaunch k

/-- The values that the two launches of a joint pair share (R312). -/
def Launch.shares (a b : Launch) : Bool :=
  a.hash == b.hash && a.nitems == b.nitems && a.bpg == b.bpg && a.wpb == b.wpb && a.rows == b.rows && a.scratch == b.scratch &&
    a.tiles == b.tiles && a.joint.map Prod.snd == b.joint.map Prod.snd

/-- Pairs a joint launch with the first unpaired one of the other partition that names this one (R312); a pair that differs
is refused in both, but a part that was cancelled before it had a partner keeps that end, and its partner alone is refused. A
launch accepted after its partner was cancelled is cancelled when the two pair: the spec does not say how a cancelled part pairs
(the model's choice; log entry 79). -/
def State.pair (s : State) (k : Nat) : State :=
  match s.launches.look k with
  | none => s
  | some la =>
    match la.joint with
    | none => s
    | some (peer, _) =>
      match s.launches.find? (fun (_, m) => m.part == peer && m.peer.isNone && m.joint.map Prod.fst == some la.part) with
      | none => s
      | some (j, m) =>
        if !la.shares m then
          if m.cancelled then (s.updLaunch j (fun l => { l with peer := some k })).refuse k else (s.refuse j).refuse k
        else
          let s := (s.updLaunch k (fun l => { l with peer := some j })).updLaunch j (fun l => { l with peer := some k })
          if m.cancelled then s.cancelLaunch k else s

/-- The packet at hand has been acted on. -/
def State.clearPending (s : State) (q : Nat) : State := s.updQueue q (fun x => { x with pending := none })

/-- `LAUNCH_PACKET` (R201): an accepted launch is dispatched from the shadow state, or refused; so is a packet of any type
that is malformed. -/
def execLaunchPacket (q : Nat) : State → Host.Outcome State Fault Refusal :=
  fun s =>
    .next (match s.queue q with
      | none => s
      | some x =>
        match x.pending with
        | none => s
        | some p =>
          if (p.typ ≠ 0 ∧ !x.malformed) ∨ s.updating 1 then s
          else
            let k := s.nextId
            let id := x.launchId p.seq
            s.ioThen q x.ctx (if p.typ = 0 then s.launchOf q x p.seq id else .ok none) (fun r =>
              match r.join with
              | some la =>
                let s := { s with launches := s.launches.ins k la, nextId := k + 1 }
                let s := ((s.updQueue q (fun x => { x with lastLaunch := some k })).clearPending q).pair k
                match s.launches.look k with
                | some la => if p.cancelled then s.cancelBoth k la else s
                | none => s
              | none =>
                let s := { s with launches := s.launches.ins k (refusedLaunch q x p.seq id), nextId := k + 1 }
                (s.refuse k).clearPending q))

/-! ### Counter packets and order (R201, R202) -/

/-- A packet of a type at hand that may act. -/
def State.actsOn (s : State) (q typ : Nat) : Option (LQueue × Packet) :=
  match s.queue q with
  | none => none
  | some x =>
    match x.pending with
    | none => none
    | some p =>
      if p.typ = typ ∧ (p.released ∨ typ = 3) ∧ !x.malformed ∧ !s.updating 1 ∧ x.state ≠ 2 then some (x, p) else none

/-- The packet at hand is complete. -/
def State.packetEnds (s : State) (q : Nat) (p : Packet) : State :=
  (s.updQueue q (·.packetDone p.seq)).clearPending q

/-- `COUNTER_WRITE_PACKET` (R201): CVAL is written to CADDR as a `.sys` release. CADDR is all of D14, a field of 64 bits, and is not
formed by sign extension as the narrower address fields are: one whose bits 63 to 57 differ from bit 56 faults (the model's choice;
log entry 38). -/
def execCounterWritePacket (q : Nat) : State → Host.Outcome State Fault Refusal :=
  fun s =>
    .next (match s.actsOn q 1 with
      | none => s
      | some (x, p) =>
        s.ioThen q x.ctx (s.ioWrite q x.ctx (x.d 14) (bytesOf (x.d 15).toNat 8) false) (fun r => (r.getD s).packetEnds q p))

/-- The counter of a TYPE 2 packet has reached its value. -/
def State.counterMet (s : State) (q : Nat) (x : LQueue) : Except IoStop Bool :=
  (s.ioRead q x.ctx (x.d 14) 8).map (fun bs => decide ((x.d 15).toNat ≤ numOf bs))

/-- `COUNTER_WAIT_PACKET` (R201): the first test; an unmet condition holds the queue. -/
def execCounterWaitPacket (q : Nat) : State → Host.Outcome State Fault Refusal :=
  fun s =>
    .next (match s.actsOn q 2 with
      | none => s
      | some (x, p) =>
        if p.waiting then s
        else
          s.ioThen q x.ctx (s.counterMet q x) (fun r =>
            if r = some true then s.packetEnds q p
            else s.updQueue q (fun x => { x with pending := some { p with waiting := true } })))

/-- `COUNTER_WAIT_SATISFIED` (R201). -/
def execCounterWaitSatisfied (q : Nat) : State → Host.Outcome State Fault Refusal :=
  fun s =>
    .next (match s.actsOn q 2 with
      | none => s
      | some (x, p) =>
        if !p.waiting then s
        else s.ioThen q x.ctx (s.counterMet q x) (fun r => if r = some true then s.packetEnds q p else s))

/-- `NO_OPERATION_PACKET` (R201): complete when accepted. -/
def execNoOperationPacket (q : Nat) : State → Host.Outcome State Fault Refusal :=
  fun s =>
    .next (match s.actsOn q 3 with
      | none => s
      | some (_, p) => s.packetEnds q p)

/-- `PACKET_ORDER_RELEASE` (R202): packets and launches of the queue whose order conditions hold are let go, and completion
records that had to wait for a host page are written (R151). -/
def execPacketOrderRelease (q : Nat) : State → Host.Outcome State Fault Refusal :=
  fun s =>
    .next (
      let s' := { s with
        launches := Tab.mapVals s.launches (fun la =>
          if la.q = q ∧ s.orderMet la.ocls la.fscope la.prev ∧ s.hasTriggered la.pred then { la with released := true } else la) }
      let s' := s'.updQueue q (fun x =>
        match x.pending with
        | some p =>
          if s.orderMet (oclsOf (x.d 0)) (fscopeOf (x.d 0)) x.lastLaunch then { x with pending := some { p with released := true } }
          else x
        | none => x)
      s'.finishLaunches q)

end Sys2Proof.Machine
end

