-- ==== Sys2Proof/Machine/Bind.lean ====
section
/-! DEFINITION. Binding, dispatch, joint reservation, retirement (R55 to R60, R71, R72, R204, R211, R313, R341). -/

namespace Sys2Proof.Machine

/-! ### What F2 may bind (R57, R142, R341) -/

/-- The partition of a gang (R342). -/
def State.partOf (s : State) (gang : Nat) : Option (Nat × Partition) :=
  s.parts.find? (fun (_, p) => p.info.gangs.getLsbD gang)

/-- A gang. -/
def State.gang (s : State) (g : Nat) : GangState := s.gangs.rd .blank g

/-- A bind record (R204). -/
def State.record (s : State) (core : Nat) : BindRec := s.slots.rd .blank core

/-- F2 binds: the device is ready, neither F0 nor F2 is being updated, no power hold (R47, R361). -/
def State.binding (s : State) : Bool := s.ready && !s.updating 0 && !s.updating 2 && !s.powerHold

/-- A gang takes binds for a launch: it belongs to the launch's partition, which is not being reset (R343). -/
def State.gangFor (s : State) (g : Nat) (la : Launch) : Bool :=
  decide (g < Config.gangs) && (match s.partOf g with | some (p, x) => p == la.part && x.resetStep == 0 | none => false)

/-- The first free context slot of a core (R57). The slot of a block that has retired stays taken until its whole item has (the model's
choice; log entry 88). -/
def State.freeSlot (s : State) (core : Nat) : Option Nat :=
  (List.range Config.slots).find? (fun i => (s.blk (slotKey core i)).isNone)

/-- The need of one block of a launch. -/
def Launch.room (la : Launch) : Room := roomOf la.wpb (8 * la.rows) la.scratch la.tiles

/-- One core can take a block of a launch: a bind record that is free or taken, a free context slot, and room, where the
units of blocks of another context that are pre-empted, or are being pre-empted, count as free (R57, R136, R204). -/
def State.coreFits (s : State) (core : Nat) (la : Launch) : Bool :=
  (s.record core).state != 1 && (s.freeSlot core).isSome &&
    ((s.inUse core (fun _ b => !(b.preempted && b.ctx != la.ctx))).add la.room).fits .core

/-- The gang fits an item of a launch on its first cores (R57). -/
def State.gangFits (s : State) (g : Nat) (la : Launch) : Bool :=
  s.gangFor g la && (List.range la.bpg).all (fun b => s.coreFits (4 * g + b) la)

/-- The vault segments that an outstanding `TCPY` writes, by its descriptor as it stands; where that cannot be read, by the
first byte of its destination (log entry 23). -/
def State.copySegments (s : State) (b : At) (c : Cmd) : List Nat :=
  match c.kind with
  | .tcpy dst _ desc esz tr _ false =>
    let at' : List Addr := match s.copyDesc b desc esz tr with
      | .ok d => dst :: (d.elements ⟨0, none, [], []⟩ esz tr 0 dst).map CopyElement.da
      | .error _ => [dst]
    at'.filterMap (fun a =>
      match s.walkBoth b.2.ctx a with
      | .ok (x, _) => if x.space = .vault then some (segmentOf x.pa) else none
      | .error _ => none)
  | _ => []

/-- The commands of a core's engines, and those that a pre-empted block keeps. -/
def State.allCmds (s : State) : List Cmd :=
  s.engines.flatMap (fun (_, e) => e.cur.toList ++ e.queue) ++
    s.blocks.flatMap (fun (_, b) => b.saved.flatMap Prod.snd ++ b.stopped.map (fun (_, c, _) => c))

/-- The vault segments that outstanding `TCPY`s write. -/
def State.vaultWriters (s : State) : List Nat :=
  s.allCmds.flatMap (fun c => match s.blk c.block with | some b => s.copySegments (c.block, b) c | none => [])

/-- No `TCPY` write to a segment that the launch names is outstanding (R142; log entry 23). -/
def State.vaultFree (s : State) (la : Launch) : Bool := la.vaults.all (fun u => !s.vaultWriters.contains u)

/-- The next item of a launch: the lowest of those to be bound again and the next new one (R57, R345). -/
def State.nextOf (s : State) (la : Launch) : Option (Nat × Option Nat) :=
  let again := la.requeued.filterMap (fun k => (s.items.look k).map (fun it => (it.index, some k)))
  let new := if la.nextItem < la.nitems then [(la.nextItem, none)] else []
  (again ++ new).foldl (fun m e => match m with | none => some e | some b => if e.1 < b.1 then some e else some b) none

/-- A launch has an item that F2 may bind now. -/
def State.launchReady (s : State) (la : Launch) : Bool :=
  la.released && !la.completed && !la.cancelled && (s.nextOf la).isSome && s.vaultFree la

/-- The order of choice (R57): priority, deadline, the queues in turn after the one bound from last, acceptance. -/
def better (rr : Nat) (a b : Nat × Launch) : Bool :=
  let turn := fun (q : Nat) => (q + 255 - rr % 256) % 256
  if a.2.prio ≠ b.2.prio then decide (b.2.prio < a.2.prio)
  else if a.2.deadline ≠ b.2.deadline then decide (a.2.deadline.toNat < b.2.deadline.toNat)
  else if a.2.q ≠ b.2.q then decide (turn a.2.q < turn b.2.q)
  else decide (a.1 < b.1)

/-- The party of a launch: 0 for the partition with the lower number (R312). -/
def Launch.party (la : Launch) : Nat := match la.joint with | some (peer, _, _) => if la.part < peer then 0 else 1 | none => 0

/-- The consent of both partitions of a joint launch still stands (R210). -/
def State.consentStands (s : State) (la : Launch) : Bool :=
  match la.joint with
  | some (peer, _) => s.consents la.part peer la.hash && s.consents peer la.part la.hash
  | none => false

/-- A gang is free for a launch: not reserved, and it fits an item (R57, R341). -/
def State.gangFree (s : State) (g : Nat) (la : Launch) : Bool := (s.gang g).reservedFor.isNone && s.gangFits g la

/-- A launch has a gang for its next item: one that is free, or one that its pair, named by its party-0 launch, holds already
(R57, R341). -/
def State.hasGang (s : State) (k : Nat) (la : Launch) : Bool :=
  let pair := if la.party = 0 then some k else la.peer
  (List.range Config.gangs).any (fun g => s.gangFree g la || (pair.isSome && (s.gang g).reservedFor == pair && s.gangFits g la))

/-- A pair's items as they stand to be bound: the same item of both launches. -/
def State.pairNext (s : State) (la0 la1 : Launch) : Option ((Nat × Option Nat) × (Nat × Option Nat)) :=
  match s.nextOf la0, s.nextOf la1 with
  | some a, some b => if a.1 = b.1 ∧ a.2.isSome = b.2.isSome then some (a, b) else none
  | _, _ => none

/-- The other part of a joint launch can be bound too: paired, with the consent of both partitions, at the same item, and a gang
is free for it (R210, R341). A launch that is not joint has no other part. -/
def State.peerFits (s : State) (la : Launch) : Bool :=
  match la.joint, la.peer.bind (fun k => (s.launches.look k).map (fun p => (k, p))) with
  | none, _ => true
  | some _, some (k, p) => s.consentStands la && s.launchReady p && (s.pairNext la p).isSome && s.hasGang k p
  | some _, none => false

/-- The launches that F2 may bind an item of on some gang, joint ones where both parts can be bound (R57, R341; log entry 33). -/
def State.candidates (s : State) : List (Nat × Launch) :=
  s.launches.filter (fun (k, la) => s.launchReady la && s.hasGang k la && s.peerFits la)

/-- The launch that F2 binds from next. -/
def State.choice (s : State) : Option (Nat × Launch) :=
  s.candidates.foldl
    (fun m e => match m with | none => some e | some b => if better s.rrQueue e b then some e else some b) none

/-- No other launch that F2 could bind from comes before one. The two parts of a pair have one place in the order, that of the part
that comes first (R57; log entry 33). -/
def State.isFirst (s : State) (k : Nat) (la : Launch) : Bool :=
  let parts := (k, la) :: s.launches.filter (fun e => la.peer == some e.1)
  s.candidates.all (fun e => parts.any (fun p => e.1 == p.1 || !better s.rrQueue e p))

/-! ### Binding an item (R58, R59, R204, R211) -/

/-- A block as it stands at its start (R58). -/
def Launch.block (la : Launch) (core item b party gen : Nat) : Block where
  core := core
  item := item
  ctx := la.ctx
  part := la.part
  blockId := b
  party := party
  regs := 8 * la.rows
  warpN := la.wpb
  scratchBytes := (la.scratch + 4095) / 4096 * 4096
  tiles := la.tiles
  gen := gen
  run := .posted
  trapbase := 0
  gatectl := 50
  warps := (List.range la.wpb).map (fun w => (w, Thread.start false la.sentry))
  tel := Thread.start true la.tentry
  scratch := []
  tile := []
  acc26 := []
  acc32 := []
  cnt := []
  stat := []
  gate := match la.joint with
    | none => none
    | some (_, triples, opens) =>
      some ⟨triples, [], [], [], (List.range (32 * la.wpb)).foldl (fun t l => t.wr 0 l opens) [], [], [], []⟩
  saved := []
  stopped := []
  evicted := []
  poisoned := []
  cleanLines := []
  poisonedLines := []

/-- The weight of a launch's queue (R211). -/
def State.weightOf (s : State) (la : Launch) : Nat :=
  match (s.queue la.q).bind (·.qcb) with | some c => c.weight | none => 1

/-- Binds one block: the block in a free context slot, its weight, and the core's bind record (R204, R211). RREC is an
address in F2's memory: a free value. -/
def State.bindBlock (s : State) (la : Launch) (item party gen g b index : Nat) : State :=
  let core := 4 * g + b
  match s.freeSlot core with
  | none => s
  | some slot =>
    let a := s.arbiter core
    { s with
      blocks := s.blocks.ins (slotKey core slot) (la.block core item b party gen),
      arbiters := s.arbiters.ins core { a with weight := a.weight.wr 0 slot (s.weightOf la) },
      slots := s.slots.ins core
        ⟨BitVec.ofNat 32 slot, la.id, BitVec.ofNat 32 index, BitVec.ofNat 32 gen, Config.freeWord s.fresh, (s.gang g).bindno, 1⟩,
      fresh := s.fresh + 1 }

/-- The retained record of a newly bound item: a relaunched one keeps its record with its count one higher (R59, R345). -/
def State.retained (s : State) (k : Nat) (index g gen bpg : Nat) (old : Option Nat) : Item :=
  let n := match old.bind s.items.look with | some it => it.relaunch + 1 | none => 0
  ⟨k, index, g, gen, n, false, .posted, 0, false, none, bpg, false⟩

/-- Binds the next item of a launch to a gang, and answers the item's key (R57, R59, R204). -/
def State.bindNext (s : State) (k : Nat) (la : Launch) (g : Nat) (index : Nat) (old : Option Nat) : State × Nat :=
  let item := old.getD s.nextId
  let gen := s.nextGen
  let s := { s with
    nextId := if old.isNone then s.nextId + 1 else s.nextId, nextGen := gen + 1,
    gangs := s.gangs.ins g { s.gang g with bindno := (s.gang g).bindno + 1 },
    items := s.items.ins item (s.retained k index g gen la.bpg old), rrQueue := la.q }
  let s := s.updLaunch k (fun la =>
    if old.isNone then { la with nextItem := la.nextItem + 1 } else { la with requeued := la.requeued.filter (· != item) })
  ((List.range la.bpg).foldl (fun s b => s.bindBlock la item la.party gen g b index) s, item)

/-- An item is discarded late (R71): it runs nothing, and its launch may trigger or complete. -/
def State.discardLate (s : State) (k : Nat) : State :=
  ((s.updLaunch k (fun la => { la with nextItem := la.nextItem + 1, late := la.late + 1 })).checkTrigger k).checkLaunch k

/-- `BIND_ITEM` (R57): F2 binds the next item, which a gang fits, to that gang, or discards it late (R71); a relaunched item is not
judged. An item that fits other gangs only is bound to one of those, before any item that comes after it. An item of a joint
launch whose turn it is, is bound by its reservation (R341). -/
def execBindItem (gang : Nat) : State → Host.Outcome State Fault Refusal :=
  fun s =>
    .next (
      if !s.binding ∨ (s.gang gang).reservedFor.isSome then s
      else
        match s.choice with
        | none => s
        | some (k, la) =>
          match s.nextOf la with
          | none => s
          | some (index, old) =>
            if la.joint.isSome ∨ !s.gangFits gang la then s
            else if old.isNone ∧ la.deadline.toNat < s.now.toNat then s.discardLate k
            else (s.bindNext k la gang index old).1)

/-! ### Joint reservation (R72, R210, R341) -/

/-- Both partitions of a pair stand: neither is being reset. -/
def State.partsStand (s : State) (a b : Launch) : Bool :=
  [a.part, b.part].all (fun p => match s.parts.look p with | some x => x.resetStep == 0 | none => false)

/-- Reserves a gang for a part of a joint pair if it is free and no other launch comes first (R57, R341); answers the gang held. -/
def State.reserve (s : State) (pair g k : Nat) (la : Launch) : Option Nat → State × Option Nat
  | some h => (s, some h)
  | none =>
    if s.gangFree g la && s.isFirst k la then
      ({ s with gangs := s.gangs.ins g { s.gang g with reservedFor := some pair } }, some g)
    else (s, none)

/-- Releases every gang that a pair holds. -/
def State.unreserve (s : State) (pair : Nat) : State :=
  { s with
    gangs := Tab.mapVals s.gangs (fun g => if g.reservedFor = some pair then { g with reservedFor := none } else g),
    reservations := s.reservations.rem pair }

/-- Commits a pair: both items are bound, and the escrow pools are dealt by the blocks' gate state (R313, R341). The spec does not
say which of the pair's two queues F2 has then bound from last: the queue of party 1 (the model's choice; log entry 33). -/
def State.commitPair (s : State) (k0 k1 : Nat) (la0 la1 : Launch) (g0 g1 : Nat) (n0 n1 : Nat × Option Nat) : State :=
  let s := s.unreserve k0
  let (s, i0) := s.bindNext k0 la0 g0 n0.1 n0.2
  let (s, i1) := s.bindNext k1 la1 g1 n1.1 n1.2
  (s.updItem i0 (fun it => { it with peer := some i1 })).updItem i1 (fun it => { it with peer := some i0 })

/-- `JOINT_RESERVE` (R341): the pair is judged for lateness once, at the start of its reservation; gangs are reserved as
they are free; with both reserved in time, consent and both partitions standing, the pair commits. -/
def execJointReserve (launch0 launch1 gang0 gang1 : Nat) : State → Host.Outcome State Fault Refusal :=
  fun s =>
    .next (match s.launches.look launch0, s.launches.look launch1 with
      | some a, some b =>
        if !s.binding ∨ a.party ≠ 0 ∨ a.peer ≠ some launch1 ∨ !s.launchReady a ∨ !s.launchReady b then s
        else
          match s.pairNext a b with
          | none => s
          | some (n0, n1) =>
            let open' := s.reservations.look launch0
            let late := min a.deadline.toNat b.deadline.toNat < s.now.toNat
            if open'.isNone ∧ n0.2.isNone ∧ late then (s.discardLate launch0).discardLate launch1
            else
              let r := open'.getD ⟨launch1, n0.1, none, none, s.now⟩
              let (s, h0) := s.reserve launch0 gang0 launch0 a r.gang0
              let (s, h1) := s.reserve launch0 gang1 launch1 b r.gang1
              match h0, h1 with
              | some g0, some g1 =>
                if (s.now - r.since).toNat ≤ 100 ∧ s.consentStands a ∧ s.partsStand a b then
                  s.commitPair launch0 launch1 a b g0 g1 n0 n1
                else { s with reservations := s.reservations.ins launch0 { r with gang0 := h0, gang1 := h1 } }
              | _, _ => { s with reservations := s.reservations.ins launch0 { r with gang0 := h0, gang1 := h1 } }
      | _, _ => s)

/-- A reservation can no longer commit: its time is up, consent or a partition is gone, a launch was cancelled, or F0 is
being updated (R341, R365). -/
def State.reservationFails (s : State) (launch0 : Nat) (r : Reservation) : Bool :=
  match s.launches.look launch0, s.launches.look r.launch1 with
  | some a, some b =>
    decide (100 < (s.now - r.since).toNat) || !s.consentStands a || !s.partsStand a b || a.cancelled || b.cancelled ||
      s.updating 0
  | _, _ => true

/-- `JOINT_ROLLBACK` (R341): every reservation of the pair is released and nothing is left behind. -/
def execJointRollback (launch0 : Nat) : State → Host.Outcome State Fault Refusal :=
  fun s =>
    .next (match s.reservations.look launch0 with
      | none => s
      | some r => if s.reservationFails launch0 r then s.unreserve launch0 else s)

/-! ### Dispatch (R58, R134, R204) -/

/-- The item posted on a gang. -/
def State.postedOn (s : State) (gang : Nat) : Option (Nat × Item) :=
  s.items.find? (fun (_, it) => it.gang == gang && it.life == .posted)

/-- The blocks of an item, by key. -/
def State.blocksOf (s : State) (item : Nat) : List (Nat × Block) := s.blocks.filter (fun (_, b) => b.item == item)

/-- The bind records of an item: state 1 and one BINDNO on its first cores (R204). -/
def State.recordsPosted (s : State) (it : Item) (bpg : Nat) : Bool :=
  (List.range bpg).all (fun b =>
    let r := s.record (4 * it.gang + b)
    r.state == 1 && r.bindno == (s.record (4 * it.gang)).bindno)

/-- A bind record's fields pass R53. -/
def Launch.recordOk (la : Launch) (r : BindRec) : Bool :=
  decide (r.ctx.toNat < Config.slots) && r.launchid == la.id && decide (r.item.toNat < la.nitems) &&
    la.room.fits .core && decide (1 ≤ la.nitems) && decide (la.nitems ≤ 2 ^ 24)

/-- Every unit of an item's allocation is in place: evicted where needed, and zeroed (R58, R134). -/
def State.allocated (s : State) (item : Nat) : Bool :=
  (s.blocksOf item).all (fun (_, b) => (s.inUse b.core (fun _ _ => true)).fits .core)

/-- An item can be started. -/
def State.startable (s : State) (k : Nat) (it : Item) : Bool :=
  match s.launches.look it.launch with
  | some la => it.life == .posted && s.recordsPosted it la.bpg && s.allocated k
  | none => false

/-- Starts every block of an item, and takes its bind records. -/
def State.startItem (s : State) (k : Nat) (it : Item) : State :=
  let s := (s.blocksOf k).foldl (fun s (i, b) =>
    let s := s.updBlk i (fun b => { b with run := .running })
    { s with slots := s.slots.ins b.core { s.record b.core with state := 2 } }) s
  s.updItem k (fun _ => { it with life := .running })

/-- The item of a bind record that fails its checks ends as a context error (R204). -/
def State.bindError (s : State) (it : Item) : Bool :=
  match s.launches.look it.launch with
  | some la => !(List.range la.bpg).all (fun b => la.recordOk (s.record (4 * it.gang + b)))
  | none => true

/-- `DISPATCH_START` (R58): dispatch hardware starts the item posted on a gang; the two parts of a joint pair start
together. -/
def execDispatchStart (gang : Nat) : State → Host.Outcome State Fault Refusal :=
  fun s =>
    .next (match s.postedOn gang with
      | none => s
      | some (k, it) =>
        if s.bindError it then s.killItem k 0x0132 false 0
        else
          match it.peer.bind (fun p => (s.items.look p).map (fun q => (p, q))) with
          | none => if s.startable k it then s.startItem k it else s
          | some (p, q) =>
            if s.bindError q then s.killItem p 0x0132 false 0
            else if s.startable k it ∧ s.startable p q then (s.startItem k it).startItem p q
            else s)

/-! ### Retirement (R60, R309, R313) -/

/-- A thread that is over: every lane has exited, no operation is outstanding, no trap is to come and no send that has fired is
still to be carried out (R60, R308). -/
def Thread.over (t : Thread) : Bool :=
  t.done && t.ops.isEmpty && t.clause.isNone && t.hold == .none && t.due.isNone && t.recorded.isEmpty && t.firing.isEmpty

/-- Frees what an ended item held: its blocks with their zeroed units, and its bind records (R60, R135, R204). -/
def State.freeItem (s : State) (k : Nat) : State :=
  (s.blocksOf k).foldl (fun s (i, b) =>
    let r := s.record b.core
    let a := s.arbiter b.core
    let a := { a with deficit := a.deficit.wr 0 (b.slot i) 0 }
    let slots := if r.ctx.toNat = b.slot i then s.slots.ins b.core { r with state := 0 } else s.slots
    { s with slots, blocks := s.blocks.rem i, arbiters := s.arbiters.ins b.core a }) s

/-- The decided exchanges of a joint pair end with it (R313); one that waits for its second packet ends with its time-out
(R375). -/
def State.endExchanges (s : State) (k : Nat) (it : Item) : State :=
  match it.peer with
  | none => s
  | some p =>
    if s.itemOver p then
      { s with exchanges := s.exchanges.filter (fun (_, e) => (e.item != k && e.item != p) || e.verdict == .pending) }
    else s

/-- A gang item retires (R60): its record ends, and its launch may trigger or complete. -/
def State.retireItem (s : State) (k : Nat) (it : Item) : State :=
  let s := (s.freeItem k).updItem k (fun it => { it with life := .done })
  let s := s.endExchanges k it
  ((s.updLaunch it.launch (fun la => { la with retiredN := la.retiredN + 1 })).checkTrigger it.launch).checkLaunch it.launch

/-- `BLOCK_RETIRE` (R60): sends still armed are disarmed (R309); the item retires with its last block. -/
def execBlockRetire (block : Nat) : State → Host.Outcome State Fault Refusal :=
  fun s =>
    .next (match s.blk block with
      | none => s
      | some b =>
        if b.run ≠ .running ∨ !b.threads.all (fun (_, t) => t.over) then s
        else
          let s := s.updBlk block (fun b => { b with run := .retired, tel := { b.tel with armed := [] } })
          match s.items.look b.item with
          | none => s
          | some it =>
            let it := { it with blocksLeft := it.blocksLeft - 1 }
            let s := s.updItem b.item (fun _ => it)
            if it.blocksLeft = 0 then s.retireItem b.item it else s)

end Sys2Proof.Machine
end

