-- ==== Sys2Proof/Machine/Control.lean ====
section
/-! DEFINITION. Transfers of control, lane masks and lane control: majors 0x01 to 0x03 (R234 to R243). -/

namespace Sys2Proof.Machine

/-! ### Transfers (R235) -/

/-- The target of `BRA` and `CALL` in a lane: a register, a word offset or a byte offset from the instruction (R234). -/
def Thread.target (t : Thread) (x : Ext) (l : Nat) : Addr :=
  if x.m 0 then t.pairA x l
  else
    match x.lit with
    | some v => t.here + v
    | none => t.here + (lit9 x.c <<< 2)

/-- The clause takes targets of lanes for its end (R63). -/
def Clause.jump (c : Clause) (js : List (Nat × Addr)) : Clause :=
  { c with jumps := js.foldl (fun m (l, a) => m.ins l a) c.jumps }

/-- A transfer: the lanes with their targets, and the lanes whose index is out of the list with that index. A misaligned
target stops every transferring lane with ILL, and no link is written (R235; log entry 12). -/
def transfer (i : Instr) (link : Option Nat) (good bad : Thread → List (Nat × Addr)) :
    State → Host.Outcome State Fault Refusal :=
  onThread i (fun t =>
    let gs := good t
    let bs := bad t
    if gs.any (fun (_, a) => a.extractLsb' 0 2 != 0) then
      t.failLanes .ill 0 ((gs ++ bs).map (fun (l, _) => (l, 0)))
    else
      let u := match link with
        | none => t
        | some d => t.each (gs.map Prod.fst) (fun l u => u.setPair l d t.fallThrough)
      (u.inClause (·.jump gs)).failLanes .btab 0 bs)

/-- Targets of the executing lanes, with no illegal index. -/
def noBad (_ : Thread) : List (Nat × Addr) := []

/-- The index of `BTAB` and `CALLT`: A as N32 (R235). -/
def Thread.index (t : Thread) (x : Ext) (l : Nat) : Nat := ((t.reg l x.a.toNat).extractLsb' 0 32).toNat

/-- The target list of the clause (R117). -/
def Thread.list (t : Thread) : List Addr := match t.clause with | some c => c.targets | none => []

/-- The lanes whose index is in the list, with the target it names. -/
def Thread.listed (x : Ext) (t : Thread) : List (Nat × Addr) :=
  (t.lanes x.guard).filterMap (fun l => (t.list[t.index x l]?).map (fun a => (l, a)))

/-- The lanes whose index is beyond the list, with the index for the frame (R236). -/
def Thread.unlisted (x : Ext) (t : Thread) : List (Nat × Addr) :=
  (t.lanes x.guard).filterMap (fun l =>
    if t.list.length ≤ t.index x l then some (l, BitVec.ofNat 64 (t.index x l)) else none)

/-- `BRA` (R235). -/
def execBra (x : Ext) : State → Host.Outcome State Fault Refusal :=
  transfer (.bra x) none (fun t => (t.lanes x.guard).map (fun l => (l, t.target x l))) noBad

/-- `BTAB` (R235, R236). -/
def execBtab (x : Ext) : State → Host.Outcome State Fault Refusal :=
  transfer (.btab x) none (Thread.listed x) (Thread.unlisted x)

/-- `CALL` (R235, R237). -/
def execCall (x : Ext) : State → Host.Outcome State Fault Refusal :=
  transfer (.call x) (some x.d.toNat) (fun t => (t.lanes x.guard).map (fun l => (l, t.target x l))) noBad

/-- `CALLT` (R235, R236). -/
def execCallt (x : Ext) : State → Host.Outcome State Fault Refusal :=
  transfer (.callt x) (some x.d.toNat) (Thread.listed x) (Thread.unlisted x)

/-- `RET` (R235). -/
def execRet (x : Ext) : State → Host.Outcome State Fault Refusal :=
  transfer (.ret x) none (fun t => (t.lanes x.guard).map (fun l => (l, t.pairA x l))) noBad

/-! ### Lane masks (R238 to R240) -/

/-- `JOIN` (R238). -/
def execJoin (x : Ext) : State → Host.Outcome State Fault Refusal :=
  onThread (.join x) (fun t => t.setM x.d.toNat (t.mr x.d.toNat ||| maskOfLanes (t.lanes x.guard)))

/-- `LEAVE` (R238). -/
def execLeave (x : Ext) : State → Host.Outcome State Fault Refusal :=
  onThread (.leave x) (fun t => t.setM x.d.toNat (t.mr x.d.toNat &&& ~~~maskOfLanes (t.lanes x.guard)))

/-- `WAITM` (R238): the last mask named in a clause stands (R64). -/
def execWaitm (x : Ext) : State → Host.Outcome State Fault Refusal :=
  onThread (.waitm x) (fun t =>
    t.inClause (fun c =>
      { c with waits := (t.lanes x.guard).foldl (fun m l => m.ins l x.a.toNat) c.waits }))

/-- A mask with the bit of each lane of a list set to a value. -/
def maskPut (m : Word) (ls : List Nat) (f : Nat → Bool) : Word :=
  ls.foldl (fun m l => if f l then m ||| laneBit l else m &&& ~~~laneBit l) m

/-- `MMOV` (R239). -/
def execMmov (x : Ext) : State → Host.Outcome State Fault Refusal :=
  onThread (.mmov x) (fun t =>
    let ls := t.lanes x.guard
    match x.mf 1 0, ls with
    | 0, _ => t.setM x.d.toNat (maskPut (t.mr x.d.toNat) ls (fun l => t.pr l x.a.toNat))
    | 1, l :: _ => t.setM x.d.toNat (t.vr l x.a.toNat)
    | 2, _ => t.putPreds x.guard x.d.toNat (fun l => (t.mr x.a.toNat).getLsbD l)
    | 3, _ :: _ => t.setM x.d.toNat (t.mr x.a.toNat)
    | _, _ => t)

/-- `MRD` (R240). -/
def execMrd (x : Ext) : State → Host.Outcome State Fault Refusal :=
  onThread (.mrd x) (fun t =>
    match x.mf 1 0 with
    | 0 => t.putRegs x.guard x.d.toNat (fun _ => (t.mr x.a.toNat).setWidth 64)
    | 1 => t.putPairs x.guard x.d.toNat (fun l => t.pcOf ((t.vr l x.a.toNat).extractLsb' 0 5).toNat)
    | 2 => t.putRegs x.guard x.d.toNat (fun _ => (t.waiters x.a.toNat).setWidth 64)
    | _ => t.putRegs x.guard x.d.toNat (fun _ => t.exited.setWidth 64))

/-! ### Lane and warp control (R241 to R243) -/

/-- `EXIT` (R241): takes effect at the clause end (R64). -/
def execExit (x : Ext) : State → Host.Outcome State Fault Refusal :=
  onThread (.exit x) (fun t =>
    t.inClause (fun c => { c with exits := c.exits ||| maskOfLanes (t.lanes x.guard) }))

/-- `YIELD` (R242): the thread is passed over from the clause end on. -/
def execYield (x : Ext) : State → Host.Outcome State Fault Refusal :=
  onThread (.yield x) (fun t =>
    t.inClause (fun c => { c with yields := c.yields || !(t.lanes x.guard).isEmpty }))

/-- `NOP` (R242). -/
def execNop (x : Ext) : State → Host.Outcome State Fault Refusal := onThread (.nop x) (fun t => t)

/-- `TRAP` and `BKPT`: the executing lanes stop and trap at the clause end with code n (R243). -/
def stopLanes (i : Instr) (x : Ext) (cause : Cause) : State → Host.Outcome State Fault Refusal :=
  onThread i (fun t => t.failLanes cause x.a.toNat ((t.lanes x.guard).map (fun l => (l, 0))))

/-- `TRAP` (R243). -/
def execTrap (x : Ext) : State → Host.Outcome State Fault Refusal := stopLanes (.trap x) x .trap

/-- `BKPT` (R243). -/
def execBkpt (x : Ext) : State → Host.Outcome State Fault Refusal := stopLanes (.bkpt x) x .bkpt

end Sys2Proof.Machine
end

