-- ==== Sys2Proof/Machine/Kill.lean ====
section
/-! DEFINITION. Kills, retired generations, poison, soft errors, partition reset and change (R342 to R349, R220). -/

namespace Sys2Proof.Machine

/-- `ITEM_KILL` (R344): an item is killed for an uncorrectable error that one of its threads or engines consumed. The kills
of R192, R343 and R347 are part of the steps that cause them. -/
def execItemKill (item cause : Nat) : State → Host.Outcome State Fault Refusal :=
  fun s =>
    .next (
      if cause = 0x0110 then
        (match s.items.look item with
          | some it => if it.alive then s.countAssay (it.gang / 4) else s
          | none => s).killItem item cause true 0
      else if cause = 0x0111 ∨ cause = 0x0112 then s.killItem item cause true 0
      else s)

/-! ### Retiring a generation (R346) -/

/-- The receivers of a retire notice: home slices 0 to 15, memory controllers 16 to 19, IO 20. -/
def receivers : List Nat := List.range 21

/-- The killed item that carries a generation. -/
def State.killedGen (s : State) (gen : Nat) : Option (Nat × Item) :=
  s.items.find? (fun (_, it) => it.gen == gen && it.life == .killed)

/-- F2 may send the notices of a generation: it has begun, or the sets have room for one generation more (R346). -/
def State.mayRetire (s : State) (gen : Nat) : Bool :=
  let gens := (s.retiring.map (·.gen)).eraseDups
  gens.contains gen || decide (gens.length < Config.retiredLimit)

/-- `RETIRE_NOTICE` (R346): a receiver takes a generation into its retired set, which holds 32; F2 waits while any set is
full. -/
def execRetireNotice (gen receiver : Nat) : State → Host.Outcome State Fault Refusal :=
  fun s =>
    .next (
      if (s.killedGen gen).isNone ∨ 21 ≤ receiver ∨ s.dropsGen gen receiver ∨ !s.mayRetire gen ∨ s.updating 2 then s
      else { s with retiring := s.retiring ++ [⟨gen, receiver, [], false⟩] })

/-- A core of an item. -/
def State.coresOf (s : State) (item : Nat) : List Nat := (s.blocksOf item).map (fun (_, b) => b.core)

/-- No write of a generation is on its way from a core to a receiver. -/
def State.pathClear (s : State) (gen receiver core : Nat) : Bool :=
  !s.strays.any (fun y => y.gen == gen && y.block / Config.slots == core && s.strayHome y == some receiver)

/-- `RETIRE_MARKER` (R346): the marker of a halted core reaches a receiver behind that core's in-flight traffic; with the
markers of all the item's cores the receiver acknowledges. -/
def execRetireMarker (gen receiver core : Nat) : State → Host.Outcome State Fault Refusal :=
  fun s =>
    .next (match s.killedGen gen with
      | none => s
      | some (k, _) =>
        let cores := s.coresOf k
        if !cores.contains core ∨ !s.pathClear gen receiver core then s
        else
          { s with
            retiring := s.retiring.map (fun r =>
              if r.gen = gen ∧ r.receiver = receiver ∧ !r.markers.contains core then
                let ms := core :: r.markers
                { r with markers := ms, acked := cores.all ms.contains }
              else r) })

/-- Every receiver has acknowledged a generation. -/
def State.allAcked (s : State) (gen : Nat) : Bool :=
  receivers.all (fun v => s.retiring.any (fun r => r.gen == gen && r.receiver == v && r.acked))

/-- A port without the flits of some sends that its transmitter has not sent. -/
def Port.drop (x : Port) (ids : List Nat) : Port :=
  let left := x.sendq.filter (fun f => !ofSends ids f)
  let reserve := match x.reserve with
    | some n =>
      if (x.sendq[n]?).any (fun f => !ofSends ids f) then some ((x.sendq.take n).filter (fun f => !ofSends ids f)).length else none
    | none => none
  { x with backlog := x.backlog.filter (fun f => !ofSends ids f), sendq := left, reserve }

/-- Drops the sends of a generation, and their flits that no transmitter has sent. -/
def State.dropSends (s : State) (gen : Nat) : State :=
  let ids := (s.sends.filter (fun (_, x) => x.gen == gen)).map Prod.fst
  { s with
    sends := s.sends.filter (fun (_, x) => x.gen != gen),
    ports := Tab.mapVals s.ports (·.drop ids) }

/-- A killed item ends: it waits to be bound again, or is counted as ended by context error (R60, R345). `counted` is kept for
the trigger of its launch (R74). -/
def State.endKilled (s : State) (k : Nat) (it : Item) (counted : Bool) : State :=
  if it.again then
    (s.updItem k (fun it => { it with life := .waiting, counted })).updLaunch it.launch (fun la =>
      { la with requeued := la.requeued ++ [k] })
  else
    let s := s.updItem k (fun it => { it with life := .done, counted })
    let s := s.endExchanges k it
    ((s.updLaunch it.launch (fun la => { la with errors := la.errors + 1 })).checkTrigger it.launch).checkLaunch it.launch

/-- `GENERATION_RETIRED` (R346): with every acknowledgement in, the generation leaves the sets, the item's units are zeroed
and its gangs freed, and the item is relaunched or ends. -/
def execGenerationRetired (gen : Nat) : State → Host.Outcome State Fault Refusal :=
  fun s =>
    .next (match s.killedGen gen with
      | none => s
      | some (k, it) =>
        if !s.allAcked gen ∨ s.updating 2 then s
        else
          let counted := s.itemCounted k
          let s := { s with retiring := s.retiring.filter (·.gen != gen), strays := s.strays.filter (·.gen != gen) }
          ((s.dropSends gen).freeItem k).endKilled k it counted)

/-! ### Errors of the storage (R146, R220, R349) -/

/-- `UNCORRECTABLE_ERROR` (R146, R349): the whole 64-byte line at its home, or the whole on-die unit, is poisoned. -/
def execUncorrectableError (site : ErrSite) : State → Host.Outcome State Fault Refusal :=
  fun s =>
    .next (match site with
      | .dram pa => { s with poison := s.poison.wr false (pa / 64) true }
      | .host a => { s with hostPoison := s.hostPoison.wr false (a / 64) true }
      | .vault a => { s with vaultPoison := s.vaultPoison.wr false (a / 64) true }
      | .unit k (.scratch n) =>
        s.updBlk k (fun b =>
          if b.has (.scratch n) then { b with poisonedLines := repoison b.poisonedLines (4096 * n) 4096 true } else b)
      | .unit k u =>
        s.updBlk k (fun b =>
          if b.has u then
            { b with
              poisoned := if b.poisoned.contains u then b.poisoned else u :: b.poisoned,
              cleanLines := match u with | .tile t => b.cleanLines.filter (fun e => e.1 / 256 != t) | _ => b.cleanLines }
          else b))

/-- The place of a memory kind in a die's counts (R363). -/
def storeIndex : StoreKind → Nat
  | .dram => 0
  | .l2 => 1
  | .scratchpad => 2
  | .registerFile => 3
  | .tiles => 4
  | .vault => 5

/-- A saturating count one higher (R220). -/
def bumpSat (x : BitVec 32) : BitVec 32 := if x = 0xFFFFFFFF then x else x + 1

/-- `SOFT_ERROR_CORRECTED` (R220). -/
def execSoftErrorCorrected (die : Nat) (kind : StoreKind) : State → Host.Outcome State Fault Refusal :=
  fun s =>
    .next (
      if 4 ≤ die then s
      else
        let d := s.dies.rd .blank die
        { s with dies := s.dies.ins die { d with soft := d.soft.modify (storeIndex kind) bumpSat } })

/-! ### Partition reset (R343) -/

/-- The gangs of a partition. -/
def gangsOf (p : PartInfo) : List Nat := (List.range Config.gangs).filter p.gangs.getLsbD

/-- The launches of a partition. -/
def State.launchesOf (s : State) (part : Nat) : List Nat :=
  (s.launches.filter (fun (_, la) => la.part == part)).map Prod.fst

/-- Rolls back the joint reservations of a partition (R341, R343). -/
def State.rollbackAll (s : State) (part : Nat) : State :=
  let ls := s.launchesOf part
  s.reservations.foldl (fun s (k, r) => if ls.contains k ∨ ls.contains r.launch1 then s.unreserve k else s) s

/-- Ends an item in a partition reset: one that is bound is killed, and one that was to be bound again ends as a context error,
each with its joint peer (R343, R347). -/
def State.resetItem (s : State) (k : Nat) (it : Item) : State :=
  let s := (s.killItem k 0x0140 false 0).endAgain k 0x0140
  match it.peer with | some p => s.endAgain p 0x0142 | none => s

/-- Kills every item of a partition, without relaunch (R343); a joint peer's item is killed with it (R347). -/
def State.killAll (s : State) (part : Nat) : State :=
  let ls := s.launchesOf part
  s.items.foldl (fun s (k, it) => if ls.contains it.launch then s.resetItem k it else s) s

/-- No item of a partition is bound or waits for its generation to retire. -/
def State.allRetired (s : State) (part : Nat) : Bool :=
  let ls := s.launchesOf part
  s.items.all (fun (_, it) => !ls.contains it.launch || it.life == .done)

/-- Launches of dead queues are over: nothing more of them is bound, and no record is written (log entry 24). -/
def State.dropLaunches (s : State) (f : Launch → Bool) : State :=
  { s with
    launches := Tab.mapVals s.launches (fun la =>
      if f la && !la.completed then { la with cancelled := true, completed := true, triggered := true, requeued := [] } else la) }

/-- Queues that a test names are dead (R191). -/
def State.deadQueues (s : State) (f : LQueue → Bool) : State :=
  { s with queues := Tab.mapVals s.queues (fun q => if f q then { q with state := 2, pending := none, waited := none } else q) }

/-- The partition's queues and contexts are dead, and its launches with them (R191, R343). A context that a reset has ended
translates nothing any more (log entry 73). -/
def State.killQueues (s : State) (part : Nat) : State :=
  let s := (s.deadQueues (·.info.part == part)).dropLaunches (·.part == part)
  { s with ctxs := Tab.mapVals s.ctxs (fun c => if c.part = part then { c with dead := true } else c) }

/-- Power-cycles the gangs of a partition: engines, arbiters and TLBs are empty (R342, R343). -/
def State.powerCycle (s : State) (p : PartInfo) : State :=
  let gs := gangsOf p
  let mine := fun (core : Nat) => gs.contains (core / 4)
  { s with
    engines := s.engines.filter (fun (k, _) => !mine (k / 8)),
    arbiters := s.arbiters.filter (fun (k, _) => !mine k),
    tlb := s.tlb.filter (fun e => !(if e.holder < 64 then mine e.holder else gs.contains (e.holder - 64))) }

/-- A memory with a range zeroed. -/
def zeroRange {α : Type} (m : Tab α) (lo n : Nat) : Tab α := m.filter (fun (a, _) => !(decide (lo ≤ a) && decide (a < lo + n)))

/-- Zeroes a range of DRAM, its poison and its keys. -/
def State.zeroDram (s : State) (lo n : Nat) : State :=
  { s with dram := zeroRange s.dram lo n, lineKeys := zeroRange s.lineKeys (lo / 64) (n / 64), poison := zeroRange s.poison (lo / 64) (n / 64) }

/-- Zeroes a vault segment (R156). -/
def State.zeroSegment (s : State) (seg : Nat) : State :=
  let lo := seg / 256 * Config.vaultDie + seg % 256 * 2 ^ 21
  { s with vault := zeroRange s.vault lo (2 ^ 21), vaultPoison := zeroRange s.vaultPoison (lo / 64) (2 ^ 15) }

/-- A stage-2 table names a key slot in a valid entry. -/
def namesKey (m : Mem) (slot : Nat) : Nat → Nat → Bool
  | 0, _ => false
  | n + 1, table =>
    (List.range 512).any (fun i =>
      let e : Addr := BitVec.ofNat 64 (numOf (readMem m (table + 8 * i) 8))
      e.getLsbD 0 && ((e.extractLsb' 53 9).toNat == slot || (!e.getLsbD 3 && namesKey m slot n (pteAddr e))))

/-- Some partition's stage-2 tables name a key slot. -/
def State.keyNamed (s : State) (slot : Nat) : Bool := s.parts.any (fun (_, p) => namesKey s.dram slot 5 p.info.s2root)

/-- Zeroes a partition's DRAM and vault segments (R156, R343). -/
def State.scrub (s : State) (p : PartInfo) : State := p.vaultUnits.foldl State.zeroSegment (s.zeroDram p.dramBase (p.dramGiB * 2 ^ 30))

/-- A partition's key slots may be overwritten: no stage-2 entry names one of them (R156, R213). -/
def State.keysFree (s : State) (part : Nat) : Bool := s.keys.all (fun (k, x) => x.owner != part || !s.keyNamed k)

/-- F0 reloads a partition's key slots (R212, R343). -/
def State.reloadKeys (s : State) (part : Nat) : State :=
  { s with keys := Tab.mapVals s.keys (fun k => if k.owner = part then { k with gen := k.gen + 1 } else k) }

/-- Changes a partition. -/
def State.updPart (s : State) (part : Nat) (f : Partition → Partition) : State := { s with parts := s.parts.upd part f }

/-- A TDI that is locked or runs enters ERROR (R356). -/
def State.tdiFail (s : State) (fn : Nat) : State :=
  let t := s.tdis.rd .blank fn
  if t.state = .locked ∨ t.state = .run then { s with tdis := s.tdis.ins fn { t with state := .error } } else s

/-- A partition reset begins: binding stops, joint reservations are rolled back, and the partition's TDI fails (R343,
R356). One under way is not begun again. -/
def State.beginReset (s : State) (part : Nat) : State :=
  match s.parts.look part with
  | none => s
  | some p =>
    if p.resetStep ≠ 0 then s
    else ((s.rollbackAll part).updPart part (fun p => { p with resetStep := 1 })).tdiFail p.info.fn

/-- `PARTITION_RESET` (R343): the next of the reset's steps. Changes of partitions wait while F7 is updated (R361); a reload of
the key slots waits while a stage-2 entry still names one (R213), and for F0. -/
def execPartitionReset (part : Nat) : State → Host.Outcome State Fault Refusal :=
  fun s =>
    .next (match s.parts.look part with
      | none => s
      | some p =>
        let go := fun (n : Nat) (s : State) => s.updPart part (fun p => { p with resetStep := n })
        if s.updating 7 then s
        else
          match p.resetStep with
          | 0 => s.beginReset part
          | 1 => go 2 ((s.rollbackAll part).killAll part)
          | 2 => if s.allRetired part then go 3 s else s
          | 3 => go 4 (s.killQueues part)
          | 4 => go 5 (s.powerCycle p.info)
          | 5 =>
            let s := s.scrub p.info
            if s.keysFree part ∧ !s.updating 0 then go 6 (s.reloadKeys part) else s
          | _ => go 0 s)

/-! ### Partition change (R342, R353) -/

/-- Two partitions share nothing: gangs, vault segments, DRAM, function (R342, R353). -/
def apart (a b : PartInfo) : Bool :=
  a.gangs &&& b.gangs == 0 && !a.vaultUnits.any b.vaultUnits.contains && a.fn != b.fn &&
    (decide (a.dramBase + a.dramGiB * 2 ^ 30 ≤ b.dramBase) || decide (b.dramBase + b.dramGiB * 2 ^ 30 ≤ a.dramBase) ||
      a.dramGiB == 0 || b.dramGiB == 0)

/-- A part of a memory is zero. -/
def isZero {α : Type} (m : Tab α) (lo n : Nat) (except lo' : Nat) : Bool :=
  m.all (fun (a, _) => !(decide (lo ≤ a) && decide (a < lo + n)) || (decide (lo' ≤ a) && decide (a < lo' + except)))

/-- What a partition gains has been cleared (R156): its DRAM holds zeros under no key. -/
def State.cleared (s : State) (old new : PartInfo) : Bool :=
  isZero s.dram new.dramBase (new.dramGiB * 2 ^ 30) (old.dramGiB * 2 ^ 30) old.dramBase &&
    isZero s.lineKeys (new.dramBase / 64) (new.dramGiB * 2 ^ 24) (old.dramGiB * 2 ^ 24) (old.dramBase / 64) &&
    new.vaultUnits.all (fun u =>
      old.vaultUnits.contains u || isZero s.vault (u / 256 * Config.vaultDie + u % 256 * 2 ^ 21) (2 ^ 21) 0 0)

/-- What a partition that does not exist yet has. -/
def noPart : PartInfo := ⟨0, [], 0, 0, 0, 2 ^ 20, 0, 0⟩

/-- F3 writes stage-2 entries (R200, R206). -/
def State.writeEntries (s : State) (es : List (Nat × Addr)) : State :=
  { s with dram := es.foldl (fun m (a, e) => writeMem m a (bytesOf e.toNat 8)) s.dram }

/-- With n VFs enabled a function may serve a partition: an enabled VF, or with none the PF (R353; log entry 72). -/
def fnServes (n fn : Nat) : Bool := if n = 0 then fn == 0 else decide (1 ≤ fn) && decide (fn ≤ n)

/-- A function may serve a partition as the VFs are enabled. -/
def State.fnOk (s : State) (fn : Nat) : Bool := fnServes (s.fn 0).numVfs fn

/-- F7 may give a partition a new form: nothing of it is bound, no reset is under way, its gangs and memory are no other's, what it
gains has been cleared (R156, R342, R353). -/
def State.changeOk (s : State) (part : Nat) (p : PartInfo) : Bool :=
  let idle := match s.parts.look part with | some x => x.resetStep == 0 && s.allRetired part | none => true
  let was := match s.parts.look part with | some x => x.info | none => noPart
  s.ready && s.manifest.valid && !s.updating 7 && decide (part < 16) && p.gangs != 0 && s.fnOk p.fn && idle &&
    s.parts.all (fun (k, x) => k == part || apart p x.info) && s.cleared was p

/-- `PARTITION_CHANGE` (R342): F7 gives a partition its gangs, vault segments, DRAM share and function, and F3 writes the
stage-2 entries that come with it. For a partition that stays as it is, F3 writes the hypervisor's entries at any time (R200). -/
def execPartitionChange (part : Nat) (p : PartInfo) (entries : List (Nat × Addr)) : State → Host.Outcome State Fault Refusal :=
  fun s =>
    .next (
      if s.updating 3 ∧ entries ≠ [] then s
      else
        match s.parts.look part with
        | some x =>
          if x.info = p then s.writeEntries entries
          else if s.changeOk part p then
            ({ s with parts := s.parts.ins part ⟨p, 0, x.consent⟩ } : State).writeEntries entries
          else s
        | none =>
          if s.changeOk part p then ({ s with parts := s.parts.ins part ⟨p, 0, []⟩ } : State).writeEntries entries else s)

end Sys2Proof.Machine
end

