-- ==== Sys2Proof/Machine/Hostport.lean ====
section
/-! DEFINITION. The host port: apertures, CXL, TDISP, poison forwarding and interrupts (R5, R142, R183, R191, R197,
R348, R350, R352 to R357, R363). -/

namespace Sys2Proof.Machine

/-- The TDI of a function. -/
def State.tdi (s : State) (fn : Nat) : Tdi := s.tdis.rd .blank fn

/-- The partition that a function is bound to (R353). -/
def State.partOfFn (s : State) (fn : Nat) : Option (Nat × Partition) := s.parts.find? (fun (_, p) => p.info.fn == fn)

/-! ### Accesses to device memory (R142, R350, R353, R357) -/

/-- A host access's translation by the partition's stage-2 tables; none where it fails, for a vault page, and for host
memory. -/
def State.hostXlate (s : State) (part ipa : Nat) (need : Need) : Option Xlat :=
  match s.stage2 part ipa with
  | .error _ => none
  | .ok (pa, e, _, leaf) =>
    if spaceOf e pa = .dram ∧ s.leafOk part e pa ∧ ptePerm e &&& need = need then
      some ⟨pa, .dram, e.getLsbD 63, 7, ptePerm e, leaf, ipa, pteKey e⟩
    else none

/-- Reads n bytes for the host, with their poison. -/
def State.hostRead (s : State) (part ipa n : Nat) : Option (List Byte × Bool) :=
  (pieces (n / 64 + 2) 0 ipa n).foldlM (fun acc (off, k) =>
    match s.hostXlate part (ipa + off) 1 with
    | none => none
    | some x =>
      let (bs, p) := s.readX (x.pa / Config.dieBytes) x k
      some (acc.1 ++ bs, acc.2 || p)) ([], false)

/-- Writes bytes of the host; none where a piece does not translate. -/
def State.hostWrite (s : State) (part ipa : Nat) (bs : List Byte) : Option State :=
  (pieces (bs.length / 64 + 2) 0 ipa bs.length).foldlM (fun s (off, k) =>
    match s.hostXlate part (ipa + off) 2 with
    | none => none
    | some x => some (s.writeX x ((bs.drop off).take k) false)) s

/-- The function's TDI serves an access (R354): with the TEE bit in RUN, without it in CONFIG_UNLOCKED. -/
def Tdi.serves (t : Tdi) (tee : Bool) : Bool := if tee then t.state == .run else t.state == .unlocked

/-- Answers an access with Completer Abort. -/
def State.abort (s : State) (fn : Nat) : State := s.reject fn (.completerAbort fn) 15

/-- A write or a read of device memory that the host port has let in; `fwd` says whether poison may leave, `refuse` answers a read
of poison that may not (R350). -/
def State.hostAccess (s : State) (fn part ipa : Nat) (a : HostAccess) (fwd : Bool) (refuse : State → State) : State :=
  match a.write with
  | some bs => (s.hostWrite part ipa bs).getD (s.abort fn)
  | none =>
    match s.hostRead part ipa a.len with
    | none => s.abort fn
    | some (bs, p) => if p ∧ !fwd then refuse s else s.tell (.readData fn bs p)

/-- The bytes that an access moves. -/
def accessSize (a : HostAccess) : Nat := match a.write with | some bs => bs.length | none => a.len

/-- Bytes of a page of registers; what it does not name reads as 0. -/
def slice (page : List Byte) (off n : Nat) : List Byte := (List.range n).map (fun i => page.getD (off + i) 0)

/-- The word at offset 0x008 of a doorbell page (R191). -/
def LQueue.statusWord (x : LQueue) : Addr :=
  BitVec.ofNat 64 (x.state * 2 ^ 32 + x.lastCmpl.toNat * 2 ^ 16 + x.lastAcc.toNat)

/-- A doorbell page as the host reads it: KICK and CANCEL read as 0, so do reserved fields (R5, R6, R191). -/
def LQueue.page (x : LQueue) : List Byte := bytesOf 0 8 ++ bytesOf x.statusWord.toNat 8

/-- The telemetry report: SEQ, the body, zeros (R363). -/
def State.reportPage (s : State) : List Byte := bytesOf s.telemetrySeq.toNat 8 ++ s.telemetry

/-- An entry of a virtual error queue in its 32 bytes (R197). -/
def ErrEntry.bytes (e : ErrEntry) : List Byte :=
  bytesOf e.cause 2 ++ bytesOf e.q 2 ++ bytesOf e.launchid.toNat 4 ++ bytesOf e.item.toNat 4 ++ bytesOf e.flags 4 ++
    bytesOf e.addr.toNat 8 ++ bytesOf e.time.toNat 6 ++ bytesOf e.seq.toNat 2

/-- An entry of the physical log in its 64 bytes, newest first: the event, the wrap count, zeros (R183, R198, R214; log entry 70). -/
def State.logBytes (s : State) (j : Nat) : List Byte :=
  match s.plog.look ((s.plogNext + 2047 - j) % 2048) with
  | some (e, wrap) => e.bytes ++ bytesOf wrap.toNat 4 ++ bytesOf 0 28
  | none => bytesOf 0 64

/-- A read of BAR2, which only the PF has: the report in its first 4 KiB, and after it the window onto the physical log, by which the
hypervisor reads the newest 960 entries with their wrap counts (R214, R353, R363; log entry 70). -/
def State.readBar2 (s : State) (a : HostAccess) : State :=
  let byte := fun i =>
    if a.ipa + i < 4096 then s.reportPage.getD (a.ipa + i) 0
    else (s.logBytes ((a.ipa + i - 4096) / 64)).getD ((a.ipa + i - 4096) % 64) 0
  s.tell (.readData 0 ((List.range a.len).map byte) false)

/-- A virtual error queue as its guest driver reads it: its overflow count and zeros in 32 bytes, then its entries, oldest first
(R183, R197, R214; log entry 70). -/
def ErrQueue.window (q : ErrQueue) : List Byte :=
  bytesOf q.overflow.toNat 4 ++ bytesOf 0 28 ++ q.entries.flatMap ErrEntry.bytes

/-- The guest driver empties its queue: a write of n removes the n oldest entries (R183; log entry 70). -/
def State.dropEntries (s : State) (fn n : Nat) : State :=
  let q := s.errQueue fn
  { s with errqs := s.errqs.ins fn { q with entries := q.entries.drop n } }

/-- A function's configuration field as 64 bits; four selective IDE streams (R352). -/
def FnConfig.read (c : FnConfig) : CfgField → Addr
  | .command => c.command.setWidth 64
  | .msixControl => c.msixControl.setWidth 64
  | .msixEntry i => c.msixTable.rd 0 i
  | .bar0 => BitVec.ofNat 64 c.bar0
  | .bar2 => BitVec.ofNat 64 c.bar2
  | .bar4 => BitVec.ofNat 64 c.bar4
  | .bar4Size => BitVec.ofNat 64 c.bar4GiB
  | .numVfs => BitVec.ofNat 64 c.numVfs
  | .hdmBase => BitVec.ofNat 64 c.hdmBase
  | .hdmUnits => BitVec.ofNat 64 c.hdmUnits
  | .aerUncorrectable => c.aer.uncorrectable.setWidth 64
  | .aerMask => c.aer.mask.setWidth 64
  | .aerSeverity => c.aer.severity.setWidth 64
  | .aerCorrectable => c.aer.correctable.setWidth 64
  | .aerCorrectableMask => c.aer.correctableMask.setWidth 64
  | .ideLink => c.ideLink.setWidth 64
  | .ideStream i => (c.ideStreams.rd 0 i).setWidth 64

/-- A configuration read (R352): before the device is ready it is answered with Request Retry Status (R364), for a function that
does not exist with Unsupported Request; the field stands in 8 bytes (log entry 72). -/
def State.readConfig (s : State) (fn : Nat) (field : CfgField) (a : HostAccess) : State :=
  if !s.ready then s.tell (.requestRetry fn)
  else if !s.fnExists fn then s.unsupported fn
  else s.tell (.readData fn (slice (bytesOf ((s.fn fn).read field).toNat 8) a.ipa a.len) false)

/-- A BAR access that the function's TDI serves. -/
def State.barAccess (s : State) (fn : Nat) (bar : HostSpace) (a : HostAccess) : State :=
  match bar with
  | .bar4 =>
    match s.partOfFn fn with
    | none => s.unsupported fn
    | some (k, _) =>
      if (s.fn fn).bar4GiB * 2 ^ 30 < a.ipa + accessSize a then s.unsupported fn
      else s.hostAccess fn k a.ipa a (s.tdi fn).fwdPcie (fun s => s.abort fn)
  | .doorbell q =>
    match s.queue q with
    | none => s.unsupported fn
    | some x =>
      if x.info.fn ≠ fn then s.unsupported fn
      else if a.write.isSome then s
      else s.tell (.readData fn (slice x.page a.ipa a.len) false)
  | .bar2 =>
    if fn ≠ 0 ∨ 65536 < a.ipa + accessSize a then s.unsupported fn
    else if a.write.isSome then s
    else s.readBar2 a
  | .errorQueue =>
    match a.write with
    | some bs => s.dropEntries fn (numOf bs)
    | none => s.tell (.readData fn (slice (s.errQueue fn).window a.ipa a.len) false)
  | .config _ => s

/-- `HOST_APERTURE_ACCESS` (R353): an access through a function's BARs: to device memory through BAR4, translated by the
partition's stage-2 tables, to the registers of a doorbell page or of BAR2, to the function's virtual error queue; or a read of its
configuration. Writes to the registers are the events KICK, CANCEL and REGISTER_WRITE. Before the device is ready it serves only
configuration requests (R364); a manifest that failed its signature leaves the PF's management page, BAR2 (R362). -/
def execHostApertureAccess (fn : Nat) (b : BarAccess) : State → Host.Outcome State Fault Refusal :=
  fun s =>
    .next (match b.bar with
      | .config field => if b.access.write.isSome then s else s.readConfig fn field b.access
      | bar =>
        if !s.ready then s
        else if !s.fnExists fn ∨ (!s.manifest.valid ∧ bar ≠ .bar2) ∨ !(s.tdi fn).serves b.access.tee then s.unsupported fn
        else s.barAccess fn bar b.access)

/-- `CXL_MEM_ACCESS` (R357): an access through the function's HDM decoder, whose range of 256 MiB units stands for guest addresses
from 0, up to the partition's DRAM share. -/
def execCxlMemAccess (fn : Nat) (a : HostAccess) : State → Host.Outcome State Fault Refusal :=
  fun s =>
    .next (if !s.ready then s else match s.partOfFn fn with
      | none => s.unsupported fn
      | some (k, p) =>
        let base := (s.fn fn).hdmBase * 2 ^ 28
        let ipa := a.ipa - base
        if a.ipa < base ∨ (s.fn fn).hdmUnits * 2 ^ 28 < ipa + accessSize a ∨ p.info.dramGiB * 2 ^ 30 < ipa + accessSize a then
          s.unsupported fn
        else s.hostAccess fn k ipa a (s.tdi fn).fwdCxl (fun s => s.reject fn (.uncorrectable fn) 22))

/-- `CXL_SNOOP` (R357): the device caches no host line and answers Invalid. -/
def execCxlSnoop (hostAddr : Nat) : State → Host.Outcome State Fault Refusal := fun s => .next (s.tell (.snoopInvalid hostAddr))

/-- `POISON_FORWARD_ENABLE` (R350): through F4. -/
def execPoisonForwardEnable (fn : Nat) (cxl on : Bool) : State → Host.Outcome State Fault Refusal :=
  fun s =>
    .next (
      if s.updating 4 then s
      else
        let t := s.tdi fn
        { s with tdis := s.tdis.ins fn (if cxl then { t with fwdCxl := on } else { t with fwdPcie := on }) })

/-! ### TDISP (R354 to R356) -/

/-- Moves an enabled VF's TDI where its state allows the request, and answers it; F0 answers no message while it is updated (R361),
before the device is ready (R364), or where the manifest failed its signature (R362), and the PF is no TDI. -/
def State.moveTdi (s : State) (fn : Nat) (ok : Tdi → Bool) (st : TdiState) : State :=
  let t := s.tdi fn
  if fn = 0 ∨ !s.fnExists fn ∨ !s.ready ∨ !s.manifest.valid ∨ s.updating 0 then s
  else if !ok t then s.tell (.tdisp fn false)
  else { s.tell (.tdisp fn true) with tdis := s.tdis.ins fn { t with state := st } }

/-- `LOCK_INTERFACE_REQUEST` (R354). -/
def execLockInterfaceRequest (fn : Nat) : State → Host.Outcome State Fault Refusal :=
  fun s => .next (s.moveTdi fn (·.state == .unlocked) .locked)

/-- `START_INTERFACE_REQUEST` (R354). -/
def execStartInterfaceRequest (fn : Nat) : State → Host.Outcome State Fault Refusal :=
  fun s => .next (s.moveTdi fn (·.state == .locked) .run)

/-- A reset of the function's partition is under way (R354, R356). -/
def State.resetting (s : State) (fn : Nat) : Bool := s.parts.any (fun (_, p) => p.info.fn == fn && p.resetStep != 0)

/-- `STOP_INTERFACE_REQUEST` (R354): from any state, once a partition reset under way has completed. -/
def execStopInterfaceRequest (fn : Nat) : State → Host.Outcome State Fault Refusal :=
  fun s => .next (s.moveTdi fn (fun _ => !s.resetting fn) .unlocked)

/-- The report of a TDI (R355): one range for BAR0 and one for BAR4, BAR2 being the PF's. -/
def State.interfaceBytes (s : State) (fn k : Nat) (p : PartInfo) : List Byte :=
  let c := s.fn fn
  let m := s.manifest
  let range := fun (bar first pages : Nat) =>
    bytesOf first 8 ++ bytesOf pages 4 ++ bytesOf ((Config.rangeAttributes bar).toNat + bar * 2 ^ 16) 4
  bytesOf 0x1E 2 ++ bytesOf 0 2 ++ bytesOf c.msixControl.toNat 2 ++ bytesOf 0 2 ++ bytesOf 0 4 ++ bytesOf 2 4 ++
    range 0 c.bar0 ((s.queues.filter (fun (_, q) => q.info.fn == fn)).length) ++ range 4 c.bar4 (c.bar4GiB * 2 ^ 18) ++ bytesOf 24 4 ++
    bytesOf k 1 ++ bytesOf p.gangs.toNat 2 ++ bytesOf ((s.keys.filter (fun (_, x) => x.owner == k)).length) 2 ++
    bytesOf p.dramGiB 1 ++ bytesOf m.securityVersion 2 ++
    (List.range 16).map (fun i =>
      (sha512 (Config.manifestImage m.capWatts m.vfs m.securityVersion m.partitions)).extractLsb' (504 - 8 * i) 8)

/-- `INTERFACE_REPORT` (R355): F0 returns a TDI's report. -/
def execInterfaceReport (fn : Nat) : State → Host.Outcome State Fault Refusal :=
  fun s =>
    .next (match s.partOfFn fn with
      | none => s
      | some (k, p) => if s.updating 0 then s else s.tell (.report fn (s.interfaceBytes fn k p.info)))

/-- A TDI that is locked or runs enters ERROR, and F7 starts the reset of its partition (R356). -/
def State.tdiError (s : State) (fn : Nat) : State :=
  let t := s.tdi fn
  if t.state = .locked ∨ t.state = .run then
    match s.partOfFn fn with
    | none => s.tdiFail fn
    | some (k, _) => (s.tdiFail fn).beginReset k
  else s

/-- `TDI_ERROR` (R356). A function reset also turns poison forwarding off (R350). The partition's own reset enters ERROR with its
first step. -/
def execTdiError (fn : Nat) (cause : TdiCause) : State → Host.Outcome State Fault Refusal :=
  fun s =>
    .next (
      let s := if cause = .functionReset then
          { s with tdis := s.tdis.ins fn { s.tdi fn with fwdPcie := false, fwdCxl := false } }
        else s
      if cause = .partitionReset ∧ !s.resetting fn then s else s.tdiError fn)

/-! ### Configuration (R5, R352 to R356, R364) -/

/-- A configuration field is frozen while its TDI is locked or runs: BARs, MSI-X table, command register (R354). -/
def frozenField : CfgField → Bool
  | .command | .msixEntry _ | .bar0 | .bar2 | .bar4 | .bar4Size => true
  | .msixControl | .numVfs | .hdmBase | .hdmUnits | .aerUncorrectable | .aerMask | .aerSeverity | .aerCorrectable
  | .aerCorrectableMask | .ideLink | .ideStream _ => false

/-- A function's configuration with a field written; a value that the field cannot hold changes nothing: four MSI-X entries, an
aperture of 1 to 64 GiB in powers of two, four selective IDE streams; an AER status bit is cleared by a 1 (R352; log entry 77). -/
def FnConfig.write (c : FnConfig) (field : CfgField) (v : Addr) : FnConfig :=
  match field with
  | .command => { c with command := v.extractLsb' 0 16 }
  | .msixControl => { c with msixControl := (v.extractLsb' 0 16 &&& 0xC000) ||| 3 }
  | .msixEntry i => if i < 4 then { c with msixTable := c.msixTable.wr 0 i v } else c
  | .bar0 => { c with bar0 := v.toNat }
  | .bar2 => { c with bar2 := v.toNat }
  | .bar4 => { c with bar4 := v.toNat }
  | .bar4Size => if [1, 2, 4, 8, 16, 32, 64].contains v.toNat then { c with bar4GiB := v.toNat } else c
  | .numVfs => { c with numVfs := v.toNat }
  | .hdmBase => { c with hdmBase := v.toNat }
  | .hdmUnits => { c with hdmUnits := v.toNat }
  | .aerUncorrectable => { c with aer := { c.aer with uncorrectable := c.aer.uncorrectable &&& ~~~(v.extractLsb' 0 32) } }
  | .aerMask => { c with aer := { c.aer with mask := v.extractLsb' 0 32 } }
  | .aerSeverity => { c with aer := { c.aer with severity := v.extractLsb' 0 32 } }
  | .aerCorrectable => { c with aer := { c.aer with correctable := c.aer.correctable &&& ~~~(v.extractLsb' 0 32) } }
  | .aerCorrectableMask => { c with aer := { c.aer with correctableMask := v.extractLsb' 0 32 } }
  | .ideLink => { c with ideLink := v.extractLsb' 0 32 }
  | .ideStream i => if i < 4 then { c with ideStreams := c.ideStreams.wr 0 i (v.extractLsb' 0 32) } else c

/-- The TDIs that are locked or run. -/
def State.heldTdis (s : State) : List Nat :=
  (s.tdis.filter (fun (_, t) => t.state == .locked || t.state == .run)).map Prod.fst

/-- Every partition's function could serve it with n VFs enabled (R353). -/
def State.partsServed (s : State) (n : Nat) : Bool := s.parts.all (fun (_, p) => fnServes n p.info.fn)

/-- The PF enables n VFs: any write to the field moves the TDIs that are locked or run to ERROR (R354, R356); else it holds at most
the manifest's number, and at most 16 (R352, R362), and no fewer or more than lets each partition keep its function (R353; log
entry 72). -/
def State.writeVfs (s : State) (n : Addr) : State :=
  if s.heldTdis ≠ [] then s.heldTdis.foldl State.tdiError s
  else if (min s.manifest.vfs 16 < n.toNat) ∨ !s.manifest.valid ∨ !s.partsServed n.toNat then s
  else s.setFn 0 ((s.fn 0).write .numVfs n)

/-- A configuration write (R352 to R356): before the device is ready it is answered with Request Retry Status (R364), for a function
that does not exist with Unsupported Request; to a field that a TDI freezes it moves that TDI to ERROR and changes nothing. -/
def State.writeConfig (s : State) (fn : Nat) (field : CfgField) (v : Addr) : State :=
  if !s.ready then s.tell (.requestRetry fn)
  else if !s.fnExists fn then s.unsupported fn
  else if field = .numVfs then (if fn = 0 then s.writeVfs v else s)
  else if frozenField field ∧ s.heldTdis.contains fn then s.tdiError fn
  else s.setFn fn ((s.fn fn).write field v)

/-- `REGISTER_WRITE` (R5): a write to a read-only or ignored field changes nothing; one to a function's configuration replaces the
field's value. -/
def execRegisterWrite (r : HostReg) (value : Addr) : State → Host.Outcome State Fault Refusal :=
  fun s =>
    .next (match r with
      | .config fn field => s.writeConfig fn field value
      | .doorbellStatus _ | .doorbellCancelHigh _ | .telemetry _ => s)

/-! ### Interrupts (R348) -/

/-- `MSI_X_RAISE` (R348): vector 0 of a function, at most once in any 2 µs; it covers every entry written before. -/
def execMsixRaise (fn : Nat) : State → Host.Outcome State Fault Refusal :=
  fun s =>
    .next (match s.errqs.look fn with
      | none => s
      | some q =>
        let due := match q.lastIrq with | none => true | some t => decide (2 ≤ (s.now - t).toNat)
        if !q.pendingIrq ∨ !due ∨ s.updating 4 then s
        else { s.tell (.msix fn s.now) with errqs := s.errqs.ins fn { q with pendingIrq := false, lastIrq := some s.now } })

end Sys2Proof.Machine
end

