-- ==== Sys2Proof/Machine/Firmware.lean ====
section
/-! DEFINITION. The firmware cores, their mailboxes and updates, and power-up (R143, R183, R198, R199, R217, R352, R361,
R362, R364). -/

namespace Sys2Proof.Machine

/-- A firmware core. -/
def State.fwCore (s : State) (c : Nat) : FwCore := s.fw.rd .blank c

/-- `MAILBOX_MESSAGE` (R183, R199): the entry carries its sender's number; a full mailbox stores nothing and the sender sees
full. -/
def execMailboxMessage (sender receiver : Nat) (body : BitVec 512) : State → Host.Outcome State Fault Refusal :=
  fun s =>
    .next (
      let m := s.mail.rd [] receiver
      if 8 ≤ sender ∨ 8 ≤ receiver ∨ sender = receiver then s
      else if 32 ≤ m.length then s.tell (.mailFull sender receiver)
      else { s with mail := s.mail.ins receiver (m ++ [⟨sender, body⟩]) })

/-- A firmware core's other slot takes an image; `good` says that F0 has verified it (R361). -/
def FwCore.store (f : FwCore) (version : Nat) (image : BitVec 512) (good : Bool) : FwCore :=
  if f.slotB then { f with versionA := version, imageA := image, goodA := good }
  else { f with versionB := version, imageB := image, goodB := good }

/-- A firmware core restarts on its other slot (R361). -/
def FwCore.restart (f : FwCore) (now : BitVec 48) : FwCore := { f with slotB := !f.slotB, updating := some now }

/-- Every open joint reservation is rolled back (R365). -/
def State.rollbackOpen (s : State) : State := s.reservations.foldl (fun s (k, _) => s.unreserve k) s

/-- `FIRMWARE_UPDATE` (R361): an image is written to the inactive slot and verified by F0; where its signature holds and its security
version is not below the manifest's, the core restarts on it. An update of F0 rolls the open joint reservations back (R365). -/
def execFirmwareUpdate (core version : Nat) (image : FwImage) : State → Host.Outcome State Fault Refusal :=
  fun s =>
    .next (
      let f := s.fwCore core
      if 8 ≤ core ∨ !s.ready ∨ f.updating.isSome ∨ s.updating 0 then s
      else
        let f := f.store version image.hash image.signed
        if !image.signed ∨ version < s.manifest.securityVersion then { s with fw := s.fw.ins core f }
        else
          let s := { s with fw := s.fw.ins core (f.restart s.now) }
          if core = 0 then s.rollbackOpen else s)

/-- F4 has events in its buffer: it writes them to the virtual error queues, and adds what was dropped to their overflow
counts and raises their vectors (R198, R361). R198 raises no vector for a user entry, R361 one for every count: a dropped user entry
raises it (the model's choice; log entry 78). -/
def State.drainF4 (s : State) : State :=
  let qs := s.f4buf.foldl (fun t (fn, e) => t.ins fn ((t.rd (.blank 64) fn).put e (e.cause != 0xFF))) s.errqs
  { s with
    f4buf := [],
    errqs := Tab.mapVals qs (fun q =>
      if q.dropped = 0 then q
      else
        { q with
          overflow := BitVec.ofNat 32 (min (q.overflow.toNat + q.dropped) 0xFFFFFFFF), pendingIrq := true, dropped := 0 }) }

/-- An updated core runs again. -/
def State.endUpdate (s : State) (core : Nat) (f : FwCore) : State :=
  let s := { s with fw := s.fw.ins core { f with updating := none } }
  if core = 4 then s.drainF4 else s

/-- The time in which an updated core has to report ready is over: 100 ms (R361). -/
def FwCore.late (f : FwCore) (now : BitVec 48) : Bool :=
  match f.updating with | some t => decide (100000 ≤ (now - t).toNat) | none => false

/-- A core goes back to its other slot and runs. -/
def State.revert (s : State) (core : Nat) : State :=
  s.endUpdate core { s.fwCore core with slotB := !(s.fwCore core).slotB }

/-- `FIRMWARE_READY` (R361): the core reports ready on its new image; a report that comes too late finds the core reverted. -/
def execFirmwareReady (core : Nat) : State → Host.Outcome State Fault Refusal :=
  fun s =>
    .next (
      let f := s.fwCore core
      if f.late s.now then s.revert core else if f.updating.isSome then s.endUpdate core f else s)

/-- `FIRMWARE_READY_TIMEOUT` (R361): after 100 ms with no report the core reverts to the other slot. -/
def execFirmwareReadyTimeout (core : Nat) : State → Host.Outcome State Fault Refusal :=
  fun s => .next (if (s.fwCore core).late s.now then s.revert core else s)

/-- The VFs that the device may have enabled (R352, R362). -/
def Manifest.vfLimit (m : Manifest) : Nat := if m.valid then min m.vfs 16 else 0

/-- The partitions of the manifest (R362): those whose function may serve one, with all its VFs enabled (R353). -/
def Manifest.parts (m : Manifest) : Tab Partition :=
  (m.partitions.filter (fun (_, p) => fnServes m.vfLimit p.fn)).foldl (fun t (k, p) => t.ins k ⟨p, 0, []⟩) []

/-- A firmware core's A image verifies, and its security version is not below the manifest's (R361). -/
def FwCore.usableA (f : FwCore) (m : Manifest) : Bool := f.goodA && decide (m.securityVersion ≤ f.versionA)

/-- A firmware core's B image verifies, and its security version is not below the manifest's (R361). -/
def FwCore.usableB (f : FwCore) (m : Manifest) : Bool := f.goodB && decide (m.securityVersion ≤ f.versionB)

/-- A firmware core boots its A image, or its B image where A is refused (R361, R364). -/
def FwCore.boot (f : FwCore) (m : Manifest) : FwCore := { f with slotB := !f.usableA m, updating := none }

/-- Every firmware core has an image that it can boot. -/
def State.bootable (s : State) : Bool :=
  (List.range 8).all (fun c => (s.fwCore c).usableA s.manifest || (s.fwCore c).usableB s.manifest)

/-- `POWER_UP` (R364): F0 verifies and boots the images, DRAM and vault are zeroed, NOW starts at 0, the dies' EPOCHs are set, the
partitions are those of the manifest, with its VFs enabled; one that fails its signature leaves only the PF's management page
(R362). A core with no image to boot leaves the device not ready (log entry 74). -/
def execPowerUp (epochs : List (BitVec 48)) : State → Host.Outcome State Fault Refusal :=
  fun s =>
    .next (
      if s.ready ∨ !s.bootable then s
      else
        { s with
          ready := true,
          now := 0,
          fw := (List.range 8).foldl (fun t c => t.wr .blank c ((t.rd .blank c).boot s.manifest)) s.fw,
          dram := [], lineKeys := [], poison := [], vault := [], vaultPoison := [],
          dies := (List.range 4).foldl (fun t d => t.ins d { t.rd Die.blank d with epoch := epochs.getD d 0 }) s.dies,
          fns := if s.manifest.valid then s.fns.wr .blank 0 { s.fn 0 with numVfs := s.manifest.vfLimit } else s.fns,
          parts := if s.manifest.valid then s.manifest.parts else [] })

/-- The hash of the image that a firmware core runs. -/
def FwCore.image (f : FwCore) : BitVec 512 := if f.slotB then f.imageB else f.imageA

/-- `SPDM_REQUEST` (R352, R361): F0's answer, a free value, depends on the images that run; none while F0 is updated, nor where the
manifest failed its signature (R362). -/
def execSpdmRequest (request : List Byte) : State → Host.Outcome State Fault Refusal :=
  fun s =>
    .next (
      if !s.ready ∨ s.updating 0 ∨ !s.manifest.valid then s
      else s.tell (.spdm (Config.spdmAnswer request (s.fw.map (fun (k, f) => (k, f.image))))))

end Sys2Proof.Machine
end

