-- ==== Sys2Proof/Machine/Lane.lean ====
section
/-! DEFINITION. The cross-lane instructions: major 0x1C (R258 to R263). They read and write only their executing lanes. -/

namespace Sys2Proof.Machine

/-! ### Exchange and vote (R260, R261) -/

/-- The source lane of `LXCH` (R260). -/
def lxchSource (mode g l : Nat) (n : Word) : Nat :=
  let j := l % g
  let b := l - j
  match mode with
  | 0 => b + n.toNat % g
  | 1 => b + (((j : Int) + n.toInt) % (g : Int)).toNat
  | 2 => b + (g - 1 - j)
  | _ => b + (j ^^^ (n.toNat % g))

/-- `LXCH` (R260): a source that does not execute leaves the lane its own value. -/
def execLxch (x : Ext) : State → Host.Outcome State Fault Refusal :=
  onThread (.lxch x) (fun t =>
    let ls := t.lanes x.guard
    t.putRegs x.guard x.d.toNat (fun l =>
      let src := lxchSource (x.mf 1 0) (2 ^ x.mf 4 2) l ((t.opB x l).extractLsb' 0 32)
      t.reg (if ls.contains src then src else l) x.a.toNat))

/-- `VOTE` (R261). -/
def execVote (x : Ext) : State → Host.Outcome State Fault Refusal :=
  onThread (.vote x) (fun t =>
    let ls := t.lanes x.guard
    let c := fun l => t.pr l x.a.toNat != x.m 2
    match x.mf 1 0 with
    | 0 => t.putPreds x.guard x.d.toNat (fun _ => ls.all c)
    | 1 => t.putPreds x.guard x.d.toNat (fun _ => ls.any c)
    | 2 => t.putPreds x.guard x.d.toNat (fun _ => ls.all c || !ls.any c)
    | _ => t.putRegs x.guard x.d.toNat (fun _ => (maskOfLanes (ls.filter c)).setWidth 64))

/-! ### Reductions and prefixes (R262) -/

/-- The integer operation of an OP on values read under a type. -/
def reduceInt (op : Nat) (y : IntTy) (a b : Addr) : Addr :=
  match op with
  | 0 => a + b
  | 1 => if y.ext a ≤ y.ext b then a else b
  | 2 => if y.ext a ≤ y.ext b then b else a
  | 3 => a &&& b
  | 4 => a ||| b
  | _ => a ^^^ b

/-- The integer identity of an OP (R262). -/
def identityInt (op : Nat) (y : IntTy) : Addr :=
  match op with
  | 1 => y.put y.hi
  | 2 => y.put y.lo
  | 3 => 0xFFFFFFFF
  | _ => 0

/-- One float sum: rounded, then flushed (R262). -/
def addRounded (rm : Rm) (mode : Word) (a b : FVal) : FVal := Fmt.f32.dec (Fmt.f32.put rm mode (a.add rm b))

/-- The float operation of an OP. -/
def reduceFloat (op : Nat) (rm : Rm) (mode : Word) (a b : FVal) : FVal :=
  match op with
  | 0 => addRounded rm mode a b
  | 1 => a.pick false b
  | _ => a.pick true b

/-- The float identity of an OP (R262). -/
def identityFloat (op : Nat) : FVal :=
  match op with
  | 0 => .fin false 0 0
  | 1 => .inf false
  | _ => .inf true

/-- One round of the pairing tree (R262). -/
def pairUp (f : FVal → FVal → FVal) : List FVal → List FVal
  | a :: b :: t => f a b :: pairUp f t
  | l => l

/-- The pairing tree of `REDUX` float: rounds until one value is left; five rounds serve 32 lanes. -/
def tree (f : FVal → FVal → FVal) : Nat → List FVal → FVal
  | 0, l => l.headD .nan
  | n + 1, l => tree f n (pairUp f l)

/-- A float value written: exact, then the FO32 flush (R262). -/
def writtenFloat (mode : Word) (v : FVal) : Word := BitVec.ofNat 32 (Fmt.f32.xout mode (Fmt.f32.rnd .rz v))

/-- A float operand of `REDUX` and `SCAN`: `xin32`, with no modifiers (R262). -/
def Thread.redA (t : Thread) (x : Ext) (l : Nat) : FVal := Fmt.f32.xin t.mode (t.vr l x.a.toNat).toNat

/-- An integer operand of `REDUX` and `SCAN`. -/
def Thread.redI (t : Thread) (x : Ext) (l : Nat) : Addr := t.reg l x.a.toNat

/-- The values of a left-to-right fold after each element; the first element starts it. -/
def prefixes {α : Type} (f : α → α → α) : Option α → List α → List α
  | _, [] => []
  | acc, a :: t =>
    let s := match acc with | some p => f p a | none => a
    s :: prefixes f (some s) t

/-- The result of `REDUX` over the executing lanes (R262). -/
def reduxResult (t : Thread) (x : Ext) (ls : List Nat) : Word :=
  let op := x.mf 2 0
  if x.m 3 then
    let f := reduceFloat op (rmOf (x.mf 5 4) t.mode) t.mode
    writtenFloat t.mode (tree f 5 (ls.map (t.redA x)))
  else
    let y := intTy false x.ty
    match ls.map (t.redI x) with
    | [] => 0
    | a :: as => ((as.foldl (reduceInt op y) a).extractLsb' 0 32)

/-- The results of `SCAN`, one for each executing lane (R262). -/
def scanResults (t : Thread) (x : Ext) (ls : List Nat) : List Word :=
  let op := x.mf 2 0
  let excl := x.m 6
  if x.m 3 then
    let inc := prefixes (reduceFloat op (rmOf (x.mf 5 4) t.mode) t.mode) none (ls.map (t.redA x))
    (if excl then identityFloat op :: inc.dropLast else inc).map (writtenFloat t.mode)
  else
    let y := intTy false x.ty
    let inc := prefixes (reduceInt op y) none (ls.map (t.redI x))
    (if excl then identityInt op y :: inc.dropLast else inc).map (·.extractLsb' 0 32)

/-- `REDUX` (R262). -/
def execRedux (x : Ext) : State → Host.Outcome State Fault Refusal :=
  issueCompute (.redux x) (fun t =>
    let ls := t.lanes x.guard
    ls.map (fun l => .v l x.d.toNat (reduxResult t x ls)))

/-- `SCAN` (R262). -/
def execScan (x : Ext) : State → Host.Outcome State Fault Refusal :=
  issueCompute (.scan x) (fun t =>
    let ls := t.lanes x.guard
    (ls.zip (scanResults t x ls)).map (fun (l, w) => .v l x.d.toNat w))

/-! ### Match and first (R263) -/

/-- The value that `MATCH` compares: a register or a pair, as a bit pattern. -/
def matchValue (t : Thread) (x : Ext) (l : Nat) : Addr := if x.m 0 then t.pairA x l else t.reg l x.a.toNat

/-- `MATCH` (R263). -/
def execMatchLanes (x : Ext) : State → Host.Outcome State Fault Refusal :=
  issueCompute (.matchLanes x) (fun t =>
    let ls := t.lanes x.guard
    if x.m 1 then
      let same := ls.all (fun l => ls.all (fun k => matchValue t x l == matchValue t x k))
      ls.map (fun l => .p l x.d.toNat same)
    else
      ls.map (fun l => .v l x.d.toNat (maskOfLanes (ls.filter (fun k => matchValue t x k == matchValue t x l)))))

/-- `FIRST` (R263). -/
def execFirstLane (x : Ext) : State → Host.Outcome State Fault Refusal :=
  onThread (.firstLane x) (fun t =>
    match t.lanes x.guard with
    | [] => t
    | f :: _ =>
      t.putRegs x.guard x.d.toNat (fun _ => if x.m 0 then BitVec.ofNat 64 f else t.reg f x.a.toNat))

end Sys2Proof.Machine
end

