-- ==== Sys2Proof/Machine/Vm.lean ====
section
/-! DEFINITION. Invalidation, walks, page requests, teardown, dirty harvest, zeroing, binding tables, key slots and consent
(R148 to R156, R205, R210, R212). -/

namespace Sys2Proof.Machine

/-! ### Invalidation (R150, R151) -/

/-- A TLB entry that an invalidation of a partition names. One by IPA names the entries whose own range holds that address, not others
made from the same larger page of stage 2 (the model's choice; log entry 91). -/
def TlbEntry.named (e : TlbEntry) (part : Nat) : InvScope → Bool
  | .page ctx va => e.part == part && e.ctx == ctx && decide (e.page ≤ va) && decide (va < e.page + e.bytes)
  | .stage2 ipa => e.part == part && decide (e.xl.ipa ≤ ipa) && decide (ipa < e.xl.ipa + e.bytes)
  | .all => e.part == part
  | .host page => e.part == part && e.xl.space == .host && decide (e.xl.pa ≤ 4096 * page) && decide (4096 * page < e.xl.pa + e.bytes)

/-- The outstanding operations of a partition that hold a translation already made. -/
def State.translated (s : State) (part : Nat) : List Nat :=
  s.blocks.flatMap (fun (_, b) =>
    if b.part ≠ part then []
    else b.threads.flatMap (fun (_, t) => (t.ops.filter (fun o => o.xl.isSome)).map (·.id)))

/-- `TLB_INVALIDATE` (R150): the named entries leave every TLB of the partition; a host page that the host takes away is no
longer present (R151). -/
def execTlbInvalidate (part : Nat) (scope : InvScope) : State → Host.Outcome State Fault Refusal :=
  fun s =>
    .next { s with
      tlb := s.tlb.filter (fun e => !e.named part scope), invals := s.invals ++ [⟨part, s.translated part⟩],
      absent := match scope with | .host page => s.absent.wr false page true | _ => s.absent }

/-- Every access that used a removed translation has been performed. -/
def State.invalDone (s : State) (v : Inval) : Bool := v.waitFor.all (fun id => (s.findOp id).isNone)

/-- `INVALIDATE_ACK` (R150): the partition's oldest invalidation is acknowledged. -/
def execInvalidateAck (part : Nat) : State → Host.Outcome State Fault Refusal :=
  fun s =>
    .next (match s.invals.find? (·.part == part) with
      | none => s
      | some v =>
        if s.invalDone v then { s with invals := s.invals.erase v, toHost := s.toHost ++ [.invalidated part] } else s)

/-! ### Walks and page requests (R148, R149, R151, R152) -/

/-- The one global place that an operation translates. -/
def Op.globalPlace (o : Op) : Option (Nat × Addr) :=
  match o.kind with
  | .load (.global c a) _ _ | .store (.global c a) _ | .atomic (.global c a) _ _ | .release (.global c a) _ _ _
  | .acquire (.global c a) _ _ _ _ _ | .cwait (.global c a) _ _ | .cread (.global c a) _ => some (c, a)
  | _ => none

/-- The contexts that an operation translates through. -/
def Op.contexts (o : Op) : List Nat := o.ranges.filterMap (fun (p, _) => match p with | .global c _ => some c | .scratch .. => none)

/-- Gives an outstanding operation its translation. -/
def State.setXlat (s : State) (r : Thr) (id : Nat) (x : Xlat) : State :=
  s.updThr r (fun t => { t with ops := t.ops.map (fun o => if o.id = id then { o with xl := some x } else o) })

/-- `PAGE_WALK_COMPLETE` (R148): a walk for an outstanding operation ends; its translation enters the TLBs and serves the
operation. A walk that ends in a fault is found by `OPERATION_FAULT`. -/
def execPageWalkComplete (op : Nat) : State → Host.Outcome State Fault Refusal :=
  fun s =>
    .next (match s.findOp op with
      | none => s
      | some (r, o) =>
        match s.blk r.block, o.globalPlace, o.xl with
        | some b, some (c, a), none =>
          if !canonical a then s
          else
            match s.walkBoth c a with
            | .error _ => s
            | .ok (x, _) =>
              if x.space = .host ∧ s.absent.rd false (x.pa / 4096) then s else (s.fillTlb b.core c a).setXlat r op x
        | _, _, _ => s)

/-- The host has refused a page: the access that waits for it raises XLATE, or F1 or a port meets the refusal, when it is tried
again (R151). -/
def State.pageRefused (s : State) (q : PriReq) : State :=
  match q.owner with
  | .fetch r => s.updThr r (fun t => { t with denied := some q.page })
  | who => { s with refused := s.refused ++ [(who, q.page)] }

/-- `PRI_RESPONSE` (R151): on success the page is present and the access translates again; else it raises XLATE. A response
to no request, and one for a context that has been torn down, is dropped (R152). -/
def execPriResponse (request : Nat) (success : Bool) : State → Host.Outcome State Fault Refusal :=
  fun s =>
    .next (match s.pri.find? (·.id == request) with
      | none => s
      | some q =>
        let s := { s with pri := s.pri.filter (·.id != request) }
        if success then { s with absent := s.absent.wr false q.page false } else s.pageRefused q)

/-- `PASID_TEARDOWN` (R152): once nothing of the context is resident and no page request of it waits, the context and every
queue bound to it are dead. -/
def execPasidTeardown (pasid : Nat) : State → Host.Outcome State Fault Refusal :=
  fun s =>
    .next (match s.ctxs.look pasid with
      | none => s
      | some c =>
        if s.blocks.any (fun (_, b) => b.ctx == pasid) ∨ s.strays.any (fun y => y.op.contexts.contains pasid) ∨
            s.pri.any (fun q => q.ctx == pasid) then s
        else
          (({ s with ctxs := s.ctxs.ins pasid { c with dead := true }, tlb := s.tlb.filter (·.ctx != pasid) } : State).deadQueues
            (fun q => q.qcb.map (·.pasid) == some pasid)).dropLaunches (·.ctx == pasid))

/-! ### Dirty bits (R154, R207) -/

/-- An operation writes memory. -/
def Op.writes (o : Op) : Bool :=
  match o.kind with
  | .store .. | .atomic .. | .release .. | .copy .. | .acquire _ .cas .. | .acquire _ .xchg .. => true
  | _ => false

/-- A place of an operation of a core translates through a stage-2 leaf: by the translation that the operation holds, by one that
the TLBs hold, or by the tables. -/
def State.usesLeaf (s : State) (core : Nat) (held : Option Xlat) (leaf : Nat) : Place → Bool
  | .global c a =>
    match held, s.tlbHit core c a with
    | some x, _ => x.leaf == leaf
    | none, some e => (e.at a).leaf == leaf
    | none, none => match s.walkBoth c a with | .ok (x, _) => x.leaf == leaf | .error _ => false
  | .scratch .. => false

/-- An outstanding operation of a core writes through a stage-2 leaf. -/
def State.opThrough (s : State) (core leaf : Nat) (o : Op) : Bool :=
  o.writes && o.ranges.any (fun (p, _) => s.usesLeaf core o.xl leaf p)

/-- A completion pair adds to a counter. -/
def adds (c : Option CmpPair) : Bool := match c with | some p => p.inc != 0 | none => false

/-- A command writes memory: a copy or a drain, its counter add, a send that adds. -/
def Cmd.writes (c : Cmd) : Bool := (match c.kind with | .tcpy .. | .drain .. => true | _ => false) || adds c.cmp

/-- A thread has issued a write that goes through a stage-2 leaf, or a fired send that has still to make its add. -/
def State.threadThrough (s : State) (core leaf : Nat) (t : Thread) : Bool :=
  (t.ops ++ t.withdrawn ++ t.held).any (s.opThrough core leaf) || t.firing.any (fun a => adds a.cmp)

/-- A write already issued goes through a stage-2 leaf: that of an outstanding operation or of a killed item, or, as only their
records tell where they write, any that a command, a fired send or a receive of the partition still has to make (log entry 68). -/
def State.writesThrough (s : State) (part leaf : Nat) : Bool :=
  s.blocks.any (fun (_, b) => b.part == part && b.threads.any (fun (_, t) => s.threadThrough b.core leaf t)) ||
    s.strays.any (fun y => s.opThrough (y.block / Config.slots) leaf y.op) ||
    s.allCmds.any (fun c => c.writes && (match s.blk c.block with | some b => b.part == part | none => false)) ||
    s.sends.any (fun (_, r) => r.fired && adds r.cmp && (match s.ctxs.look r.ctx with | some c => c.part == part | none => false)) ||
    s.ports.any (fun (_, p) => p.receiving.any (fun r => match s.knownConn r.conn with | some c => c.part == part | none => false))

/-- `DIRTY_HARVEST` (R154): an atomic test-and-clear of a stage-2 entry's dirty bit, once the writes issued through it are
performed; held while F3 is updated. -/
def execDirtyHarvest (part ipa : Nat) : State → Host.Outcome State Fault Refusal :=
  fun s =>
    .next (match s.stage2 part ipa with
      | .error _ => s
      | .ok (_, e, _, leaf) =>
        if s.updating 3 ∨ s.writesThrough part leaf then s
        else
          { s with
            dram := writeMem s.dram leaf (bytesOf (e &&& ~~~(1#64 <<< 52)).toNat 8),
            toHost := s.toHost ++ [.harvest part ipa (e.getLsbD 52)] })

/-! ### Zeroing and key slots (R153, R156, R212, R213) -/

/-- DRAM at an address belongs to no partition that still has bound items. -/
def State.idleDram (s : State) (pa : Nat) : Bool :=
  s.parts.all (fun (k, p) =>
    !(decide (p.info.dramBase ≤ pa) && decide (pa < p.info.dramBase + p.info.dramGiB * 2 ^ 30)) || s.allRetired k)

/-- `PAGE_ZERO` (R156): a DRAM page, a vault segment or a key slot is cleared before a new owner gets it. -/
def execPageZero (site : ZeroSite) : State → Host.Outcome State Fault Refusal :=
  fun s =>
    .next (match site with
      | .page pa => if s.idleDram (pa / 4096 * 4096) then s.zeroDram (pa / 4096 * 4096) 4096 else s
      | .segment die u => if s.namedSegments.contains (die * 256 + u) ∨ s.updating 3 then s else s.zeroSegment (die * 256 + u)
      | .key slot =>
        if slot = 0 ∨ 512 ≤ slot ∨ s.updating 0 ∨ s.keyNamed slot then s
        else { s with keys := s.keys.ins slot { (s.keys.rd .blank slot) with owner := 0xFF, state := 0, gen := (s.keys.rd .blank slot).gen + 1 } })

/-- F0 carries out a request that it has accepted, the oldest of those it keeps (R199; log entry 25); with none, and while it is
updated (R361), it does nothing. -/
def State.onRequest (s : State) (f : State → State) : State :=
  match s.requests with
  | [] => s
  | _ :: ms => if s.updating 0 then s else f { s with requests := ms }

/-- `KEY_SLOT_LOAD` (R153, R199, R212): on a request F0 loads a free slot of 1 to 511 and assigns it to a partition, or only loads
it (owner 0xFF). -/
def execKeySlotLoad (slot : Nat) (owner : Nat) : State → Host.Outcome State Fault Refusal :=
  fun s =>
    .next (s.onRequest (fun s =>
      let k := s.keys.rd .blank slot
      if slot = 0 ∨ 512 ≤ slot ∨ k.state = 2 then s
      else if owner = 0xFF then { s with keys := s.keys.ins slot { k with owner := 0xFF, state := 1 } }
      else if (s.parts.look owner).isSome then { s with keys := s.keys.ins slot { k with owner, state := 2 } }
      else s))

/-! ### Binding tables and consent (R169, R205, R210) -/

/-- The 32 bytes in DRAM of a binding table's entry (R157, R205). -/
def Context.entryBytes (c : Context) (idx : Nat) : List Byte :=
  match c.binding.look idx with
  | some e => bytesOf e.base 8 ++ bytesOf e.length 8 ++ bytesOf e.obj 8 ++ bytesOf (if e.valid then 1 else 0) 8
  | none => bytesOf 0 32

/-- Two binding entries' regions share a byte. -/
def bindMeets (a b : BindEntry) : Bool :=
  a.valid && b.valid && decide (a.base < b.base + b.length) && decide (b.base < a.base + a.length)

/-- The synchronisation object lies in a replicated page (R169). -/
def State.objReplicated (s : State) (ctx obj : Nat) : Bool :=
  match s.walkBoth ctx (BitVec.ofNat 64 obj) with | .ok (x, _) => x.repl | .error _ => false

/-- F3 accepts a binding entry (R205). One with a reserved bit set it does not: the former entry stays (R6; the model's choice, log
entry 87). -/
def State.bindingOk (s : State) (ctx : Nat) (c : Context) (idx : Nat) (e : BindEntry) : Bool :=
  e.rest == 0 && decide (idx < 1024) && e.base % 4096 == 0 && e.length % 4096 == 0 && e.obj % 64 == 0 &&
    !c.binding.any (fun (i, o) => i != idx && bindMeets e o) && !(e.valid && s.objReplicated ctx e.obj)

/-- No launch of a context is resident: no block of it has a context slot, be it saved or killed; a launch with nothing bound does not
count (the model's choice; log entry 94). -/
def State.ctxIdle (s : State) (ctx : Nat) : Bool := !s.blocks.any (fun (_, b) => b.ctx == ctx)

/-- Puts a binding entry, if F3 accepts it. One with VALID 0 is accepted whatever other region it overlaps and whatever page its object
lies in, and takes the place of what stood at its index (the model's choice; log entry 94). -/
def State.putBinding (s : State) (ctx idx : Nat) (e : BindEntry) : State :=
  match s.ctxs.look ctx with
  | none => s
  | some c =>
    if s.bindingOk ctx c idx e then
      { s with ctxs := s.ctxs.ins ctx { c with binding := c.binding.ins idx e } }
    else s

/-- Changes of a context's binding table are held. -/
def State.holdsChange (s : State) (ctx : Nat) : Bool := match s.ctxs.look ctx with | some c => !c.heldChange.isEmpty | none => false

/-- `BINDING_CHANGE` (R205): applied while no launch of the context is resident, else held; also while F3 is updated, and behind
changes that are held already. -/
def execBindingChange (ctx idx : Nat) (entry : BindEntry) : State → Host.Outcome State Fault Refusal :=
  fun s =>
    .next (
      if s.ctxIdle ctx ∧ !s.updating 3 ∧ !s.holdsChange ctx then s.putBinding ctx idx entry
      else { s with ctxs := s.ctxs.upd ctx (fun c => { c with heldChange := c.heldChange ++ [(idx, entry)] }) })

/-- F3 applies the held changes of contexts that have become idle (R205). -/
def State.applyHeld (s : State) : State :=
  if s.updating 3 then s
  else
    s.ctxs.foldl (fun s (k, c) =>
      if c.heldChange ≠ [] ∧ s.ctxIdle k then
        c.heldChange.foldl (fun s (i, e) => s.putBinding k i e)
          { s with ctxs := s.ctxs.upd k (fun c => { c with heldChange := [] }) }
      else s) s

/-- `CONSENT_UPDATE` (R199, R210): F0 writes one of a partition's 64 entries on its owner's request. One with a reserved bit set it
does not write: the former entry stays (R6; the model's choice, log entry 87). -/
def execConsentUpdate (part idx : Nat) (entry : Consent) : State → Host.Outcome State Fault Refusal :=
  fun s =>
    .next (s.onRequest (fun s =>
      if 64 ≤ idx ∨ entry.rest ≠ 0 then s else s.updPart part (fun p => { p with consent := p.consent.ins idx entry })))

end Sys2Proof.Machine
end

