-- ==== Sys2Proof/Machine/Power.lean ====
section
/-! DEFINITION. Device time, the power governor, the power hold, telemetry and refresh calendars (R45 to R48, R143, R217,
R363). -/

namespace Sys2Proof.Machine

/-- One advance of NOW in a sleeping thread (R332). -/
def Thread.tick (t : Thread) : Thread :=
  match t.hold with
  | .sleep (n + 1) => { t with hold := .sleep n }
  | _ => t

/-- F0 accepts a request that touches key slots, attestation or escrow pools only from a sender that it permits; the other cores
accept none (R199; log entry 25). -/
def accepted (receiver : Nat) (m : Mail) : Bool := receiver == 0 && Config.permits m.sender m.body

/-- Firmware cores that run take the oldest entry of their mailboxes (R183); F0 keeps the requests that it accepts (R199; log
entry 25). -/
def State.readMail (s : State) : State :=
  let read := s.mail.filterMap (fun (k, m) => if s.updating k then none else m.head?.map (fun e => (k, e)))
  { s with
    mail := s.mail.map (fun (k, m) => (k, if s.updating k then m else m.drop 1)),
    requests := s.requests ++ (read.filter (fun (k, e) => accepted k e)).map Prod.snd }

/-- `DEVICE_TIME_TICK` (R217): NOW advances and wraps at 2^48; F6 logs the wrap. Sleeping threads count (R332), F3 applies
binding changes that waited (R205), firmware cores read their mailboxes, F0 loads connection keys that waited (R359). -/
def execDeviceTimeTick : State → Host.Outcome State Fault Refusal :=
  fun s =>
    .next (
      if !s.ready then s
      else
        let s := { s with now := s.now + 1, blocks := Tab.mapVals s.blocks (fun b => b.mapThreads Thread.tick) }
        let s := s.applyHeld.readMail.loadConns
        if s.now = 0 then s.logDevice else s)

/-- `GOVERNOR_TICK` (R45, R47): F6 sets each gang's issue rate, n of 64 with n from 8 to 64, and samples module power. The
hold ends when power is below the cap. While F6 is updated the last rates stand (R361). -/
def execGovernorTick (rates : List Nat) (watts : Nat) : State → Host.Outcome State Fault Refusal :=
  fun s =>
    .next (
      if s.updating 6 ∨ rates.length ≠ Config.gangs ∨ !rates.all (fun n => decide (8 ≤ n) && decide (n ≤ 64)) then s
      else
        { s with
          gangs := rates.zipIdx.foldl (fun t (n, g) => t.ins g { t.rd GangState.blank g with rate := n }) s.gangs,
          watts,
          lowSince := if rates.all (· == 8) then (match s.lowSince with | some t => some t | none => some s.now) else none,
          powerHold := s.powerHold && decide (s.manifest.capWatts ≤ watts) })

/-- `POWER_HOLD` (R47): every gang has been at rate 8/64 for 10 ms and power is still above the cap. -/
def execPowerHold : State → Host.Outcome State Fault Refusal :=
  fun s =>
    .next (match s.lowSince with
      | none => s
      | some t =>
        if 10000 ≤ (s.now - t).toNat ∧ s.manifest.capWatts < s.watts ∧ !s.powerHold ∧ !s.updating 6 then
          ({ s with powerHold := true } : State).logDevice
        else s)

/-- The report's bytes 8 to 153 (R363). -/
def State.report (s : State) (temps : List Nat) : List Byte :=
  bytesOf s.now.toNat 6 ++ bytesOf s.manifest.capWatts 2 ++ bytesOf s.watts 2 ++
    (List.range Config.gangs).map (fun g => BitVec.ofNat 8 (s.gangs.rd .blank g).rate) ++
    (List.range 4).flatMap (fun d => bytesOf (temps.getD d 0) 2) ++
    (List.range 4).flatMap (fun d => (s.dies.rd .blank d).soft.flatMap (fun x => bytesOf x.toNat 4)) ++
    (List.range 4).flatMap (fun d => bytesOf (s.dies.rd .blank d).uassay.toNat 4)

/-- `TELEMETRY_REFRESH` (R363): F6 makes the next of a refresh's three writes: SEQ odd, the body, SEQ even; not while it is updated
(R361). -/
def execTelemetryRefresh (temps : List Nat) : State → Host.Outcome State Fault Refusal :=
  fun s =>
    .next (
      if s.updating 6 then s
      else if !s.telemetrySeq.getLsbD 0 then { s with telemetrySeq := s.telemetrySeq + 1, telemetryBody := false }
      else if s.telemetryBody then { s with telemetrySeq := s.telemetrySeq + 1 }
      else { s with telemetry := s.report temps, telemetryBody := true })

/-- `CALENDAR_RECALIBRATE` (R143): only while no resident launch names a vault segment of the die. -/
def execCalendarRecalibrate (die : Nat) (epoch : BitVec 48) : State → Host.Outcome State Fault Refusal :=
  fun s =>
    .next (
      if 4 ≤ die ∨ s.namedSegments.any (fun u => u / 256 == die) ∨ s.updating 6 then s
      else
        let d := s.dies.rd .blank die
        { s with dies := s.dies.ins die { d with gen := d.gen + 1, epoch } })

end Sys2Proof.Machine
end

