-- ==== Sys2Proof/Machine/Dispatch.lean ====
section
/-! DEFINITION. The dispatch: one arm per constructor of `Instr`, each a direct call of its meaning. -/

namespace Sys2Proof.Machine

/-- Performs one instruction of the current thread, or one event. -/
def exec (i : Instr) (s : State) : Host.Outcome State Fault Refusal :=
  match i with
  | .bra x => Sys2Proof.Machine.execBra x s
  | .btab x => Sys2Proof.Machine.execBtab x s
  | .call x => Sys2Proof.Machine.execCall x s
  | .callt x => Sys2Proof.Machine.execCallt x s
  | .ret x => Sys2Proof.Machine.execRet x s
  | .join x => Sys2Proof.Machine.execJoin x s
  | .leave x => Sys2Proof.Machine.execLeave x s
  | .waitm x => Sys2Proof.Machine.execWaitm x s
  | .mmov x => Sys2Proof.Machine.execMmov x s
  | .mrd x => Sys2Proof.Machine.execMrd x s
  | .exit x => Sys2Proof.Machine.execExit x s
  | .yield x => Sys2Proof.Machine.execYield x s
  | .nop x => Sys2Proof.Machine.execNop x s
  | .trap x => Sys2Proof.Machine.execTrap x s
  | .bkpt x => Sys2Proof.Machine.execBkpt x s
  | .iadd x => Sys2Proof.Machine.execIadd x s
  | .iaddCompact c => Sys2Proof.Machine.execIaddCompact c s
  | .isub x => Sys2Proof.Machine.execIsub x s
  | .isubCompact c => Sys2Proof.Machine.execIsubCompact c s
  | .ineg x => Sys2Proof.Machine.execIneg x s
  | .inegCompact c => Sys2Proof.Machine.execInegCompact c s
  | .iabs x => Sys2Proof.Machine.execIabs x s
  | .iabsCompact c => Sys2Proof.Machine.execIabsCompact c s
  | .imin x => Sys2Proof.Machine.execImin x s
  | .imax x => Sys2Proof.Machine.execImax x s
  | .imul x => Sys2Proof.Machine.execImul x s
  | .imulh x => Sys2Proof.Machine.execImulh x s
  | .imad x => Sys2Proof.Machine.execImad x s
  | .imad64 x => Sys2Proof.Machine.execImad64 x s
  | .iadd64 x => Sys2Proof.Machine.execIadd64 x s
  | .isub64 x => Sys2Proof.Machine.execIsub64 x s
  | .and x => Sys2Proof.Machine.execAnd x s
  | .andCompact c => Sys2Proof.Machine.execAndCompact c s
  | .or x => Sys2Proof.Machine.execOr x s
  | .orCompact c => Sys2Proof.Machine.execOrCompact c s
  | .xor x => Sys2Proof.Machine.execXor x s
  | .xorCompact c => Sys2Proof.Machine.execXorCompact c s
  | .andn x => Sys2Proof.Machine.execAndn x s
  | .andnCompact c => Sys2Proof.Machine.execAndnCompact c s
  | .not x => Sys2Proof.Machine.execNot x s
  | .sel x => Sys2Proof.Machine.execSel x s
  | .shl x => Sys2Proof.Machine.execShl x s
  | .shlCompact c => Sys2Proof.Machine.execShlCompact c s
  | .shr x => Sys2Proof.Machine.execShr x s
  | .shrCompact c => Sys2Proof.Machine.execShrCompact c s
  | .sar x => Sys2Proof.Machine.execSar x s
  | .sarCompact c => Sys2Proof.Machine.execSarCompact c s
  | .rol x => Sys2Proof.Machine.execRol x s
  | .rolCompact c => Sys2Proof.Machine.execRolCompact c s
  | .bfx x => Sys2Proof.Machine.execBfx x s
  | .bfi x => Sys2Proof.Machine.execBfi x s
  | .brev x => Sys2Proof.Machine.execBrev x s
  | .clz x => Sys2Proof.Machine.execClz x s
  | .popc x => Sys2Proof.Machine.execPopc x s
  | .icmp x => Sys2Proof.Machine.execIcmp x s
  | .iset x => Sys2Proof.Machine.execIset x s
  | .plop x => Sys2Proof.Machine.execPlop x s
  | .mov x => Sys2Proof.Machine.execMov x s
  | .movCompact c => Sys2Proof.Machine.execMovCompact c s
  | .movl f => Sys2Proof.Machine.execMovl f s
  | .lea x => Sys2Proof.Machine.execLea x s
  | .sread x => Sys2Proof.Machine.execSread x s
  | .fadd x => Sys2Proof.Machine.execFadd x s
  | .faddCompact c => Sys2Proof.Machine.execFaddCompact c s
  | .fsub x => Sys2Proof.Machine.execFsub x s
  | .fsubCompact c => Sys2Proof.Machine.execFsubCompact c s
  | .fmul x => Sys2Proof.Machine.execFmul x s
  | .fmulCompact c => Sys2Proof.Machine.execFmulCompact c s
  | .ffma x => Sys2Proof.Machine.execFfma x s
  | .ffmaCompact c => Sys2Proof.Machine.execFfmaCompact c s
  | .fmin x => Sys2Proof.Machine.execFmin x s
  | .fmax x => Sys2Proof.Machine.execFmax x s
  | .frcp x => Sys2Proof.Machine.execFrcp x s
  | .frsq x => Sys2Proof.Machine.execFrsq x s
  | .fsqrt x => Sys2Proof.Machine.execFsqrt x s
  | .fexp2 x => Sys2Proof.Machine.execFexp2 x s
  | .flog2 x => Sys2Proof.Machine.execFlog2 x s
  | .frnd x => Sys2Proof.Machine.execFrnd x s
  | .fclass x => Sys2Proof.Machine.execFclass x s
  | .fcmp x => Sys2Proof.Machine.execFcmp x s
  | .fset x => Sys2Proof.Machine.execFset x s
  | .hadd2 x => Sys2Proof.Machine.execHadd2 x s
  | .hmul2 x => Sys2Proof.Machine.execHmul2 x s
  | .hfma2 x => Sys2Proof.Machine.execHfma2 x s
  | .hmin2 x => Sys2Proof.Machine.execHmin2 x s
  | .hmax2 x => Sys2Proof.Machine.execHmax2 x s
  | .cvt x => Sys2Proof.Machine.execCvt x s
  | .pk8 x => Sys2Proof.Machine.execPk8 x s
  | .upk8 x => Sys2Proof.Machine.execUpk8 x s
  | .qvec x => Sys2Proof.Machine.execQvec x s
  | .dqv x => Sys2Proof.Machine.execDqv x s
  | .trpk x => Sys2Proof.Machine.execTrpk x s
  | .trup x => Sys2Proof.Machine.execTrup x s
  | .trchk x => Sys2Proof.Machine.execTrchk x s
  | .lxch x => Sys2Proof.Machine.execLxch x s
  | .vote x => Sys2Proof.Machine.execVote x s
  | .redux x => Sys2Proof.Machine.execRedux x s
  | .scan x => Sys2Proof.Machine.execScan x s
  | .matchLanes x => Sys2Proof.Machine.execMatchLanes x s
  | .firstLane x => Sys2Proof.Machine.execFirstLane x s
  | .ld x => Sys2Proof.Machine.execLd x s
  | .ldCompact c => Sys2Proof.Machine.execLdCompact c s
  | .st x => Sys2Proof.Machine.execSt x s
  | .stCompact c => Sys2Proof.Machine.execStCompact c s
  | .lds x => Sys2Proof.Machine.execLds x s
  | .ldsCompact c => Sys2Proof.Machine.execLdsCompact c s
  | .sts x => Sys2Proof.Machine.execSts x s
  | .stsCompact c => Sys2Proof.Machine.execStsCompact c s
  | .ldg x => Sys2Proof.Machine.execLdg x s
  | .ldgCompact c => Sys2Proof.Machine.execLdgCompact c s
  | .stg x => Sys2Proof.Machine.execStg x s
  | .stgCompact c => Sys2Proof.Machine.execStgCompact c s
  | .ldc x => Sys2Proof.Machine.execLdc x s
  | .pref x => Sys2Proof.Machine.execPref x s
  | .stz x => Sys2Proof.Machine.execStz x s
  | .atom x => Sys2Proof.Machine.execAtom x s
  | .cas x => Sys2Proof.Machine.execCas x s
  | .atomr x => Sys2Proof.Machine.execAtomr x s
  | .rel x => Sys2Proof.Machine.execRel x s
  | .acq x => Sys2Proof.Machine.execAcq x s
  | .etrig x => Sys2Proof.Machine.execEtrig x s
  | .cpy x => Sys2Proof.Machine.execCpy x s
  | .cwait x => Sys2Proof.Machine.execCwait x s
  | .cread x => Sys2Proof.Machine.execCread x s
  | .gath x => Sys2Proof.Machine.execGath x s
  | .tlds x => Sys2Proof.Machine.execTlds x s
  | .tsts x => Sys2Proof.Machine.execTsts x s
  | .tzero x => Sys2Proof.Machine.execTzero x s
  | .vld x => Sys2Proof.Machine.execVld x s
  | .tmma x => Sys2Proof.Machine.execTmma x s
  | .fmma x => Sys2Proof.Machine.execFmma x s
  | .drain x => Sys2Proof.Machine.execDrain x s
  | .aclr x => Sys2Proof.Machine.execAclr x s
  | .astat x => Sys2Proof.Machine.execAstat x s
  | .tcpy x => Sys2Proof.Machine.execTcpy x s
  | .evwait x => Sys2Proof.Machine.execEvwait x s
  | .evpop x => Sys2Proof.Machine.execEvpop x s
  | .eqstat x => Sys2Proof.Machine.execEqstat x s
  | .lsend x => Sys2Proof.Machine.execLsend x s
  | .larm x => Sys2Proof.Machine.execLarm x s
  | .ldisarm x => Sys2Proof.Machine.execLdisarm x s
  | .saddc x => Sys2Proof.Machine.execSaddc x s
  | .smulc x => Sys2Proof.Machine.execSmulc x s
  | .strunc x => Sys2Proof.Machine.execStrunc x s
  | .gsnd x => Sys2Proof.Machine.execGsnd x s
  | .gfin x => Sys2Proof.Machine.execGfin x s
  | .gstat x => Sys2Proof.Machine.execGstat x s
  | .gxand x => Sys2Proof.Machine.execGxand x s
  | .edab x => Sys2Proof.Machine.execEdab x s
  | .gopen x => Sys2Proof.Machine.execGopen x s
  | .csrr x => Sys2Proof.Machine.execCsrr x s
  | .csrw x => Sys2Proof.Machine.execCsrw x s
  | .csrs x => Sys2Proof.Machine.execCsrs x s
  | .csrc x => Sys2Proof.Machine.execCsrc x s
  | .rte x => Sys2Proof.Machine.execRte x s
  | .hcall x => Sys2Proof.Machine.execHcall x s
  | .clk x => Sys2Proof.Machine.execClk x s
  | .sleep x => Sys2Proof.Machine.execSleep x s
  | .clauseBoundary t => Sys2Proof.Machine.execClauseBoundary t s
  | .issueSlotGrant core => Sys2Proof.Machine.execIssueSlotGrant core s
  | .streamStallEnd t => Sys2Proof.Machine.execStreamStallEnd t s
  | .operationComplete op => Sys2Proof.Machine.execOperationComplete op s
  | .operationFault op => Sys2Proof.Machine.execOperationFault op s
  | .releasePerform op => Sys2Proof.Machine.execReleasePerform op s
  | .waitgeSatisfied op => Sys2Proof.Machine.execWaitgeSatisfied op s
  | .cwaitSatisfied t => Sys2Proof.Machine.execCwaitSatisfied t s
  | .evwaitSatisfied t => Sys2Proof.Machine.execEvwaitSatisfied t s
  | .sleepEnd t => Sys2Proof.Machine.execSleepEnd t s
  | .hcallReply t => Sys2Proof.Machine.execHcallReply t s
  | .hcallTimeout t => Sys2Proof.Machine.execHcallTimeout t s
  | .counterAdd op => Sys2Proof.Machine.execCounterAdd op s
  | .engineCommandStart core eng => Sys2Proof.Machine.execEngineCommandStart core eng s
  | .engineCommandComplete core eng => Sys2Proof.Machine.execEngineCommandComplete core eng s
  | .vldStallEnd core nsInPeriod => Sys2Proof.Machine.execVldStallEnd core nsInPeriod s
  | .arrayStep core eng errs => Sys2Proof.Machine.execArrayStep core eng errs s
  | .probeTokenSend core eng => Sys2Proof.Machine.execProbeTokenSend core eng s
  | .probeTokenHop token => Sys2Proof.Machine.execProbeTokenHop token s
  | .trapDelivery t => Sys2Proof.Machine.execTrapDelivery t s
  | .preemptRequest block => Sys2Proof.Machine.execPreemptRequest block s
  | .preemptSave block => Sys2Proof.Machine.execPreemptSave block s
  | .largeStateEvict block unit => Sys2Proof.Machine.execLargeStateEvict block unit s
  | .blockResume block => Sys2Proof.Machine.execBlockResume block s
  | .bindItem gang => Sys2Proof.Machine.execBindItem gang s
  | .dispatchStart gang => Sys2Proof.Machine.execDispatchStart gang s
  | .jointReserve launch0 launch1 gang0 gang1 => Sys2Proof.Machine.execJointReserve launch0 launch1 gang0 gang1 s
  | .jointRollback launch0 => Sys2Proof.Machine.execJointRollback launch0 s
  | .blockRetire block => Sys2Proof.Machine.execBlockRetire block s
  | .kick q w => Sys2Proof.Machine.execKick q w s
  | .cancel q w => Sys2Proof.Machine.execCancel q w s
  | .packetFetch q => Sys2Proof.Machine.execPacketFetch q s
  | .packetRecheck q => Sys2Proof.Machine.execPacketRecheck q s
  | .launchPacket q => Sys2Proof.Machine.execLaunchPacket q s
  | .counterWritePacket q => Sys2Proof.Machine.execCounterWritePacket q s
  | .counterWaitPacket q => Sys2Proof.Machine.execCounterWaitPacket q s
  | .counterWaitSatisfied q => Sys2Proof.Machine.execCounterWaitSatisfied q s
  | .noOperationPacket q => Sys2Proof.Machine.execNoOperationPacket q s
  | .packetOrderRelease q => Sys2Proof.Machine.execPacketOrderRelease q s
  | .qcbCommit q => Sys2Proof.Machine.execQcbCommit q s
  | .f1WatchdogReset => Sys2Proof.Machine.execF1WatchdogReset s
  | .itemKill item cause => Sys2Proof.Machine.execItemKill item cause s
  | .retireNotice gen receiver => Sys2Proof.Machine.execRetireNotice gen receiver s
  | .retireMarker gen receiver core => Sys2Proof.Machine.execRetireMarker gen receiver core s
  | .generationRetired gen => Sys2Proof.Machine.execGenerationRetired gen s
  | .uncorrectableError site => Sys2Proof.Machine.execUncorrectableError site s
  | .softErrorCorrected die kind => Sys2Proof.Machine.execSoftErrorCorrected die kind s
  | .partitionReset part => Sys2Proof.Machine.execPartitionReset part s
  | .deviceTimeTick => Sys2Proof.Machine.execDeviceTimeTick s
  | .governorTick rates watts => Sys2Proof.Machine.execGovernorTick rates watts s
  | .powerHold => Sys2Proof.Machine.execPowerHold s
  | .telemetryRefresh temps => Sys2Proof.Machine.execTelemetryRefresh temps s
  | .calendarRecalibrate die epoch => Sys2Proof.Machine.execCalendarRecalibrate die epoch s
  | .tlbInvalidate part scope => Sys2Proof.Machine.execTlbInvalidate part scope s
  | .invalidateAck part => Sys2Proof.Machine.execInvalidateAck part s
  | .pageWalkComplete op => Sys2Proof.Machine.execPageWalkComplete op s
  | .priResponse request success => Sys2Proof.Machine.execPriResponse request success s
  | .pasidTeardown pasid => Sys2Proof.Machine.execPasidTeardown pasid s
  | .dirtyHarvest part ipa => Sys2Proof.Machine.execDirtyHarvest part ipa s
  | .pageZero site => Sys2Proof.Machine.execPageZero site s
  | .bindingChange ctx idx entry => Sys2Proof.Machine.execBindingChange ctx idx entry s
  | .keySlotLoad slot owner => Sys2Proof.Machine.execKeySlotLoad slot owner s
  | .consentUpdate part idx entry => Sys2Proof.Machine.execConsentUpdate part idx entry s
  | .gatePacketArrive op => Sys2Proof.Machine.execGatePacketArrive op s
  | .gateTimeout exchange => Sys2Proof.Machine.execGateTimeout exchange s
  | .gateVerdict op => Sys2Proof.Machine.execGateVerdict op s
  | .armedSendFire block idx => Sys2Proof.Machine.execArmedSendFire block idx s
  | .flitReceive port flit => Sys2Proof.Machine.execFlitReceive port flit s
  | .flitNak port seq => Sys2Proof.Machine.execFlitNak port seq s
  | .receiveCounterAdd port => Sys2Proof.Machine.execReceiveCounterAdd port s
  | .connectionRegister conn byPeer c => Sys2Proof.Machine.execConnectionRegister conn byPeer c s
  | .atomicopCompletion op ok => Sys2Proof.Machine.execAtomicopCompletion op ok s
  | .hostApertureAccess fn b => Sys2Proof.Machine.execHostApertureAccess fn b s
  | .cxlMemAccess fn a => Sys2Proof.Machine.execCxlMemAccess fn a s
  | .poisonForwardEnable fn cxl on => Sys2Proof.Machine.execPoisonForwardEnable fn cxl on s
  | .lockInterfaceRequest fn => Sys2Proof.Machine.execLockInterfaceRequest fn s
  | .startInterfaceRequest fn => Sys2Proof.Machine.execStartInterfaceRequest fn s
  | .stopInterfaceRequest fn => Sys2Proof.Machine.execStopInterfaceRequest fn s
  | .tdiError fn cause => Sys2Proof.Machine.execTdiError fn cause s
  | .firmwareUpdate core version image => Sys2Proof.Machine.execFirmwareUpdate core version image s
  | .firmwareReadyTimeout core => Sys2Proof.Machine.execFirmwareReadyTimeout core s
  | .firmwareReady core => Sys2Proof.Machine.execFirmwareReady core s
  | .powerUp epochs => Sys2Proof.Machine.execPowerUp epochs s
  | .queueCreate q c => Sys2Proof.Machine.execQueueCreate q c s
  | .msixRaise fn => Sys2Proof.Machine.execMsixRaise fn s
  | .partitionChange part p entries => Sys2Proof.Machine.execPartitionChange part p entries s
  | .cxlSnoop hostAddr => Sys2Proof.Machine.execCxlSnoop hostAddr s
  | .interfaceReport fn => Sys2Proof.Machine.execInterfaceReport fn s
  | .mailboxMessage sender receiver body => Sys2Proof.Machine.execMailboxMessage sender receiver body s
  | .registerWrite r value => Sys2Proof.Machine.execRegisterWrite r value s
  | .spdmRequest request => Sys2Proof.Machine.execSpdmRequest request s

end Sys2Proof.Machine
end

