-- ==== Sys2Proof/Machine/Own.lean ====
section
/-! DEFINITION. The DRAM that F0 and F3 keep for themselves: binding tables, escrow pools and context save areas, whose bytes are what
the records beside the contexts and blocks say (R132, R157, R205, R209; log entry 31). -/

namespace Sys2Proof.Machine

/-- Writes bytes into a partition's own area, at the place of a table's entry, a pool's entry or a save area. No rule gives the place:
a free value (log entry 31). Bytes that the area has no room for have no place there. -/
def State.putOwn (s : State) (part kind owner i : Nat) (bs : List Byte) : State :=
  match s.parts.look part with
  | none => s
  | some p =>
    if p.info.ownBytes < bs.length then s
    else
      let off := Config.ownPlace kind owner i % (p.info.ownBytes - bs.length + 1)
      { s with dram := writeMem s.dram (p.info.ownBase + off) bs }

/-- F3 has written a context's binding table (R205). -/
def State.putTable (s : State) (k : Nat) (c : Context) : State :=
  if c.dead then s
  else c.binding.foldl (fun s (idx, _) => s.putOwn c.part 0 k idx (c.entryBytes idx)) s

/-- F0 has dealt a block's pools, and the gate has burnt what is burnt of them (R209, R313). -/
def State.putPools (s : State) (b : Block) (g : Gate) : State :=
  [GateKind.arith, .binary, .eda].foldl (fun s kind =>
    (List.range (32 * b.warpN)).foldl (fun s key =>
      let lane := b.blockId * 1024 + key
      (List.range g.triples).foldl (fun s i =>
        s.putOwn b.part (1 + kind.no) b.item (lane * 1024 + i) (g.entryBytes (s.jointItem b) kind b.party lane key i)) s) s) s

/-- A thread's small state, as numbers: what its image in the save area depends on (R132). -/
def Thread.small (t : Thread) : List Nat :=
  (List.range 32).flatMap (fun l => (t.pcOf l).toNat :: (List.range 8).map (fun p => (t.pr l p).toNat)) ++
    (List.range 12).map (fun n => (t.mr n).toNat) ++ (List.range 64).map (fun r => (t.kr r).toNat) ++
    [t.exited.toNat, t.mode.toNat, t.promo.toNat, t.assayctl.toNat, t.assaycnt.toNat, t.quiet] ++ t.evq.map (·.toNat)

/-- A pre-empted block's small state has been copied to its save area, whose layout no rule gives: a free image (R132; log
entry 31). -/
def State.putSaved (s : State) (k : Nat) (b : Block) : State :=
  s.putOwn b.part 4 k 0 (Config.saveImage (b.threads.flatMap (fun (_, t) => t.small) ++ [b.trapbase.toNat, b.gatectl.toNat]))

/-- The areas of F0 and F3 hold what the contexts' tables, the blocks' pools and the saved blocks say (R132, R157, R205, R209). -/
def State.writeOwn (s : State) : State :=
  let u := s.ctxs.foldl (fun s (k, c) => s.putTable k c) s
  s.blocks.foldl (fun u (k, b) =>
    let u := match b.gate with | some g => u.putPools b g | none => u
    if b.run = .saved then u.putSaved k b else u) u

end Sys2Proof.Machine
end

