-- ==== Sys2Proof/Machine/Ranges.lean ====
section
/-! DEFINITION. What a waiting engine command touches: the bytes that its record or descriptor tells (R28, R160, R161, R208, R303,
R306). -/

namespace Sys2Proof.Machine

/-! ### What a record tells -/

/-- The bytes from a generic address on. -/
def State.span (s : State) (block : Nat) (a : Addr) (n : Nat) : List Extent := [.bytes (s.placeOf block a) n]

/-- The record or descriptor that tells a command's bytes: its address and its greatest length. -/
def CmdKind.record : CmdKind → Option (Addr × Nat)
  | .gath _ rec => some (rec, 1036)
  | .drain _ _ _ rec _ _ _ => rec.map (fun r => (r, 1036))
  | .tcpy _ _ desc _ _ _ _ => some (desc, 64)
  | .lsend desc => some (desc, 64)
  | _ => none

/-- The bytes of a copy's rows at both ends, of a tile or from a generic address on. -/
def CopyDesc.extents (d : CopyDesc) (s : State) (block : Nat) (esz : Nat) (tr : Bool) (src dst : CopySide × Addr) : List Extent :=
  let bytes := fun (n : Nat) => if esz = 0 then (n + 1) / 2 else n * 2 ^ (esz - 1)
  let rows := fun (side : CopySide × Addr) (sy sz : Addr) (n len : Nat) =>
    (List.range (d.nz * n)).flatMap (fun r =>
      let a := sz * BitVec.ofNat 64 (r / n) + sy * BitVec.ofNat 64 (r % n)
      match side.1 with
      | .tile t => tileSpan t a.toNat (bytes len)
      | .mem => s.span block (side.2 + a) (bytes len))
  rows src d.ssy d.ssz d.ny d.nx ++ rows dst d.dsy d.dsz (d.planeRows tr) (d.rowLength tr)

/-- The entries of a shape record, as bytes. -/
def State.entries (s : State) (b : At) (rec : Addr) : List Extent :=
  match s.grab b rec 16 plainOk with
  | .ok (h, _) => s.span b.1 (rec + 16) (4 * field h 0 1)
  | .error _ => []

/-- What a command's record tells, as it stands: none while it cannot be read, and nothing by one that faults. -/
def State.told (s : State) (b : At) (k : CmdKind) : Option (List Extent) :=
  let read := fun {α : Type} (x : Except Halt α) (f : α → List Extent) =>
    match x with
    | .ok a => some (f a)
    | .error .wait | .error (.absent ..) => none
    | .error _ => some []
  match k with
  | .gath t rec =>
    (read (s.shape b rec) (fun sh =>
      .tile t 0 (if sh.zfill then 128 else sh.rows) 0 128 ::
        sh.pairs.map (fun (_, q) => .bytes (.scratch b.1 (128 * q) 0) 128))).map (s.entries b rec ++ ·)
  | .drain dst _ params (some rec) fmt _ _ =>
    (read (s.shape b rec) (fun sh => sh.pairs.flatMap (fun (_, r) =>
      s.span b.1 (dst + BitVec.ofNat 64 ((params.extractLsb' 16 16).toNat * r))
        ((params.extractLsb' 8 8).toNat * drainSize fmt)))).map (s.entries b rec ++ ·)
  | .tcpy dst src desc esz tr ts td =>
    read (s.copyDesc b desc esz tr) (fun d =>
      d.extents s b.1 esz tr (if ts then .tile src.toNat else .mem, src) (if td then .tile dst.toNat else .mem, dst))
  | .lsend desc => read (s.grab b desc 64 plainOk) (fun bs => s.span b.1 (descOf bs.1).src (descOf bs.1).len)
  | _ => some []

/-! ### The record as the command will read it -/

/-- An operation may write the bytes that it names. -/
def Op.mayWrite (o : Op) : Bool :=
  match o.kind with
  | .store .. | .atomic .. | .release .. | .acquire .. | .copy .. | .command .. => true
  | _ => false

/-- The outstanding operations that one waits for, directly or through others, in program order (R160, R161, R164). -/
def Thread.before (t : Thread) (o : Op) : List Op :=
  t.ops.foldr (fun p out => if (o :: out).any (fun q => q.after p || q.queuedAfter p) then p :: out else out) []

/-- A command's record may still change by an operation that the command waits for. -/
def Thread.recordOpen (t : Thread) (s : State) (block : Nat) (o : Op) (a : Addr) (n : Nat) : Bool :=
  (t.before o).any (fun p => p.mayWrite && p.extents.any (fun e => overlap e (.bytes (s.placeOf block a) n)))

/-- A state in which no access has to wait: for a host page or the host's permission, for a gang's other blocks, or for a block to
resume. It is looked at, and is no state of the machine. -/
def State.settled (s : State) : State :=
  { s with
    absent := [], tdis := [],
    blocks := Tab.mapVals s.blocks (fun b => if b.run = .posted ∨ b.run = .stopping then { b with run := .running } else b) }

/-- The next state of a meaning, or the state itself. -/
def State.try (s : State) (f : State → Host.Outcome State Fault Refusal) : State := match f s with | .next u => u | _ => s

/-- What a state is once a command has been performed by its engine, whatever else the engine has at hand. -/
def State.foreseeCmd (s : State) (k core eng : Nat) (o : Op) : State :=
  let en := s.engine core eng
  let saved := match s.blk k with | some b => b.saved.rd [] eng | none => []
  let s := match en.cur with
    | some c => if c.op = o.id then s else s.setEngine core eng { en with cur := none, phase := .running, prog := .start }
    | none => s
  let s := match (en.queue ++ saved).find? (·.op == o.id), (s.engine core eng).cur with
    | some c, none => (s.setEngine core eng { s.engine core eng with queue := [c] }).try (execEngineCommandStart core eng)
    | _, _ => s
  match (s.engine core eng).cur, (s.engine core eng).phase with
  | some c, .running =>
    if c.op ≠ o.id then s
    else
      let s := (List.range 256).foldl (fun s _ => s.try (execArrayStep core eng [])) s
      match s.blk k with
      | some b => s.performCmd core eng c (k, b) o
      | none => s
  | some _, .sending id => (s.sendEnd id true).try (execEngineCommandComplete core eng)
  | _, _ => s

/-- What a state is once an operation that a command waits for has been performed, if it is still outstanding. -/
def State.foresee (k : Nat) (s : State) (o : Op) : State :=
  match o.kind with
  | .command core eng _ _ => if (s.findOp o.id).isSome then s.foreseeCmd k core eng o else s
  | _ =>
    ([execOperationComplete o.id, execReleasePerform o.id, execAtomicopCompletion o.id true, execCounterAdd o.id]).foldl State.try s

/-- What a waiting command's record tells as the command will read it: as it stands, or where operations that the command waits for
may still write it, as they will leave it. A command that one of them cancels touches nothing (R166). -/
def State.foretold (s : State) (k : Nat) (b : Block) (o : Op) (c : CmdKind) (rec : Addr × Nat) : Option (List Extent) :=
  let s := (s.updBlk k (fun _ => b)).settled
  if b.tel.recordOpen s k o rec.1 rec.2 then
    let u := (b.tel.before o).foldl (State.foresee k) s
    match u.blk k, u.findOp o.id with
    | some d, some (_, q) => if d.tel.doomed q then some [] else u.told (k, d) c
    | _, _ => some []
  else match s.blk k with | some d => s.told (k, d) c | none => some []

/-- The command of an operation that has not read its record yet: it waits for its engine and has never begun, or is at its engine
and still before its first row. -/
def State.unread (s : State) (b : Block) (core eng id : Nat) : Option Cmd :=
  let en := s.engine core eng
  match (en.queue ++ b.saved.rd [] eng).find? (·.op == id) with
  | some c => if (b.stoppedAt eng c).isSome then none else some c
  | none =>
    match en.cur with
    | some c => if c.op = id ∧ en.phase = .running ∧ en.prog.row = 0 then some c else none
    | none => none

/-- A waiting command's operation with what the command will touch (R161; log entry 14). -/
def State.refine (s : State) (k : Nat) (b : Block) (o : Op) : Op :=
  match o.kind with
  | .command core eng dest _ =>
    match s.unread b core eng o.id with
    | none => o
    | some c =>
      match c.kind.record with
      | none => o
      | some rec =>
        let own := c.kind.named s k ++ CmpPair.extents s k c.kind c.cmp
        let bare := { o with kind := .command core eng dest own }
        { o with kind := .command core eng dest (own ++ (s.foretold k b bare c.kind rec).getD c.kind.untold) }
  | _ => o

/-- A block's teller with what each of its waiting commands will touch, found in program order. -/
def State.refineBlock (s : State) (k : Nat) (b : Block) : Block :=
  (List.range b.tel.ops.length).foldl (fun (b : Block) i =>
    { b with tel := { b.tel with ops := b.tel.ops.modify i (s.refine k b) } }) b

/-- The commands of the device's tellers that wait, each with what it will touch. -/
def State.refineAll (s : State) : State :=
  if s.blocks.any (fun (_, b) => b.tel.ops.any Op.isCommand) then
    { s with blocks := s.blocks.map (fun (k, b) => (k, s.refineBlock k b)) }
  else s

end Sys2Proof.Machine
end

