-- ==== Sys2Proof/Machine/Round.lean ====
section
/-! DEFINITION. Who moves when the agenda is empty: one round in which every agent of the device gets a turn, then time
passes (R61, R69, R218; log entry 3); and the block that a word is placed in. -/

namespace Sys2Proof.Machine

/-- The events of one outstanding operation. -/
def opEvents (o : Op) : List Instr :=
  [.pageWalkComplete o.id, .operationComplete o.id, .operationFault o.id, .releasePerform o.id, .waitgeSatisfied o.id,
   .counterAdd o.id, .atomicopCompletion o.id true, .gatePacketArrive o.id, .gateVerdict o.id]

/-- The events of one thread: the ends of its holds, and those of its operations. -/
def threadEvents (r : Thr) (t : Thread) : List Instr :=
  [.streamStallEnd r, .cwaitSatisfied r, .evwaitSatisfied r, .sleepEnd r, .hcallReply r, .hcallTimeout r] ++
    t.ops.flatMap opEvents

/-- The units of large state that a block has (R134). -/
def Block.units (b : Block) : List EvictUnit :=
  (List.range b.warpN).flatMap (fun w => (List.range (b.regs / 8)).map (.row w)) ++ (List.range b.tiles).map .tile ++
    (List.range 4).map .acc ++ (List.range ((b.scratchBytes + 4095) / 4096)).map .scratch

/-- The evictions that F2 may make from a block: its units, while it is saved and a block waits for room on its core (R134). -/
def State.evictEvents (s : State) (k : Nat) (b : Block) : List Instr :=
  if b.run = .saved ∧ s.blocks.any (fun (_, c) => c.core == b.core && c.run == .posted) then
    (b.units.filter (fun u => !b.evicted.contains u)).map (.largeStateEvict k)
  else []

/-- The events of one block beside those of its threads. -/
def State.blockEvents (s : State) (k : Nat) (b : Block) : List Instr :=
  (List.range b.tel.firing.length).map (fun i => .armedSendFire k i) ++ s.evictEvents k b ++
    [.preemptSave k, .blockResume k, .blockRetire k]

/-- The turns of one block: a slot and a move for each thread, and its events. -/
def State.blockTurns (s : State) (k : Nat) (b : Block) : List Sel :=
  b.threads.flatMap (fun (w, t) =>
      [.event (.issueSlotGrant b.core), .thread ⟨k, w⟩] ++ (threadEvents ⟨k, w⟩ t).map .event) ++
    (s.blockEvents k b).map .event

/-- A unit that is blocked on a full queue sends a token, unless one of its own is on its way (R195). -/
def State.tokenEvents (s : State) (core unit : Nat) : List Instr :=
  if s.tokens.any (fun x => x.core == core && x.origin == unit) then [] else [.probeTokenSend core unit]

/-- The times of the present microsecond at which a stalled `VLD` of a core may go on (R144). -/
def State.vldEvents (s : State) (core : Nat) : List Instr :=
  match (s.engine core 1).cur with
  | none => []
  | some c =>
    match s.blk c.block, c.kind with
    | some b, .vld _ x =>
      (List.range 25).map (fun i => .vldStallEnd core (s.imagePeriod (c.block, b) x * 1000 + 40 * i))
    | _, _ => []

/-- The events of one engine of a core. -/
def State.engineEvents (s : State) (core eng : Nat) : List Instr :=
  [.engineCommandStart core eng, .arrayStep core eng [], .engineCommandComplete core eng] ++
    (if eng = 1 then s.vldEvents core else []) ++ s.tokenEvents core eng

/-- The events of one launch queue. -/
def queueEvents (q : Nat) : List Instr :=
  [.qcbCommit q, .packetFetch q, .packetRecheck q, .launchPacket q, .counterWritePacket q, .counterWaitPacket q,
   .counterWaitSatisfied q, .noOperationPacket q, .packetOrderRelease q]

/-- The reservations that dispatch may try for a joint launch. -/
def reserveEvents (k : Nat) (la : Launch) : List Instr :=
  match la.peer with
  | none => []
  | some p =>
    (List.range Config.gangs).flatMap (fun g =>
      (List.range Config.gangs).filterMap (fun h => if g = h then none else some (.jointReserve k p g h)))

/-- The events that retire a killed item's generation. -/
def State.retireEvents (s : State) (k : Nat) (it : Item) : List Instr :=
  receivers.map (.retireNotice it.gen) ++
    (s.coresOf k).flatMap (fun c => receivers.map (fun v => .retireMarker it.gen v c)) ++ [.generationRetired it.gen]

/-- The events of the device outside its blocks; time passes last. -/
def State.deviceEvents (s : State) : List Instr :=
  s.engines.flatMap (fun (k, _) => s.engineEvents (k / 8) (k % 8)) ++
    s.blocks.flatMap (fun (k, b) => s.tokenEvents b.core (b.unit k)) ++
    s.tokens.map (fun x => Instr.probeTokenHop x.id) ++
    s.sends.flatMap (fun (k, r) => if r.fired && r.done.isSome then [Instr.counterAdd k] else []) ++
    s.strays.map (fun y => Instr.operationComplete y.op.id) ++
    s.queues.flatMap (fun (q, _) => queueEvents q) ++
    s.launches.flatMap (fun (k, la) => reserveEvents k la) ++
    s.reservations.map (fun (k, _) => Instr.jointRollback k) ++
    (List.range Config.gangs).flatMap (fun g => [Instr.bindItem g, Instr.dispatchStart g]) ++
    s.items.flatMap (fun (k, it) => if it.life = .killed then s.retireEvents k it else []) ++
    s.parts.flatMap (fun (k, p) => if p.resetStep = 0 then [] else [Instr.partitionReset k]) ++
    s.invals.map (fun i => Instr.invalidateAck i.part) ++
    s.exchanges.map (fun (k, _) => Instr.gateTimeout k) ++
    s.ports.map (fun (p, _) => Instr.receiveCounterAdd p) ++
    s.errqs.map (fun (fn, _) => Instr.msixRaise fn) ++
    s.fw.map (fun (c, _) => Instr.firmwareReadyTimeout c) ++
    [Instr.powerHold, Instr.deviceTimeTick]

/-- One round of the device. -/
def State.round (s : State) : List Sel :=
  if !s.ready then [.event (.powerUp [])]
  else s.blocks.flatMap (fun (k, b) => s.blockTurns k b) ++ s.deviceEvents.map .event

/-- The events that can happen before the device is ready: power-up, and configuration requests (R364). -/
def beforeReady : Instr → Bool
  | .powerUp _ | .registerWrite .. | .hostApertureAccess .. => true
  | _ => false

/-- A selection moves: a thread takes its turn, an event happens. What is no event happens only as a thread's
instruction. Before the device is ready no event of its agents happens (R364). -/
def State.move (s : State) (m : Sel) : Host.Outcome State Fault Refusal :=
  match m with
  | .event i => if i.isEvent ∧ (s.ready ∨ beforeReady i) then exec i s else .next s
  | .thread r =>
    match s.turn r with
    | .boundary => exec (.clauseBoundary r) s
    | .deliver => exec (.trapDelivery r) s
    | .run i => exec i (s.seat r)
    | .broken => .fault .clauseBuffer
    | .stay s => .next s

/-- Before anything else moves, every waiting acquire and armed send makes the test that the state calls for (R216, R279, R308),
every waiting command touches what its record tells (R161), and F0's and F3's own DRAM holds what they have written there (R157). -/
def latched : Host.Outcome State Fault Refusal → Host.Outcome State Fault Refusal
  | .next s => .next s.noteWrites.latchArmed.refineAll.writeOwn
  | out => out

/-! ### Placing a word -/

/-- The side on which the words of a table row decode, SIMT first. -/
def sideOfWords (ws : List Word) : Side :=
  match decode .simt .widest ws with
  | .ok _ => .simt
  | .error _ => .teller

/-- A clause that holds one instruction of words. -/
def clauseOfWords (teller : Bool) (ws : List Word) : Clause where
  hdr := 0
  issue := if teller then 1 else 0xFFFFFFFF
  setf1 := 15
  setf2 := 15
  next := 4
  rest := ws
  left := 1
  idx := 0
  longSeen := false
  fall := 4 + BitVec.ofNat 64 (4 * wordsOfLen (lenOf (ws.headD 0)))
  listAddr := 4 + BitVec.ofNat 64 (4 * wordsOfLen (lenOf (ws.headD 0)))
  targets := []
  exits := 0
  waits := []
  jumps := []
  returns := 0
  yields := false
  fails := []
  stopped := 0

/-- A started block of one warp in context slot 0 of core 0 whose warp, or teller, is about to issue words. -/
def blockOfWords (ws : List Word) : Block where
  core := 0
  item := 0
  ctx := 0
  part := 0
  blockId := 0
  party := 0
  regs := 512
  warpN := 1
  scratchBytes := 4096
  tiles := 16
  gen := 0
  run := .running
  trapbase := 0
  gatectl := 50
  warps := [(0, if sideOfWords ws = .simt then { Thread.start false 0 with clause := some (clauseOfWords false ws) }
    else Thread.start false 0)]
  tel := if sideOfWords ws = .simt then Thread.start true 0
    else { Thread.start true 0 with clause := some (clauseOfWords true ws) }
  scratch := []
  tile := []
  acc26 := []
  acc32 := []
  cnt := []
  stat := []
  gate := none
  saved := []
  stopped := []
  evicted := []
  poisoned := []
  cleanLines := []
  poisonedLines := []

/-- A state in which the next move is that of a thread about to issue words. -/
def State.place (s : State) (ws : List Word) : State :=
  { s with
    blocks := s.blocks.ins 0 (blockOfWords ws),
    arbiters := s.arbiters.ins 0 { s.arbiter 0 with granted := some 0 },
    agenda := [.thread ⟨0, if sideOfWords ws = .simt then some 0 else none⟩] }

end Sys2Proof.Machine
end

