-- ==== Sys2Proof/Machine/Step.lean ====
section
/-! DEFINITION. One step of the module, and the placing of an instruction where the next step takes it from. -/

namespace Sys2Proof.Machine

/-- One step: the next entry of the agenda moves, then armed sends make the comparisons that are due; an empty agenda is filled
with a round. -/
def step (s : State) : Host.Outcome State Fault Refusal :=
  match s.agenda with
  | m :: t => latched (({ s with agenda := t } : State).move m)
  | [] =>
    match s.round with
    | m :: t => latched (({ s with agenda := t } : State).move m)
    | [] => .next s

/-- A state in which the next step runs the instruction whose bits are w. -/
def State.withFetchWord (s : State) (nbits w : Nat) : State := s.place (wordsOfBytes (tableBytes nbits w))

end Sys2Proof.Machine
end

