-- ==== Sys2Proof/Safety.lean ====
section
/-! DEFINITION. The terms in which claims are made: what an instruction of a thread answers, what it writes and what it
leaves alone, and the invariant of the memories. -/

namespace Sys2Proof.Machine

/-! ### Memories -/

/-- The three byte memories are in their canonical form. -/
def State.memoriesWf (s : State) : Prop := Memory.wf s.dram = true ∧ Memory.wf s.vault = true ∧ Memory.wf s.host = true

/-- Every byte of DRAM, of the vaults and of host memory reads as before, and so does every byte of every scratchpad; no line of DRAM
has another key. -/
structure SameMemory (s s' : State) : Prop where
  dram : ∀ a, s'.dram.rd 0 a = s.dram.rd 0 a
  keys : ∀ l, s'.lineKeys.rd 0 l = s.lineKeys.rd 0 l
  vault : ∀ a, s'.vault.rd 0 a = s.vault.rd 0 a
  host : ∀ a, s'.host.rd 0 a = s.host.rd 0 a
  scratch : ∀ k a, (s'.blk k).map (fun b => b.scratch.rd 0 a) = (s.blk k).map (fun b => b.scratch.rd 0 a)

/-- The bytes behind a resolved place whose page is not replicated. -/
def State.bytesAt (s : State) (t : Target) (n : Nat) : List Byte :=
  match t with
  | .scratch k off => match s.blk k with | some b => readMem b.scratch off n | none => []
  | .mem x => s.spaceRead x.key x.space x.pa n

/-- A write of n bytes to a resolved place may change this byte of a storage: one of the bytes, or of the stage-2 leaf that
takes DIRTY (R154). -/
def Target.has (t : Target) (n : Nat) (sp : Space) (a : Nat) : Prop :=
  match t with
  | .scratch .. => False
  | .mem x => (sp = x.space ∧ x.pa ≤ a ∧ a < x.pa + n) ∨ (sp = .dram ∧ x.leaf ≤ a ∧ a < x.leaf + 8)

/-- A write of n bytes to a resolved place may change this byte of a scratchpad. -/
def Target.hasScratch (t : Target) (n k a : Nat) : Prop :=
  match t with
  | .scratch j off => k = j ∧ off ≤ a ∧ a < off + n
  | .mem _ => False

/-- A write of n bytes to a resolved place gives this line of DRAM the place's key (R153). -/
def Target.hasLine (t : Target) (n l : Nat) : Prop :=
  match t with
  | .scratch .. => False
  | .mem x => x.space = .dram ∧ x.pa < 64 * l + 64 ∧ 64 * l < x.pa + n

/-- A resolved place that a write of n bytes fills and beside which it changes nothing: its page is not replicated, its bytes are
not those of its own stage-2 leaf, and the lines that they lie in have the place's key or none. -/
def State.writable (s : State) (t : Target) (n : Nat) : Prop :=
  match t with
  | .scratch .. => True
  | .mem x =>
    x.repl = false ∧ (x.space = .dram → x.leaf + 8 ≤ x.pa ∨ x.pa + n ≤ x.leaf) ∧
      ∀ l, t.hasLine n l → s.keyed (s.keyTag x.key) l = true

/-- From `s` to `s'` bytes are written at a resolved place, and no other byte of memory changes. -/
structure WroteAt (s s' : State) (t : Target) (bs : List Byte) : Prop where
  value : s'.bytesAt t bs.length = bs
  dram : ∀ a, ¬ t.has bs.length .dram a → s'.dram.rd 0 a = s.dram.rd 0 a
  vault : ∀ a, ¬ t.has bs.length .vault a → s'.vault.rd 0 a = s.vault.rd 0 a
  host : ∀ a, ¬ t.has bs.length .host a → s'.host.rd 0 a = s.host.rd 0 a
  keys : ∀ l, ¬ t.hasLine bs.length l → s'.lineKeys.rd 0 l = s.lineKeys.rd 0 l
  scratch : ∀ k a, ¬ t.hasScratch bs.length k a →
    (s'.blk k).map (fun b => b.scratch.rd 0 a) = (s.blk k).map (fun b => b.scratch.rd 0 a)

/-- No byte of memory is poisoned. -/
def State.unpoisoned (s : State) : Prop :=
  s.poison = [] ∧ s.vaultPoison = [] ∧ s.hostPoison = [] ∧ ∀ k b, s.blk k = some b → b.poisoned = [] ∧ b.poisonedLines = []

/-! ### The host port -/

/-- The state after an access of a function has been answered with an error: the message is sent, and the function's AER
registers, where the function exists, record it (R352; log entry 77). -/
def State.answers (s : State) (fn : Nat) (m : HostMsg) (bit : Nat) : State :=
  let c := s.fns.rd .blank fn
  { s with
    toHost := s.toHost ++ [m],
    fns := if s.fnExists fn = true then
        s.fns.ins fn { c with aer := { c.aer with uncorrectable := c.aer.uncorrectable ||| BitVec.ofNat 32 (2 ^ bit) } }
      else s.fns }

/-! ### Instructions of one thread -/

/-- The state that differs from `s` in its current thread alone, which is `u`. -/
def State.withThread (s : State) (u : Thread) : State := s.updThr s.cur (fun _ => u)

/-- The instruction completes; it changes the current thread alone, to one of which `P` holds. -/
def Answers (i : Instr) (s : State) (P : Thread → Prop) : Prop := ∃ u, exec i s = .next (s.withThread u) ∧ P u

/-- An outstanding operation without the marks of the late results it no longer writes (R121). -/
def Op.bare (o : Op) : Op := { o with dropped := [] }

/-- A handler without those marks of the operations that it holds. -/
def Handler.bare (h : Handler) : Handler := { h with held := h.held.map Op.bare }

/-- Thread `u` is `t` past instruction `i`, but for registers: the clause has moved past `i`, the operand buffer holds what
RET keeps, and the same operations are outstanding, withdrawn and held for the handler's end. -/
structure Past (i : Instr) (t u : Thread) : Prop where
  rest : u = { t with
    v := u.v, k := u.k, p := u.p, m := u.m, ops := u.ops, withdrawn := u.withdrawn, handler := u.handler,
    clause := t.clause.map (·.pass i), opbuf := t.operandBuffer i }
  ops : u.ops.map Op.bare = t.ops.map Op.bare
  withdrawn : u.withdrawn.map Op.bare = t.withdrawn.map Op.bare
  handler : u.handler.map Handler.bare = t.handler.map Handler.bare

/-- A clause in which lanes, each with its ADDR value, fail the instruction at hand with a cause and a code (R385). -/
def Clause.failed (c : Clause) (cause : Cause) (code : Nat) (ls : List (Nat × Addr)) : Clause :=
  { c with
    fails := c.fails ++ ls.map (fun (l, v) => ⟨c.idx, l, c.next, cause, v, code⟩),
    stopped := c.stopped ||| maskOfLanes (ls.map Prod.fst) }

/-- The same as `Past`, but the clause moves past `i` after a change `f` of it. -/
structure PastBy (f : Clause → Clause) (i : Instr) (t u : Thread) : Prop where
  rest : u = { t with
    v := u.v, k := u.k, p := u.p, m := u.m, ops := u.ops, withdrawn := u.withdrawn, handler := u.handler,
    clause := t.clause.map (fun c => (f c).pass i), opbuf := t.operandBuffer i }
  ops : u.ops.map Op.bare = t.ops.map Op.bare
  withdrawn : u.withdrawn.map Op.bare = t.withdrawn.map Op.bare
  handler : u.handler.map Handler.bare = t.handler.map Handler.bare

/-- From `t` to `u`, each of `ls` takes its value of `f` in one register at the thread's width; no other register, no
predicate and no mask changes. -/
structure WroteReg (t u : Thread) (ls : List Nat) (d : Nat) (f : Nat → Addr) : Prop where
  value : ∀ l ∈ ls, u.reg l d = t.cut (f l)
  v : ∀ l r, r < 512 → (t.teller = true ∨ l ∉ ls ∨ r ≠ d) → u.vr l r = t.vr l r
  k : ∀ r, (t.teller = false ∨ ls = [] ∨ r ≠ d) → u.kr r = t.kr r
  p : u.p = t.p
  m : u.m = t.m

/-- The same for a pair, or one k register (R23). -/
structure WrotePair (t u : Thread) (ls : List Nat) (d : Nat) (f : Nat → Addr) : Prop where
  value : ∀ l ∈ ls, u.pair l d = f l
  v : ∀ l r, r < 512 → (t.teller = true ∨ l ∉ ls ∨ (r ≠ d ∧ r ≠ d + 1)) → u.vr l r = t.vr l r
  k : ∀ r, (t.teller = false ∨ ls = [] ∨ r ≠ d) → u.kr r = t.kr r
  p : u.p = t.p
  m : u.m = t.m

/-- The same for `n` consecutive v registers from `d` on. -/
structure WroteVs (t u : Thread) (ls : List Nat) (d n : Nat) (f : Nat → Nat → Word) : Prop where
  value : ∀ l ∈ ls, ∀ j, j < n → u.vr l (d + j) = f l j
  v : ∀ l r, r < 512 → (l ∉ ls ∨ r < d ∨ d + n ≤ r) → u.vr l r = t.vr l r
  k : u.k = t.k
  p : u.p = t.p
  m : u.m = t.m

/-- The same for a predicate; p7 discards the write (R122). -/
structure WrotePred (t u : Thread) (ls : List Nat) (n : Nat) (f : Nat → Bool) : Prop where
  value : ∀ l ∈ ls, n ≠ 7 → u.pr l n = f l
  pr : ∀ l j, j < 8 → (l ∉ ls ∨ j ≠ n ∨ n = 7) → u.pr l j = t.pr l j
  v : u.v = t.v
  k : u.k = t.k
  m : u.m = t.m

/-- From `t` to `u` one mask register takes a value; nothing else of the registers changes. -/
structure WroteMask (t u : Thread) (n : Nat) (x : Word) : Prop where
  value : u.mr n = x
  mr : ∀ j, j ≠ n → u.mr j = t.mr j
  v : u.v = t.v
  k : u.k = t.k
  p : u.p = t.p

/-- Instruction `i` writes a register of each executing lane and does nothing else. -/
def SetsReg (i : Instr) (d : Nat) (s : State) (t : Thread) (f : Nat → Addr) : Prop :=
  Answers i s (fun u => Past i t u ∧ WroteReg t u (t.lanes i.guard) d f)

/-- Instruction `i` writes a pair of each executing lane and does nothing else. -/
def SetsPair (i : Instr) (d : Nat) (s : State) (t : Thread) (f : Nat → Addr) : Prop :=
  Answers i s (fun u => Past i t u ∧ WrotePair t u (t.lanes i.guard) d f)

/-- Instruction `i` writes consecutive v registers of each executing lane and does nothing else. -/
def SetsVs (i : Instr) (d n : Nat) (s : State) (t : Thread) (f : Nat → Nat → Word) : Prop :=
  Answers i s (fun u => Past i t u ∧ WroteVs t u (t.lanes i.guard) d n f)

/-- Instruction `i` writes a predicate of each executing lane and does nothing else. -/
def SetsPred (i : Instr) (n : Nat) (s : State) (t : Thread) (f : Nat → Bool) : Prop :=
  Answers i s (fun u => Past i t u ∧ WrotePred t u (t.lanes i.guard) n f)

/-- Instruction `i` writes a mask register and does nothing else. -/
def SetsMask (i : Instr) (n : Nat) (s : State) (t : Thread) (x : Word) : Prop :=
  Answers i s (fun u => Past i t u ∧ WroteMask t u n x)

/-- Instruction `i` only moves its thread past itself, after a change of the clause in progress. -/
def ChangesClause (i : Instr) (s : State) (t : Thread) (f : Clause → Clause) : Prop :=
  exec i s = .next (s.withThread { t with clause := t.clause.map (fun c => (f c).pass i), opbuf := t.operandBuffer i })

/-- Each of some lanes fails instruction `i` with a cause, a code and an ADDR value, and does nothing else (R385). -/
def StopsLanes (i : Instr) (s : State) (t : Thread) (cause : Cause) (code : Nat) (ls : List (Nat × Addr)) : Prop :=
  ChangesClause i s t (·.failed cause code ls)

/-- Instruction `i` issues one long-latency operation that counts on no stream, and does nothing else (R116). -/
def IssuesPlain (i : Instr) (s : State) (t : Thread) (k : OpKind) : Prop :=
  exec i s = .next
    { s.withThread
        { t with
          ops := t.ops ++ [⟨s.nextId, s.nextId, 0, t.seq.rd 0 0, none, 0, t.flagOf i, t.here, k, none, []⟩],
          clause := t.clause.map (·.pass i), opbuf := t.operandBuffer i } with
      nextId := s.nextId + 1 }

/-- Instruction `i` issues one operation with its results, which counts on no stream, and does nothing else. -/
def IssuesResults (i : Instr) (s : State) (t : Thread) (rs : List DReg) : Prop := IssuesPlain i s t (.compute rs)

/-- What claims say of an operation: its lane, stream, predecessor mask, completion flag and kind. -/
def Op.face (o : Op) : Nat × Option Nat × BitVec 8 × Option Nat × OpKind := (o.lane, o.stream, o.pm, o.flag, o.kind)

/-- Instruction `i` issues one operation on a stream for each lane of a list and does nothing else, but for the commit
mark of the item (R158, R162, R345). -/
def IssuesOps (i : Instr) (st : Nat) (pm : BitVec 8) (s : State) (t : Thread) (ks : List (Nat × OpKind)) : Prop :=
  ∃ u items, exec i s = .next { s.withThread u with nextId := s.nextId + ks.length, items } ∧
    u = { t with seq := u.seq, ops := u.ops, clause := t.clause.map (·.pass i), opbuf := t.operandBuffer i } ∧
    u.ops.map Op.face = t.ops.map Op.face ++ ks.map (fun (l, k) => (l, some st, pm, t.flagOf i, k)) ∧
    (∀ l, u.count l st = t.count l st + (ks.filter (fun e => e.1 == l)).length) ∧
    items = if ks.any (fun e => e.2.commits) then
        (match s.blk s.cur.block with | some b => s.items.upd b.item (fun it => { it with commit := true }) | none => s.items)
      else s.items

/-- The same beside lanes that fail a check of the instruction with a cause and their addresses (R385). -/
def IssuesSome (i : Instr) (st : Nat) (pm : BitVec 8) (s : State) (t : Thread) (ks : List (Nat × OpKind)) (cause : Cause)
    (bad : List (Nat × Addr)) : Prop :=
  ∃ u items, exec i s = .next { s.withThread u with nextId := s.nextId + ks.length, items } ∧
    u = { t with
      seq := u.seq, ops := u.ops, clause := t.clause.map (fun c => (c.failed cause 0 bad).pass i), opbuf := t.operandBuffer i } ∧
    u.ops.map Op.face = t.ops.map Op.face ++ ks.map (fun (l, k) => (l, some st, pm, t.flagOf i, k)) ∧
    ∀ l, u.count l st = t.count l st + (ks.filter (fun e => e.1 == l)).length

end Sys2Proof.Machine
end

