-- ==== Sys2Proof/Certificates/Slice0/Obligations.lean ====
section
/-! DEFINITION. The statements for the provers. Each formalises rules of the spec, which its docstring names. -/

open Sys2Proof Sys2Proof.Machine

/-! ### The step, decoding and encoding -/

/-- A granted thread that need let no other issue first runs the instruction that its clause buffer decodes to, with the grant
used; a thread that yielded has one slot less to wait where another was ready. Armed sends and waiting acquires then make the
tests that are due, of which there are none where nothing is armed or outstanding, and the DRAM that F0 and F3 keep for themselves
takes what they have written there, which is nothing where there is no binding table, no pool and no saved block (R61, R69, R114,
R216, R218, R242; the agenda is the model's, log entry 3, and so are the places in that DRAM, log entry 31). -/
def Obligations.StepRunsTheDecodedInstruction : Prop :=
  (∀ (s : State) (r : Thr) (rest : List Sel) (b : Block) (t : Thread) (c : Clause) (i : Instr) (lim : Limits),
    s.agenda = .thread r :: rest → s.blk r.block = some b → s.thr r = some t → t.clause = some c → 0 < c.left →
    t.hold = .none → t.due = none → (b.run = .running ∨ (b.run = .stopping ∧ t.teller = false)) →
    (t.teller = true → t.unreported = []) → decode t.side lim c.rest = .ok i → b.readsPoison r.warp t i = false →
    (s.arbiter b.core).granted = some (b.slot r.block) →
    let s0 : State := { s with agenda := rest }
    s0.mayUse b r.warp t = true →
    let begun := s0.seat r
    step s = latched (exec i begun) ∧ begun.cur = r ∧
      begun.thr r = some { t with
        starved := 0,
        yielded := if (s0.readyThreads b).any (fun e => e.1 != r.warp) then t.yielded - 1 else t.yielded } ∧
      (begun.arbiter b.core).granted = none) ∧
  ∀ s : State, (∀ e ∈ s.blocks, e.2.tel.armed = [] ∧ ∀ u ∈ e.2.threads, u.2.ops = []) →
    latched (.next s) = .next s.writeOwn ∧
      ((∀ e ∈ s.ctxs, e.2.binding = []) → (∀ e ∈ s.blocks, e.2.gate = none ∧ e.2.run ≠ .saved) → s.writeOwn = s)

/-- Decoding the words of a well-formed instruction gives it back, with every operand, whatever words follow (R100 to
R105). -/
def Obligations.EncodedInstructionsDecode : Prop :=
  ∀ (side : Side) (lim : Limits) (i : Instr) (rest : List Word),
    i.wellFormed side lim = true → decode side lim (encode i ++ rest) = .ok i

/-- Encoding a decoded instruction gives back the words that it was decoded from: no bit of an encoding is dropped, and no
two words decode alike (R100 to R105). -/
def Obligations.DecodedWordsEncodeBack : Prop :=
  ∀ (side : Side) (lim : Limits) (ws : List Word) (i : Instr),
    decode side lim ws = .ok i → encode i = ws.take i.size ∧ i.wellFormed side lim = true

/-- Words of the listings of the worked programs decode to the instructions listed beside them (R100 to R111). -/
def Obligations.ListedWordsDecode : Prop :=
  let e : Ext := ⟨⟨false, 7⟩, 0, 0, false, false, false, 0, 0, 0, 0, 0, 0, 0, 0, none⟩
  let simt := decode .simt .widest
  let teller := decode .teller .widest
  simt [0x45151728] = .ok (.orCompact ⟨⟨false, 7⟩, 17, 17, 20, none⟩) ∧
    simt [0x28900784] = .ok (.ldsCompact ⟨⟨false, 7⟩, 10, 9, 0, none⟩) ∧
    simt [0x02002731, 0x00080204, 0x00000003] = .ok (.plop { e with mod := 0x020, d := 4, a := 1, b := 2, c := 3 }) ∧
    simt [0x00202771, 0x20002E18, 0] = .ok (.redux { e with mod := 2, ty := 1, d := 24, a := 23 }) ∧
    simt [0x00003745, 0x0000140A, 0] = .ok (.fexp2 { e with d := 10, a := 10 }) ∧
    simt [0x01200381, 0x00502417, 0x00106000] =
      .ok (.ld { e with guard := ⟨false, 3⟩, mod := 0x012, d := 23, a := 18, b := 20, pm := 0x20, st := 6 }) ∧
    simt [0x020007A5, 0x30042000, 0x00024000] =
      .ok (.atomr { e with mod := 0x020, ty := 1, bl := true, a := 16, b := 1, pm := 4, st := 4 }) ∧
    simt [0x000001E5, 0x002C1400, 0] = .ok (.gsnd { e with guard := ⟨false, 1⟩, a := 10, b := 11 }) ∧
    simt [0x00000405, 0, 0x000003EC] = .ok (.bra { e with guard := ⟨false, 4⟩, cl := true, c := 0x1EC }) ∧
    simt [0x0000360D, 0x08000200, 0] = .ok (.trap { e with guard := ⟨false, 6⟩, al := true, a := 1 }) ∧
    teller [0x001017F3, 0, 0x02800000, 0x00074003, 0] = .ok (.csrw { e with mod := 1, x9 := 5, lit := some 0x00074003 }) ∧
    teller [0x03B007CD, 0x0010000C, 0x1282200D] =
      .ok (.drain { e with mod := 0x03B, a := 0, b := 4, c := 13, d := 12, x9 := 0x025, pm := 4, st := 2 }) ∧
    teller [0x080017D9, 0x00002800, 0x16812000] = .ok (.larm { e with mod := 0x080, a := 20, x9 := 0x02D, pm := 2, st := 2 })

/-! ### State -/

/-- Every step keeps the three byte memories in their canonical form, so that equal memories are equal data. -/
def Obligations.StepKeepsMemoriesCanonical : Prop :=
  ∀ s s' : State, s.memoriesWf → step s = .next s' → s'.memoriesWf

/-- Right after power is applied nothing is resident, no queue, partition or error exists, NOW and every counter that R214
resets at power-up is 0 (bind counts, soft-error counts, calendar and key-slot generations, the wrap count of the log), every
error queue and the physical log are empty, the memories are in their canonical form, and the next step is the power-up (R214,
R217, R364). DRAM reads 0, which is the model's choice (log entry 2). -/
def Obligations.ResetState : Prop :=
  State.reset.memoriesWf ∧ State.reset.now = 0 ∧ State.reset.blocks = [] ∧ State.reset.launches = [] ∧ State.reset.items = [] ∧
    State.reset.queues = [] ∧ State.reset.parts = [] ∧ State.reset.plogWrap = 0 ∧ State.reset.telemetrySeq = 0 ∧
    State.reset.plog = [] ∧ State.reset.f4buf = [] ∧ State.reset.poison = [] ∧ State.reset.vaultPoison = [] ∧
    (∀ fn, (State.reset.errQueue fn).entries = [] ∧ (State.reset.errQueue fn).overflow = 0 ∧
      (State.reset.errQueue fn).pendingIrq = false) ∧
    (∀ a, State.reset.dram.rd 0 a = 0) ∧ (∀ g, (State.reset.gang g).bindno = 0) ∧
    (∀ d, (State.reset.dies.rd .blank d).gen = 0 ∧ (State.reset.dies.rd .blank d).uassay = 0 ∧
      (State.reset.dies.rd .blank d).soft = List.replicate 6 0) ∧
    (∀ slot, (State.reset.keys.rd .blank slot).gen = 0) ∧
    step State.reset = latched (exec (.powerUp []) State.reset)

/-- A thread at block start: registers, predicates and flags are zero, MODE 0, PROMO 15, ASSAYCTL 1, every LPC element at the
entry, no lane exited or waiting, no operation outstanding, the valve count 0; a warp's M0 names all 32 lanes. p7 reads true in
every lane of every thread, and a write of it is discarded (R58, R118, R122, R123, R128 to R131). -/
def Obligations.ThreadsStartCleared : Prop :=
  ∀ (teller : Bool) (entry : Addr) (l : Nat),
    (∀ r, (Thread.start teller entry).vr l r = 0) ∧ (∀ r, (Thread.start teller entry).kr r = 0) ∧
    (∀ p, p ≠ 7 → (Thread.start teller entry).pr l p = false) ∧ (Thread.start teller entry).pr l 7 = true ∧
    (Thread.start teller entry).mode = 0 ∧ (Thread.start teller entry).promo = 15 ∧
    (Thread.start teller entry).assayctl = 1 ∧ (Thread.start teller entry).assaycnt = 0 ∧
    (l < (if teller then 1 else 32) → (Thread.start teller entry).pcOf l = entry) ∧
    (Thread.start teller entry).exited = 0 ∧ (Thread.start teller entry).waits.look l = none ∧
    (Thread.start teller entry).quiet = 0 ∧ (∀ n, (Thread.start teller entry).pending n = false) ∧
    (∀ st, (Thread.start teller entry).count l st = 0 ∧ ((Thread.start teller entry).sflt.rd 0 l).getLsbD st = false) ∧
    (Thread.start teller entry).seq.rd 0 l = 0 ∧
    (Thread.start false entry).mr 0 = 0xFFFFFFFF ∧ (∀ n, n ≠ 0 → (Thread.start false entry).mr n = 0) ∧
    ∀ (t : Thread) (b : Bool), t.pr l 7 = true ∧ t.setP l 7 b = t

/-! ### The frame of an instruction that acts on its own thread -/

/-- An instruction that answers `withThread` changes its own thread alone: no byte of memory, no other thread, no other
register of the block, no queue, item or table of the device. -/
def Obligations.ThreadInstructionsChangeTheirThreadAlone : Prop :=
  ∀ (s : State) (t u : Thread) (b : Block), s.thr s.cur = some t → s.blk s.cur.block = some b →
    SameMemory s (s.withThread u) ∧ (s.withThread u).thr s.cur = some u ∧
      (∀ r, r ≠ s.cur → (s.withThread u).thr r = s.thr r) ∧ (∀ k, k ≠ s.cur.block → (s.withThread u).blk k = s.blk k) ∧
      s.withThread u = { s with blocks := (s.withThread u).blocks } ∧
      ∃ c, (s.withThread u).blk s.cur.block = some c ∧ c = { b with warps := c.warps, tel := c.tel }

/-! ### Integer instructions (R222 to R233) -/

/-- The arithmetic instructions and their compact forms write, in each executing lane, the exact result of the extended
operands wrapped or saturated to the type, the 64-bit ones to a pair, and nothing else; five of them never saturate (R222,
R225, R226). -/
def Obligations.IntegerArithmetic : Prop :=
  ∀ (s : State) (t : Thread), s.thr s.cur = some t →
    let y := fun (x : Ext) => intTy t.teller x.ty
    let a := fun (x : Ext) l => (y x).ext (t.opA x l)
    let b := fun (x : Ext) l => (y x).ext (t.opB x l)
    let c := fun (x : Ext) l => (y x).ext (t.opC x l)
    let out := fun (x : Ext) (r : Int) => (y x).result (x.m 0) r
    (∀ x, SetsReg (.iadd x) x.d.toNat s t (fun l => out x (a x l + b x l))) ∧
    (∀ x, SetsReg (.isub x) x.d.toNat s t (fun l => out x (a x l - b x l))) ∧
    (∀ x, SetsReg (.ineg x) x.d.toNat s t (fun l => out x (-a x l))) ∧
    (∀ x, SetsReg (.iabs x) x.d.toNat s t (fun l => out x (a x l).natAbs)) ∧
    (∀ x, SetsReg (.imin x) x.d.toNat s t (fun l => out x (min (a x l) (b x l)))) ∧
    (∀ x, SetsReg (.imax x) x.d.toNat s t (fun l => out x (max (a x l) (b x l)))) ∧
    (∀ x, SetsReg (.imul x) x.d.toNat s t (fun l => out x (a x l * b x l))) ∧
    (∀ x, SetsReg (.imulh x) x.d.toNat s t (fun l => out x (a x l * b x l / 2 ^ (y x).bits))) ∧
    (∀ x, SetsReg (.imad x) x.d.toNat s t (fun l => out x (a x l * b x l + c x l))) ∧
    (∀ x, (t.teller = true ∨ x.d.toNat + 1 < 512) →
      SetsPair (.iadd64 x) x.d.toNat s t (fun l => t.pairA x l + t.pairB x l) ∧
      SetsPair (.isub64 x) x.d.toNat s t (fun l => t.pairA x l - t.pairB x l) ∧
      SetsPair (.imad64 x) x.d.toNat s t (fun l => BitVec.ofInt 64 (a x l * b x l) + t.pairC x l)) ∧
    (∀ k, SetsReg (.iaddCompact k) k.d.toNat s t (fun l => out k.ext (a k.ext l + b k.ext l))) ∧
    (∀ k, SetsReg (.isubCompact k) k.d.toNat s t (fun l => out k.ext (a k.ext l - b k.ext l))) ∧
    (∀ k, SetsReg (.inegCompact k) k.d.toNat s t (fun l => out k.ext (-a k.ext l))) ∧
    (∀ k, SetsReg (.iabsCompact k) k.d.toNat s t (fun l => out k.ext (a k.ext l).natAbs)) ∧
    ∀ side lim x, ∀ i ∈ [Instr.imin x, .imax x, .imul x, .imulh x, .imad x], i.wellFormed side lim = true → x.m 0 = false

/-- A result wraps modulo two to the width, or with SAT is the nearest value of the type (R77, R222, R225). -/
def Obligations.IntegerResultsWrapOrSaturate : Prop :=
  ∀ (y : IntTy) (r : Int), y.bits ∈ [8, 16, 32, 64] →
    (y.ext (y.result false r) - r) % 2 ^ y.bits = 0 ∧ y.lo ≤ y.ext (y.result false r) ∧ y.ext (y.result false r) ≤ y.hi ∧
    y.ext (y.result true r) = if r < y.lo then y.lo else if y.hi < r then y.hi else r

/-- The logic instructions and their compact forms act on all bits of a register (R227). -/
def Obligations.LogicInstructions : Prop :=
  ∀ (s : State) (t : Thread), s.thr s.cur = some t →
    (∀ x, SetsReg (.and x) x.d.toNat s t (fun l => t.opA x l &&& t.opB x l)) ∧
    (∀ x, SetsReg (.or x) x.d.toNat s t (fun l => t.opA x l ||| t.opB x l)) ∧
    (∀ x, SetsReg (.xor x) x.d.toNat s t (fun l => t.opA x l ^^^ t.opB x l)) ∧
    (∀ x, SetsReg (.andn x) x.d.toNat s t (fun l => t.opA x l &&& ~~~t.opB x l)) ∧
    (∀ x, SetsReg (.not x) x.d.toNat s t (fun l => ~~~t.opA x l)) ∧
    (∀ x, SetsReg (.sel x) x.d.toNat s t (fun l => if t.pr l x.c.toNat then t.opA x l else t.opB x l)) ∧
    (∀ k, SetsReg (.andCompact k) k.d.toNat s t (fun l => t.opA k.ext l &&& t.opB k.ext l)) ∧
    (∀ k, SetsReg (.orCompact k) k.d.toNat s t (fun l => t.opA k.ext l ||| t.opB k.ext l)) ∧
    (∀ k, SetsReg (.xorCompact k) k.d.toNat s t (fun l => t.opA k.ext l ^^^ t.opB k.ext l)) ∧
    (∀ k, SetsReg (.andnCompact k) k.d.toNat s t (fun l => t.opA k.ext l &&& ~~~t.opB k.ext l))

/-- The shifts and their compact forms: a count of W or more gives 0, or for `SAR` the sign in every bit; `ROL` takes its
count modulo W. The bit-field instructions (R228). -/
def Obligations.ShiftsAndBitFields : Prop :=
  ∀ (s : State) (t : Thread), s.thr s.cur = some t →
    let w := t.width
    let shl := fun (x : Ext) l => BitVec.ofNat 64 ((t.cut (t.opA x l)).toNat * 2 ^ (t.cut (t.opB x l)).toNat)
    let shr := fun (x : Ext) l => BitVec.ofNat 64 ((t.cut (t.opA x l)).toNat / 2 ^ (t.cut (t.opB x l)).toNat)
    let sar := fun (x : Ext) l => BitVec.ofInt 64 ((signOf w (t.cut (t.opA x l))).toInt / 2 ^ (t.cut (t.opB x l)).toNat)
    let rol := fun (x : Ext) l =>
      let n := (t.cut (t.opB x l)).toNat % w
      BitVec.ofNat 64 ((t.cut (t.opA x l)).toNat * 2 ^ n % 2 ^ w + (t.cut (t.opA x l)).toNat / 2 ^ (w - n))
    (∀ x, SetsReg (.shl x) x.d.toNat s t (shl x)) ∧ (∀ x, SetsReg (.shr x) x.d.toNat s t (shr x)) ∧
    (∀ x, SetsReg (.sar x) x.d.toNat s t (sar x)) ∧ (∀ x, SetsReg (.rol x) x.d.toNat s t (rol x)) ∧
    (∀ k, SetsReg (.shlCompact k) k.d.toNat s t (shl k.ext)) ∧ (∀ k, SetsReg (.shrCompact k) k.d.toNat s t (shr k.ext)) ∧
    (∀ k, SetsReg (.sarCompact k) k.d.toNat s t (sar k.ext)) ∧ (∀ k, SetsReg (.rolCompact k) k.d.toNat s t (rol k.ext)) ∧
    ∀ x : Ext,
      let a := fun l => t.cut (t.opA x l)
      let p := fun l => min ((t.cut (t.opB x l)).toNat % 256) w
      let n := fun l => min ((t.cut (t.opC x l)).toNat % 256) (w - p l)
      let f := fun l => (a l).toNat / 2 ^ p l % 2 ^ n l
      SetsReg (.bfx x) x.d.toNat s t (fun l =>
        BitVec.ofInt 64 (if (intTy t.teller x.ty).signed = true ∧ 0 < n l ∧ 2 ^ (n l - 1) ≤ f l then (f l : Int) - 2 ^ n l else f l)) ∧
      SetsReg (.bfi x) x.d.toNat s t (fun l =>
        BitVec.ofNat 64 ((t.reg l x.d.toNat).toNat / 2 ^ (p l + n l) * 2 ^ (p l + n l) + (a l).toNat % 2 ^ n l * 2 ^ p l +
          (t.reg l x.d.toNat).toNat % 2 ^ p l)) ∧
      (∃ f : Nat → Addr, SetsReg (.brev x) x.d.toNat s t f ∧
        ∀ l i, i < w → (f l).getLsbD i = (a l).getLsbD (w - 1 - i)) ∧
      (∃ f : Nat → Nat, SetsReg (.clz x) x.d.toNat s t (fun l => BitVec.ofNat 64 (f l)) ∧
        ∀ l, f l ≤ w ∧ (a l).toNat < 2 ^ (w - f l) ∧ (f l < w → 2 ^ (w - f l - 1) ≤ (a l).toNat)) ∧
      SetsReg (.popc x) x.d.toNat s t (fun l => BitVec.ofNat 64 ((List.range 64).filter (a l).getLsbD).length)

/-- Comparisons and predicate logic: `ICMP` and `PLOP` write a predicate, `ISET` all ones or zero; a condition of 6 or 7, or
p7 as a destination, is no instruction (R229, R230). -/
def Obligations.Comparisons : Prop :=
  (∀ (s : State) (t : Thread) (x : Ext), s.thr s.cur = some t → x.d.toNat < 8 →
    let y := intTy t.teller x.ty
    let wide := t.teller = false ∧ 6 ≤ x.ty.toNat
    let a := fun l => if wide then y.ext (t.pairA x l) else y.ext (t.opA x l)
    let b := fun l => if wide then y.ext (t.pairB x l) else y.ext (t.opB x l)
    SetsPred (.icmp x) x.d.toNat s t (fun l => ccHolds (x.mf 2 0) (a l) (b l)) ∧
    SetsPred (.plop x) x.d.toNat s t (fun l =>
      (x.mf 7 0).testBit (4 * (t.pr l x.a.toNat).toNat + 2 * (t.pr l x.b.toNat).toNat + (t.pr l x.c.toNat).toNat))) ∧
  (∀ (s : State) (t : Thread) (x : Ext), s.thr s.cur = some t →
    let y := intTy t.teller x.ty
    let wide := t.teller = false ∧ 6 ≤ x.ty.toNat
    let a := fun l => if wide then y.ext (t.pairA x l) else y.ext (t.opA x l)
    let b := fun l => if wide then y.ext (t.pairB x l) else y.ext (t.opB x l)
    SetsReg (.iset x) x.d.toNat s t (fun l => if ccHolds (x.mf 2 0) (a l) (b l) then 0xFFFFFFFFFFFFFFFF else 0)) ∧
  (∀ a b : Int, ccHolds 0 a b = decide (a = b) ∧ ccHolds 1 a b = decide (a ≠ b) ∧ ccHolds 2 a b = decide (a < b) ∧
    ccHolds 3 a b = decide (a ≤ b) ∧ ccHolds 4 a b = decide (b < a) ∧ ccHolds 5 a b = decide (b ≤ a)) ∧
  ∀ (side : Side) (lim : Limits) (x : Ext),
    ((Instr.icmp x).wellFormed side lim = true → x.mf 2 0 < 6 ∧ x.d.toNat < 7) ∧
    ((Instr.iset x).wellFormed side lim = true → x.mf 2 0 < 6) ∧ ((Instr.plop x).wellFormed side lim = true → x.d.toNat < 7)

/-- Moves, address arithmetic, the special registers by number, and the two forms of `CLK`; where a launch has no deadline the
time left is the largest I64 (R54, R73, R125, R231, R232, R233, R332). -/
def Obligations.MovesAndAddresses : Prop :=
  ∀ (s : State) (t : Thread), s.thr s.cur = some t →
    (∀ x, SetsReg (.mov x) x.d.toNat s t (fun l => t.opA x l)) ∧
    (∀ k, SetsReg (.movCompact k) k.d.toNat s t (fun l => t.reg l k.a.toNat)) ∧
    (∀ x v, x.lit = some v → x.m 0 = true → SetsReg (.movl (.ext x)) x.d.toNat s t (fun _ => v)) ∧
    (∀ x v, x.lit = some v → x.m 0 = false → (t.teller = true ∨ x.d.toNat + 1 < 512) →
      SetsPair (.movl (.ext x)) x.d.toNat s t (fun _ => v)) ∧
    (∀ k v, k.lit = some v → SetsPair (.movl (.compact k)) k.d.toNat s t (fun _ => v)) ∧
    (∀ x, (t.teller = true ∨ x.d.toNat + 1 < 512) →
      SetsPair (.lea x) x.d.toNat s t (fun l =>
        t.pairA x l + BitVec.ofNat 64 ((t.opB9 x l).toNat % 2 ^ 32 * 2 ^ x.mf 1 0) + x.offset)) ∧
    (∀ x, x.a = 8 → (t.teller = true ∨ x.d.toNat + 1 < 512) → (s.blk s.cur.block).isSome = true →
      SetsPair (.sread x) x.d.toNat s t (fun _ => s.now.setWidth 64)) ∧
    (∀ x b, s.blk s.cur.block = some b →
      let sreg := fun (n : Nat) (f : Nat → Nat) => x.a.toNat = n → SetsReg (.sread x) x.d.toNat s t (fun l => BitVec.ofNat 64 (f l))
      sreg 0 (fun l => if s.cur.warp = none then 0 else l) ∧ sreg 1 (fun _ => s.cur.warp.getD 0) ∧ sreg 2 (fun _ => b.blockId) ∧
      sreg 5 (fun _ => b.core) ∧ sreg 6 (fun _ => b.core / 16) ∧ sreg 7 (fun _ => b.party) ∧
      ∀ it la, s.items.look b.item = some it → s.launches.look it.launch = some la →
        sreg 3 (fun _ => it.index) ∧ sreg 4 (fun _ => la.nitems) ∧ sreg 10 (fun _ => la.id.toNat) ∧
        ((t.teller = true ∨ x.d.toNat + 1 < 512) →
          (x.a.toNat = 9 → SetsPair (.sread x) x.d.toNat s t (fun _ => la.deadline.setWidth 64)) ∧
          (x.m 0 = true → SetsPair (.clk x) x.d.toNat s t (fun _ =>
            if la.deadline = 0xFFFFFFFFFFFF then 0x7FFFFFFFFFFFFFFF
            else BitVec.ofInt 64 (la.deadline.toNat - s.now.toNat))))) ∧
    (∀ x, x.m 0 = false → (t.teller = true ∨ x.d.toNat + 1 < 512) →
      SetsPair (.clk x) x.d.toNat s t (fun _ => s.now.setWidth 64))

/-! ### Control (R234 to R243) -/

/-- A transfer whose targets are aligned sends each executing lane to its target at the clause end; `CALL` and `CALLT` also
write the fall-through address to their link. Of `BTAB` and `CALLT` the lanes whose index is in the list go on so, beside lanes
whose index is beyond it, which stop with BTAB and the index (R63, R234 to R237, R385). -/
def Obligations.TransfersTakeTheirTargets : Prop :=
  ∀ (s : State) (t : Thread) (c : Clause), s.thr s.cur = some t → t.clause = some c →
    let jump := fun (i : Instr) (dest : Nat → Addr) => Answers i s (fun u =>
      u = { t with
        clause := some ({ c with jumps := (t.lanes i.guard).foldl (fun m l => m.ins l (dest l)) c.jumps }.pass i),
        opbuf := t.operandBuffer i })
    let link := fun (i : Instr) (x : Ext) (dest : Nat → Addr) => Answers i s (fun u =>
      (∃ o, u.clause = some ({ c with jumps := o }.pass i) ∧ ∀ l ∈ t.lanes i.guard, o.look l = some (dest l)) ∧
      WrotePair t u (t.lanes i.guard) x.d.toNat (fun _ => c.fall) ∧ u.lpc = t.lpc ∧ u.exited = t.exited)
    let ok := fun (g : Guard) (dest : Nat → Addr) => ∀ l ∈ t.lanes g, (dest l).extractLsb' 0 2 = 0
    let target := fun (x : Ext) l =>
      if x.m 0 = true then t.pairA x l
      else match x.lit with | some v => c.next + v | none => c.next + (x.c.signExtend 64 <<< 2)
    let listed := fun (x : Ext) l => c.targets.getD ((t.reg l x.a.toNat).toNat % 2 ^ 32) 0
    let inList := fun (x : Ext) => ∀ l ∈ t.lanes x.guard, (t.reg l x.a.toNat).toNat % 2 ^ 32 < c.targets.length
    (∀ x, ok x.guard (target x) → jump (.bra x) (target x)) ∧
    (∀ x, ok x.guard (fun l => t.pairA x l) → jump (.ret x) (fun l => t.pairA x l)) ∧
    (∀ x, inList x → ok x.guard (listed x) → jump (.btab x) (listed x)) ∧
    (∀ x, (t.teller = true ∨ x.d.toNat + 1 < 512) → ok x.guard (target x) → link (.call x) x (target x)) ∧
    (∀ x, (t.teller = true ∨ x.d.toNat + 1 < 512) → inList x → ok x.guard (listed x) → link (.callt x) x (listed x)) ∧
    ∀ x : Ext,
      let index := fun (l : Nat) => (t.reg l x.a.toNat).toNat % 2 ^ 32
      let within := (t.lanes x.guard).filter (fun l => decide (index l < c.targets.length))
      let beyond := ((t.lanes x.guard).filter (fun l => decide (c.targets.length ≤ index l))).map
        (fun l => (l, (BitVec.ofNat 64 (index l) : Addr)))
      (∀ l ∈ within, (listed x l).extractLsb' 0 2 = 0) →
        Answers (.btab x) s (fun u =>
          u = { t with
            clause := some (({ c with jumps := within.foldl (fun m l => m.ins l (listed x l)) c.jumps }.failed .btab 0 beyond).pass
              (.btab x)),
            opbuf := t.operandBuffer (.btab x) }) ∧
        ((t.teller = true ∨ x.d.toNat + 1 < 512) →
          Answers (.callt x) s (fun u =>
            (∃ o, u.clause = some (({ c with jumps := o }.failed .btab 0 beyond).pass (.callt x)) ∧
              ∀ l ∈ within, o.look l = some (listed x l)) ∧
            WrotePair t u within x.d.toNat (fun _ => c.fall) ∧ u.lpc = t.lpc ∧ u.exited = t.exited))

/-- `JOIN`, `LEAVE` and `MMOV` write a mask or a predicate; `MRD` reads a mask, an LPC element, the lanes that wait on a mask,
or the exited lanes (R123, R238 to R240). -/
def Obligations.MaskInstructions : Prop :=
  ∀ (s : State) (t : Thread) (x : Ext), s.thr s.cur = some t →
    let ls := t.lanes x.guard
    SetsMask (.join x) x.d.toNat s t (t.mr x.d.toNat ||| maskOfLanes ls) ∧
    SetsMask (.leave x) x.d.toNat s t (t.mr x.d.toNat &&& ~~~maskOfLanes ls) ∧
    (x.mf 1 0 = 0 → SetsMask (.mmov x) x.d.toNat s t (maskPut (t.mr x.d.toNat) ls (fun l => t.pr l x.a.toNat))) ∧
    (∀ l rest, x.mf 1 0 = 1 → ls = l :: rest → SetsMask (.mmov x) x.d.toNat s t (t.vr l x.a.toNat)) ∧
    (x.mf 1 0 = 2 → x.d.toNat < 8 → SetsPred (.mmov x) x.d.toNat s t (fun l => (t.mr x.a.toNat).getLsbD l)) ∧
    (x.mf 1 0 = 3 → ls ≠ [] → SetsMask (.mmov x) x.d.toNat s t (t.mr x.a.toNat)) ∧
    (x.mf 1 0 = 0 → SetsReg (.mrd x) x.d.toNat s t (fun _ => (t.mr x.a.toNat).setWidth 64)) ∧
    (x.mf 1 0 = 1 → (t.teller = true ∨ x.d.toNat + 1 < 512) →
      SetsPair (.mrd x) x.d.toNat s t (fun l => t.pcOf ((t.vr l x.a.toNat).toNat % 32))) ∧
    (x.mf 1 0 = 2 → SetsReg (.mrd x) x.d.toNat s t (fun _ =>
      (maskOfLanes ((List.range 32).filter (fun l => t.waits.look l == some x.a.toNat))).setWidth 64)) ∧
    (x.mf 1 0 = 3 → SetsReg (.mrd x) x.d.toNat s t (fun _ => t.exited.setWidth 64))

/-- `WAITM`, `EXIT`, `YIELD`, `NOP`, `TRAP` and `BKPT` change only what their clause does at its end (R64, R238, R241 to
R243). -/
def Obligations.LaneControl : Prop :=
  ∀ (s : State) (t : Thread) (x : Ext), s.thr s.cur = some t →
    let ls := t.lanes x.guard
    ChangesClause (.waitm x) s t (fun c => { c with waits := ls.foldl (fun m l => m.ins l x.a.toNat) c.waits }) ∧
    ChangesClause (.exit x) s t (fun c => { c with exits := c.exits ||| maskOfLanes ls }) ∧
    ChangesClause (.yield x) s t (fun c => { c with yields := c.yields || !ls.isEmpty }) ∧
    ChangesClause (.nop x) s t (fun c => c) ∧
    StopsLanes (.trap x) s t .trap x.a.toNat (ls.map (fun l => (l, 0))) ∧
    StopsLanes (.bkpt x) s t .bkpt x.a.toNat (ls.map (fun l => (l, 0)))

/-! ### Floating point (R245 to R255) -/

/-- The F32 instructions and their compact forms round the exact result once and then flush it; a literal operand enters
exactly (R245, R247). -/
def Obligations.FloatArithmetic : Prop :=
  ∀ (s : State) (t : Thread), s.thr s.cur = some t →
    let a := fun (x : Ext) l => t.fa .f32 0 x l
    let b := fun (x : Ext) l => t.fb .f32 0 x l
    let c := fun (x : Ext) l => t.fc .f32 0 x l
    let out := fun (rm : Nat) (v : FVal) => (BitVec.ofNat 32 (Fmt.f32.put (rmOf rm t.mode) t.mode v) : Word)
    let rm := fun (x : Ext) => rmOf (x.mf 1 0) t.mode
    let near := rmOf 0 t.mode
    (∀ x : Ext, x.d.toNat < 512 →
      SetsVs (.fadd x) x.d.toNat 1 s t (fun l _ => out (x.mf 1 0) ((a x l).add (rm x) (b x l))) ∧
      SetsVs (.fsub x) x.d.toNat 1 s t (fun l _ => out (x.mf 1 0) ((a x l).add (rm x) (b x l).neg)) ∧
      SetsVs (.fmul x) x.d.toNat 1 s t (fun l _ => out (x.mf 1 0) ((a x l).mul (b x l))) ∧
      SetsVs (.ffma x) x.d.toNat 1 s t (fun l _ => out (x.mf 1 0) (((a x l).mul (b x l)).add (rm x) (c x l))) ∧
      SetsVs (.fmin x) x.d.toNat 1 s t (fun l _ => out 0 ((a x l).pick false (b x l))) ∧
      SetsVs (.fmax x) x.d.toNat 1 s t (fun l _ => out 0 ((a x l).pick true (b x l))) ∧
      SetsVs (.frnd x) x.d.toNat 1 s t (fun l _ => out (x.mf 1 0) ((a x l).frnd (rm x)))) ∧
    (∀ k : Compact,
      SetsVs (.faddCompact k) k.d.toNat 1 s t (fun l _ => out 0 ((a k.ext l).add near (b k.ext l))) ∧
      SetsVs (.fsubCompact k) k.d.toNat 1 s t (fun l _ => out 0 ((a k.ext l).add near (b k.ext l).neg)) ∧
      SetsVs (.fmulCompact k) k.d.toNat 1 s t (fun l _ => out 0 ((a k.ext l).mul (b k.ext l))) ∧
      SetsVs (.ffmaCompact k) k.d.toNat 1 s t (fun l _ =>
        out 0 (((a k.ext l).mul (b k.ext l)).add near (Fmt.f32.xin t.mode (t.vr l k.d.toNat).toNat))))

/-- Rounding gives a value of the format that brackets the exact one: RZ, RU and RD never round away from zero, down or up,
and a value that the format has is its own rounding. RNE gives the nearer of the two values that bracket the exact one, the
one with the even encoding where both are equally near, and infinity from half a last place beyond the largest finite value on
(R79, R82). -/
def Obligations.RoundingBracketsTheValue : Prop :=
  ∀ (f : Fmt) (neg : Bool) (m : Nat) (e : Int), f ∈ [Fmt.f32, .f16, .bf16, .f26] → 0 < m →
    let exact := FVal.fin neg m e
    let v := fun (rm : Rm) => f.dec (f.rnd rm exact)
    (v .rz).cmp exact ≠ (if neg then .lt else .gt) ∧ (v .ru).cmp exact ≠ .lt ∧
    (v .rd).cmp exact ≠ .gt ∧
    (∀ rm bits, f.dec bits = exact → f.dec (f.rnd rm (f.dec bits)) = f.dec bits) ∧
    (∀ s0 m0 e0 s1 m1 e1, v .rd = .fin s0 m0 e0 → v .ru = .fin s1 m1 e1 → (v .rd).cmp (v .ru) = .lt →
      let side := (exact.add .rne exact).cmp ((v .rd).add .rne (v .ru))
      (side = .lt → v .rne = v .rd) ∧ (side = .gt → v .rne = v .ru) ∧
      (side = .eq → f.rnd .rne exact % 2 = 0 ∧ (v .rne = v .rd ∨ v .rne = v .ru))) ∧
    (v .ru = .inf false ∨ v .rd = .inf true →
      v .rne = if (FVal.fin false m e).cmp (.fin false (2 ^ (f.fbits + 2) - 1) (f.bias - f.fbits - 1)) = .lt then v .rz else .inf neg)

/-- Classification and comparison; the packed 16-bit instructions act on both halves by themselves (R249 to R251). -/
def Obligations.ComparisonsAndPackedArithmetic : Prop :=
  ∀ (s : State) (t : Thread) (x : Ext), s.thr s.cur = some t →
    let holds := fun l => fcc (x.mf 2 0) (t.fa .f32 0 x l) (t.fb .f32 0 x l)
    SetsVs (.fclass x) x.d.toNat 1 s t (fun l _ => BitVec.ofNat 32 (2 ^ fclassOf (t.vr l x.a.toNat).toNat)) ∧
    (x.d.toNat < 8 → SetsPred (.fcmp x) x.d.toNat s t holds) ∧
    SetsVs (.fset x) x.d.toNat 1 s t (fun l _ => if holds l then (if x.m 9 then 0x3F800000 else 0xFFFFFFFF) else 0) ∧
    let f := if x.ty = 1 then Fmt.f16 else Fmt.bf16
    let pair := fun (rm : Nat) (v : Rm → FVal → FVal → FVal → FVal) (l _ : Nat) =>
      let half := fun h => f.put (rmOf rm t.mode) t.mode (v (rmOf rm t.mode) (t.fa f h x l) (t.fb f h x l) (t.fc f h x l))
      (BitVec.ofNat 32 (half 0 + 65536 * half 1) : Word)
    SetsVs (.hadd2 x) x.d.toNat 1 s t (pair (x.mf 1 0) (fun rm a b _ => a.add rm b)) ∧
    SetsVs (.hmul2 x) x.d.toNat 1 s t (pair (x.mf 1 0) (fun _ a b _ => a.mul b)) ∧
    SetsVs (.hfma2 x) x.d.toNat 1 s t (pair (x.mf 1 0) (fun rm a b c => (a.mul b).add rm c)) ∧
    SetsVs (.hmin2 x) x.d.toNat 1 s t (pair 0 (fun _ a b _ => a.pick false b)) ∧
    SetsVs (.hmax2 x) x.d.toNat 1 s t (pair 0 (fun _ a b _ => a.pick true b))

/-- The unary functions and the warp reductions issue one long-latency operation with a result for each executing lane,
tracked by the clause's completion flag and counted on no stream (R116, R248, R262, R263). -/
def Obligations.LongLatencyResults : Prop :=
  ∀ (s : State) (t : Thread) (x : Ext), s.thr s.cur = some t → t.lanes x.guard ≠ [] →
    let ls := t.lanes x.guard
    let a := fun l => t.fa .f32 0 x l
    let v := fun (f : Nat → Nat) => ls.map (fun l => DReg.v l x.d.toNat (BitVec.ofNat 32 (f l)))
    let round := fun (w : FVal) => Fmt.f32.put (rmOf (x.mf 1 0) t.mode) t.mode w
    IssuesResults (.frcp x) s t (v (fun l => round ((FVal.fin false 1 0).div (a l)))) ∧
    IssuesResults (.fsqrt x) s t (v (fun l => round (a l).sqrt)) ∧
    IssuesResults (.frsq x) s t (v (fun l => faithful 0 t.mode (operandBits (a l)) (a l).rsqrt)) ∧
    IssuesResults (.fexp2 x) s t (v (fun l => faithful 1 t.mode (operandBits (a l)) (a l).exp2)) ∧
    IssuesResults (.flog2 x) s t (v (fun l => faithful 2 t.mode (operandBits (a l)) (a l).log2)) ∧
    IssuesResults (.redux x) s t (ls.map (fun l => .v l x.d.toNat (reduxResult t x ls))) ∧
    IssuesResults (.scan x) s t ((ls.zip (scanResults t x ls)).map (fun (l, w) => .v l x.d.toNat w)) ∧
    IssuesResults (.matchLanes x) s t
      (if x.m 1 then
        ls.map (fun l => .p l x.d.toNat (ls.all (fun i => ls.all (fun j => matchValue t x i == matchValue t x j))))
      else ls.map (fun l => .v l x.d.toNat (maskOfLanes (ls.filter (fun k => matchValue t x k == matchValue t x l)))))

/-- `REDUX` of integers folds its operation over the executing lanes in lane order; of floats it combines neighbours in rounds
until one value is left, each sum rounded and flushed. `SCAN` gives each lane the fold of the executing lanes up to it, or before
it when exclusive, where the lowest receives the identity. A float is written flushed (R262). -/
def Obligations.ReductionsFoldTheLanes : Prop :=
  ∀ (t : Thread) (x : Ext) (ls : List Nat) (l : Nat),
    (x.m 3 = false →
      let y := intTy false x.ty
      let f := reduceInt (x.mf 2 0) y
      reduxResult t x (l :: ls) = ((ls.map (t.redI x)).foldl f (t.redI x l)).extractLsb' 0 32 ∧
      (x.m 6 = false → ∀ n, n ≤ ls.length →
        (scanResults t x (l :: ls))[n]? = some ((((ls.take n).map (t.redI x)).foldl f (t.redI x l)).extractLsb' 0 32)) ∧
      (x.m 6 = true → (scanResults t x (l :: ls))[0]? = some ((identityInt (x.mf 2 0) y).extractLsb' 0 32) ∧
        ∀ n, n < ls.length →
          (scanResults t x (l :: ls))[n + 1]? = some ((((ls.take n).map (t.redI x)).foldl f (t.redI x l)).extractLsb' 0 32))) ∧
    (x.m 3 = true → x.mf 2 0 < 3 →
      let rm := rmOf (x.mf 5 4) t.mode
      let a := fun l => Fmt.f32.xin t.mode (t.vr l x.a.toNat).toNat
      let two := fun (a b : FVal) =>
        if x.mf 2 0 = 0 then Fmt.f32.dec (Fmt.f32.put rm t.mode (a.add rm b)) else a.pick (x.mf 2 0 == 2) b
      let out := fun (v : FVal) => (BitVec.ofNat 32 (Fmt.f32.xout t.mode (Fmt.f32.rnd .rz v)) : Word)
      let identity := if x.mf 2 0 = 0 then FVal.fin false 0 0 else if x.mf 2 0 = 1 then .inf false else .inf true
      (ls.length < 32 → ∃ r : Nat → List FVal, r 0 = (l :: ls).map a ∧
        (∀ n, (r (n + 1)).length = ((r n).length + 1) / 2 ∧ ∀ i, i < (r (n + 1)).length →
          (r (n + 1)).getD i .nan =
            if 2 * i + 1 < (r n).length then two ((r n).getD (2 * i) .nan) ((r n).getD (2 * i + 1) .nan)
            else (r n).getD (2 * i) .nan) ∧
        ∃ v, r 5 = [v] ∧ reduxResult t x (l :: ls) = out v) ∧
      (x.m 6 = false → ∀ n, n ≤ ls.length →
        (scanResults t x (l :: ls))[n]? = some (out (((ls.take n).map a).foldl two (a l)))) ∧
      (x.m 6 = true → (scanResults t x (l :: ls))[0]? = some (out identity) ∧
        ∀ n, n < ls.length → (scanResults t x (l :: ls))[n + 1]? = some (out (((ls.take n).map a).foldl two (a l)))))

/-- `CVT` reads an exact integer, or a float under the input flush of its class; a float result is rounded once, an 8-bit one by
R83, and flushed; an integer result of an integer wraps or saturates; of a float it is rounded to an integer by the mode and
clamped, an infinity gives the end of the range, NaN 0. The packing of 8-bit values (R83, R252 to R255). -/
def Obligations.Conversions : Prop :=
  ∀ (s : State) (t : Thread) (x : Ext), s.thr s.cur = some t →
    let e := fmt8 x
    (x.mf 3 0 ≠ 6 → x.mf 3 0 ≠ 7 → SetsReg (.cvt x) x.d.toNat s t (fun l => cvtResult t x l)) ∧
    (x.mf 3 0 = 6 ∨ x.mf 3 0 = 7 → (t.teller = true ∨ x.d.toNat + 1 < 512) →
      SetsPair (.cvt x) x.d.toNat s t (fun l => cvtResult t x l)) ∧
    (∀ l, x.mf 3 0 < 13 → x.mf 7 4 < 13 →
      let dt := x.mf 3 0
      let ft := x.mf 7 4
      let rm := rmOf (x.mf 9 8) t.mode
      let fmt := fun c => if c = 8 then Fmt.f32 else if c = 9 then .f16 else if c = 10 then .bf16 else if c = 11 then .e4m3 else .e5m2
      let y := intTy false (BitVec.ofNat 3 dt)
      let n : Int := (intTy false (BitVec.ofNat 3 ft)).ext (if 6 ≤ ft then t.pairA x l else t.reg l x.a.toNat)
      let bits := (t.vr l x.a.toNat).toNat % 2 ^ (if ft = 8 then 32 else if ft ≤ 10 then 16 else 8)
      let v := if ft < 8 then FVal.ofInt n else (fmt ft).dec ((fmt ft).flush ((fmt ft).fi t.mode) bits)
      (8 ≤ dt → dt ≤ 10 → cvtResult t x l = BitVec.ofNat 64 ((fmt dt).flush ((fmt dt).fo t.mode) ((fmt dt).rnd rm v))) ∧
      (11 ≤ dt → cvtResult t x l = BitVec.ofNat 64 ((fmt dt).flush ((fmt dt).fo t.mode) ((fmt dt).cvt8 (x.m 10) v))) ∧
      (dt < 8 → ft < 8 → cvtResult t x l = y.result (x.m 10) n) ∧
      (dt < 8 → 8 ≤ ft →
        (v = .nan → cvtResult t x l = 0) ∧ (∀ neg, v = .inf neg → cvtResult t x l = y.put (if neg then y.lo else y.hi)) ∧
        ∀ neg m e, v = .fin neg m e →
          let d := (-e).toNat
          let q := m / 2 ^ d
          let rest := m % 2 ^ d
          let up := match rm with
            | .rne => decide (2 ^ d < 2 * rest ∨ (2 * rest = 2 ^ d ∧ q % 2 = 1))
            | .rz => false
            | .ru => !neg && rest != 0
            | .rd => neg && rest != 0
          let whole : Int := if 0 ≤ e then ((m * 2 ^ e.toNat : Nat) : Int) else ((q + up.toNat : Nat) : Int)
          cvtResult t x l = y.put (min (max (if neg then -whole else whole) y.lo) y.hi))) ∧
    SetsVs (.pk8 x) x.d.toNat 1 s t (fun l _ => wordOf4 (fun i => e.xout t.mode (e.cvt8 (x.m 0) (t.fa4 x l i)))) ∧
    SetsVs (.qvec x) x.d.toNat 1 s t (fun l _ =>
      wordOf4 (fun i => e.xout t.mode (e.cvt8 (x.m 0) ((t.fa4 x l i).div (t.scale x l))))) ∧
    (x.d.toNat + 4 ≤ 512 →
      SetsVs (.upk8 x) x.d.toNat 4 s t (fun l i =>
        BitVec.ofNat 32 (Fmt.f32.rnd .rne (e.xin t.mode (byteOf (t.vr l x.a.toNat) i)))) ∧
      SetsVs (.dqv x) x.d.toNat 4 s t (fun l i =>
        BitVec.ofNat 32 (Fmt.f32.put (rmOf (x.mf 1 0) t.mode) t.mode
          ((e.xin t.mode (byteOf (t.vr l x.a.toNat) i)).mul (t.scale x l)))))

/-! ### Trits and lanes (R86, R87, R256 to R263) -/

/-- `TRPK` packs codes into bytes, `TRCHK` tests them, and `TRUP` unpacks the lanes whose bytes are all legal, and stops the
other lanes of the same instruction with TRIT (R385). Packed digits read back, and a code 0b11 makes the byte 0xFF, which is
illegal for any count (R87, R256, R257). -/
def Obligations.TritInstructions : Prop :=
  (∀ (s : State) (t : Thread) (x : Ext), s.thr s.cur = some t →
    let n := tritCount x
    SetsVs (.trpk x) x.d.toNat 1 s t (fun l _ =>
      wordOf4 (fun j =>
        if j < bytesUsed n then packByte (fun i => codeAt (t.pairA x l) (5 * j + i)) (tritsIn n j) else 0)) ∧
    (x.d.toNat < 8 →
      SetsPred (.trchk x) x.d.toNat s t (fun l => (firstIllegal (t.vr l x.a.toNat) n).isNone)) ∧
    (x.d.toNat + 1 < 512 → t.teller = false →
      (∀ l ∈ t.lanes x.guard, firstIllegal (t.vr l x.a.toNat) n = none) →
      SetsPair (.trup x) x.d.toNat s t (fun l => unpackCodes (t.vr l x.a.toNat) n)) ∧
    let told := fun l =>
      (l, (t.vr l x.a.toNat).setWidth 64 + BitVec.ofNat 64 ((firstIllegal (t.vr l x.a.toNat) n).getD 0 * 2 ^ 62))
    ((∀ l ∈ t.lanes x.guard, (firstIllegal (t.vr l x.a.toNat) n).isSome = true) →
      StopsLanes (.trup x) s t .trit 0 ((t.lanes x.guard).map told)) ∧
    (x.d.toNat + 1 < 512 → t.teller = false →
      let legal := fun l => (firstIllegal (t.vr l x.a.toNat) n).isNone
      Answers (.trup x) s (fun u =>
        PastBy (·.failed .trit 0 (((t.lanes x.guard).filter (fun l => !legal l)).map told)) (.trup x) t u ∧
          WrotePair t u ((t.lanes x.guard).filter legal) x.d.toNat (fun l => unpackCodes (t.vr l x.a.toNat) n)))) ∧
  ∀ (code : Nat → Nat) (h : Nat), 1 ≤ h → h ≤ 5 →
    ((∀ i, i < h → code i < 3) →
      digitOk (packByte code h) h = true ∧ ∀ i, i < h → digit (packByte code h) i = code i) ∧
    ((∃ i, i < h ∧ code i = 3) → packByte code h = 0xFF ∧ digitOk (packByte code h) h = false)

/-- `LXCH`, `VOTE` and `FIRST` read and write only their executing lanes (R259 to R261, R263). -/
def Obligations.LaneExchanges : Prop :=
  ∀ (s : State) (t : Thread) (x : Ext), s.thr s.cur = some t →
    let ls := t.lanes x.guard
    let g := 2 ^ x.mf 4 2
    let n := fun l => (t.opB x l).extractLsb' 0 32
    let take := fun (src : Nat → Nat) l => t.reg (if src l ∈ ls then src l else l) x.a.toNat
    let c := fun l => t.pr l x.a.toNat != x.m 2
    (x.mf 1 0 = 0 → SetsReg (.lxch x) x.d.toNat s t (take (fun l => l / g * g + (n l).toNat % g))) ∧
    (x.mf 1 0 = 1 → SetsReg (.lxch x) x.d.toNat s t (take (fun l => l / g * g + (((l % g : Nat) + (n l).toInt) % g).toNat))) ∧
    (x.mf 1 0 = 2 → SetsReg (.lxch x) x.d.toNat s t (take (fun l => l / g * g + (g - 1 - l % g)))) ∧
    (x.mf 1 0 = 3 → SetsReg (.lxch x) x.d.toNat s t (take (fun l => l / g * g + ((l % g) ^^^ ((n l).toNat % g))))) ∧
    (x.d.toNat < 8 →
      (x.mf 1 0 = 0 → SetsPred (.vote x) x.d.toNat s t (fun _ => ls.all c)) ∧
      (x.mf 1 0 = 1 → SetsPred (.vote x) x.d.toNat s t (fun _ => ls.any c)) ∧
      (x.mf 1 0 = 2 → SetsPred (.vote x) x.d.toNat s t (fun _ => ls.all c || ls.all (fun l => !c l)))) ∧
    (x.mf 1 0 = 3 → SetsReg (.vote x) x.d.toNat s t (fun _ => (maskOfLanes (ls.filter c)).setWidth 64)) ∧
    (∀ f rest, ls = f :: rest →
      SetsReg (.firstLane x) x.d.toNat s t (fun _ => if x.m 0 then BitVec.ofNat 64 f else t.reg f x.a.toNat))

/-! ### Memory (R158 to R170, R265 to R284) -/

/-- An aligned load issues one operation on its stream for each executing lane, with its width, its sign and its place
(R158, R162, R265 to R271). -/
def Obligations.LoadsIssue : Prop :=
  ∀ (s : State) (t : Thread), s.thr s.cur = some t → t.unreported = [] →
    let room := fun (g : Guard) (st : Nat) => ∀ l ∈ t.lanes g, t.count l st < 32
    let run := fun (i : Instr) (x : Ext) (at' : Nat → Placed) => ∀ p : Nat → Place, room x.guard x.st.toNat →
      (∀ l ∈ t.lanes x.guard, at' l = .ok (p l)) →
      IssuesOps i x.st.toNat x.pm s t ((t.lanes x.guard).map (fun l => (l, .load (p l) (loadForm x) x.d.toNat)))
    let generic := fun (x : Ext) l => s.generic s.cur.block (t.address x l) (widBytes x) (widBytes x)
    let own := fun (x : Ext) l => scratchOnly s.cur.block (t.scratchAddr x l) (widBytes x)
    let global := fun (x : Ext) l => s.globalOnly s.cur.block (t.address x l) (widBytes x)
    (∀ x, run (.ld x) x (generic x)) ∧ (∀ x, run (.lds x) x (own x)) ∧ (∀ x, run (.ldg x) x (global x)) ∧
    (∀ k, run (.ldCompact k) k.load (generic k.load)) ∧ (∀ k, run (.ldsCompact k) k.load (own k.load)) ∧
    (∀ k, run (.ldgCompact k) k.load (global k.load)) ∧
    (∀ x b it la, s.blk s.cur.block = some b → s.items.look b.item = some it → s.launches.look it.launch = some la →
      run (.ldc x) x (fun l => s.globalOnly s.cur.block (la.args + t.index32 x x.a l + x.offset) (widBytes x)))

/-- An aligned store reads its data and issues one operation on its stream for each executing lane (R19, R158, R265 to
R270, R273). -/
def Obligations.StoresIssue : Prop :=
  ∀ (s : State) (t : Thread), s.thr s.cur = some t → t.unreported = [] →
    let room := fun (g : Guard) (st : Nat) => ∀ l ∈ t.lanes g, t.count l st < 32
    let run := fun (i : Instr) (x : Ext) (at' : Nat → Placed) (data : Nat → List Byte) => ∀ p : Nat → Place,
      room x.guard x.st.toNat → (∀ l ∈ t.lanes x.guard, at' l = .ok (p l)) →
      IssuesOps i x.st.toNat x.pm s t ((t.lanes x.guard).map (fun l => (l, .store (p l) (data l))))
    let generic := fun (x : Ext) l => s.generic s.cur.block (t.address x l) (widBytes x) (widBytes x)
    let own := fun (x : Ext) l => scratchOnly s.cur.block (t.scratchAddr x l) (widBytes x)
    let global := fun (x : Ext) l => s.globalOnly s.cur.block (t.address x l) (widBytes x)
    (∀ x, run (.st x) x (generic x) (t.storeData x)) ∧ (∀ x, run (.sts x) x (own x) (t.storeData x)) ∧
    (∀ x, run (.stg x) x (global x) (t.storeData x)) ∧
    (∀ k, run (.stCompact k) k.store (generic k.store) (t.storeData k.store)) ∧
    (∀ k, run (.stsCompact k) k.store (own k.store) (t.storeData k.store)) ∧
    (∀ k, run (.stgCompact k) k.store (global k.store) (t.storeData k.store)) ∧
    (∀ x, run (.stz x) x (generic x) (fun _ => List.replicate (widBytes x) 0))

/-- The atomics, releases, acquires and counter reads issue one operation for each executing lane with the operands and
MODE read at issue; outside the scratchpads an update sets the item's commit mark (R274 to R278, R284, R345). -/
def Obligations.AtomicsIssue : Prop :=
  ∀ (s : State) (t : Thread) (x : Ext) (p : Nat → Place), s.thr s.cur = some t → t.unreported = [] →
    (∀ l ∈ t.lanes x.guard, t.count l x.st.toNat < 32) →
    let w := if 6 ≤ x.ty.toNat then 8 else 4
    let spec := fun (l op : Nat) => (⟨op, decide (6 ≤ x.ty.toNat), x.ty.toNat % 2 == 0, t.atomB x l, t.atomC x l, t.mode, x.mf 7 5⟩ : AtomSpec)
    let all := fun (k : Nat → OpKind) => (t.lanes x.guard).map (fun l => (l, k l))
    ((∀ l ∈ t.lanes x.guard, s.generic s.cur.block (t.baseOff x l) w w = .ok (p l)) →
      IssuesOps (.atom x) x.st.toNat x.pm s t (all (fun l => .atomic (p l) (spec l (x.mf 11 8)) (if x.m 4 then some x.d.toNat else none))) ∧
      IssuesOps (.cas x) x.st.toNat x.pm s t (all (fun l => .atomic (p l) (spec l 8) (some x.d.toNat))) ∧
      IssuesOps (.atomr x) x.st.toNat x.pm s t
        (all (fun l => .release (p l) (spec l (x.mf 11 8)) (if x.m 4 then some x.d.toNat else none) (x.mf 7 5))) ∧
      IssuesOps (.rel x) x.st.toNat x.pm s t (all (fun l => .release (p l) (spec l 9) none (x.mf 7 5))) ∧
      (x.mf 9 8 = 0 → IssuesOps (.acq x) x.st.toNat x.pm s t
        (all (fun l => .acquire (p l) .waitge (spec l 9) x.d.toNat (x.mf 7 5) false))) ∧
      (x.mf 9 8 = 1 → IssuesOps (.acq x) x.st.toNat x.pm s t
        (all (fun l => .acquire (p l) .cas (spec l 8) x.d.toNat (x.mf 7 5) false))) ∧
      (2 ≤ x.mf 9 8 → IssuesOps (.acq x) x.st.toNat x.pm s t
        (all (fun l => .acquire (p l) .xchg (spec l 7) x.d.toNat (x.mf 7 5) false)))) ∧
    ((∀ l ∈ t.lanes x.guard, s.generic s.cur.block (t.baseOff x l) 8 8 = .ok (p l)) →
      IssuesOps (.cread x) x.st.toNat x.pm s t (all (fun l => .cread (p l) x.d.toNat)))

/-- `ETRIG` and `CPY` issue one operation for each executing lane, and `PREF` one for each lane whose address lies in global
memory and would not fault at issue: no check stops a lane of a `PREF`, and one that would fault, or lies in a scratchpad or in
vault storage, is complete at once (R272, R280, R281; that an address is judged by the translation as it stands at issue is the
model's choice, log entry 81). -/
def Obligations.CopiesAndHintsIssue : Prop :=
  ∀ (s : State) (t : Thread) (x : Ext) (blk : Block), s.thr s.cur = some t → s.blk s.cur.block = some blk → t.unreported = [] →
    (∀ l ∈ t.lanes x.guard, t.count l x.st.toNat < 32) →
    let b := s.cur.block
    let n := widBytes x
    let faults := fun (p : Place) => ∃ c st, s.resolve blk.core none p 1 1 plainOk = .fault c st
    (∀ (p : Nat → Place) (good : Nat → Bool),
      (∀ l ∈ t.lanes x.guard, good l = true →
        s.generic b (t.address x l) n n = .ok (p l) ∧ (∃ ctx va, p l = .global ctx va) ∧ ¬ faults (p l)) →
      (∀ l ∈ t.lanes x.guard, good l = false →
        (∃ e, s.generic b (t.address x l) n n = .error e) ∨ ∃ q, s.generic b (t.address x l) n n = .ok q ∧
          ((∃ k off a, q = .scratch k off a) ∨ faults q)) →
      IssuesOps (.pref x) x.st.toNat x.pm s t (((t.lanes x.guard).filter good).map (fun l => (l, .prefetch (p l))))) ∧
    IssuesOps (.etrig x) x.st.toNat x.pm s t ((t.lanes x.guard).map (fun l => (l, .etrig (x.mf 7 5)))) ∧
    (∀ (d c src : Nat → Place),
      (∀ l ∈ t.lanes x.guard, s.generic b (t.pairA x l) n n = .ok (d l) ∧ s.generic b (t.pair l x.b.toNat) n n = .ok (src l) ∧
        (x.m 5 = true → s.generic b (t.pair l x.c.toNat) 8 8 = .ok (c l))) →
      IssuesOps (.cpy x) x.st.toNat x.pm s t ((t.lanes x.guard).map (fun l =>
        (l, .copy (d l) (src l) n (if x.m 5 then some (c l) else none) false))))

/-- A misaligned address of a memory instruction stops its lanes with ALIGN and the address formed, while its other lanes issue;
`BTAB` with indices beyond
its list stops its lanes with BTAB and the index; a misaligned target stops every transferring lane with ILL (log entry 12);
nothing is issued, written or transferred for a lane that stops (R235, R236, R266, R385). -/
def Obligations.BadAddressesStopTheirLanes : Prop :=
  ∀ (s : State) (t : Thread) (c : Clause) (x : Ext), s.thr s.cur = some t → t.clause = some c →
    ((∀ l ∈ t.lanes x.guard, (t.address x l).toNat % widBytes x ≠ 0 ∧ regionOf (t.address x l) (widBytes x) ≠ .window) →
      let stopped := (t.lanes x.guard).map (fun l => (l, t.address x l))
      StopsLanes (.ld x) s t .align 0 stopped ∧ StopsLanes (.st x) s t .align 0 stopped ∧ StopsLanes (.stz x) s t .align 0 stopped ∧
      StopsLanes (.ldg x) s t .align 0 stopped ∧ StopsLanes (.stg x) s t .align 0 stopped) ∧
    (∀ (good : Nat → Bool) (p : Nat → Place) (cause : Cause), t.unreported = [] →
      let place := fun l => s.generic s.cur.block (t.address x l) (widBytes x) (widBytes x)
      let issues := (t.lanes x.guard).filter good
      let stopped := ((t.lanes x.guard).filter (fun l => !good l)).map (fun l => (l, t.address x l))
      (∀ l ∈ t.lanes x.guard, good l = true → place l = .ok (p l) ∧ t.count l x.st.toNat < 32) →
      (∀ l ∈ t.lanes x.guard, good l = false → place l = .error (cause, t.address x l)) →
      IssuesSome (.ld x) x.st.toNat x.pm s t (issues.map (fun l => (l, .load (p l) (loadForm x) x.d.toNat))) cause stopped ∧
      IssuesSome (.st x) x.st.toNat x.pm s t (issues.map (fun l => (l, .store (p l) (t.storeData x l)))) cause stopped) ∧
    ((∀ l ∈ t.lanes x.guard, c.targets.length ≤ (t.reg l x.a.toNat).toNat % 2 ^ 32) →
      StopsLanes (.btab x) s t .btab 0
        ((t.lanes x.guard).map (fun l => (l, BitVec.ofNat 64 ((t.reg l x.a.toNat).toNat % 2 ^ 32))))) ∧
    ((∃ l ∈ t.lanes x.guard, (t.pairA x l).extractLsb' 0 2 ≠ 0) →
      StopsLanes (.ret x) s t .ill 0 ((t.lanes x.guard).map (fun l => (l, 0))))

/-- An `LD` or `ST` one of whose lanes has 32 operations outstanding on its stream issues nothing and holds its thread for room on
that stream, in that lane among others; a `TZERO`, `TMMA`, `FMMA` or `ACLR` whose engine queue holds 16 commands, or whose block has
commands that are still to enter it again, changes nothing but what its teller is blocked on: the teller stalls at the instruction
(R133, R162, R183, R195). That a block with commands still to enter an engine's queue again stalls its teller as a full queue does is
the model's choice (log entry 67). -/
def Obligations.FullQueuesStall : Prop :=
  ∀ (s : State) (t : Thread) (x : Ext), s.thr s.cur = some t →
    (∀ (l : Nat) (p : Place), l ∈ t.lanes x.guard → 32 ≤ t.count l x.st.toNat →
      s.generic s.cur.block (t.address x l) (widBytes x) (widBytes x) = .ok p →
      ∃ m : LaneMask, m.getLsbD l = true ∧
        exec (.ld x) s = .next (s.withThread { t with hold := .streamFull m x.st.toNat }) ∧
        exec (.st x) s = .next (s.withThread { t with hold := .streamFull m x.st.toNat })) ∧
    (∀ b : Block, s.blk s.cur.block = some b → t.lanes x.guard ≠ [] → t.count 0 x.st.toNat < 32 →
      earlyFail (t.pairCheck x) = none →
      let full := fun eng => 16 ≤ (s.engine b.core eng).queue.length ∨ b.saved.rd [] eng ≠ []
      let stalls := fun (i : Instr) eng => exec i s = .next (s.withThread { t with blocked := some (eng, t.here) })
      (full 0 → stalls (.tzero x) 0) ∧ (full 2 → stalls (.tmma x) 2) ∧ (full 3 → stalls (.fmma x) 3) ∧
        (full 4 → stalls (.aclr x) 4))

/-- `CWAIT` of one lane on a counter in its own scratchpad: a counter at or above the threshold ends it at once, another
holds the issuer at the instruction (R283). -/
def Obligations.CwaitTestsItsCounter : Prop :=
  ∀ (s : State) (t : Thread) (b : Block) (c : Clause) (w : Word) (ws : List Word) (x : Ext) (l off : Nat) (a : Addr),
    s.thr s.cur = some t → s.blk s.cur.block = some b → t.clause = some c → c.rest = w :: ws → t.lanes x.guard = [l] →
    t.ops = [] → t.unreported = [] → s.findOp s.nextId = none → (b.run = .running ∨ b.run = .stopping) →
    s.generic s.cur.block (t.pairA x l + (if x.cl then lit9 x.c else 0)) 8 8 = .ok (.scratch s.cur.block off a) →
    off + 8 ≤ b.scratchBytes → b.poisonedLines = [] →
    let met := (t.pairB x l).toNat ≤ numOf (readMem b.scratch off 8)
    ∃ u, exec (.cwait x) s = .next { s.withThread u with nextId := s.nextId + 1 } ∧ u.v = t.v ∧ u.k = t.k ∧ u.p = t.p ∧
      (met → u.hold = .none ∧ u.ops = [] ∧ ∃ d, u.clause = some d ∧ d.left = c.left - 1 ∧
        d.rest = c.rest.drop (wordsOfLen (lenOf w)) ∧ d.next = c.next + BitVec.ofNat 64 (4 * wordsOfLen (lenOf w))) ∧
      (¬ met → u.hold = .cwait [s.nextId] ∧ u.clause = t.clause ∧ u.ops.map (·.id) = [s.nextId])

/-! ### Engine commands and events (R286 to R310) -/

/-- An engine command that passes its checks at issue enters its engine's queue with the register values of now, as one
outstanding operation on its stream; it changes no memory. A `LARM` also keeps whether its block has 32 sends armed as it issues
(R163, R183, R286 to R309). -/
def Obligations.CommandsEnterTheirQueues : Prop :=
  ∀ (s : State) (t : Thread) (b : Block) (x : Ext), s.thr s.cur = some t → s.blk s.cur.block = some b →
    t.lanes x.guard ≠ [] → t.count 0 x.st.toNat < 32 →
    let k := fun (r : BitVec 9) => t.kr r.toNat
    let enters := fun (i : Instr) (eng : Nat) (dest : Option Nat) (checks : List EarlyCheck) (kind : CmdKind) =>
      earlyFail (checks ++ t.pairCheck x) = none → (s.engine b.core eng).queue.length < 16 → b.saved.rd [] eng = [] →
      ∃ s' u c, exec i s = .next s' ∧ SameMemory s s' ∧ s'.nextId = s.nextId + 1 ∧ s'.thr s.cur = some u ∧
        u.v = t.v ∧ u.k = t.k ∧ u.p = t.p ∧ u.clause = t.clause.map (·.pass i) ∧
        (∃ es, u.ops.map Op.face = t.ops.map Op.face ++ [(0, some x.st.toNat, x.pm, t.flagOf i, .command b.core eng dest es)]) ∧
        (s'.engine b.core eng).queue.map (·.op) = (s.engine b.core eng).queue.map (·.op) ++ [s.nextId] ∧
        (s'.engine b.core eng).queue.getLast? = some c ∧ c.kind = kind ∧ c.block = s.cur.block ∧ c.mode = t.mode ∧
        c.cmp = t.cmpPair x ∧ c.ev = x.x9.getLsbD 6 ∧ c.gran = granOf x
    let array := fun (fp8 : Bool) =>
      (⟨fp8, x.m 0, x.m 1, x.m 2, x.d.toNat, x.a.toNat, x.b.toNat, k x.c, t.kr (x.c.toNat + 1), t.promo, t.assayctl, t.injSet⟩ :
        ArrayCmd)
    let off : Int := ((k x.a).toNat : Int) + x.offset.toInt
    let es := if x.mf 1 0 = 0 then 1 else 2 ^ (x.mf 1 0 - 1)
    enters (.gath x) 0 none [(k x.a, 16, 64)] (.gath x.d.toNat (k x.a)) ∧
    enters (.tlds x) 0 none [] (.tlds x.d.toNat off (t.opB9 x 0)) ∧
    enters (.tsts x) 0 none [] (.tsts x.d.toNat off (t.opB9 x 0) (x.m 0)) ∧
    enters (.tzero x) 0 none [] (.tzero x.d.toNat) ∧
    enters (.vld x) 1 none [(k x.a + x.offset, 3328, 64)] (.vld x.d.toNat (k x.a + x.offset)) ∧
    enters (.tmma x) 2 none [] (.array (array false)) ∧ enters (.fmma x) 3 none [] (.array (array true)) ∧
    enters (.drain x) 4 none ((k x.d, drainSize (x.mf 2 0), drainSize (x.mf 2 0)) :: (if x.m 4 then [(k x.b, 16, 64)] else []))
      (.drain (k x.d) x.a.toNat (k x.c) (if x.m 4 then some (k x.b) else none) (x.mf 2 0) (x.m 3) (x.m 5)) ∧
    enters (.aclr x) 4 none [] (.aclr (x.mf 3 0)) ∧
    enters (.astat x) 4 (some x.d.toNat) [] (.astat x.d.toNat x.a.toNat (x.m 0)) ∧
    enters (.tcpy x) 5 none
      ((k x.b, 64, 64) :: ((if x.m 3 then [] else [(k x.a, es, es)]) ++ (if x.m 4 then [] else [(k x.d, es, es)])))
      (.tcpy (if x.m 4 then x.d.setWidth 64 else k x.d) (if x.m 3 then x.a.setWidth 64 else k x.a) (k x.b) (x.mf 1 0) (x.m 2)
        (x.m 3) (x.m 4)) ∧
    enters (.lsend x) 6 none [(k x.a, 64, 64)] (.lsend (k x.a)) ∧
    enters (.larm x) 6 none [(k x.a, 64, 64)] (.larm (k x.a) (decide (32 ≤ t.armed.length))) ∧
    enters (.ldisarm x) 6 (some x.d.toNat) [(k x.a, 1, 1)] (.ldisarm x.d.toNat (k x.a))

/-- `EVWAIT`, `EVPOP` and `EQSTAT`: the teller is held until enough records wait; the oldest record leaves the queue, an
empty queue gives ENG 0 and CODE 15; the status is read (R193, R194, R305). -/
def Obligations.EventQueueInstructions : Prop :=
  ∀ (s : State) (t : Thread) (x : Ext), s.thr s.cur = some t → t.lanes x.guard ≠ [] →
    (x.a.toNat ≤ t.evq.length → ChangesClause (.evwait x) s t (fun c => c)) ∧
    (t.evq.length < x.a.toNat → exec (.evwait x) s = .next (s.withThread { t with hold := .evwait x.a.toNat, opbuf := [] })) ∧
    (t.evq = [] → ∃ u, exec (.evpop x) s = .next (s.withThread u) ∧ u.kr x.d.toNat = 0x0F00000000000000 ∧ u.evq = []) ∧
    (∀ r rs, t.evq = r :: rs → t.pend = [] → ∃ u, exec (.evpop x) s = .next (s.withThread u) ∧ u.kr x.d.toNat = r ∧
      u.evq = rs ∧ (t.reserve = some 0 → u.reserve = none) ∧ ∀ j, j ≠ x.d.toNat → u.kr j = t.kr j) ∧
    SetsReg (.eqstat x) x.d.toNat s t (fun _ =>
      BitVec.ofNat 64 t.evq.length ||| (if t.reserve.isSome then 0x8000 else 0) ||| (t.rgrant.setWidth 64 <<< 16))

/-! ### Shares and the clearing gate (R312 to R327) -/

/-- Outside a joint launch every share and gate instruction stops its executing lanes with SHARE_MODE (R314). -/
def Obligations.SharesNeedAJointLaunch : Prop :=
  ∀ (s : State) (t : Thread) (b : Block) (x : Ext), s.thr s.cur = some t → s.blk s.cur.block = some b → b.gate = none →
    ∀ i ∈ [Instr.saddc x, .smulc x, .strunc x, .gsnd x, .gfin x, .gstat x, .gxand x, .edab x, .gopen x],
      StopsLanes i s t .shareMode 0 ((t.lanes x.guard).map (fun l => (l, 0)))

/-- The instructions on a lane's own shares, and the status of the gate, in a joint launch (R317, R318, R325). -/
def Obligations.OwnShares : Prop :=
  ∀ (s : State) (t : Thread) (b : Block) (g : Gate) (x : Ext), s.thr s.cur = some t → s.blk s.cur.block = some b →
    b.gate = some g →
    let a := fun l => t.vr l x.a.toNat
    let c := fun l => (t.opB x l).extractLsb' 0 32
    let f := fun l => (c l).toNat % 32
    let key := fun l => s.cur.warp.getD 0 * 32 + l
    SetsVs (.saddc x) x.d.toNat 1 s t (fun l _ => if b.party = 0 then a l + c l else a l) ∧
    SetsVs (.smulc x) x.d.toNat 1 s t (fun l _ => a l * c l) ∧
    SetsVs (.strunc x) x.d.toNat 1 s t (fun l _ =>
      if b.party = 0 then BitVec.ofInt 32 ((a l).toInt / 2 ^ f l) else -BitVec.ofInt 32 ((-(a l)).toInt / 2 ^ f l)) ∧
    (x.mf 2 0 = 0 → SetsVs (.gstat x) x.d.toNat 1 s t (fun l _ => BitVec.ofNat 32 (g.atc.rd 0 (key l)))) ∧
    (x.mf 2 0 = 1 → SetsVs (.gstat x) x.d.toNat 1 s t (fun l _ => BitVec.ofNat 32 (g.btc.rd 0 (key l)))) ∧
    (x.mf 2 0 = 2 → SetsVs (.gstat x) x.d.toNat 1 s t (fun l _ => BitVec.ofNat 32 (g.ebc.rd 0 (key l)))) ∧
    (x.mf 2 0 = 3 → SetsVs (.gstat x) x.d.toNat 1 s t (fun l _ => BitVec.ofNat 32 (g.opl.rd 0 (key l)))) ∧
    (4 ≤ x.mf 2 0 → SetsVs (.gstat x) x.d.toNat 1 s t (fun l _ => BitVec.ofNat 32 (g.slot (key l)).state))

/-- A gate instruction whose lanes all pass their checks takes its warp's next exchange number, burns the entry that each
lane pops and advances its cursor, or charges its openings, and sends one packet; `GSND` leaves d = A - a and e = B - b in
the SLOT, and completes at once where every lane found its entry burnt. Where some lane fails its check those lanes stop with
SHARE_POLICY, nothing is popped or charged, and the packet is a refusal. `GFIN` issues one operation for each lane that has an
exchange, which waits for the lane's SLOT; lanes whose SLOT is none stop with SHARE_POLICY (R158, R162, R314, R319 to R324). That
every executing lane of an instruction that sends a packet takes an issue sequence number, also one that fails its check, and that
the operations of its lanes are kept as one, on no stream, is the model's choice (log entry 66). -/
def Obligations.GateInstructionsSendPackets : Prop :=
  ∀ (s : State) (t : Thread) (b : Block) (g : Gate) (x : Ext), s.thr s.cur = some t → s.blk s.cur.block = some b →
    b.gate = some g → t.lanes x.guard ≠ [] →
    let w := s.cur.warp.getD 0
    let ls := t.lanes x.guard
    let key := fun l => w * 32 + l
    let numbered := fun (u : Thread) => ∀ l, u.seq.rd 0 l = if l ∈ ls then t.seq.rd 0 l + 1 else t.seq.rd 0 l
    let sends := fun (i : Instr) (kind : GateKind) (P : Gate → Prop) =>
      ∃ s' u g' o go, exec i s = .next s' ∧ SameMemory s s' ∧ s'.thr s.cur = some u ∧ (s'.blk s.cur.block).bind (·.gate) = some g' ∧
        u.ops = t.ops ++ [o] ∧ o.id = s.nextId ∧ o.stream = none ∧ o.kind = .gate go ∧ numbered u ∧ go.kind = kind ∧
        go.n = g.xn.rd 0 (w * 4 + kind.no) ∧ go.lanes = maskOfLanes ls ∧ go.refusal = false ∧ go.arrived = false ∧
        g'.xn.rd 0 (w * 4 + kind.no) = g.xn.rd 0 (w * 4 + kind.no) + 1 ∧ g'.triples = g.triples ∧ P g'
    let popped := fun (kind : GateKind) (g' : Gate) =>
      ∀ l ∈ ls, g'.cursor kind (key l) = g.cursor kind (key l) + 1 ∧ g'.isBurnt kind (key l) (g.cursor kind (key l)) = true
    let may := fun (kind : GateKind) => ∀ l ∈ ls, g.cursor kind (key l) < g.triples
    let live := fun l => g.isBurnt .arith (key l) (g.cursor .arith (key l)) = false
    ((∀ l ∈ ls, (g.slot (key l)).state = 0) → may .arith →
      ((∃ l ∈ ls, live l) → sends (.gsnd x) .arith (fun g' => popped .arith g' ∧
        ∀ l ∈ ls, live l →
          let e := entryWords (s.jointItem b) .arith b.party (b.blockId * 1024 + key l) (g.cursor .arith (key l))
          (g'.slot (key l)).state = 1 ∧ (g'.slot (key l)).d = t.vr l x.a.toNat - e.getD 0 0 ∧
            (g'.slot (key l)).e = t.vr l x.b.toNat - e.getD 1 0)) ∧
      ((∀ l ∈ ls, ¬ live l) → ∃ s' u, exec (.gsnd x) s = .next s' ∧ SameMemory s s' ∧ s'.thr s.cur = some u ∧ u.ops = t.ops ∧
        u.v = t.v ∧ u.p = t.p ∧ numbered u)) ∧
    let refused := fun (i : Instr) (kind : GateKind) (bad : List Nat) =>
      ∃ s' u g' o go, exec i s = .next s' ∧ SameMemory s s' ∧ s'.thr s.cur = some u ∧ (s'.blk s.cur.block).bind (·.gate) = some g' ∧
        u.clause = t.clause.map (fun c => (c.failed .sharePolicy 0 (bad.map (fun l => (l, 0)))).pass i) ∧
        u.ops = t.ops ++ [o] ∧ o.id = s.nextId ∧ o.stream = none ∧ o.kind = .gate go ∧ numbered u ∧ go.kind = kind ∧
        go.n = g.xn.rd 0 (w * 4 + kind.no) ∧ go.lanes = maskOfLanes ls ∧ go.refusal = true ∧ go.arrived = false ∧
        g'.xn.rd 0 (w * 4 + kind.no) = g.xn.rd 0 (w * 4 + kind.no) + 1 ∧
        ∀ l, g'.opl.rd 0 l = g.opl.rd 0 l ∧ ∀ k, g'.cursor k l = g.cursor k l ∧ ∀ j, g'.isBurnt k l j = g.isBurnt k l j
    let ended := fun (kind : GateKind) l => decide (g.triples ≤ g.cursor kind (key l))
    let busy := fun l => (g.slot (key l)).state != 0 || ended .arith l
    let spent := fun l => g.opl.rd 0 (key l) == 0
    (ls.any busy = true → refused (.gsnd x) .arith (ls.filter busy)) ∧
    (ls.any (ended .binary) = true → refused (.gxand x) .binary (ls.filter (ended .binary))) ∧
    (ls.any (ended .eda) = true → refused (.edab x) .eda (ls.filter (ended .eda))) ∧
    (ls.any spent = true → refused (.gopen x) .opening (ls.filter spent)) ∧
    (may .binary → sends (.gxand x) .binary (popped .binary)) ∧
    (may .eda → sends (.edab x) .eda (popped .eda)) ∧
    ((∀ l ∈ ls, g.opl.rd 0 (key l) ≠ 0) →
      sends (.gopen x) .opening (fun g' => ∀ l ∈ ls, g'.opl.rd 0 (key l) = g.opl.rd 0 (key l) - 1)) ∧
    (let waits := ls.filter (fun l => (g.slot (key l)).state != 0)
      let bad := (ls.filter (fun l => (g.slot (key l)).state == 0)).map (fun l => (l, (0 : Addr)))
      ∃ u, exec (.gfin x) s = .next { s.withThread u with nextId := s.nextId + waits.length } ∧
        u = { t with
          seq := u.seq, ops := u.ops, clause := t.clause.map (fun c => (c.failed .sharePolicy 0 bad).pass (.gfin x)),
          opbuf := t.operandBuffer (.gfin x) } ∧
        (∀ l, u.seq.rd 0 l = if l ∈ waits then t.seq.rd 0 l + 1 else t.seq.rd 0 l) ∧
        u.ops.map Op.face = t.ops.map Op.face ++
          waits.map (fun l => (l, none, 0, t.flagOf (.gfin x), .gfin (laneBit l) x.d.toNat x.c.toNat)))

/-- Matched lanes of the two parties end with shares of the right value: of the product after `GSND` and `GFIN`, of the AND
after `GXAND`; an opening gives both the value (R320 to R324). -/
def Obligations.SharesOpenToTheRightValue : Prop :=
  ∀ (item lane n : Nat) (x0 x1 y0 y1 : Word),
    let e0 := entryWords item .arith 0 lane n
    let e1 := entryWords item .arith 1 lane n
    let d0 := x0 - e0.getD 0 0
    let d1 := x1 - e1.getD 0 0
    let f0 := y0 - e0.getD 1 0
    let f1 := y1 - e1.getD 1 0
    finResult 0 ⟨2, 0, e0.getD 0 0, e0.getD 1 0, e0.getD 2 0, d0, f0, d1, f1⟩ +
        finResult 1 ⟨2, 0, e1.getD 0 0, e1.getD 1 0, e1.getD 2 0, d1, f1, d0, f0⟩ = (x0 + x1) * (y0 + y1) ∧
    (let b0 := entryWords item .binary 0 lane n
     let b1 := entryWords item .binary 1 lane n
     let m0 := [x0 ^^^ b0.getD 0 0, y0 ^^^ b0.getD 1 0]
     let m1 := [x1 ^^^ b1.getD 0 0, y1 ^^^ b1.getD 1 0]
     (gateResult .binary 0 b0 m0 m1).getD 0 0 ^^^ (gateResult .binary 1 b1 m1 m0).getD 0 0 = (x0 ^^^ x1) &&& (y0 ^^^ y1)) ∧
    gateResult .opening 0 [x0] [x0] [x1] = [x0 + x1] ∧ gateResult .opening 1 [x1] [x1] [x0] = [x0 + x1]

/-! ### Control registers, returns and calls (R126 to R131, R328 to R332, R338) -/

/-- `CSRR` reads a control register of each executing lane at its width on the thread's side. `CSRW`, `CSRS` and `CSRC` change the
RW bits as the field types say: MODE, PROMO, TRAPBASE, ASSAYCTL and ASSAYCNT from the operand of the lowest executing lane,
GATECTL with TOUT then clamped to 1 to 10,000; TRAPSCRATCH in each executing lane from its own operand; `CSRW` and `CSRC` of
STRMSTAT clear the fault bits that the lane writes 1 to. No other control register changes. With ND = 0 each executing lane also
takes the old value in D, with ND = 1 no register changes (R84, R94, R97, R126 to R131, R219, R329). -/
def Obligations.ControlRegisters : Prop :=
  (∀ (s : State) (t : Thread) (b : Block) (x : Ext), s.thr s.cur = some t → s.blk s.cur.block = some b →
    let n := x.x9.toNat
    let ls := t.lanes x.guard
    let pairOk := t.teller = true ∨ x.d.toNat + 1 < 512
    let old := fun l => csrValue s b t l n
    let v := fun l => csrOperand t x l
    (csrWide t x = false → SetsReg (.csrr x) x.d.toNat s t old) ∧
    (csrWide t x = true → pairOk → SetsPair (.csrr x) x.d.toNat s t old) ∧
    let writes := fun (i : Instr) (new : Nat → Addr) =>
      ∃ s' u b', exec i s = .next s' ∧ SameMemory s s' ∧ s'.thr s.cur = some u ∧ s'.blk s.cur.block = some b' ∧
        u.clause = t.clause.map (·.pass i) ∧ (∀ l, csrValue s' b' u l n = new l) ∧
        (∀ l m, m < 10 → m ≠ n → csrValue s' b' u l m = csrValue s b t l m) ∧
        (x.m 0 = true → u.v = t.v ∧ u.k = t.k ∧ u.p = t.p ∧ u.m = t.m) ∧
        (x.m 0 = false → csrWide t x = false → WroteReg t u ls x.d.toNat old) ∧
        (x.m 0 = false → csrWide t x = true → pairOk → WrotePair t u ls x.d.toNat old)
    (∀ l0 rest mask, ls = l0 :: rest →
      (n = 0 ∧ mask = 0x3FF#64) ∨ (n = 1 ∧ mask = 0x3F) ∨ (n = 2 ∧ mask = 0x01FFFFFFFFFFFFFC) ∨ (n = 5 ∧ mask = 0x07FFFC03) ∨
        (n = 6 ∧ mask = 0x0000FFFFFFFFFFFF) →
      writes (.csrw x) (fun l => (old l &&& ~~~mask) ||| (v l0 &&& mask)) ∧
      writes (.csrs x) (fun l => old l ||| (v l0 &&& mask)) ∧
      writes (.csrc x) (fun l => old l &&& ~~~(v l0 &&& mask))) ∧
    (∀ l0 rest, ls = l0 :: rest → n = 7 →
      let clamp := fun (w : Addr) => (if w.toNat < 1 then 1 else if 10000 < w.toNat then 10000 else w : Addr)
      writes (.csrw x) (fun l => clamp ((old l &&& ~~~0x3FFF) ||| (v l0 &&& 0x3FFF))) ∧
      writes (.csrs x) (fun l => clamp (old l ||| (v l0 &&& 0x3FFF))) ∧
      writes (.csrc x) (fun l => clamp (old l &&& ~~~(v l0 &&& 0x3FFF)))) ∧
    (n = 3 →
      let each := fun (new : Nat → Addr) l => if l ∈ ls then t.cut (new l) else old l
      writes (.csrw x) (each v) ∧ writes (.csrs x) (each (fun l => old l ||| v l)) ∧
      writes (.csrc x) (each (fun l => old l &&& ~~~v l))) ∧
    (n = 4 →
      let faults := fun l => v l &&& 0x00FF000000000000
      writes (.csrw x) (fun l => if l ∈ ls then old l &&& ~~~faults l else old l) ∧ writes (.csrs x) old ∧
      writes (.csrc x) (fun l => if l ∈ ls then old l &&& ~~~faults l else old l)))

/-- `RTE` returns its handler lanes to the RPC of the frame at the clause end, once none of their operations is outstanding;
lanes that are no handler lanes it stops with ILL. `HCALL` holds its issuer for the reply with the argument of the
lowest executing lane, and `SLEEP` until NOW has advanced one time more than the longest count of its lanes (R330 to R332,
R338); that both holds begin past their instruction is the model's choice (log entry 19). -/
def Obligations.ReturnsCallsAndSleeps : Prop :=
  (∀ (s : State) (t : Thread) (b : Block) (x : Ext), s.thr s.cur = some t → s.blk s.cur.block = some b →
    (let inside := fun l => match t.handler with | some h => h.lanes.getLsbD l | none => false
      let back := (t.lanes x.guard).filter inside
      let bad := ((t.lanes x.guard).filter (fun l => !inside l)).map (fun l => (l, (0 : Addr)))
      t.ops = [] → b.poisonedLines = [] →
      ChangesClause (.rte x) s t (fun c =>
        { c with
          jumps := back.foldl (fun m l => m.ins l (b.frameRpc s.cur.warp)) c.jumps,
          returns := c.returns ||| maskOfLanes back }.failed .ill 0 bad)) ∧
    (t.handler = none → (∀ o ∈ t.ops, o.stream.isSome = true) →
      StopsLanes (.rte x) s t .ill 0 ((t.lanes x.guard).map (fun l => (l, 0))))) ∧
  ∀ (s : State) (t : Thread) (x : Ext) (l : Nat) (rest : List Nat), s.thr s.cur = some t → t.lanes x.guard = l :: rest →
    exec (.hcall x) s = .next (s.withThread
      { t with
        hold := .hcall x.d.toNat x.a.toNat (t.cut (t.reg l x.b.toNat)) (maskOfLanes (l :: rest)) s.now,
        clause := t.clause.map (·.pass (.hcall x)), opbuf := t.operandBuffer (.hcall x) }) ∧
    ∃ n, exec (.sleep x) s = .next (s.withThread
      { t with hold := .sleep (n + 1), clause := t.clause.map (·.pass (.sleep x)), opbuf := t.operandBuffer (.sleep x) }) ∧
      n ≤ 65535 ∧ (∀ j ∈ l :: rest, min ((t.opB x j).toNat % 2 ^ 32) 65535 ≤ n) ∧
      ∃ j ∈ l :: rest, n = min ((t.opB x j).toNat % 2 ^ 32) 65535

/-! ### Clauses and holds (R61 to R69, R112 to R117, R162, R218, R283, R305, R331, R332) -/

/-- A boundary ends its clause and releases masks, then issues the checked clause at the chosen address for its issue set, waits
for the completion flags that the header names, or issues nothing where no lane is a candidate. The choice is the least program
counter of the candidates, with every candidate that stands there, and the valve count goes up to 1,024; at 1,024 a warp with
candidates above the least issues the lowest of those instead and its count starts again from 0. At a clause end a lane that did
not stop and executed `EXIT` is exited, one that executed `WAITM` waits on the mask of its last one unless it exited; each lane of
the clause goes to its transfer's target or else to the fall-through address; then every mask whose lanes all wait on it or have
exited, some lane waiting, frees the lanes that wait on it. A boundary that changes a lane's status so sets the valve count to 0,
any other leaves it. A handler ends once all its lanes have returned or exited, and a teller whose RPC it left unchanged continues
its interrupted clause (R61 to R65, R67, R114, R116, R338, R385). -/
def Obligations.BoundariesIssueTheLeastPc : Prop :=
  (∀ (s : State) (r : Thr) (b : Block) (t : Thread),
    s.blk r.block = some b → s.thr r = some t → t.atBoundary = true → b.run = .running →
    let u := t.boundary
    let s1 := (s.applyBoundary r).reissue r
    u.atBoundary = true → u.withdrawn = [] →
    (u.choose = none → exec (.clauseBoundary r) s = .next s1 ∧ s1.thr r = some u ∧ SameMemory s s1) ∧
    ∀ (pc : Addr) (set : LaneMask) (quiet : Nat) (w : Word), u.choose = some (pc, set, quiet) →
      u.streamTrap set pc none = none → s1.fetchHeader (u.fetcher b) pc = .ok w →
      (u.waitPending (w.extractLsb' 20 12) = true →
        exec (.clauseBoundary r) s = .next s1 ∧ s1.thr r = some u ∧ SameMemory s s1) ∧
      ∀ c : Clause, u.waitPending (w.extractLsb' 20 12) = false → s1.fetchClause (u.fetcher b) pc set = .ok c →
        ∃ s', exec (.clauseBoundary r) s = .next s' ∧ s'.thr r = some { u with clause := some c, quiet, denied := none } ∧
          SameMemory s s' ∧ c.hdr = pc ∧ c.issue = set ∧ c.left = (w.extractLsb' 8 4).toNat + 1 ∧ c.next = pc + 4) ∧
  (∀ (t : Thread) (pc : Addr) (set : LaneMask) (quiet : Nat), t.choose = some (pc, set, quiet) →
    let cand := fun l => l < 32 ∧ t.candidates.getLsbD l = true
    set ≠ 0 ∧ (∀ l, l < 32 → (set.getLsbD l = true ↔ cand l ∧ t.pcOf l = pc)) ∧
    ∃ lo : Addr, (∃ l, cand l ∧ t.pcOf l = lo) ∧ (∀ l, cand l → lo.toNat ≤ (t.pcOf l).toNat) ∧
      let above := fun l => cand l ∧ lo.toNat < (t.pcOf l).toNat
      let valve := t.teller = false ∧ t.quiet = 1024 ∧ ∃ l, above l
      (valve → (∃ l, above l ∧ t.pcOf l = pc) ∧ (∀ l, above l → pc.toNat ≤ (t.pcOf l).toNat) ∧ quiet = 0) ∧
      (¬ valve → pc = lo ∧ (t.teller = false → quiet = min (t.quiet + 1) 1024))) ∧
  (∀ t : Thread,
    let u := t.boundary
    let ends := fun (c : Clause) l => t.clause = some c ∧ l < 32 ∧ c.issue.getLsbD l = true
    let gone := fun l => ∃ c, ends c l ∧ c.stopped.getLsbD l = false ∧ c.exits.getLsbD l = true
    let turns := fun l n => ∃ c, ends c l ∧ c.stopped.getLsbD l = false ∧ c.exits.getLsbD l = false ∧ c.waits.look l = some n
    let waits := fun l n => turns l n ∨ ((∀ k, ¬ turns l k) ∧ t.waits.look l = some n)
    let frees := fun n => n < 12 ∧ (∃ l, l < 32 ∧ waits l n) ∧
      ∀ l, l < 32 → (t.mr n).getLsbD l = true → waits l n ∨ u.exited.getLsbD l = true
    let changes := (∃ l, gone l) ∨ (∃ l n, turns l n) ∨ ∃ n, frees n
    (∀ l, l < 32 → (u.exited.getLsbD l = true ↔ t.exited.getLsbD l = true ∨ gone l)) ∧
    (∀ l n, l < 32 → (u.waits.look l = some n ↔ waits l n ∧ ¬ frees n)) ∧
    ((∀ h, t.handler = some h → h.saved = none) → ∀ l,
      (∀ c, ends c l → u.pcOf l = (c.jumps.look l).getD c.fall) ∧ ((∀ c, ¬ ends c l) → u.pcOf l = t.pcOf l)) ∧
    (changes → u.quiet = 0) ∧ (¬ changes → u.quiet = t.quiet)) ∧
  ∀ (t : Thread) (c : Clause) (h : Handler), t.clause = some c → t.handler = some h → c.fails = [] → t.due = none →
    t.recorded = [] → c.exits = 0 →
    let u := t.boundary
    let returned := h.returned ||| (c.returns &&& (c.issue &&& ~~~c.stopped))
    (h.lanes &&& ~~~(returned ||| t.exited) ≠ 0 → u.handler = some { h with returned } ∧ u.clause = none) ∧
    (h.lanes &&& ~~~(returned ||| t.exited) = 0 → u.handler = none ∧ u.withdrawn = h.held ++ t.withdrawn ∧
      (h.saved = none → u.clause = none) ∧
      ∀ d, h.saved = some d → c.issue.getLsbD 0 = true → t.exited = 0 →
        ((c.jumps.look 0).getD c.fall = h.rpc → u.clause = some d ∧ u.pcOf 0 = d.hdr) ∧
        ((c.jumps.look 0).getD c.fall ≠ h.rpc → u.clause = none ∧ u.pcOf 0 = (c.jumps.look 0).getD c.fall))

/-- A free arbiter grants the next ready context, in slot order after the last one granted, that has deficit left, which falls by
one; where none has, a new round gives every resident context its weight, the others 0, and grants the next ready one (R218). -/
def Obligations.IssueSlotsAreGrantedInTurn : Prop :=
  ∀ (s : State) (core c : Nat), (s.arbiter core).granted = none →
    let a := s.arbiter core
    let order := slotsAfter a.last
    (order.find? (fun c => s.slotReady core c && decide (0 < a.deficit.rd 0 c)) = some c →
      exec (.issueSlotGrant core) s = .next { s with
        arbiters := s.arbiters.ins core { a with deficit := a.deficit.wr 0 c (a.deficit.rd 0 c - 1), last := c, granted := some c } }) ∧
    (order.find? (fun c => s.slotReady core c && decide (0 < a.deficit.rd 0 c)) = none →
      order.find? (fun c => s.slotReady core c) = some c →
      ∃ s', exec (.issueSlotGrant core) s = .next s' ∧ (s'.arbiter core).granted = some c ∧ (s'.arbiter core).last = c ∧
        (s'.arbiter core).deficit.rd 0 c = a.weight.rd 0 c - 1 ∧
        ∀ j, j < 8 → j ≠ c → (s'.arbiter core).deficit.rd 0 j = if s.slotResident core j then a.weight.rd 0 j else 0)

/-- Each hold ends as its rule says: a stream with room in the lanes that would issue, a met `CWAIT`, enough event records, the
last advance of NOW, the reply of an `HCALL` or 100 microseconds without one (R162, R283, R305, R331, R332). -/
def Obligations.HoldsEnd : Prop :=
  ∀ (s : State) (r : Thr) (t : Thread) (b : Block), s.thr r = some t → s.blk r.block = some b →
    let goes := fun (i : Instr) (u : Thread) => exec i s = .next (s.updThr r (fun _ => u))
    let free := { t with hold := .none }
    let answered := fun (d : Nat) (lanes : LaneMask) (x : Word) (i : Instr) =>
      ∃ u, goes i u ∧ u.hold = .none ∧ (t.teller = true → lanes = 1 ∧ u.kr d = x.setWidth 64) ∧
        (t.teller = false → ∀ l, l < 32 → lanes.getLsbD l = true → u.vr l d = x)
    (∀ lanes st, t.hold = .streamFull lanes st → (∀ l, l < 32 → lanes.getLsbD l = true → t.count l st < 32) →
      goes (.streamStallEnd r) free) ∧
    (∀ n, t.hold = .evwait n → n ≤ t.evq.length → goes (.evwaitSatisfied r) free.skip) ∧
    (t.hold = .sleep 0 → goes (.sleepEnd r) free) ∧
    (∀ d n arg lanes since, t.hold = .hcall d n arg lanes since → d < 512 → (t.teller = true → lanes = 1) →
      (100 ≤ (s.now - since).toNat → answered d lanes 0xFFFFFFFF (.hcallTimeout r)) ∧
      (100 < (s.now - since).toNat → answered d lanes 0xFFFFFFFF (.hcallReply r)) ∧
      ((s.now - since).toNat ≤ 100 →
        (n = 0 → answered d lanes 0 (.hcallReply r)) ∧ (n = 1 → answered d lanes (BitVec.ofNat 32 s.watts) (.hcallReply r)) ∧
        (4 ≤ n → answered d lanes 0xFFFFFFFF (.hcallReply r)))) ∧
    (∀ id o off a thr sc, t.hold = .cwait [id] → t.ops = [o] → o.id = id → s.findOp id = some (r, o) → o.xl = none →
      o.kind = .cwait (.scratch r.block off a) thr sc → b.run = .running → off + 8 ≤ b.scratchBytes → b.poisonedLines = [] →
      thr.toNat ≤ numOf (readMem b.scratch off 8) →
      ∃ u, goes (.cwaitSatisfied r) u ∧ u.hold = .none ∧ u.ops = [])

/-! ### Operations as they are performed (R159 to R170, R215, R268 to R284) -/

/-- An outstanding operation whose predecessors are complete and whose place resolves is performed: a load writes its register,
extended by its form; a store, a copy or a release its bytes; an atomic, a compare-and-swap or an acquiring one the new value by
its operation, with the old value returned; a waiting acquire makes its test at each write and ends when its value is reached; a
counter is read or takes its add; computed results arrive in the registers and predicates of every lane that they name, and in no
other; a trigger counts. What goes to host memory leaves as a posted write or an AtomicOp, with the Relaxed Ordering attribute but
for a `.sys` release. No other byte of memory changes (R159, R162, R165, R169, R179, R215, R262, R268 to R284). -/
def Obligations.OperationsPerform : Prop :=
  ∀ (s : State) (r : Thr) (o : Op) (t : Thread) (b : Block), s.findOp o.id = some (r, o) → s.thr r = some t →
    s.blk r.block = some b → t.free o = true → t.unreported = [] → o.dropped = [] → o.xl = none →
    o ∈ t.ops → s.unpoisoned →
    let ends := fun (i : Instr) (P : State → Thread → Prop) =>
      ∃ s' u, exec i s = .next s' ∧ s'.thr r = some u ∧ (∀ q ∈ u.ops, q.id ≠ o.id) ∧ P s' u
    let leaves := fun (x : Target) (s' : State) (m : Nat → HostMsg) =>
      s'.toHost = s.toHost ++ match x with | .mem y => if y.space = .host then [m y.pa] else [] | .scratch .. => []
    let writes := fun (i : Instr) (x : Target) (bs : List Byte) (relaxed : Bool) => ends i (fun s' u =>
      WroteAt s s' x bs ∧ leaves x s' (fun a => .postedWrite a bs false relaxed) ∧ u.v = t.v ∧ u.k = t.k ∧ u.p = t.p)
    let from' := fun (p : Place) (n : Nat) (allow : Target → Bool) (x : Target) =>
      s.resolve b.core none p n 1 allow = .ok x ∧ ∀ y, x = .mem y → y.repl = false
    let at' := fun (p : Place) (n : Nat) (need : Need) (allow : Target → Bool) (x : Target) =>
      s.resolve b.core none p n need allow = .ok x ∧ s.writable x n
    let value := fun (signed : Bool) (bs : List Byte) =>
      if signed = true ∧ 2 ^ (8 * bs.length - 1) ≤ numOf bs then (numOf bs : Int) - 2 ^ (8 * bs.length) else numOf bs
    let holds := fun (d : Nat) (signed : Bool) (bs : List Byte) (u : Thread) =>
      (t.teller = true → u.kr d = BitVec.ofInt 64 (value signed bs)) ∧
      (t.teller = false → bs.length ≤ 4 → u.vr o.lane d = BitVec.ofInt 32 (value signed bs)) ∧
      (t.teller = false → bs.length = 8 → (u.vr o.lane d).toNat = numOf (bs.take 4) ∧ (u.vr o.lane (d + 1)).toNat = numOf (bs.drop 4))
    let others := fun (d words : Nat) (u : Thread) =>
      (∀ l j, j < 512 → (t.teller = true ∨ l ≠ o.lane ∨ j < d ∨ d + words ≤ j) → u.vr l j = t.vr l j) ∧
      (∀ j, (t.teller = false ∨ j ≠ d) → u.kr j = t.kr j) ∧ u.p = t.p
    let num := fun (x : Target) (n : Nat) => numOf (s.bytesAt x n)
    let size := fun (sp : AtomSpec) => if sp.wide then 8 else 4
    let int := fun (sp : AtomSpec) (v : Addr) => (⟨8 * size sp, sp.signed⟩ : IntTy).ext v
    let new := fun (sp : AtomSpec) (old : Nat) =>
      let a := sp.b.toNat
      let under := int sp (BitVec.ofNat 64 old) ≤ int sp sp.b
      if sp.op = 0 then old + a
      else if sp.op = 1 then (if under then old else a)
      else if sp.op = 2 then (if under then a else old)
      else if sp.op = 3 then old &&& a
      else if sp.op = 4 then old ||| a
      else if sp.op = 5 then old ^^^ a
      else if sp.op = 6 then
        Fmt.f32.put .rne sp.mode ((Fmt.f32.xin sp.mode (old % 2 ^ 32)).add .rne (Fmt.f32.xin sp.mode (a % 2 ^ 32)))
      else if sp.op = 8 then (if old = a % 2 ^ (8 * size sp) then sp.c.toNat else old)
      else a
    let updates := fun (i : Instr) (x : Target) (sp : AtomSpec) (rtn : Option Nat) (relaxed : Bool) => ends i (fun s' u =>
      WroteAt s s' x (bytesOf (new sp (num x (size sp))) (size sp)) ∧ leaves x s' (fun a => .atomicOp a sp.op relaxed) ∧
        match rtn with
        | some d => holds d sp.signed (s.bytesAt x (size sp)) u ∧ others d (size sp / 4) u
        | none => u.v = t.v ∧ u.k = t.k ∧ u.p = t.p)
    let room := fun (d n : Nat) => t.teller = true ∨ d + (n + 3) / 4 ≤ 512
    (∀ p n sg d x, o.kind = .load p ⟨n, sg⟩ d → n ∈ [1, 2, 4, 8, 16] → (t.teller = true → n ≤ 8) → room d n → from' p n plainOk x →
      ends (.operationComplete o.id) (fun s' u => SameMemory s s' ∧ holds d sg (s.bytesAt x n) u ∧ others d ((n + 3) / 4) u ∧
        (n = 16 → ∀ j, j < 4 → (u.vr o.lane (d + j)).toNat = numOf ((s.bytesAt x n).drop (4 * j) |>.take 4)))) ∧
    (∀ rs : List DReg, o.kind = .compute rs → (∀ l d x, .v l d x ∈ rs → d < 512 ∧ ∀ y, .v l d y ∈ rs → y = x) →
      (∀ l i x, .p l i x ∈ rs → i < 8 ∧ ∀ y, .p l i y ∈ rs → y = x) → ends (.operationComplete o.id) (fun s' u =>
        SameMemory s s' ∧ (∀ l d x, .v l d x ∈ rs → u.vr l d = x) ∧ (∀ l i x, .p l i x ∈ rs → i ≠ 7 → u.pr l i = x) ∧
        (∀ l d, d < 512 → (∀ x, .v l d x ∉ rs) → u.vr l d = t.vr l d) ∧
        (∀ l i, i < 8 → (∀ x, .p l i x ∉ rs) → u.pr l i = t.pr l i) ∧ u.k = t.k ∧ u.m = t.m)) ∧
    (∀ p data x, o.kind = .store p data → at' p data.length 2 plainOk x → writes (.operationComplete o.id) x data true) ∧
    (∀ dst src n xd xs, o.kind = .copy dst src n none false → at' dst n 2 plainOk xd → from' src n plainOk xs →
      writes (.operationComplete o.id) xd (s.bytesAt xs n) true) ∧
    (∀ dst src n c xd xs xc, o.kind = .copy dst src n (some c) false → at' dst n 2 plainOk xd → from' src n plainOk xs →
      at' c 8 3 counterOk xc → ∃ s' u, exec (.operationComplete o.id) s = .next s' ∧ WroteAt s s' xd (s.bytesAt xs n) ∧
        s'.thr r = some u ∧ { o with kind := .copy dst src n (some c) true, flag := none } ∈ u.ops) ∧
    (∀ dst src n c xc, o.kind = .copy dst src n (some c) true → at' c 8 3 counterOk xc →
      writes (.counterAdd o.id) xc (bytesOf (num xc 8 + 1) 8) true) ∧
    (∀ p d x, o.kind = .cread p d → room d 8 → from' p 8 counterOk x → ends (.operationComplete o.id) (fun s' u =>
      SameMemory s s' ∧ holds d false (s.bytesAt x 8) u ∧ others d 2 u)) ∧
    (∀ p sp rtn x, o.kind = .atomic p sp rtn → (∀ d, rtn = some d → room d (size sp)) → (sp.op = 6 → rtn.isSome = true) →
      at' p (size sp) 3 (atomicOk sp) x →
      (x.onHost = false → updates (.operationComplete o.id) x sp rtn true) ∧
      (x.onHost = true → updates (.atomicopCompletion o.id true) x sp rtn true)) ∧
    (∀ p sp sc x, o.kind = .release p sp none sc → sp.op = 9 → at' p (size sp) 2 (releaseOk sp) x →
      writes (.releasePerform o.id) x (bytesOf sp.b.toNat (size sp)) (sc != 4)) ∧
    (∀ p sp rtn sc x, o.kind = .release p sp rtn sc → sp.op ≠ 9 → (∀ d, rtn = some d → room d (size sp)) →
      at' p (size sp) 3 (releaseOk sp) x →
      (x.onHost = false → updates (.releasePerform o.id) x sp rtn (sc != 4)) ∧
      (x.onHost = true → updates (.atomicopCompletion o.id true) x sp rtn (sc != 4))) ∧
    (∀ p f sp d sc w x, o.kind = .acquire p f sp d sc w → f ≠ .waitge → room d (size sp) →
      at' p (size sp) 3 (acquireOk f) x →
      (x.onHost = false → updates (.operationComplete o.id) x sp (some d) true) ∧
      (x.onHost = true → updates (.atomicopCompletion o.id true) x sp (some d) true)) ∧
    (∀ p sp d v, o.kind = .acquired p sp d v → room d (size sp) → ends (.waitgeSatisfied o.id) (fun s' u =>
      SameMemory s s' ∧ holds d sp.signed (bytesOf v.toNat (size sp)) u ∧ others d (size sp / 4) u)) ∧
    (∀ p sp d sc x, o.kind = .acquire p .waitge sp d sc true → from' p (size sp) (acquireOk .waitge) x →
      int sp sp.b ≤ int sp (BitVec.ofNat 64 (num x (size sp))) →
      ∃ u, s.noteWrites.thr r = some u ∧ { o with kind := .acquired p sp d (BitVec.ofNat 64 (num x (size sp))) } ∈ u.ops) ∧
    (∀ p sp d sc w x, o.kind = .acquire p .waitge sp d sc w → room d (size sp) → from' p (size sp) (acquireOk .waitge) x →
      let i := if w = true then Instr.waitgeSatisfied o.id else .operationComplete o.id
      (int sp sp.b ≤ int sp (BitVec.ofNat 64 (num x (size sp))) → ends i (fun s' u =>
        SameMemory s s' ∧ holds d sp.signed (s.bytesAt x (size sp)) u ∧ others d (size sp / 4) u)) ∧
      (int sp (BitVec.ofNat 64 (num x (size sp))) < int sp sp.b → ∃ s' u, exec i s = .next s' ∧ SameMemory s s' ∧
        s'.thr r = some u ∧ { o with kind := .acquire p .waitge sp d sc true } ∈ u.ops ∧ u.v = t.v ∧ u.k = t.k)) ∧
    (∀ sc, o.kind = .etrig sc → ends (.operationComplete o.id) (fun s' u =>
      SameMemory s s' ∧ u.v = t.v ∧ u.triggered = t.triggered ||| BitVec.ofNat 32 (2 ^ o.lane))) ∧
    (∀ p, o.kind = .prefetch p → ends (.operationComplete o.id) (fun s' u => SameMemory s s' ∧ u.v = t.v ∧ u.k = t.k))

/-- An operation whose place faults completes as faulted: it is no longer outstanding, its stream's fault bit is set, and
the fault waits to be reported; nothing is read or written (R130, R166). -/
def Obligations.FaultedOperationsAreRecorded : Prop :=
  ∀ (s : State) (r : Thr) (o : Op) (t : Thread) (b : Block) (st off : Nat) (a : Addr), s.findOp o.id = some (r, o) →
    s.thr r = some t → s.blk r.block = some b → t.free o = true → t.unreported = [] → t.ops = [o] → t.withdrawn = [] →
    o.stream = some st → st < 8 → b.run = .running → b.scratchBytes < off →
    ((∃ f d, o.kind = .load (.scratch r.block off a) f d) ∨ ∃ data, o.kind = .store (.scratch r.block off a) data) →
    exec (.operationComplete o.id) s = .next s ∧
    ∃ s' u, exec (.operationFault o.id) s = .next s' ∧ s'.thr r = some u ∧ SameMemory s s' ∧ u.v = t.v ∧ u.k = t.k ∧ u.ops = [] ∧
      (u.sflt.rd 0 o.lane).getLsbD st = true ∧
      u.unreported = [⟨o.id, o.lane, st, o.seq, some .prot, a, false, o.pc⟩]

/-- A trap whose thread has no operation outstanding writes its frame at the thread's place and enters the handler: the
cause, the lanes and RPC stand in the frame, the handler lanes go to TRAPBASE, a teller's to TRAPBASE + 0x1000 (R128, R334 to
R337). -/
def Obligations.TrapsEnterTheirHandler : Prop :=
  ∀ (s : State) (r : Thr) (b : Block) (t : Thread) (d : TrapRec), s.blk r.block = some b → s.thr r = some t → t.due = some d →
    t.ops = [] → b.run = .running → t.handler = none → handlerAddr b.trapbase ≠ 0 → 512 * (b.warpN + 1) ≤ b.scratchBytes →
    (∀ w, r.warp = some w → w < b.warpN) → t.withdrawn = [] →
    ∃ s' u c, exec (.trapDelivery r) s = .next s' ∧ s'.thr r = some u ∧ s'.blk r.block = some c ∧
      u.due = none ∧ u.handler = some ⟨d.lanes, 0, d.rpc, d.saved, []⟩ ∧ u.v = t.v ∧ u.k = t.k ∧ u.p = t.p ∧ u.m = t.m ∧
      (∀ l, l < 32 → d.lanes.getLsbD l = true →
        u.pcOf l = if t.teller then handlerAddr b.trapbase + 0x1000 else handlerAddr b.trapbase) ∧
      (∀ l, (32 ≤ l ∨ d.lanes.getLsbD l = false) → u.pcOf l = t.pcOf l) ∧
      numOf (readMem c.scratch (b.frameAt r.warp) 2) = d.cause.code ∧
      numOf (readMem c.scratch (b.frameAt r.warp + 4) 4) = d.lanes.toNat ∧ c.frameRpc r.warp = d.rpc ∧
      (∀ a, a < b.frameAt r.warp ∨ b.frameAt r.warp + 512 ≤ a → c.scratch.rd 0 a = b.scratch.rd 0 a) ∧
      s'.dram = s.dram ∧ s'.vault = s.vault ∧ s'.host = s.host

/-! ### Engines (R144, R195, R286 to R299) -/

/-- An idle engine takes the head of its queue when nothing that the command waits for is outstanding; an array command that
starts with ACC 0 clears the elements that it computes. A completed command frees its engine and ends its operation, once it has
performed what it does: `TZERO`, `TLDS`, `GATH` and `VLD` write a tile from zeros, the scratchpad, rows that a shape record names
and a vault image; `TSTS` writes a tile, or its transpose, to the scratchpad; `DRAIN` promotes its accumulator and writes the
converted rows; `ACLR` clears accumulators; `ASTAT` reads STAT and cnt; `TCPY` copies elements. An array performs 16 rows at a
time: each element takes its scaled sum, a single wrong sum corrected, and the close of a chunk counts it or promotes. A stalled
`VLD` goes on at a free moment (within a microsecond the moment is the model's choice, log entry 40); a blocked unit sends a probe
token, which its consumer passes on or drops, and an engine to which its own returns puts its blocked record into the reserve entry
(R88 to R96, R144, R164, R195, R208, R288, R289, R292 to R304). -/
def Obligations.EnginesPerformTheirCommands : Prop :=
  ∀ (s : State) (core eng : Nat) (b : Block) (o : Op) (c : Cmd) (q : List Cmd), s.cmdOp c = some (b, o) →
    s.blk c.block = some b → b.core = core → b.run = .running → b.poisoned = [] → b.poisonedLines = [] → c.racy = false →
    let en := s.engine core eng
    let at' : At := (c.block, b)
    let runs := fun (p : Progress) => (⟨q, some c, .running, p⟩ : Engine)
    let does := fun (k : CmdKind) (n : Nat) (P : Block → Prop) => c.kind = k → eng = n → en = runs .start → c.ev = false →
      c.cmp = none → ∃ s' b', exec (.engineCommandComplete core eng) s = .next s' ∧ s'.blk c.block = some b' ∧
        (s'.engine core eng).cur = none ∧ (s'.engine core eng).queue = q ∧ (∀ p ∈ b'.tel.ops, p.id ≠ o.id) ∧ P b'
    let same := fun (b' : Block) => b'.acc26 = b.acc26 ∧ b'.acc32 = b.acc32 ∧ b'.cnt = b.cnt ∧ b'.stat = b.stat
    let tileIs := fun (t : Nat) (f : Nat → Byte) (b' : Block) => (∀ j, j < 16384 → b'.tile.rd 0 (t * 16384 + j) = f j) ∧
      (∀ j, (j < t * 16384 ∨ (t + 1) * 16384 ≤ j) → b'.tile.rd 0 j = b.tile.rd 0 j) ∧ b'.scratch = b.scratch ∧ same b'
    let old := fun (t j : Nat) => b.tile.rd 0 (t * 16384 + j)
    let part26 := fun (u : Block) (a e : Nat) => (u.acc26.rd 0 (a * 16384 + e)).toNat
    let part32 := fun (u : Block) (a e : Nat) => (u.acc32.rd 0 (a * 16384 + e)).toNat
    let promoted := fun (x y : Nat) => Fmt.f32.put .rne c.mode ((Fmt.f32.dec x).add .rne (Fmt.f26.dec y))
    (en.cur = none → en.queue = c :: q → b.stopped = [] → b.tel.free o = true → b.tel.unreported = [] → b.tel.withdrawn = [] →
      b.tel.handler = none → (∀ e ∈ s.blocks, e.2.core = core → e.2.saved.rd [] eng = []) → s.engineBlocked core eng = false →
      ((∀ a, c.kind ≠ .array a) → (∀ d, c.kind ≠ .lsend d) →
        exec (.engineCommandStart core eng) s = .next (s.setEngine core eng (runs .start))) ∧
      (∀ a, c.kind = .array a → b.arrayOk a = .ok () → ∃ s' b', exec (.engineCommandStart core eng) s = .next s' ∧
        s'.blk c.block = some b' ∧ (s'.engine core eng).cur = some c ∧ (s'.engine core eng).queue = q ∧
        (s'.engine core eng).prog.chunk = 0 ∧ (s'.engine core eng).prog.row = 0 ∧ b'.tile = b.tile ∧ b'.scratch = b.scratch ∧
        (a.acc = true → same b') ∧
        (a.acc = false → 0 < a.fields.m → 0 < a.fields.n →
          (∀ m n, m < a.fields.m → n < a.fields.n → part26 b' a.d (m * 128 + n) = 0 ∧ part32 b' a.d (m * 128 + n) = 0) ∧
          b'.cnt.rd 0 a.d = 0 ∧ b'.stat.rd 0 a.d = 0))) ∧
    (∀ t, t < 16 → does (.tzero t) 0 (tileIs t (fun _ => 0))) ∧
    (∀ t off n, t < 16 → n.toNat ≤ 128 → off % 4 = 0 → off + 128 * n.toNat ≤ b.scratchBytes →
      does (.tlds t (off : Nat) n) 0 (tileIs t (fun j => if j < 128 * n.toNat then b.scratch.rd 0 (off + j) else old t j)) ∧
      ∀ tr, does (.tsts t (off : Nat) n tr) 0 (fun b' => b'.tile = b.tile ∧ same b' ∧ ∀ j, b'.scratch.rd 0 j =
        if off ≤ j ∧ j < off + 128 * n.toNat then
          (if tr then old t ((j - off) % 128 * 128 + (j - off) / 128) else old t (j - off))
        else b.scratch.rd 0 j)) ∧
    (∀ t rec sh, t < 16 → s.shape at' rec = .ok sh → (∀ e ∈ sh.pairs, 128 * e.2 + 128 ≤ b.scratchBytes) →
      does (.gath t rec) 0 (tileIs t (fun j =>
        match sh.pairs[j / 128]? with
        | some e => b.scratch.rd 0 (128 * e.2 + j % 128)
        | none => if sh.zfill then 0 else old t j))) ∧
    (∀ t x img, t < 16 → s.consume at' x 3328 vaultOnly = .ok img → s.banksIdle at' x = true →
      (∀ i, i < 3328 → digitOk (img.getD i 0).toNat (if i % 26 < 25 then 5 else 3) = true) →
      does (.vld t x) 1 (tileIs t (fun j =>
        BitVec.ofNat 8 (digit (img.getD (26 * (j % 128) + j / 128 / 5) 0).toNat (j / 128 % 5))))) ∧
    (∀ tm, does (.aclr tm) 4 (fun b' => b'.tile = b.tile ∧ b'.scratch = b.scratch ∧ ∀ a, a < 4 →
      if tm.testBit a = true then
        (∀ e, e < 16384 → part26 b' a e = 0 ∧ part32 b' a e = 0) ∧ b'.cnt.rd 0 a = 0 ∧ b'.stat.rd 0 a = 0
      else (∀ k x, k / 16384 = a → ((k, x) ∈ b'.acc26 ↔ (k, x) ∈ b.acc26)) ∧
        (∀ k x, k / 16384 = a → ((k, x) ∈ b'.acc32 ↔ (k, x) ∈ b.acc32)) ∧ b'.cnt.rd 0 a = b.cnt.rd 0 a ∧
        b'.stat.rd 0 a = b.stat.rd 0 a)) ∧
    (∀ d a clr, (s.engine core 2).cur = none → (s.engine core 3).cur = none → b.stopped = [] → o.dropped = [] → does (.astat d a clr) 4 (fun b' =>
      b'.tel.kr d = BitVec.ofNat 64 ((b.stat.rd 0 a).toNat + 256 * b.cnt.rd 0 a) ∧
      b'.stat.rd 0 a = (if clr then 0 else b.stat.rd 0 a) ∧ b'.acc26 = b.acc26 ∧ b'.acc32 = b.acc32 ∧ b'.cnt = b.cnt)) ∧
    (∀ dst off a fmt sat m n pitch, m ≤ 128 → n ≤ 128 → pitch < 65536 → pitch % 4 = 0 → fmt < 5 →
      let size := if fmt = 0 then 4 else if fmt < 3 then 2 else 1
      let f := if fmt = 0 then Fmt.f32 else if fmt = 1 then .f16 else if fmt = 2 then .bf16 else if fmt = 3 then .e4m3 else .e5m2
      n * size ≤ pitch → dst.toNat % size = 0 →
      (∀ r, r < m → regionOf (dst + BitVec.ofNat 64 (pitch * r)) (n * size) = .scratch (off + pitch * r) ∧
        off + pitch * r + n * size ≤ b.scratchBytes) →
      does (.drain dst a (BitVec.ofNat 64 (m + 256 * n + 65536 * pitch)) none fmt sat false) 4 (fun b' =>
        let p := fun e => promoted (part32 b a e) (part26 b a e)
        (∀ e, e < 16384 → part26 b' a e = 0 ∧ part32 b' a e = p e) ∧ b'.cnt.rd 0 a = 0 ∧ b'.tile = b.tile ∧
        (∀ r j, r < m → j < n →
          let y := Fmt.f32.dec (Fmt.f32.put .rne c.mode ((Fmt.f32.dec (p (r * 128 + j))).mul (FVal.ofInt 1)))
          numOf (readMem b'.scratch (off + pitch * r + j * size) size) =
            if fmt = 0 then Fmt.f32.put .rne c.mode ((Fmt.f32.dec (p (r * 128 + j))).mul (FVal.ofInt 1))
            else if fmt < 3 then f.xout c.mode (f.rnd .rne y) else f.xout c.mode (f.cvt8 sat y)) ∧
        ∀ j, (∀ r, r < m → j < off + pitch * r ∨ off + pitch * r + n * size ≤ j) → b'.scratch.rd 0 j = b.scratch.rd 0 j)) ∧
    (∀ dst src desc esz tr ts td d (so eo : Nat × Nat × Nat → Nat), esz < 5 → s.copyDesc at' desc esz tr = .ok d →
      let es := if esz = 0 then 1 else 2 ^ (esz - 1)
      let wide := if esz = 0 then 4 else 8 * es
      let step := fun (k : Nat) => BitVec.ofNat 64 (if esz = 0 then k / 2 else k * es)
      let half := fun (k : Nat) => if esz = 0 then 4 * (k % 2) else 0
      let inside := fun (e : Nat × Nat × Nat) => e.1 < d.nz ∧ e.2.1 < d.ny ∧ e.2.2 < d.nx
      let row := fun (e : Nat × Nat × Nat) => if tr then e.2.2 else e.2.1
      let col := fun (e : Nat × Nat × Nat) => if tr then e.2.1 else e.2.2
      let lies := fun (tile : Bool) (a : Addr) (n : Nat) => n % es = 0 ∧
        if tile then a.toNat = n ∧ n + es ≤ 16384 else regionOf a es = .scratch n ∧ a.toNat % es = 0 ∧ n + es ≤ b.scratchBytes
      let bit := fun (u : Block) (tile : Bool) (t : Addr) (i : Nat) =>
        (if tile then u.tile.rd 0 (t.toNat * 16384 + i / 8) else u.scratch.rd 0 (i / 8)).getLsbD (i % 8)
      let sbit := fun e => 8 * so e + half e.2.2
      let dbit := fun e => 8 * eo e + half (col e)
      (∀ e, inside e →
        lies ts ((if ts then 0 else src) + d.ssz * BitVec.ofNat 64 e.1 + d.ssy * BitVec.ofNat 64 e.2.1 + step e.2.2) (so e) ∧
        lies td ((if td then 0 else dst) + d.dsz * BitVec.ofNat 64 e.1 + d.dsy * BitVec.ofNat 64 (row e) + step (col e)) (eo e)) →
      (∀ e g, inside e → inside g → e ≠ g → dbit e + wide ≤ dbit g ∨ dbit g + wide ≤ dbit e) →
      (∀ e g, inside e → inside g → ts = td → (ts = true → src = dst) → so e + es ≤ eo g ∨ eo g + es ≤ so e) →
      does (.tcpy dst src desc esz tr ts td) 5 (fun b' => same b' ∧
        (∀ e i, inside e → i < wide → bit b' td dst (dbit e + i) = bit b ts src (sbit e + i)) ∧
        (td = true → b'.scratch = b.scratch ∧
          ∀ j, (j < dst.toNat * 16384 ∨ (dst.toNat + 1) * 16384 ≤ j) → b'.tile.rd 0 j = b.tile.rd 0 j) ∧
        (td = false → b'.tile = b.tile) ∧
        ∀ i, (∀ e, inside e → i < dbit e ∨ dbit e + wide ≤ i) → bit b' td dst i = bit b td dst i)) ∧
    (∀ a pr errs, c.kind = .array a → en = runs pr → pr.torn = [] → a.finished pr = false → a.fields.m ≤ 128 → a.fields.n ≤ 128 →
      a.assayctl.getLsbD 1 = false →
      (errs = [] ∨ (a.assayctl.getLsbD 0 = true ∧ ∃ er ec δ, errs = [⟨er, ec, δ⟩] ∧ er < 16 ∧ ec < 128)) →
      let f := a.fields
      let depth := if a.fp8 then 64 else 128
      let pair := if a.fp8 then pr.chunk / 2 else pr.chunk
      let k0 := if a.fp8 then 64 * (pr.chunk % 2) else 0
      let byte := fun (t r n : Nat) => (old t (r * 128 + n)).toNat
      let act := fun (m k : Nat) => if a.ta then byte (a.a + pair) (k0 + k) m else byte (a.a + pair) m (k0 + k)
      let wgt := fun (n k : Nat) => if a.tb then byte (a.b + pair) n (k0 + k) else byte (a.b + pair) (k0 + k) n
      let live := fun (n : Nat) => (b.scratch.rd 0 (f.off + 16 * pr.chunk + n / 8)).getLsbD (n % 8)
      let trit := fun (w : Nat) => if w % 4 = 1 then (1 : Int) else if w % 4 = 2 then -1 else 0
      let weight := fun (n k : Nat) =>
        if a.fp8 then units8 c.mode (wgt n k) else if live n then trit (wgt n k) else 0
      let sum := fun (m n : Nat) => (BitVec.ofInt (if a.fp8 then 44 else 26)
        ((List.range depth).foldl (fun z k => z + units8 c.mode (act m k) * weight n k) 0)).toInt
      let nan := fun (m n : Nat) => (List.range depth).any (fun k => nan8 (act m k) || (a.fp8 && nan8 (wgt n k)))
      let f32 := fun (at'' : Nat) => Fmt.f32.xin c.mode (numOf (readMem b.scratch at'' 4))
      let scale := fun (m : Nat) =>
        if a.fp8 then (f32 (f.sao + 4 * (128 * pair + m))).mul (f32 (f.off + 4 * pair)) else f32 (f.sao + 4 * (128 * pair + m))
      let scaled := fun (m n : Nat) =>
        if nan m n then Fmt.f26.nan
        else Fmt.f26.put .rne c.mode
          ((FVal.fin (decide (sum m n < 0)) (sum m n).natAbs (if a.fp8 then -18 else -9)).mul (scale m))
      let after := fun (e : Nat) =>
        if pr.row ≤ e / 128 ∧ e / 128 < min (pr.row + 16) f.m ∧ e % 128 < f.n then
          Fmt.f26.put .rne c.mode
            ((Fmt.f26.xin c.mode (part26 b a.d e)).add .rne (Fmt.f26.xin c.mode (scaled (e / 128) (e % 128))))
        else part26 b a.d e
      let last := f.m ≤ pr.row + 16
      let close := (a.promo.extractLsb' 0 6).toNat + 1 ≤ b.cnt.rd 0 a.d + 1
      ∃ s' b', exec (.arrayStep core eng errs) s = .next s' ∧ s'.blk c.block = some b' ∧ b'.tile = b.tile ∧ b'.scratch = b.scratch ∧
        (s'.engine core eng).cur = some c ∧
        (∀ e, e < 16384 →
          if last ∧ close then part26 b' a.d e = 0 ∧ part32 b' a.d e = promoted (part32 b a.d e) (after e)
          else part26 b' a.d e = after e ∧ part32 b' a.d e = part32 b a.d e) ∧
        b'.cnt.rd 0 a.d = (if last then (if close then 0 else b.cnt.rd 0 a.d + 1) else b.cnt.rd 0 a.d) ∧
        (s'.engine core eng).prog.chunk = (if last then pr.chunk + 1 else pr.chunk) ∧
        (s'.engine core eng).prog.row = (if last then 0 else pr.row + 16) ∧
        (a.fp8 = false → (∃ n k, n < f.n ∧ k < 128 ∧ live n = true ∧ wgt n k % 4 = 3) → (b'.stat.rd 0 a.d).getLsbD 1 = true)) ∧
    (∀ t x ns, eng = 1 → en = runs .start → c.kind = .vld t x → s.imagePeriod at' x = ns / 1000 →
      s.banksFree at' x (ns % 1000) = true →
      exec (.vldStallEnd core ns) s = .next ((s.performCmd core 1 c at' o).tryPost core 1)) ∧
    (∀ u, s.consumerOf core eng = some u →
      exec (.probeTokenSend core eng) s =
        .next { s with tokens := s.tokens ++ [⟨s.nextId, core, eng, u⟩], nextId := s.nextId + 1 }) ∧
    (∀ tk, s.tokens = [tk] →
      (s.consumerOf tk.core tk.unit = none → exec (.probeTokenHop tk.id) s = .next { s with tokens := [] }) ∧
      (∀ u, s.consumerOf tk.core tk.unit = some u → u ≠ tk.origin →
        exec (.probeTokenHop tk.id) s = .next { s with tokens := [{ tk with unit := u }] }) ∧
      ∀ rec, s.consumerOf tk.core tk.unit = some eng → tk.core = core → tk.origin = eng → eng < 7 → en.cur = some c →
        en.phase = .posting rec .done → s.recordBlocked core eng = some c.block → b.tel.reserve = none → b.tel.pend = [] →
        ∃ s' b', exec (.probeTokenHop tk.id) s = .next s' ∧ s'.tokens = [] ∧ (s'.engine core eng).cur = none ∧
          s'.blk c.block = some b' ∧ b'.tel.evq = b.tel.evq ++ [rec] ∧ b'.tel.reserve = some b.tel.evq.length ∧
          b'.tel.rgrant = (if b.tel.rgrant = 255 then 255 else b.tel.rgrant + 1))

/-! ### Pre-emption, binding and retirement (R57 to R60, R71, R72, R133 to R136, R340, R341) -/

/-- Pre-emption of a block that stands alone: the request stops it, a drained block is saved and its context has no deficit, a
unit that an incoming block needs is evicted, and a block whose units fit again runs on with its registers as they were (R133 to
R136, R218, R340). -/
def Obligations.BlocksStopAndResume : Prop :=
  ∀ (s : State) (k : Nat) (b : Block), s.blk k = some b → s.together k = [k] → b.saved = [] → b.stopped = [] → b.evicted = [] →
    (∀ e, (s.engine b.core e).queue = []) →
    (b.run = .running → exec (.preemptRequest k) s = .next
      (s.updBlk k (fun b => { b.mapThreads Thread.askStop with run := .stopping }))) ∧
    (b.run = .stopping → s.drained b = true →
      ∃ s' c, exec (.preemptSave k) s = .next s' ∧ s'.blk k = some c ∧ c.run = .saved ∧ c.scratch = b.scratch ∧ c.tile = b.tile ∧
        (s'.arbiter b.core).deficit.rd 0 (b.slot k) = 0 ∧ c.tel.k = b.tel.k ∧
        ∀ w, (c.warps.look w).map (fun t => (t.v, t.p, t.m, t.lpc)) = (b.warps.look w).map (fun t => (t.v, t.p, t.m, t.lpc))) ∧
    (∀ u, b.run = .saved → b.has u = true → (s.blocks.any (fun (_, c) => c.core == b.core && c.run == .posted)) = true →
      (s.inUse b.core (fun _ _ => true)).short u = true →
      exec (.largeStateEvict k u) s = .next (s.updBlk k (fun b => { b with evicted := [u] }))) ∧
    (b.run = .saved → s.canReload k b = true → (∀ e ∈ b.threads, e.2.withdrawn = [] ∧ e.2.due = none) → b.tel.pend = [] →
      ∃ s' c, exec (.blockResume k) s = .next s' ∧ s'.blk k = some c ∧ c.run = .running ∧ c.evicted = [] ∧
        c.scratch = b.scratch ∧ c.tel.k = b.tel.k ∧ ∀ w, (c.warps.look w).map (·.v) = (b.warps.look w).map (·.v))

/-- F2 chooses among the launches that it can bind by priority and then by the earlier deadline, and binds the next item of the one
it chooses to a gang that fits it, a joint one by its reservation: an item record with a fresh generation, the gang's bind number
one higher, and on each of its first cores a posted block as at block start with a posted bind record; an item past its deadline is
discarded late, but a relaunched one is not judged and keeps its record with its count one higher. An item that does not fit the
gang is not bound there, and none that comes after it is: that, and that the order takes in joint launches, is the model's choice
(log entry 33). The dispatch of a posted item starts every block of it, with its threads
at their entries, and takes its bind records; the two parts of a pair start together; an item with a bad bind record ends as a
context error. A running block whose threads are all over retires, with its armed sends disarmed; while other blocks of its item
are left the item goes on, one block fewer, and with the last the item retires: its blocks are gone, its record is over, and its
launch counts it (R57 to R60, R71, R204, R309, R345). -/
def Obligations.ItemsAreBoundStartedAndRetired : Prop :=
  (∀ (s : State) (g : Nat), s.binding = true → (s.gang g).reservedFor = none →
    (∀ k la, s.choice = some (k, la) → (k, la) ∈ s.candidates ∧ ∀ j m, (j, m) ∈ s.candidates →
      m.prio ≤ la.prio ∧ (m.prio = la.prio → la.deadline.toNat ≤ m.deadline.toNat)) ∧
    (s.choice = none → exec (.bindItem g) s = .next s) ∧
    ∀ k la n old, s.choice = some (k, la) → s.launches.look k = some la → la.joint = none → s.nextOf la = some (n, old) →
      (s.gangFits g la = false → exec (.bindItem g) s = .next s) ∧
      (s.gangFits g la = true →
        (old = none → la.deadline.toNat < s.now.toNat → exec (.bindItem g) s = .next (s.discardLate k)) ∧
        let posted := fun (item relaunch : Nat) (s' : State) =>
          s'.items.look item = some ⟨k, n, g, s.nextGen, relaunch, false, .posted, 0, false, none, la.bpg, false⟩ ∧
          s'.nextGen = s.nextGen + 1 ∧ (s'.gang g).bindno = (s.gang g).bindno + 1 ∧ s'.rrQueue = la.q ∧
          s'.dram = s.dram ∧ s'.vault = s.vault ∧ s'.host = s.host ∧
          ∀ j, j < la.bpg → (∃ key, s.blk key = none ∧ s'.blk key = some (la.block (4 * g + j) item j la.party s.nextGen)) ∧
            ∃ rec, s'.record (4 * g + j) = rec ∧ rec.state = 1 ∧ rec.launchid = la.id ∧ rec.item = BitVec.ofNat 32 n ∧
              rec.gen = BitVec.ofNat 32 s.nextGen ∧ rec.bindno = (s.gang g).bindno + 1
        (old = none → s.now.toNat ≤ la.deadline.toNat →
          ∃ s', exec (.bindItem g) s = .next s' ∧ posted s.nextId 0 s' ∧ s'.nextId = s.nextId + 1 ∧
            (s'.launches.look k).map (fun m => (m.nextItem, m.requeued)) = some (la.nextItem + 1, la.requeued)) ∧
        ∀ i it, old = some i → s.items.look i = some it →
          ∃ s', exec (.bindItem g) s = .next s' ∧ posted i (it.relaunch + 1) s' ∧ s'.nextId = s.nextId ∧
            (s'.launches.look k).map (fun m => (m.nextItem, m.requeued)) = some (la.nextItem, la.requeued.filter (· != i)))) ∧
  (∀ (s : State) (g k : Nat) (it : Item), s.postedOn g = some (k, it) → s.items.look k = some it →
    let started := fun (k : Nat) (it : Item) (s' : State) => s'.items.look k = some { it with life := .running } ∧
      ∀ j b, s.blk j = some b → b.item = k → ∃ c, s'.blk j = some c ∧ c = { b with run := .running } ∧
        (s'.record b.core).state = 2 ∧
        ∀ la : Launch, b = la.block b.core k b.blockId b.party it.gen → c.tel = Thread.start true la.tentry ∧ c.scratch = [] ∧
          c.tile = [] ∧ c.acc26 = [] ∧ c.acc32 = [] ∧ c.cnt = [] ∧ c.stat = [] ∧
          ∀ w, w < la.wpb → c.thr (some w) = some (Thread.start false la.sentry)
    (s.bindError it = true → exec (.dispatchStart g) s = .next (s.killItem k 0x0132 false 0)) ∧
    (s.bindError it = false → it.peer = none →
      (s.startable k it = true → ∃ s', exec (.dispatchStart g) s = .next s' ∧ SameMemory s s' ∧ started k it s') ∧
      (s.startable k it = false → exec (.dispatchStart g) s = .next s)) ∧
    ∀ p q, s.bindError it = false → it.peer = some p → p ≠ k → s.items.look p = some q → s.bindError q = false →
      (s.startable k it = true → s.startable p q = true →
        ∃ s', exec (.dispatchStart g) s = .next s' ∧ SameMemory s s' ∧ started k it s' ∧ started p q s') ∧
      (s.startable k it = false ∨ s.startable p q = false → exec (.dispatchStart g) s = .next s)) ∧
  ∀ (s : State) (k : Nat) (b : Block) (it : Item), s.blk k = some b → b.run = .running →
    b.threads.all (fun (_, t) => t.over) = true → s.items.look b.item = some it →
    (1 < it.blocksLeft → exec (.blockRetire k) s = .next
      ((s.updBlk k (fun b => { b with run := .retired, tel := { b.tel with armed := [] } })).updItem b.item
        (fun _ => { it with blocksLeft := it.blocksLeft - 1 }))) ∧
    (it.blocksLeft = 1 → ∃ s', exec (.blockRetire k) s = .next s' ∧
      (s'.items.look b.item).map (fun i => (i.life, i.blocksLeft)) = some (.done, 0) ∧
      (∀ j c, s'.blk j = some c → c.item ≠ b.item) ∧
      ∀ la, s.launches.look it.launch = some la → (s'.launches.look it.launch).map (·.retiredN) = some (la.retiredN + 1))

/-- A joint pair reserves the gangs that are free for its parts while no other launch that F2 can bind comes before it (that the
order of R57 takes in joint launches so is the model's choice, log entry 33); it is judged for lateness at the start of its
reservation. With both gangs held in time, consent and both partitions standing, it commits: the bind records of both parts are
posted together, and every block has its escrow pools and openings. A pair whose time is up is rolled back with nothing left
behind (R72, R204, R209, R313, R341). -/
def Obligations.JointPairsReserveAndRollBack : Prop :=
  (∀ (s : State) (k0 k1 g0 g1 : Nat) (a b : Launch) (n : (Nat × Option Nat) × (Nat × Option Nat)), s.launches.look k0 = some a →
    s.launches.look k1 = some b → s.binding = true → a.party = 0 → a.peer = some k1 → s.launchReady a = true →
    s.launchReady b = true → s.pairNext a b = some n → s.reservations.look k0 = none → n.1.2 = none →
    (min a.deadline.toNat b.deadline.toNat < s.now.toNat →
      exec (.jointReserve k0 k1 g0 g1) s = .next ((s.discardLate k0).discardLate k1)) ∧
    (s.now.toNat ≤ min a.deadline.toNat b.deadline.toNat → (s.gang g0).reservedFor = none → s.gangFits g0 a = true →
      s.isFirst k0 a = true → (s.gang g1).reservedFor.isSome = true → g0 ≠ g1 →
      exec (.jointReserve k0 k1 g0 g1) s = .next { s with
        gangs := s.gangs.ins g0 { s.gang g0 with reservedFor := some k0 },
        reservations := s.reservations.ins k0 ⟨k1, n.1.1, some g0, none, s.now⟩ })) ∧
  (∀ (s : State) (k0 k1 g0 g1 i0 i1 n : Nat) (a b : Launch) (since : BitVec 48), s.launches.look k0 = some a →
    s.launches.look k1 = some b → s.binding = true → a.party = 0 → a.peer = some k1 → s.launchReady a = true →
    s.launchReady b = true → s.pairNext a b = some ((i0, none), (i1, none)) →
    s.reservations.look k0 = some ⟨k1, n, some g0, some g1, since⟩ → (s.now - since).toNat ≤ 100 → s.consentStands a = true →
    s.partsStand a b = true → g0 ≠ g1 → a.bpg ≤ 4 → b.bpg ≤ 4 → s.gangFits g0 a = true → s.gangFits g1 b = true →
    ∃ s', exec (.jointReserve k0 k1 g0 g1) s = .next s' ∧ s'.dram = s.dram ∧ s'.vault = s.vault ∧ s'.host = s.host ∧
      s'.reservations.look k0 = none ∧
      let part := fun (la : Launch) (g item peer gen index : Nat) =>
        (∃ it, s'.items.look item = some it ∧ it.peer = some peer ∧ it.gang = g ∧ it.gen = gen ∧ it.life = .posted ∧ it.index = index) ∧
        ∀ j, j < la.bpg →
          (∃ rec, s'.record (4 * g + j) = rec ∧ rec.state = 1 ∧ rec.launchid = la.id ∧ rec.item = BitVec.ofNat 32 index ∧
            rec.gen = BitVec.ofNat 32 gen ∧ rec.bindno = (s.gang g).bindno + 1) ∧
          ∃ key blk, s'.blk key = some blk ∧ blk.core = 4 * g + j ∧ blk.item = item ∧ blk.blockId = j ∧ blk.run = .posted ∧
            ∀ peer triples opens, la.joint = some (peer, triples, opens) → ∃ gt, blk.gate = some gt ∧ gt.triples = triples ∧
              ∀ l, l < 32 * la.wpb → gt.opl.rd 0 l = opens ∧ ∀ k i, gt.cursor k l = 0 ∧ gt.isBurnt k l i = false
      part a g0 s.nextId (s.nextId + 1) s.nextGen i0 ∧ part b g1 (s.nextId + 1) s.nextId (s.nextGen + 1) i1) ∧
  (∀ (s : State) (k : Nat) (r : Reservation), s.reservations.look k = some r → 100 < (s.now - r.since).toNat →
    ∃ s', exec (.jointRollback k) s = .next s' ∧ s'.reservations.look k = none ∧ s'.items = s.items ∧ s'.blocks = s.blocks ∧
      ∀ g, (s'.gang g).reservedFor ≠ some k)

/-! ### Queues and packets (R183 to R192, R201 to R203) -/

/-- A doorbell that the TDI serves: a `KICK` with a tail in the ring moves the tail and starts fetching; `CANCEL` discards the
unbound items of its launch, kills the bound ones and ends those that a kill was to relaunch; one that it does not serve, or of
a virtual function that is not enabled, is an Unsupported Request, one in CONFIG_LOCKED is ignored (that a write without the TEE
bit in RUN is answered as one with it in CONFIG_UNLOCKED is the model's choice, log entry 71). F1 accepts the packet at the head
when its checks pass, waits for it in readings 2 microseconds apart else, and stops with the queue stopped after 64; its fetch asks
the host for a page that is absent, as a core's access does (that R151 holds for F1 so is the model's choice, log entry 46); it
commits the newer of two valid control blocks (of two with one VER copy A: the model's choice, as is which copies are valid, log
entry 36); a created queue starts empty (the depth of an error queue before its queues name one is the
model's choice, log entry 26); a write to a read-only register does nothing (R5, R151, R184, R186, R189, R191, R192,
R352 to R354). A bad `KICK`, and packets of a queue in delta mode, are not stated here. -/
def Obligations.QueuesFollowTheirDoorbells : Prop :=
  ∀ (s : State) (q : Nat) (x : LQueue) (c : Qcb), s.queue q = some x → x.qcb = some c → (s.fw.rd .blank 1).updating = none →
    let tdi := (s.tdis.rd .blank x.info.fn).state
    let is := s.fnExists x.info.fn = true
    let serves := fun tee : Bool => is ∧ ((tdi = .unlocked ∧ tee = false) ∨ (tdi = .run ∧ tee = true))
    let refuses := fun tee : Bool => ¬ is ∨ tdi = .error ∨ (tdi = .unlocked ∧ tee = true) ∨ (tdi = .run ∧ tee = false)
    (∀ r v, (∀ fn field, r ≠ .config fn field) → exec (.registerWrite r v) s = .next s) ∧
    (∀ tee (tail : Addr) id, refuses tee →
      exec (.kick q ⟨tail, tee⟩) s = .next (s.answers x.info.fn (.unsupportedRequest x.info.fn) 20) ∧
      exec (.cancel q ⟨id, tee⟩) s = .next (s.answers x.info.fn (.unsupportedRequest x.info.fn) 20)) ∧
    (∀ tee (tail : Addr) id, is → tdi = .locked → exec (.kick q ⟨tail, tee⟩) s = .next s ∧ exec (.cancel q ⟨id, tee⟩) s = .next s) ∧
    (∀ tee (tail : Addr), serves tee → x.state ≠ 2 →
      (if c.fixed = true then tail.toNat < 2 ^ c.rlog else tail.toNat < 256 * 2 ^ c.rlog ∧ tail.toNat % 8 = 0) →
      exec (.kick q ⟨tail, tee⟩) s = .next (s.updQueue q (fun x => { x with tail := tail.toNat, state := 0, waited := none }))) ∧
    (∀ tee id k la, serves tee → x.state ≠ 2 →
      s.launches.find? (fun e => e.2.q == q && decide (x.born ≤ e.1) && e.2.id == id && !e.2.completed) = some (k, la) →
      s.launches.look k = some la → la.peer = none →
      (∀ i ∈ la.requeued, ∃ it, s.items.look i = some it ∧ it.launch = k ∧ it.life = .waiting) →
      ∃ s', exec (.cancel q ⟨id, tee⟩) s = .next s' ∧
        (s'.launches.look k).map (fun l => (l.cancelled, l.nextItem, l.requeued)) = some (true, max la.nextItem la.nitems, []) ∧
        (∀ i ∈ la.requeued, (s'.items.look i).map (·.life) = some .done) ∧
        ∀ i it, s.items.look i = some it → it.launch = k →
          (it.life = .posted ∨ it.life = .running ∨ (it.life = .killed ∧ it.again = true)) → i ∉ la.requeued →
          (s'.items.look i).map (fun it => (it.life, it.again, it.cause)) = some (.killed, false, 0x0141)) ∧
    (∀ tee id p, serves tee → x.state ≠ 2 →
      s.launches.find? (fun e => e.2.q == q && decide (x.born ≤ e.1) && e.2.id == id && !e.2.completed) = none →
      x.pending = some p → p.typ = 0 → x.launchId p.seq = id →
      exec (.cancel q ⟨id, tee⟩) s =
        .next (s.updQueue q (fun x => { x with pending := some { p with cancelled := true } }))) ∧
    (∀ bs : List Byte, x.state = 0 → x.pending = none → x.head ≠ x.tail → x.waited = none → c.fixed = true →
      s.ioRead q c.pasid (c.rbase + BitVec.ofNat 64 (256 * x.head)) 256 = .ok bs →
      (field bs 0 2 = x.expect.toNat → field bs 2 2 = (crc16 (bs.take 2 ++ [0, 0] ++ bs.drop 4)).toNat → field bs 255 1 = 0xA5 →
        ∃ s' y, exec (.packetFetch q) s = .next s' ∧ s'.queue q = some y ∧ y.expect = x.expect + 1 ∧
          y.head = (x.head + 1) % 2 ^ c.rlog ∧ y.lastAcc = x.expect ∧ y.tail = x.tail ∧
          y.pending.map (fun p => (p.seq, p.typ)) = some (x.expect, field bs 252 3 / 4096 % 16) ∧
          y.d 0 = BitVec.ofNat 64 (field bs 252 3) ∧
          ∀ n, 1 ≤ n → n < 32 → y.d n = BitVec.ofNat 64 (field bs (8 * n - 4) 8)) ∧
      (field bs 0 2 ≠ x.expect.toNat → exec (.packetFetch q) s =
        .next ((s.updQueue q (fun x => { x with waited := some (0, s.now) })).forget (.queue q)))) ∧
    (∀ pg, x.state = 0 → x.pending = none → x.head ≠ x.tail → x.waited = none → s.packetAt q x c = .error (.absent pg) →
      exec (.packetFetch q) s = .next (s.askPage (.queue q) c.pasid pg)) ∧
    (∀ t last, x.state = 0 → x.pending = none → x.head ≠ x.tail → x.waited = some (t, last) → 2 ≤ (s.now - last).toNat →
      (∀ ds n, s.packetAt q x c = .ok (some (ds, n)) →
        exec (.packetRecheck q) s = .next ((s.accept q x c ds n).forget (.queue q))) ∧
      (s.packetAt q x c = .ok none → t + 2 < 64 →
        exec (.packetRecheck q) s = .next ((s.updQueue q (fun x => { x with waited := some (t + 2, s.now) })).forget (.queue q))) ∧
      (s.packetAt q x c = .ok none → 64 ≤ t + 2 → ∃ s', exec (.packetRecheck q) s = .next s' ∧ SameMemory s s' ∧
        s'.queue q = some { x with waited := none, state := 1 })) ∧
    (∀ d e, qcbOf (readMem s.dram x.info.qcbA 64) = some d → qcbOf (readMem s.dram x.info.qcbB 64) = some e →
      let new := if d.ver.toNat < e.ver.toNat then e else d
      exec (.qcbCommit q) s = .next (s.updQueue q (fun x => { x with qcb := some new })) ∧
      ∃ s', exec .f1WatchdogReset s = .next s' ∧ (s'.queue q).bind (·.qcb) = some new) ∧
    (∀ j info p, s.parts.look info.part = some p → p.resetStep = 0 → p.info.fn = info.fn → j < 256 → s.queue j = none →
      s.manifest.valid = true →
      ∃ s', exec (.queueCreate j info) s = .next s' ∧ SameMemory s s' ∧
        s'.queue j = some ⟨info, none, [], 0, 0, 0, 0, 0, 0xFFFF, 0xFFFF, none, none, [], none, s.nextId⟩ ∧
        (∀ i, i ≠ j → s'.queue i = s.queue i) ∧ (s'.errQueue info.fn).entries = (s.errQueue info.fn).entries ∧
        (s'.errQueue info.fn).depth = max (s.errQueue info.fn).depth (min info.errDepth 4096))

/-- The packet at hand acts by its TYPE once its order class and its fence scope are met: a launch is accepted, at once cancelled
where a `CANCEL` named it before, or refused with zero items; a counter is written or waited for; no operation completes at once; a
packet that is complete moves the watermark (R190 to R192, R201, R202). That a nonzero FSCOPE waits until the launch before has
completed is the model's choice (log entry 9). -/
def Obligations.PacketsActByTheirType : Prop :=
  ∀ (s : State) (q : Nat) (x : LQueue) (p : Packet), s.queue q = some x → x.pending = some p →
    (s.fw.rd .blank 1).updating = none →
    let id := x.launchId p.seq
    let ends := fun (s' : State) => s'.queue q = some { x.packetDone p.seq with pending := none }
    let met := fun (ocls fscope : Nat) (la : Launch) =>
      (ocls = 1 → la.triggered = true) ∧ (ocls = 2 → la.completed = true) ∧ (fscope ≠ 0 → la.completed = true)
    (p.seq = x.lastCmpl + 1 → x.finished = [] → (x.packetDone p.seq).lastCmpl = p.seq) ∧
    (∀ la, p.typ = 0 → s.launchOf q x p.seq id = .ok (some la) →
      (la.q = q ∧ la.seq = p.seq ∧ la.id = id ∧ la.nitems = x.f 3 32 25 ∧ 1 ≤ la.nitems ∧ la.nitems ≤ 2 ^ 24 ∧
        la.bpg = x.f 3 8 2 + 1 ∧ la.wpb = x.f 3 0 5 + 1 ∧ la.rows = x.f 5 0 7 ∧ la.fscope = fscopeOf (x.d 0) ∧ la.nextItem = 0 ∧
        la.completed = false) ∧
      (la.joint = none → p.cancelled = false → ∃ s', exec (.launchPacket q) s = .next s' ∧ SameMemory s s' ∧
        s'.launches.look s.nextId = some la ∧ s'.nextId = s.nextId + 1 ∧
        s'.queue q = some { x with lastLaunch := some s.nextId, pending := none }) ∧
      (la.joint = none → p.cancelled = true → ∃ s', exec (.launchPacket q) s = .next s' ∧
        (s'.launches.look s.nextId).map (fun la => (la.cancelled, la.nextItem)) = some (true, la.nitems))) ∧
    (p.typ = 0 → s.launchOf q x p.seq id = .ok none → s.absent = [] → x.lastLaunch ≠ some s.nextId →
      ∃ s', exec (.launchPacket q) s = .next s' ∧ ends s' ∧
        (s'.launches.look s.nextId).map (fun la => (la.id, la.nitems, la.completed)) = some (id, 0, true)) ∧
    (p.released = true → x.malformed = false → x.state ≠ 2 →
      (p.typ = 3 → ∃ s', exec (.noOperationPacket q) s = .next s' ∧ SameMemory s s' ∧ ends s') ∧
      (∀ bs, p.typ = 2 → s.ioRead q x.ctx (x.d 14) 8 = .ok bs →
        ((x.d 15).toNat ≤ numOf bs → p.waiting = false → ∃ s', exec (.counterWaitPacket q) s = .next s' ∧ SameMemory s s' ∧ ends s') ∧
        (numOf bs < (x.d 15).toNat → p.waiting = false → exec (.counterWaitPacket q) s =
          .next ((s.updQueue q (fun x => { x with pending := some { p with waiting := true } })).forget (.queue q))) ∧
        ((x.d 15).toNat ≤ numOf bs → p.waiting = true →
          ∃ s', exec (.counterWaitSatisfied q) s = .next s' ∧ SameMemory s s' ∧ ends s')) ∧
      (∀ xl : Xlat, p.typ = 1 → (x.d 14).toNat % 8 = 0 → s.ioXlate q x.ctx (x.d 14) 2 = .ok xl → s.writable (.mem xl) 8 →
        ∃ s', exec (.counterWritePacket q) s = .next s' ∧ ends s' ∧ WroteAt s s' (.mem xl) (bytesOf (x.d 15).toNat 8))) ∧
    (∀ k la, p.released = false → x.lastLaunch = some k → s.launches.look k = some la →
      (∀ j m, s.launches.look j = some m → m.completed = true ∨ s.launchOver j m = false) →
      ∃ s', exec (.packetOrderRelease q) s = .next s' ∧ SameMemory s s' ∧
        (met (oclsOf (x.d 0)) (fscopeOf (x.d 0)) la → s'.queue q = some { x with pending := some { p with released := true } }) ∧
        (¬ met (oclsOf (x.d 0)) (fscopeOf (x.d 0)) la → s'.queue q = some x) ∧
        ∀ j m, s.launches.look j = some m → m.q = q → m.prev = some k → m.pred = none →
          (met m.ocls m.fscope la → s'.launches.look j = some { m with released := true }) ∧
          (¬ met m.ocls m.fscope la → s'.launches.look j = some m))

/-! ### Kills, errors and partitions (R146, R156, R220, R342 to R346, R349) -/

/-- A killed item's blocks halt, its joint peer ends with it, each receiver takes its generation into its retired set while the sets
have room and acknowledges it with the markers of all the item's cores, and the retired generation frees the item, which is bound
again or ends (R344 to R347). The kill as an event of its own with these causes, the numbers of the receivers and what the retired
generation frees with the item are the model's choices (log entries 34, 35, 43). -/
def Obligations.KilledItemsRetire : Prop :=
  ∀ (s : State) (k : Nat) (it : Item), s.items.look k = some it →
    (∀ cause, (it.life = .posted ∨ it.life = .running) → cause ∈ [0x0110, 0x0111, 0x0112] →
      (it.peer = none → ∃ s', exec (.itemKill k cause) s = .next s' ∧ SameMemory s s' ∧
        s'.items.look k = some { it with life := .killed, cause, again := !it.commit && decide (it.relaunch < 2) } ∧
        ∀ j b, s.blk j = some b → b.item = k → (s'.blk j).map (·.run) = some .killed) ∧
      (∀ p q, it.peer = some p → p ≠ k → s.items.look p = some q → (q.life = .posted ∨ q.life = .running) →
        let again := !it.commit && decide (it.relaunch < 2) && !q.commit && decide (q.relaunch < 2)
        ∃ s', exec (.itemKill k cause) s = .next s' ∧ SameMemory s s' ∧
          s'.items.look k = some { it with life := .killed, cause, again } ∧
          s'.items.look p = some { q with life := .killed, cause := 0x0142, again } ∧
          ∀ j b, s.blk j = some b → (b.item = k ∨ b.item = p) → (s'.blk j).map (·.run) = some .killed)) ∧
    (s.killedGen it.gen = some (k, it) → (s.fw.rd .blank 2).updating = none →
      (∀ v, v < 21 → s.dropsGen it.gen v = false →
        let gens := (s.retiring.map (·.gen)).eraseDups
        (it.gen ∈ gens ∨ gens.length < 32 →
          exec (.retireNotice it.gen v) s = .next { s with retiring := s.retiring ++ [⟨it.gen, v, [], false⟩] }) ∧
        (it.gen ∉ gens → 32 ≤ gens.length → exec (.retireNotice it.gen v) s = .next s)) ∧
      (∀ v core, core ∈ s.coresOf k → (∀ y ∈ s.strays, y.gen ≠ it.gen) →
        exec (.retireMarker it.gen v core) s = .next { s with
          retiring := s.retiring.map (fun r =>
            if r.gen = it.gen ∧ r.receiver = v ∧ core ∉ r.markers then
              { r with markers := core :: r.markers, acked := decide (∀ c ∈ s.coresOf k, c ∈ core :: r.markers) }
            else r) }) ∧
      ((∀ v, v < 21 → ∃ r ∈ s.retiring, r.gen = it.gen ∧ r.receiver = v ∧ r.acked = true) →
        ∃ s', exec (.generationRetired it.gen) s = .next s' ∧ s'.retiring = s.retiring.filter (·.gen != it.gen) ∧
          s'.strays = s.strays.filter (·.gen != it.gen) ∧ (∀ j b, s'.blk j = some b → b.item ≠ k) ∧
          (∀ la, s.launches.look it.launch = some la → it.again = true →
            (s'.launches.look it.launch).map (·.requeued) = some (la.requeued ++ [k])) ∧
          (it.again = true → (s'.items.look k).map (fun i => (i.life, i.gen)) = some (.waiting, it.gen)) ∧
          (it.again = false → (s'.items.look k).map (·.life) = some .done)))

/-- An uncorrectable error poisons its 64-byte line, or its on-die unit, which of a scratchpad is every line of it; a corrected one
is counted and saturates. A partition reset fails its TDI, kills its items with no relaunch, waits until they are over, kills its
queues, power-cycles its gangs, zeroes its DRAM and vault segments and reloads its key slots once no stage-2 entry names one. A
partition is given only what no other has - no gang, vault unit, function or DRAM of another - and what has been cleared of data and
keys, while nothing of it runs; the hypervisor's stage-2 entries are written as asked (R146, R156, R200, R213, R220, R342, R343,
R349, R353, R356). That a reset ends the partition's contexts for good, and that the physical function serves a partition where no
virtual one is enabled, are the model's choices (log entries 73, 72). -/
def Obligations.ErrorsAndPartitions : Prop :=
  ∀ (s : State) (part : Nat),
    (∀ a, let poisons := fun (site : ErrSite) (sp : Space) => ∃ s', exec (.uncorrectableError site) s = .next s' ∧
        SameMemory s s' ∧ ∀ q j, s'.spacePoisoned q j 1 = (s.spacePoisoned q j 1 || decide (q = sp ∧ j / 64 = a / 64))
      poisons (.dram a) .dram ∧ poisons (.vault a) .vault ∧ poisons (.host a) .host) ∧
    (∀ k b u, s.blk k = some b → b.has u = true →
      ∃ s' c, exec (.uncorrectableError (.unit k u)) s = .next s' ∧ SameMemory s s' ∧ s'.blk k = some c ∧
        ((∀ n, u ≠ .scratch n) → u ∈ c.poisoned ∧ c.poisonedLines = b.poisonedLines) ∧
        ∀ n, u = .scratch n → c.poisoned = b.poisoned ∧
          ∀ l, c.poisonedLines.rd false l = (b.poisonedLines.rd false l || decide (l / 64 = n))) ∧
    (∀ die kind, die < 4 → exec (.softErrorCorrected die kind) s = .next { s with
      dies := s.dies.ins die { s.dies.rd .blank die with
        soft := (s.dies.rd .blank die).soft.modify (storeIndex kind) (fun n => if n = 0xFFFFFFFF then n else n + 1) } }) ∧
    (∀ p, s.parts.look part = some p → (s.fw.rd .blank 7).updating = none →
      let fn := p.info.fn
      let goes := fun (s' : State) (n : Nat) => (s'.parts.look part).map (·.resetStep) = some n
      (p.resetStep = 0 → ∃ s', exec (.partitionReset part) s = .next s' ∧ SameMemory s s' ∧ goes s' 1 ∧
        ((s.tdis.rd .blank fn).state = .locked ∨ (s.tdis.rd .blank fn).state = .run → (s'.tdis.rd .blank fn).state = .error)) ∧
      (p.resetStep = 1 → (∀ e ∈ s.items, e.2.peer = none) → ∃ s', exec (.partitionReset part) s = .next s' ∧ goes s' 2 ∧
        ∀ i it la, s.items.look i = some it → s.launches.look it.launch = some la → la.part = part → i ∉ la.requeued →
          (it.life = .posted ∨ it.life = .running ∨ (it.life = .killed ∧ it.again = true)) →
          (s'.items.look i).map (fun it => (it.life, it.again, it.cause)) = some (.killed, false, 0x0140)) ∧
      (p.resetStep = 2 → (s.allRetired part = true → ∃ s', exec (.partitionReset part) s = .next s' ∧ SameMemory s s' ∧ goes s' 3) ∧
        (s.allRetired part = false → exec (.partitionReset part) s = .next s)) ∧
      (p.resetStep = 3 → ∃ s', exec (.partitionReset part) s = .next s' ∧ SameMemory s s' ∧ goes s' 4 ∧
        (∀ q x, s.queue q = some x → x.info.part = part → (s'.queue q).map (·.state) = some 2) ∧
        ∀ k c, s.ctxs.look k = some c → c.part = part → (s'.ctxs.look k).map (·.dead) = some true) ∧
      (p.resetStep = 4 → ∃ s', exec (.partitionReset part) s = .next s' ∧ SameMemory s s' ∧ goes s' 5 ∧
        ∀ core, core < 64 → p.info.gangs.getLsbD (core / 4) = true → s'.arbiter core = .blank ∧
          ∀ eng, eng < 8 → s'.engine core eng = .blank) ∧
      (p.resetStep = 5 → s.memoriesWf → ∃ s', exec (.partitionReset part) s = .next s' ∧
        (∀ a, s'.dram.rd 0 a =
          if p.info.dramBase ≤ a ∧ a < p.info.dramBase + p.info.dramGiB * 2 ^ 30 then 0 else s.dram.rd 0 a) ∧
        (∀ l, p.info.dramBase / 64 ≤ l → l < p.info.dramBase / 64 + p.info.dramGiB * 2 ^ 24 → s'.lineKeys.rd 0 l = 0) ∧
        (∀ u ∈ p.info.vaultUnits, ∀ a, u / 256 * 2 ^ 29 + u % 256 * 2 ^ 21 ≤ a →
          a < u / 256 * 2 ^ 29 + u % 256 * 2 ^ 21 + 2 ^ 21 → s'.vault.rd 0 a = 0) ∧
        let free := (s.scrub p.info).keysFree part && (s.fw.rd .blank 0).updating.isNone
        goes s' (if free then 6 else 5) ∧
        ∀ slot k, s.keys.look slot = some k →
          s'.keys.look slot = some (if free ∧ k.owner = part then { k with gen := k.gen + 1 } else k)) ∧
      (p.resetStep = 6 → ∃ s', exec (.partitionReset part) s = .next s' ∧ SameMemory s s' ∧ goes s' 0)) ∧
    (∀ p : PartInfo,
      let vfs := (s.fns.rd .blank 0).numVfs
      let may := s.ready = true ∧ s.manifest.valid = true ∧ (s.fw.rd .blank 7).updating = none ∧ part < 16 ∧ p.gangs ≠ 0 ∧
        if vfs = 0 then p.fn = 0 else 1 ≤ p.fn ∧ p.fn ≤ vfs
      let meets := fun (o : PartInfo) => p.gangs &&& o.gangs ≠ 0 ∨ (∃ u ∈ p.vaultUnits, u ∈ o.vaultUnits) ∨ p.fn = o.fn ∨
        ∃ a, p.dramBase ≤ a ∧ a < p.dramBase + p.dramGiB * 2 ^ 30 ∧ o.dramBase ≤ a ∧ a < o.dramBase + o.dramGiB * 2 ^ 30
      let was := match s.parts.look part with | some x => x.info | none => noPart
      let had := fun a => was.dramBase ≤ a ∧ a < was.dramBase + was.dramGiB * 2 ^ 30
      let dirty := (∃ a, p.dramBase ≤ a ∧ a < p.dramBase + p.dramGiB * 2 ^ 30 ∧ ¬ had a ∧ s.dram.rd 0 a ≠ 0) ∨
        (∃ l, p.dramBase / 64 ≤ l ∧ l < p.dramBase / 64 + p.dramGiB * 2 ^ 24 ∧
          ¬ (was.dramBase / 64 ≤ l ∧ l < was.dramBase / 64 + was.dramGiB * 2 ^ 24) ∧ s.lineKeys.rd 0 l ≠ 0) ∨
        ∃ u ∈ p.vaultUnits, u ∉ was.vaultUnits ∧ ∃ a, u / 256 * 2 ^ 29 + u % 256 * 2 ^ 21 ≤ a ∧
          a < u / 256 * 2 ^ 29 + u % 256 * 2 ^ 21 + 2 ^ 21 ∧ s.vault.rd 0 a ≠ 0
      let stays := exec (.partitionChange part p []) s = .next s
      (∀ x, s.parts.look part = some x → x.info ≠ p → x.resetStep ≠ 0 ∨ s.allRetired part = false → stays) ∧
      ((∀ x, s.parts.look part = some x → x.info ≠ p) →
        (¬ may → stays) ∧ (∀ k o, (k, o) ∈ s.parts → k ≠ part → apart p o.info = false → stays) ∧
        (∀ k o, (k, o) ∈ s.parts → k ≠ part → meets o.info → stays) ∧ (s.cleared was p = false → stays) ∧ (dirty → stays) ∧
        (may → (∀ k o, (k, o) ∈ s.parts → k ≠ part → apart p o.info = true) → s.cleared was p = true →
          (s.parts.look part = none → exec (.partitionChange part p []) s = .next { s with parts := s.parts.ins part ⟨p, 0, []⟩ }) ∧
          ∀ x, s.parts.look part = some x → x.resetStep = 0 → s.allRetired part = true →
            exec (.partitionChange part p []) s = .next { s with parts := s.parts.ins part ⟨p, 0, x.consent⟩ }))) ∧
    (∀ p a e, s.parts.look part = some p → (s.fw.rd .blank 3).updating = none →
      exec (.partitionChange part p.info [(a, e)]) s = .next { s with dram := writeMem s.dram a (bytesOf e.toNat 8) })

/-! ### Time, power and tables (R45 to R48, R143, R148 to R156, R205, R210, R212, R217, R362 to R364) -/

/-- A tick advances NOW and sleeping threads, and firmware cores read their mailboxes (one entry a tick, and which requests F0
accepts, are the model's choices, log entry 25); the governor sets the rates; the hold begins after 10 ms at the lowest rates above
the cap; a refresh of the report makes SEQ odd, writes the body, which carries NOW, and makes SEQ even; a recalibrated calendar has
a new generation and epoch; power-up boots images that verify and are not below the manifest's security version, A before B, and
starts NOW at 0, with DRAM and vault zero, the manifest's VFs enabled and its partitions whose function may serve one, which with no
VF enabled is the PF (the model's choice, log entry 72), and waits where a core has no such image, which is the model's choice (log
entry 74) (R45, R47, R143, R183, R199, R217, R332, R353, R362 to R364). -/
def Obligations.TimeAndPowerAdvance : Prop :=
  ∀ s : State,
    (s.ready = true → ∃ s', exec .deviceTimeTick s = .next s' ∧ SameMemory s s' ∧ s'.now = s.now + 1 ∧
      (∀ r t n, s.thr r = some t → t.hold = .sleep (n + 1) → s'.thr r = some { t with hold := .sleep n }) ∧
      (∀ c, (s.fw.rd .blank c).updating = none → s'.mail.rd [] c = (s.mail.rd [] c).drop 1) ∧
      ∀ m ms, (s.fw.rd .blank 0).updating = none → s.mail.look 0 = some (m :: ms) → Config.permits m.sender m.body = true →
        m ∈ s'.requests) ∧
    (s.ready = false → exec .deviceTimeTick s = .next s) ∧
    ((s.fw.rd .blank 6).updating = none →
      (∀ rates watts, rates.length = 16 → (∀ n ∈ rates, 8 ≤ n ∧ n ≤ 64) →
        ∃ s', exec (.governorTick rates watts) s = .next s' ∧ SameMemory s s' ∧ s'.watts = watts ∧
          (∀ g, g < 16 → (s'.gang g).rate = rates.getD g 0 ∧ (s'.gang g).bindno = (s.gang g).bindno) ∧
          s'.powerHold = (s.powerHold && decide (s.manifest.capWatts ≤ watts)) ∧
          ((∃ n ∈ rates, n ≠ 8) → s'.lowSince = none) ∧
          ((∀ n ∈ rates, n = 8) → s.lowSince = none → s'.lowSince = some s.now)) ∧
      (∀ since, s.lowSince = some since → 10000 ≤ (s.now - since).toNat → s.manifest.capWatts < s.watts → s.powerHold = false →
        ∃ s', exec .powerHold s = .next s' ∧ SameMemory s s' ∧ s'.powerHold = true ∧ s'.plogNext = (s.plogNext + 1) % 2048) ∧
      (∀ temps, (s.telemetrySeq.getLsbD 0 = false →
          exec (.telemetryRefresh temps) s = .next { s with telemetrySeq := s.telemetrySeq + 1, telemetryBody := false }) ∧
        (s.telemetrySeq.getLsbD 0 = true → s.telemetryBody = false → ∃ s', exec (.telemetryRefresh temps) s = .next s' ∧
          s' = { s with telemetry := s'.telemetry, telemetryBody := true } ∧
          field s'.telemetry 0 6 = s.now.toNat ∧ field s'.telemetry 6 2 = s.manifest.capWatts % 65536 ∧
          field s'.telemetry 8 2 = s.watts % 65536) ∧
        (s.telemetrySeq.getLsbD 0 = true → s.telemetryBody = true →
          exec (.telemetryRefresh temps) s = .next { s with telemetrySeq := s.telemetrySeq + 1 })) ∧
      (∀ die epoch, die < 4 → (∀ u ∈ s.namedSegments, u / 256 ≠ die) →
        exec (.calendarRecalibrate die epoch) s = .next { s with
          dies := s.dies.ins die { s.dies.rd .blank die with gen := (s.dies.rd .blank die).gen + 1, epoch } })) ∧
    (let version := s.manifest.securityVersion
      let okA := fun c => (s.fw.rd .blank c).goodA = true ∧ version ≤ (s.fw.rd .blank c).versionA
      let okB := fun c => (s.fw.rd .blank c).goodB = true ∧ version ≤ (s.fw.rd .blank c).versionB
      let vfs := min s.manifest.vfs 16
      let may := fun (p : PartInfo) => if vfs = 0 then p.fn = 0 else 1 ≤ p.fn ∧ p.fn ≤ vfs
      (∀ epochs, s.ready = false → (∀ c, c < 8 → okA c ∨ okB c) →
        ∃ s', exec (.powerUp epochs) s = .next s' ∧ s'.ready = true ∧ s'.now = 0 ∧
          (∀ a, s'.dram.rd 0 a = 0 ∧ s'.lineKeys.rd 0 a = 0 ∧ s'.vault.rd 0 a = 0 ∧ s'.poison.rd false a = false ∧
            s'.vaultPoison.rd false a = false ∧ s'.host.rd 0 a = s.host.rd 0 a) ∧
          (∀ c, c < 8 → ((s'.fw.rd .blank c).slotB = false ↔ okA c) ∧ (s'.fw.rd .blank c).updating = none) ∧
          (∀ d, d < 4 → (s'.dies.rd .blank d).epoch = epochs.getD d 0) ∧
          (s.manifest.valid = false → s'.parts = [] ∧ s'.fns = s.fns) ∧
          (s.manifest.valid = true → (s'.fns.rd .blank 0).numVfs = vfs ∧
            (∀ k x, s'.parts.look k = some x → (k, x.info) ∈ s.manifest.partitions ∧ may x.info ∧ x.resetStep = 0 ∧ x.consent = []) ∧
            ∀ k p, (k, p) ∈ s.manifest.partitions → may p → (∀ q, (k, q) ∈ s.manifest.partitions → q = p) →
              s'.parts.look k = some ⟨p, 0, []⟩)) ∧
      ∀ epochs c, c < 8 → ¬ okA c → ¬ okB c → exec (.powerUp epochs) s = .next s)

/-- Translations and tables change as asked: an invalidation removes what it names and is acknowledged when nothing uses it,
a finished walk serves its operation, an absent page is asked for and a page response makes its page present or fails the access, a
torn-down context is dead with its queues once none of its page requests waits, a harvest clears DIRTY (once the writes issued
through the entry are performed, of which some are taken to be through it that may not be: the model's choice, log entry 68), what
is cleared reads zero, changes of the binding table are made in their order while its context is idle, and F0 loads key slots and
writes consent entries on a request alone (R6, R148 to R156, R199, R205, R210, R212, R213); that each takes the oldest request,
whatever it says (log entry 25), that an entry with a reserved bit set leaves the former one as it is (log entry 87), which launches of
a context are resident, and what an entry with VALID 0 leaves (log entry 94), are the model's choices. -/
def Obligations.TablesChangeAsAsked : Prop :=
  ∀ (s : State) (part : Nat),
    (∀ scope, ∃ s', exec (.tlbInvalidate part scope) s = .next s' ∧ SameMemory s s' ∧
      (∀ e, e ∈ s'.tlb ↔ e ∈ s.tlb ∧ e.named part scope = false) ∧ s'.invals = s.invals ++ [⟨part, s.translated part⟩] ∧
      ∀ page, scope = .host page → s'.absent.rd false page = true) ∧
    (∀ v, s.invals.find? (·.part == part) = some v → (∀ id ∈ v.waitFor, s.findOp id = none) →
      exec (.invalidateAck part) s = .next { s with invals := s.invals.erase v, toHost := s.toHost ++ [.invalidated part] }) ∧
    (∀ op r o b t c a f d x n, s.findOp op = some (r, o) → s.blk r.block = some b → s.thr r = some t → o ∈ t.ops → o.id = op →
      o.kind = .load (.global c a) f d → o.xl = none → canonical a = true → s.walkBoth c a = .ok (x, n) → x.space ≠ .host →
      ∃ s' u, exec (.pageWalkComplete op) s = .next s' ∧ SameMemory s s' ∧ s'.thr r = some u ∧
        { o with xl := some x } ∈ u.ops ∧ u.ops.length = t.ops.length ∧ u.v = t.v) ∧
    (∀ id q, s.pri.find? (·.id == id) = some q →
      exec (.priResponse id true) s =
        .next { s with pri := s.pri.filter (·.id != id), absent := s.absent.wr false q.page false } ∧
      (∀ r, q.owner = .fetch r →
        exec (.priResponse id false) s = .next (({ s with pri := s.pri.filter (·.id != id) } : State).updThr r
          (fun t => { t with denied := some q.page }))) ∧
      ((∀ r, q.owner ≠ .fetch r) →
        exec (.priResponse id false) s =
          .next { s with pri := s.pri.filter (·.id != id), refused := s.refused ++ [(q.owner, q.page)] })) ∧
    (∀ id, s.pri.find? (·.id == id) = none → ∀ ok, exec (.priResponse id ok) s = .next s) ∧
    (∀ id r o b t p f d pg, s.findOp id = some (r, o) → s.blk r.block = some b → s.thr r = some t → t.free o = true →
      o.kind = .load p f d → s.resolve b.core o.xl p f.bytes 1 plainOk = .absent pg → (∀ q ∈ t.withdrawn, q.id ≠ id) →
      ((.op id, pg) ∈ s.refused → ∃ s' u, exec (.operationFault id) s = .next s' ∧ SameMemory s s' ∧ s'.thr r = some u ∧
        (∀ q ∈ u.ops, q.id ≠ id) ∧ ∃ g ∈ u.unreported, g.op = id ∧ g.cause = some .xlate) ∧
      ((.op id, pg) ∉ s.refused → (∀ q ∈ t.unreported, q.op ≠ id) →
        exec (.operationComplete id) s = .next (s.askPage (.op id) b.ctx pg))) ∧
    (∀ who ctx pg, (∀ q ∈ s.pri, q.owner ≠ who) → s.pri.length < 256 →
      s.askPage who ctx pg = { s with
        pri := s.pri ++ [⟨s.nextId, who, ctx, pg⟩], toHost := s.toHost ++ [.pageRequest s.nextId], nextId := s.nextId + 1 }) ∧
    (∀ pasid c, s.ctxs.look pasid = some c →
      ((∀ k b, (k, b) ∈ s.blocks → b.ctx ≠ pasid) → s.strays = [] → (∀ q ∈ s.pri, q.ctx ≠ pasid) →
        ∃ s', exec (.pasidTeardown pasid) s = .next s' ∧ SameMemory s s' ∧ s'.ctxs.look pasid = some { c with dead := true } ∧
          (∀ e ∈ s'.tlb, e.ctx ≠ pasid) ∧
          ∀ q x d, s.queue q = some x → x.qcb = some d → d.pasid = pasid → (s'.queue q).map (·.state) = some 2) ∧
      (∀ q ∈ s.pri, q.ctx = pasid → exec (.pasidTeardown pasid) s = .next s)) ∧
    (∀ ipa pa e n leaf, s.stage2 part ipa = .ok (pa, e, n, leaf) → (s.fw.rd .blank 3).updating = none →
      s.writesThrough part leaf = false →
      ∃ s', exec (.dirtyHarvest part ipa) s = .next s' ∧ s'.toHost = s.toHost ++ [.harvest part ipa (e.getLsbD 52)] ∧
        readMem s'.dram leaf 8 = bytesOf (e &&& ~~~0x0010000000000000#64).toNat 8 ∧
        ∀ a, a < leaf ∨ leaf + 8 ≤ a → s'.dram.rd 0 a = s.dram.rd 0 a) ∧
    (∀ pa, s.memoriesWf → s.idleDram (pa / 4096 * 4096) = true → ∃ s', exec (.pageZero (.page pa)) s = .next s' ∧
      ∀ a, s'.dram.rd 0 a = if a / 4096 = pa / 4096 then 0 else s.dram.rd 0 a) ∧
    (∀ ctx idx e c, s.ctxs.look ctx = some c →
      ((∀ k b, (k, b) ∈ s.blocks → b.ctx ≠ ctx) → (s.fw.rd .blank 3).updating = none → c.heldChange = [] →
        (s.bindingOk ctx c idx e = true →
          ∃ s', exec (.bindingChange ctx idx e) s = .next s' ∧ SameMemory s s' ∧
            (s'.ctxs.look ctx).map (fun d => d.binding.look idx) = some (some e)) ∧
        (e.rest ≠ 0 → exec (.bindingChange ctx idx e) s = .next s)) ∧
      ((∃ k b, (k, b) ∈ s.blocks ∧ b.ctx = ctx) ∨ (s.fw.rd .blank 3).updating.isSome = true ∨ c.heldChange ≠ [] →
        ∃ s', exec (.bindingChange ctx idx e) s = .next s' ∧ SameMemory s s' ∧
          s'.ctxs.look ctx = some { c with heldChange := c.heldChange ++ [(idx, e)] })) ∧
    (∀ slot owner idx e, s.requests = [] ∨ (s.fw.rd .blank 0).updating.isSome = true →
      exec (.keySlotLoad slot owner) s = .next s ∧ exec (.consentUpdate part idx e) s = .next s) ∧
    ((s.fw.rd .blank 0).updating = none → ∀ slot, 1 ≤ slot → slot < 512 →
      (s.keyNamed slot = true → exec (.pageZero (.key slot)) s = .next s) ∧
      (s.keyNamed slot = false → exec (.pageZero (.key slot)) s =
        .next { s with keys := s.keys.ins slot ⟨0xFF, 0, (s.keys.rd .blank slot).gen + 1⟩ })) ∧
    (∀ m ms, (s.fw.rd .blank 0).updating = none → s.requests = m :: ms →
      (∀ slot, 1 ≤ slot → slot < 512 →
        ((s.keys.rd .blank slot).state ≠ 2 →
          (∀ owner p, owner ≠ 0xFF → s.parts.look owner = some p → exec (.keySlotLoad slot owner) s = .next { s with
            requests := ms, keys := s.keys.ins slot { s.keys.rd .blank slot with owner, state := 2 } }) ∧
          exec (.keySlotLoad slot 0xFF) s = .next { s with
            requests := ms, keys := s.keys.ins slot { s.keys.rd .blank slot with owner := 0xFF, state := 1 } }) ∧
        (∀ owner, (s.keys.rd .blank slot).state = 2 → exec (.keySlotLoad slot owner) s = .next { s with requests := ms })) ∧
      (∀ idx e p, idx < 64 → s.parts.look part = some p →
        (e.rest = 0 → ∃ s', exec (.consentUpdate part idx e) s = .next s' ∧ SameMemory s s' ∧ s'.requests = ms ∧
          s'.parts.look part = some { p with consent := p.consent.ins idx e }) ∧
        (e.rest ≠ 0 → exec (.consentUpdate part idx e) s = .next { s with requests := ms })))

/-! ### The gate's packets and the links (R216, R307, R308, R319 to R324, R345, R358, R359) -/

/-- The first packet of an exchange waits at the gate, the second in time decides it by the lanes of both, and one whose time has
passed is aborted; a decided exchange answers each of its lanes, with the opened value, the share of the binary product or the bits
of the exchange and a true predicate, or with a false predicate alone; a `GFIN` whose SLOT is matched takes its product share, one
whose exchange was aborted only a false predicate, and both free their SLOT (R316, R319 to R324). -/
def Obligations.GatePacketsAreDecided : Prop :=
  (∀ (s : State) (r : Thr) (o : Op) (t : Thread) (b : Block), s.findOp o.id = some (r, o) → s.thr r = some t →
    s.blk r.block = some b → o ∈ t.ops →
    (∀ g, o.kind = .gate g → g.arrived = false → t.mayArrive o = false → exec (.gatePacketArrive o.id) s = .next s) ∧
    (∀ g, o.kind = .gate g → g.arrived = false → g.refusal = false → t.mayArrive o = true →
      (g.lanes ≠ 0 → g.kind ≠ .arith → s.findExchange (s.jointItem b) b.blockId (r.warp.getD 0) g.kind g.n = none →
        ∃ s' u e, exec (.gatePacketArrive o.id) s = .next s' ∧ SameMemory s s' ∧ s'.thr r = some u ∧
          { o with kind := .gate { g with arrived := true } } ∈ u.ops ∧ s'.exchanges.look s.nextId = some e ∧
          e.verdict = .pending ∧ e.first = s.now ∧ e.tout = g.tout ∧ e.n = g.n ∧ e.kind = g.kind ∧
          e.packet (if b.party = 0 then 0 else 1) = some ⟨g.lanes, false, g.tout, g.words, g.entries⟩) ∧
      (∀ i e pk, s.findExchange (s.jointItem b) b.blockId (r.warp.getD 0) g.kind g.n = some (i, e) → e.verdict = .pending →
        (s.now - e.first).toNat < min e.tout g.tout → b.party ≤ 1 → e.packet (1 - b.party) = some pk → pk.refusal = false →
        ∃ s', exec (.gatePacketArrive o.id) s = .next s' ∧ SameMemory s s' ∧
          (s'.exchanges.look i).map (·.verdict) = some (if pk.lanes = g.lanes then .matched else .mismatch))) ∧
    (∀ g i e, t.free o = true → o.kind = .gate g → g.arrived = true → o.dropped = [] → g.pred < 7 → g.d < 512 →
      (g.kind = .eda → g.d < 511) → t.teller = false →
      s.findExchange (s.jointItem b) b.blockId (r.warp.getD 0) g.kind g.n = some (i, e) → e.verdict ≠ .pending →
      let own := fun l j => ((g.own.look l).getD []).getD j 0
      ∃ s' u, exec (.gateVerdict o.id) s = .next s' ∧ SameMemory s s' ∧ s'.thr r = some u ∧ (∀ p ∈ u.ops, p.id ≠ o.id) ∧
        (∀ l, l < 32 → g.answers.getLsbD l = false → (∀ x < 512, u.vr l x = t.vr l x) ∧ ∀ x < 8, u.pr l x = t.pr l x) ∧
        (∀ l, l < 32 → g.answers.getLsbD l = true → e.verdict ≠ .matched →
          u.pr l g.pred = false ∧ ∀ x < 512, u.vr l x = t.vr l x) ∧
        (∀ l pk, l < 32 → g.answers.getLsbD l = true → e.verdict = .matched → e.packet (1 - b.party) = some pk →
          (g.words.look l = none ∨ pk.words.look l = none → u.pr l g.pred = false ∧ ∀ x < 512, u.vr l x = t.vr l x) ∧
          (∀ mine peer, g.words.look l = some mine → pk.words.look l = some peer →
            let dv := mine.getD 0 0 ^^^ peer.getD 0 0
            let ev := mine.getD 1 0 ^^^ peer.getD 1 0
            u.pr l g.pred = true ∧
            (g.kind = .opening → u.vr l g.d = own l 0 + peer.getD 0 0) ∧
            (g.kind = .binary → u.vr l g.d =
              own l 2 ^^^ (dv &&& own l 1) ^^^ (ev &&& own l 0) ^^^ (if b.party = 0 then dv &&& ev else 0)) ∧
            (g.kind = .eda → u.vr l g.d = own l 0 ∧ u.vr l (g.d + 1) = own l 1)))) ∧
    (∀ g ls d pred, t.free o = true → o.kind = .gfin ls d pred → o.dropped = [] → b.gate = some g → pred < 7 → d < 512 →
      t.teller = false → (∀ l, l < 32 → ls.getLsbD l = true → 2 ≤ (g.slot (r.warp.getD 0 * 32 + l)).state) →
      ∃ s' u, exec (.gateVerdict o.id) s = .next s' ∧ SameMemory s s' ∧ s'.thr r = some u ∧ (∀ p ∈ u.ops, p.id ≠ o.id) ∧
        ∀ l, l < 32 → ls.getLsbD l = true →
          let c := g.slot (r.warp.getD 0 * 32 + l)
          (c.state = 2 → u.pr l pred = true ∧ u.vr l d =
            c.c + (c.d + c.peerD) * c.b + (c.e + c.peerE) * c.a + (if b.party = 0 then (c.d + c.peerD) * (c.e + c.peerE) else 0)) ∧
          (c.state ≠ 2 → u.pr l pred = false ∧ ∀ x < 512, u.vr l x = t.vr l x) ∧
          ((s'.blk r.block).bind (·.gate)).map (fun g => (g.slot (r.warp.getD 0 * 32 + l)).state) = some 0)) ∧
  (∀ (s : State) (i : Nat) (e : Exchange), s.exchanges.look i = some e → e.verdict = .pending → e.tout ≤ (s.now - e.first).toNat →
    (s.itemsOf e).all s.itemOver = false →
    ∃ s', exec (.gateTimeout i) s = .next s' ∧ SameMemory s s' ∧ (s'.exchanges.look i).map (·.verdict) = some .timeout)

/-- An armed send fires when its counter is compared and has reached its threshold, at arming and after each write (that a
counter which may not be read ends the send as faulted is the model's choice, log entry 62); a fired send whose core's link port is
not blocked sets the commit mark and is carried out. A flit out of order or with a bad tag is answered by a nak with the expected SEQ; one in order is
acknowledged, and the bytes of a send are performed once it has arrived whole; a nak replays from its SEQ, and a sixteenth
replay takes the port down; a receive counter takes RINC; a connection exists once both hosts have registered it, alike, and F0
has loaded its key, and no longer once one registers it otherwise (R216, R307, R308, R345, R358, R359, R361, R362, R364).
Received flits leave the receive queue at once, and what a host's registration has to say alike, are the model's choices (log
entries 53 and 85). -/
def Obligations.LinksCarryTheirSends : Prop :=
  ∀ (s : State) (port : Nat), (s.port port).up = true →
    let x := s.port port
    let nak : Flit := ⟨x.rxSeq, .nak, x.rxSeq - 1, 0, 0, true, .none⟩
    (∀ b a v, s.trigger b a = some v → a.seen ≠ some v →
      (∀ t, s.locate b a.desc.tctr 8 1 counterOk = .ok t → (s.readT (b.2.core / 16) t 8).2 = false →
        (a.desc.thresh ≤ v → s.compareArmed b a = s.updThr ⟨b.1, none⟩ (fun t =>
          { t with armed := t.armed.filter (fun y => y.id != a.id), firing := t.firing ++ [a] })) ∧
        (v < a.desc.thresh → s.compareArmed b a = s.updThr ⟨b.1, none⟩ (fun t =>
          { t with armed := t.armed.map (fun y => if y.id = a.id then { y with seen := some v } else y) }))) ∧
      (∀ c va st, s.locate b a.desc.tctr 8 1 counterOk = .error (.fault c va st) → a.ev = false →
        s.compareArmed b a = s.updThr ⟨b.1, none⟩ (fun t => { t with armed := t.armed.filter (fun y => y.id != a.id) }))) ∧
    (∀ k b a rest it, s.blk k = some b → b.tel.firing = a :: rest → (∀ e ∈ rest, e.id ≠ a.id) → a.begun = false →
      s.items.look b.item = some it → s.portBlocked b.core = false →
      ∃ s', exec (.armedSendFire k 0) s = .next s' ∧ s'.items.look b.item = some { it with commit := true } ∧
        ∀ r, s.grab (k, b) a.desc.src a.desc.len plainOk = .ok r → (s.port a.desc.port).up = true →
          (a.ev = false ∨ b.run = .saved ∨ b.tel.mayPost = true) →
          (s'.blk k).map (·.tel.firing) = some rest ∧
            ∃ w, s'.sends.look s.nextId = some w ∧ w.port = a.desc.port ∧ w.fired = true ∧
            w.cmp = a.cmp ∧ w.done = none) ∧
    (∀ f : Flit, s.ready = false ∨ s.manifest.valid = false → exec (.flitReceive port f) s = .next s) ∧
    (∀ f : Flit, s.ready = true → s.manifest.valid = true → f.tagOk = false ∨ (f.typ = .data ∧ f.seq ≠ x.rxSeq) →
      exec (.flitReceive port f) s = .next { s with toHost := s.toHost ++ [.flit port nak] }) ∧
    (∀ f : Flit, s.ready = true → s.manifest.valid = true → f.tagOk = true → f.typ = .idle → exec (.flitReceive port f) s = .next s) ∧
    (∀ (f : Flit) send dst bs rctr rinc c (xl : Xlat), s.ready = true → s.manifest.valid = true → f.tagOk = true →
      f.typ = .data → f.seq = x.rxSeq → s.knownConn f.conn = some c → x.receiving = [] → bs ≠ [] →
      dst.toNat % 64 + bs.length ≤ 64 → s.portResolve c.ctx dst 2 plainOk = .ok (.mem xl) → s.writable (.mem xl) bs.length →
      (f.payload = .data send dst bs false true rctr rinc →
        ∃ s', exec (.flitReceive port f) s = .next s' ∧ WroteAt s s' (.mem xl) bs ∧
          (s'.port port).rxSeq = x.rxSeq + 1 ∧
          (s'.port port).receiving = [⟨f.conn, send, [], false, 0, false, true, rctr, rinc⟩] ∧
          HostMsg.flit port ⟨0, .ack, f.seq, 0, 1, true, .none⟩ ∈ s'.toHost) ∧
      (f.payload = .data send dst bs false false rctr rinc →
        ∃ s', exec (.flitReceive port f) s = .next s' ∧ SameMemory s s' ∧ (s'.port port).rxSeq = x.rxSeq + 1 ∧
          (s'.port port).receiving = [⟨f.conn, send, [⟨dst, bs, false⟩], false, 0, false, false, rctr, rinc⟩] ∧
          HostMsg.flit port ⟨0, .ack, f.seq, 0, 1, true, .none⟩ ∈ s'.toHost)) ∧
    (∀ f : Flit, s.ready = true → s.manifest.valid = true → f.tagOk = true → f.typ = .data → f.seq = x.rxSeq →
      s.knownConn f.conn = none →
      ∃ s', exec (.flitReceive port f) s = .next s' ∧ SameMemory s s' ∧ (s'.port port).rxSeq = x.rxSeq + 1 ∧
        (s'.port port).receiving = x.receiving ∧ s'.plogNext = (s.plogNext + 1) % 2048) ∧
    (∀ seq,
      let before := x.replay.takeWhile (fun f => f.1.seq != seq)
      let again := x.replay.dropWhile (fun f => f.1.seq != seq)
      ((∀ f ∈ again, f.2 < 15) → exec (.flitNak port seq) s = .next { s with
        ports := s.ports.ins port { x with replay := before ++ again.map (fun f => (f.1, f.2 + 1)) },
        toHost := s.toHost ++ again.map (fun f => HostMsg.flit port f.1) }) ∧
      (∀ f ∈ again, 15 ≤ f.2 → s.sends = [] →
        ∃ s', exec (.flitNak port seq) s = .next s' ∧ SameMemory s s' ∧ (s'.port port).up = false ∧
          s'.toHost = s.toHost ++ [.portDown port])) ∧
    (∀ r c (xl : Xlat), x.receiving.find? (·.complete) = some r → s.knownConn r.conn = some c → r.parts = [] → r.faulted = false →
      r.rinc ≠ 0 → r.rctr.toNat % 8 = 0 → s.portResolve c.ctx r.rctr 3 counterOk = .ok (.mem xl) → s.writable (.mem xl) 8 →
      ∃ s', exec (.receiveCounterAdd port) s = .next s' ∧
        WroteAt s s' (.mem xl) (bytesOf (numOf (s.bytesAt (.mem xl) 8) + r.rinc.toNat) 8)) ∧
    (∀ conn info byPeer, (s.fw.rd .blank 5).updating.isSome = true ∨ s.manifest.valid = false →
      exec (.connectionRegister conn byPeer info) s = .next s) ∧
    (∀ conn info, (s.fw.rd .blank 5).updating = none → s.manifest.valid = true → info.dev < 4096 →
      (s.conns.look conn = none →
        exec (.connectionRegister conn false info) s = .next { s with conns := s.conns.ins conn ⟨some info, none, false⟩ } ∧
        exec (.connectionRegister conn true info) s = .next { s with conns := s.conns.ins conn ⟨none, some info, false⟩ }) ∧
      (∀ other, s.conns.look conn = some ⟨none, some other, false⟩ →
        let agree := info.part = other.part ∧ info.dev = other.dev ∧ info.peerPart = other.peerPart
        (agree → (s.fw.rd .blank 0).updating = none →
          exec (.connectionRegister conn false info) s = .next { s with
            conns := s.conns.ins conn ⟨some info, some other, true⟩,
            routes := s.routes.ins info.dev (s.routes.rd 0 info.dev ||| info.ports),
            toHost := s.toHost ++ [.registered conn] }) ∧
        (¬ agree ∨ (s.fw.rd .blank 0).updating.isSome = true →
          exec (.connectionRegister conn false info) s =
            .next { s with conns := s.conns.ins conn ⟨some info, some other, false⟩ })) ∧
      (∀ old other, s.conns.look conn = some ⟨some old, some other, true⟩ → info ≠ old →
        (info.part ≠ other.part ∨ info.dev ≠ other.dev ∨ info.peerPart ≠ other.peerPart) →
        ∃ s', exec (.connectionRegister conn false info) s = .next s' ∧ SameMemory s s' ∧
          s'.conns.look conn = some ⟨some info, some other, false⟩ ∧ s'.knownConn conn = none))

/-! ### The host port and the firmware (R183, R191, R197, R199, R348, R350, R352 to R357, R361, R363, R364) -/

/-- The host's accesses and the TDISP messages: an access that its TDI serves reads or writes device memory through the
partition's tables, or reads a doorbell page, the telemetry report, the error queue, which changes nothing, or a function's
configuration; another is answered with an error, which the function's AER registers record; a TDI moves as R354 and R356 say
and answers; a write to a frozen field moves it to ERROR; a snoop is answered Invalid; an interrupt is raised at most once in 2
microseconds; before the device is ready, or with a manifest that failed its signature, nothing of this is served but what R362
and R364 leave (R191, R197, R348, R350, R352 to R357, R360, R362 to R364). What a TDI serves without the TEE bit, which function
serves a partition, the read-out of the error queue, the registers' reset values, and the bits of the AER registers are the
model's choices (log entries 44, 45, 70, 72, 77). -/
def Obligations.HostAccessesAreServed : Prop :=
  (∀ e : ErrEntry, e.bytes.length = 32 ∧ field e.bytes 0 2 = e.cause % 2 ^ 16 ∧ field e.bytes 2 2 = e.q % 2 ^ 16 ∧
    field e.bytes 4 4 = e.launchid.toNat ∧ field e.bytes 8 4 = e.item.toNat ∧ field e.bytes 12 4 = e.flags % 2 ^ 32 ∧
    field e.bytes 16 8 = e.addr.toNat ∧ field e.bytes 24 6 = e.time.toNat ∧ field e.bytes 30 2 = e.seq.toNat) ∧
  ∀ (s : State) (fn : Nat),
    let t := s.tdis.rd .blank fn
    let cfg := s.fns.rd .blank fn
    let base := cfg.hdmBase * 2 ^ 28
    let tells := fun (i : Instr) (m : HostMsg) => exec i s = .next { s with toHost := s.toHost ++ [m] }
    let answers := fun (i : Instr) (u : Tdi) =>
      exec i s = .next { s with toHost := s.toHost ++ [.tdisp fn true], tdis := s.tdis.ins fn u }
    let serves := fun (a : HostAccess) => t.state = (if a.tee then .run else .unlocked)
    let errs := fun (i : Instr) (m : HostMsg) (bit : Nat) => exec i s = .next (s.answers fn m bit)
    let unsup := fun (i : Instr) => errs i (.unsupportedRequest fn) 20
    let part := fun (bs : List Byte) (a : HostAccess) => (List.range a.len).map (fun j => bs.getD (a.ipa + j) 0)
    let size := fun (a : HostAccess) => match a.write with | some bs => bs.length | none => a.len
    (∀ addr, tells (.cxlSnoop addr) (.snoopInvalid addr)) ∧
    (s.ready = false → ∀ a,
      (∀ bar, (∀ field, bar ≠ .config field) → exec (.hostApertureAccess fn ⟨bar, a⟩) s = .next s) ∧
      exec (.cxlMemAccess fn a) s = .next s ∧
      (∀ field, a.write = none → tells (.hostApertureAccess fn ⟨.config field, a⟩) (.requestRetry fn)) ∧
      ∀ field v, tells (.registerWrite (.config fn field) v) (.requestRetry fn)) ∧
    (s.ready = true → ∀ a : HostAccess,
      (∀ bar, (∀ field, bar ≠ .config field) →
        s.fnExists fn = false ∨ (s.manifest.valid = false ∧ bar ≠ .bar2) ∨ ¬ serves a → unsup (.hostApertureAccess fn ⟨bar, a⟩)) ∧
      (∀ field, a.write = none →
        (s.fnExists fn = false → unsup (.hostApertureAccess fn ⟨.config field, a⟩)) ∧
        (s.fnExists fn = true →
          tells (.hostApertureAccess fn ⟨.config field, a⟩) (.readData fn (part (bytesOf (cfg.read field).toNat 8) a) false))) ∧
      (s.parts.find? (fun e => e.2.info.fn == fn) = none → unsup (.cxlMemAccess fn a)) ∧
      (∀ k p, s.parts.find? (fun e => e.2.info.fn == fn) = some (k, p) →
        ((a.ipa < base ∨ cfg.hdmUnits * 2 ^ 28 < a.ipa - base + size a ∨ p.info.dramGiB * 2 ^ 30 < a.ipa - base + size a →
            unsup (.cxlMemAccess fn a)) ∧
          (base ≤ a.ipa → a.ipa - base + size a ≤ cfg.hdmUnits * 2 ^ 28 → a.ipa - base + size a ≤ p.info.dramGiB * 2 ^ 30 →
            (∀ bs, a.write = none → s.hostRead k (a.ipa - base) a.len = some (bs, false) →
              tells (.cxlMemAccess fn a) (.readData fn bs false)) ∧
            (∀ bs, a.write = none → s.hostRead k (a.ipa - base) a.len = some (bs, true) → t.fwdCxl = false →
              errs (.cxlMemAccess fn a) (.uncorrectable fn) 22) ∧
            (∀ bs x, a.write = some bs → bs ≠ [] → (a.ipa - base) % 64 + bs.length ≤ 64 →
              s.hostXlate k (a.ipa - base) 2 = some x → x.repl = false →
              exec (.cxlMemAccess fn a) s = .next (s.writeX x bs false))))) ∧
      (s.fnExists fn = true → serves a →
        (fn ≠ 0 ∨ 65536 < a.ipa + size a → unsup (.hostApertureAccess fn ⟨.bar2, a⟩)) ∧
        (fn = 0 → a.write = none → a.ipa + a.len ≤ 4096 → tells (.hostApertureAccess fn ⟨.bar2, a⟩)
          (.readData 0 ((List.range a.len).map (fun i => s.reportPage.getD (a.ipa + i) 0)) false))) ∧
      (s.fnExists fn = true → s.manifest.valid = true → serves a →
        (s.parts.find? (fun e => e.2.info.fn == fn) = none → unsup (.hostApertureAccess fn ⟨.bar4, a⟩)) ∧
        (∀ k p, s.parts.find? (fun e => e.2.info.fn == fn) = some (k, p) →
          (cfg.bar4GiB * 2 ^ 30 < a.ipa + size a → unsup (.hostApertureAccess fn ⟨.bar4, a⟩)) ∧
          (a.ipa + size a ≤ cfg.bar4GiB * 2 ^ 30 →
            (∀ bs, a.write = none → s.hostRead k a.ipa a.len = some (bs, false) →
              tells (.hostApertureAccess fn ⟨.bar4, a⟩) (.readData fn bs false)) ∧
            (∀ bs, a.write = none → s.hostRead k a.ipa a.len = some (bs, true) → t.fwdPcie = false →
              errs (.hostApertureAccess fn ⟨.bar4, a⟩) (.completerAbort fn) 15) ∧
            (∀ bs x, a.write = some bs → bs ≠ [] → a.ipa % 64 + bs.length ≤ 64 → s.hostXlate k a.ipa 2 = some x → x.repl = false →
              exec (.hostApertureAccess fn ⟨.bar4, a⟩) s = .next (s.writeX x bs false)))) ∧
        (∀ q x, s.queue q = some x →
          (x.info.fn ≠ fn → unsup (.hostApertureAccess fn ⟨.doorbell q, a⟩)) ∧
          (x.info.fn = fn → a.write = none → x.state ≤ 2 → tells (.hostApertureAccess fn ⟨.doorbell q, a⟩) (.readData fn
            (part (bytesOf 0 8 ++ bytesOf (x.state * 2 ^ 32 + x.lastCmpl.toNat * 2 ^ 16 + x.lastAcc.toNat) 8) a) false))) ∧
        let eq := s.errQueue fn
        (a.write = none → tells (.hostApertureAccess fn ⟨.errorQueue, a⟩) (.readData fn
          (part (bytesOf eq.overflow.toNat 4 ++ bytesOf 0 28 ++ eq.entries.flatMap ErrEntry.bytes) a) false)) ∧
        (∀ bs, a.write = some bs → exec (.hostApertureAccess fn ⟨.errorQueue, a⟩) s =
          .next { s with errqs := s.errqs.ins fn { eq with entries := eq.entries.drop (numOf bs) } }))) ∧
    (s.ready = true → s.fnExists fn = false → ∀ field v, unsup (.registerWrite (.config fn field) v)) ∧
    (s.ready = true → s.fnExists fn = true → ∀ v : Addr,
      (∀ field, field ≠ .numVfs → frozenField field = false ∨ fn ∉ s.heldTdis →
        exec (.registerWrite (.config fn field) v) s = .next { s with fns := s.fns.ins fn (cfg.write field v) }) ∧
      cfg.write .command v = { cfg with command := v.extractLsb' 0 16 } ∧
      (∀ field, frozenField field = true → fn ∈ s.heldTdis → t.state = .locked ∨ t.state = .run →
        ∃ s', exec (.registerWrite (.config fn field) v) s = .next s' ∧ SameMemory s s' ∧
          (s'.tdis.rd .blank fn).state = .error ∧ s'.fns = s.fns) ∧
      (fn ≠ 0 → exec (.registerWrite (.config fn .numVfs) v) s = .next s) ∧
      (fn = 0 → s.heldTdis ≠ [] → ∃ s', exec (.registerWrite (.config fn .numVfs) v) s = .next s' ∧ SameMemory s s' ∧
        s'.fns = s.fns ∧ ∀ g ∈ s.heldTdis, (s.tdis.rd .blank g).state = .locked ∨ (s.tdis.rd .blank g).state = .run →
          (s'.tdis.rd .blank g).state = .error) ∧
      (fn = 0 → s.heldTdis = [] →
        let served := ∀ k p, (k, p) ∈ s.parts → fnServes v.toNat p.info.fn = true
        (v.toNat ≤ min s.manifest.vfs 16 → s.manifest.valid = true → served →
          exec (.registerWrite (.config fn .numVfs) v) s = .next { s with fns := s.fns.ins fn { cfg with numVfs := v.toNat } }) ∧
        (min s.manifest.vfs 16 < v.toNat ∨ s.manifest.valid = false ∨ ¬ served →
          exec (.registerWrite (.config fn .numVfs) v) s = .next s))) ∧
    ((s.fw.rd .blank 4).updating = none → ∀ on,
      exec (.poisonForwardEnable fn false on) s = .next { s with tdis := s.tdis.ins fn { t with fwdPcie := on } } ∧
      exec (.poisonForwardEnable fn true on) s = .next { s with tdis := s.tdis.ins fn { t with fwdCxl := on } }) ∧
    (fn = 0 ∨ s.fnExists fn = false ∨ s.ready = false ∨ s.manifest.valid = false ∨ (s.fw.rd .blank 0).updating.isSome = true →
      exec (.lockInterfaceRequest fn) s = .next s ∧ exec (.startInterfaceRequest fn) s = .next s ∧
      exec (.stopInterfaceRequest fn) s = .next s) ∧
    (1 ≤ fn → s.fnExists fn = true → s.ready = true → s.manifest.valid = true → (s.fw.rd .blank 0).updating = none →
      (t.state = .unlocked → answers (.lockInterfaceRequest fn) { t with state := .locked }) ∧
      (t.state ≠ .unlocked → tells (.lockInterfaceRequest fn) (.tdisp fn false)) ∧
      (t.state = .locked → answers (.startInterfaceRequest fn) { t with state := .run }) ∧
      (t.state ≠ .locked → tells (.startInterfaceRequest fn) (.tdisp fn false)) ∧
      ((∀ k p, (k, p) ∈ s.parts → p.info.fn = fn → p.resetStep = 0) →
        answers (.stopInterfaceRequest fn) { t with state := .unlocked }) ∧
      (∀ k p, (k, p) ∈ s.parts → p.info.fn = fn → p.resetStep ≠ 0 → tells (.stopInterfaceRequest fn) (.tdisp fn false))) ∧
    (t.state = .locked ∨ t.state = .run →
      ∃ s', exec (.tdiError fn .ideFailure) s = .next s' ∧ SameMemory s s' ∧ (s'.tdis.rd .blank fn).state = .error ∧
        ∀ k p, s.parts.find? (fun e => e.2.info.fn == fn) = some (k, p) → s.parts.look k = some p → p.resetStep = 0 →
          (s'.parts.look k).map (·.resetStep) = some 1) ∧
    (∀ k p, s.parts.find? (fun e => e.2.info.fn == fn) = some (k, p) → (s.fw.rd .blank 0).updating = none →
      ∃ bs, tells (.interfaceReport fn) (.report fn bs) ∧ bs.length = 76 ∧ field bs 0 2 = 0x1E ∧
        field bs 4 2 = cfg.msixControl.toNat ∧ field bs 12 4 = 2 ∧ field bs 16 8 = cfg.bar0 % 2 ^ 64 ∧
        field bs 32 8 = cfg.bar4 % 2 ^ 64 ∧ field bs 48 4 = 24 ∧ field bs 52 1 = k % 2 ^ 8 ∧ field bs 53 2 = p.info.gangs.toNat ∧
        field bs 57 1 = p.info.dramGiB % 2 ^ 8 ∧ field bs 58 2 = s.manifest.securityVersion % 2 ^ 16) ∧
    (∀ q, s.errqs.look fn = some q → q.pendingIrq = true → (s.fw.rd .blank 4).updating = none →
      ((∀ last, q.lastIrq = some last → 2 ≤ (s.now - last).toNat) →
        exec (.msixRaise fn) s = .next { s with
          toHost := s.toHost ++ [.msix fn s.now],
          errqs := s.errqs.ins fn { q with pendingIrq := false, lastIrq := some s.now } }) ∧
      (∀ last, q.lastIrq = some last → (s.now - last).toNat < 2 → exec (.msixRaise fn) s = .next s))

/-- A firmware core takes an image into its other slot, where F0 verifies it: a signed one that is not below the manifest's
security version is run, while another is left there refused; the core runs again when it reports ready within 100 ms, and falls
back without a report in time; an update of F0 rolls the open joint reservations back; a mailbox takes 32 entries and then
reports full; SPDM requests are answered, where the device is ready and the manifest's signature holds (R183, R199, R352, R361,
R362, R364, R365). -/
def Obligations.FirmwareCoresUpdate : Prop :=
  ∀ (s : State) (core : Nat),
    let f := s.fw.rd .blank core
    let stored := fun (version : Nat) (image : BitVec 512) (good : Bool) =>
      if f.slotB then { f with versionA := version, imageA := image, goodA := good }
      else { f with versionB := version, imageB := image, goodB := good }
    let loaded := fun (version : Nat) (image : BitVec 512) =>
      s.fw.ins core { stored version image true with slotB := !f.slotB, updating := some s.now }
    (s.ready = false ∨ f.updating.isSome = true ∨ (s.fw.rd .blank 0).updating.isSome = true →
      ∀ version image, exec (.firmwareUpdate core version image) s = .next s) ∧
    (core < 8 → s.ready = true → f.updating = none → (s.fw.rd .blank 0).updating = none → ∀ version image,
      (s.manifest.securityVersion ≤ version →
        (core ≠ 0 → exec (.firmwareUpdate core version ⟨image, true⟩) s = .next { s with fw := loaded version image }) ∧
        (core = 0 → ∃ s', exec (.firmwareUpdate core version ⟨image, true⟩) s = .next s' ∧ SameMemory s s' ∧
          s'.fw = loaded version image ∧ (∀ k, s'.reservations.look k = none) ∧
          ∀ k r, s.reservations.look k = some r → ∀ g, (s'.gang g).reservedFor ≠ some k)) ∧
      (∀ signed, signed = false ∨ version < s.manifest.securityVersion →
        exec (.firmwareUpdate core version ⟨image, signed⟩) s =
          .next { s with fw := s.fw.ins core (stored version image signed) })) ∧
    (∀ t, f.updating = some t → core ≠ 4 →
      ((s.now - t).toNat < 100000 →
        exec (.firmwareReady core) s = .next { s with fw := s.fw.ins core { f with updating := none } } ∧
        exec (.firmwareReadyTimeout core) s = .next s) ∧
      (100000 ≤ (s.now - t).toNat →
        exec (.firmwareReady core) s = .next { s with fw := s.fw.ins core { f with slotB := !f.slotB, updating := none } } ∧
        exec (.firmwareReadyTimeout core) s =
          .next { s with fw := s.fw.ins core { f with slotB := !f.slotB, updating := none } })) ∧
    (∀ sender body, sender < 8 → core < 8 → sender ≠ core →
      ((s.mail.rd [] core).length < 32 →
        exec (.mailboxMessage sender core body) s =
          .next { s with mail := s.mail.ins core (s.mail.rd [] core ++ [⟨sender, body⟩]) }) ∧
      (32 ≤ (s.mail.rd [] core).length →
        exec (.mailboxMessage sender core body) s = .next { s with toHost := s.toHost ++ [.mailFull sender core] })) ∧
    (∀ request,
      (s.ready = true → s.manifest.valid = true → (s.fw.rd .blank 0).updating = none →
        ∃ answer, exec (.spdmRequest request) s = .next { s with toHost := s.toHost ++ [.spdm answer] }) ∧
      (s.ready = false ∨ s.manifest.valid = false ∨ (s.fw.rd .blank 0).updating.isSome = true →
        exec (.spdmRequest request) s = .next s))
end

