-- ==== Sys2Proof/Laws/Tab.lean ====
section
/-! SUPPORT. The laws of sparse tables and byte memories: a read after a write, and the canonical form. -/

namespace Sys2Proof.Tab

variable {α : Type}

theorem look_nil (i : Nat) : look ([] : Tab α) i = none := rfl

theorem look_ins_same (t : Tab α) (i : Nat) (x : α) : (t.ins i x).look i = some x := by
  induction t with
  | nil => simp [ins, look]
  | cons e t ih =>
    obtain ⟨k, v⟩ := e
    unfold ins
    split
    · simp [look]
    · split
      · simp [look]
      · rename_i h1 h2
        simp [look, h1, h2, ih]

theorem look_ins_ne (t : Tab α) {i j : Nat} (x : α) (h : j ≠ i) : (t.ins i x).look j = t.look j := by
  induction t with
  | nil => simp [ins, look, h]
  | cons e t ih =>
    obtain ⟨k, v⟩ := e
    unfold ins
    split
    · rename_i h1
      by_cases h2 : j < i
      · simp [look, h, h2, show ¬ j = k by omega, show j < k by omega]
      · simp [look, h, h2]
    · split
      · rename_i h1 h2
        subst h2
        simp [look, h]
      · simp [look, ih]

@[simp] theorem look_ins (t : Tab α) (i j : Nat) (x : α) : (t.ins i x).look j = if j = i then some x else t.look j := by
  split
  · rename_i h; subst h; exact look_ins_same t j x
  · rename_i h; exact look_ins_ne t x h

theorem ins_ins (t : Tab α) (i : Nat) (x y : α) : (t.ins i x).ins i y = t.ins i y := by
  induction t with
  | nil => simp [ins]
  | cons e t ih =>
    obtain ⟨k, v⟩ := e
    simp only [ins]
    split
    · simp [ins]
    · split
      · simp [ins]
      · rename_i h1 h2
        simp [ins, h1, h2, ih]

theorem look_dropWhile (t : Tab α) (i j : Nat) :
    look (t.dropWhile (fun e => decide (e.1 ≤ i))) j = if j ≤ i then none else t.look j := by
  induction t with
  | nil => simp [look]
  | cons e t ih =>
    obtain ⟨k, v⟩ := e
    by_cases h : k ≤ i
    · simp only [List.dropWhile, decide_eq_true h, ih]
      split
      · rfl
      · simp [look, show ¬ j = k by omega, show ¬ j < k by omega]
    · simp only [List.dropWhile, decide_eq_false h]
      split
      · simp [look, show ¬ j = k by omega, show j < k by omega]
      · rfl

@[simp] theorem look_rem (t : Tab α) (i j : Nat) : (t.rem i).look j = if j = i then none else t.look j := by
  induction t with
  | nil => simp [rem, look]
  | cons e t ih =>
    obtain ⟨k, v⟩ := e
    unfold rem
    split
    · rename_i h1
      split
      · rename_i h2; subst h2; simp [look, h1, show ¬ j = k by omega]
      · rfl
    · split
      · rename_i h1 h2
        subst h2
        rw [look_dropWhile]
        by_cases h3 : j = i
        · simp [h3]
        · by_cases h4 : j < i
          · simp [look, h3, h4, show j ≤ i by omega]
          · simp [look, h3, h4, show ¬ j ≤ i by omega]
      · rename_i h1 h2
        simp only [look, ih]
        split
        · rename_i h3; subst h3; simp [Ne.symm h2]
        · split
          · rename_i h3 h4; simp [show ¬ j = i by omega]
          · rfl

@[simp] theorem rd_ins (t : Tab α) (d x : α) (i j : Nat) : (t.ins i x).rd d j = if j = i then x else t.rd d j := by
  simp only [rd, look_ins]; split <;> rfl

@[simp] theorem rd_wr [DecidableEq α] (t : Tab α) (d x : α) (i j : Nat) :
    (t.wr d i x).rd d j = if j = i then x else t.rd d j := by
  unfold wr
  split
  · rename_i h
    subst h
    simp only [rd, look_rem]
    split <;> rfl
  · simp

@[simp] theorem look_upd (t : Tab α) (i j : Nat) (f : α → α) :
    (t.upd i f).look j = if j = i then (t.look i).map f else t.look j := by
  unfold upd
  split
  · rename_i x h; simp [h]
  · rename_i h
    split
    · rename_i h2; subst h2; simp [h]
    · rfl

theorem upd_upd (t : Tab α) (i : Nat) (f g : α → α) : (t.upd i f).upd i g = t.upd i (fun x => g (f x)) := by
  cases h : t.look i with
  | none => simp [upd, h]
  | some x => simp [upd, h, ins_ins]

theorem upd_congr (t : Tab α) (i : Nat) (f g : α → α) (h : ∀ x, t.look i = some x → f x = g x) : t.upd i f = t.upd i g := by
  unfold upd
  split
  · rename_i x hx; rw [h x hx]
  · rfl

@[simp] theorem look_mapVals (t : Tab α) (f : α → α) (i : Nat) : (t.mapVals f).look i = (t.look i).map f := by
  induction t with
  | nil => rfl
  | cons e t ih =>
    obtain ⟨k, v⟩ := e
    have h : look (mapVals ((k, v) :: t) f) i = if i = k then some (f v) else if i < k then none else look (mapVals t f) i := rfl
    rw [h, ih]
    simp only [look]
    split
    · rfl
    · split <;> rfl

/-! ### The canonical form -/

/-- A key below every key of a table, none for the empty one. -/
theorem sorted_cons (k : Nat) (v : α) (t : Tab α) :
    sorted ((k, v) :: t) = true ↔ (∀ e ∈ t, k < e.1) ∧ sorted t = true := by
  induction t generalizing k v with
  | nil => simp [sorted]
  | cons e t ih =>
    obtain ⟨j, y⟩ := e
    simp only [sorted, Bool.and_eq_true, decide_eq_true_eq]
    constructor
    · rintro ⟨h1, h2⟩
      refine ⟨?_, h2⟩
      intro e he
      rcases List.mem_cons.mp he with rfl | he
      · exact h1
      · exact Nat.lt_trans h1 ((ih j y).mp h2 |>.1 e he)
    · rintro ⟨h1, h2⟩
      exact ⟨h1 (j, y) (List.mem_cons_self ..), h2⟩

theorem mem_ins {t : Tab α} {i : Nat} {x : α} {e : Nat × α} (h : e ∈ t.ins i x) : e = (i, x) ∨ e ∈ t := by
  induction t with
  | nil => simpa [ins] using h
  | cons d t ih =>
    obtain ⟨k, v⟩ := d
    unfold ins at h
    split at h
    · rcases List.mem_cons.mp h with h | h
      · exact Or.inl h
      · exact Or.inr h
    · split at h
      · rcases List.mem_cons.mp h with h | h
        · exact Or.inl h
        · exact Or.inr (List.mem_cons_of_mem _ h)
      · rcases List.mem_cons.mp h with h | h
        · exact Or.inr (h ▸ List.mem_cons_self ..)
        · rcases ih h with h | h
          · exact Or.inl h
          · exact Or.inr (List.mem_cons_of_mem _ h)

theorem sorted_ins {t : Tab α} (i : Nat) (x : α) (h : t.sorted = true) : (t.ins i x).sorted = true := by
  induction t with
  | nil => rfl
  | cons d t ih =>
    obtain ⟨k, v⟩ := d
    have hk := (sorted_cons k v t).mp h
    unfold ins
    split
    · rename_i h1
      refine (sorted_cons i x _).mpr ⟨?_, h⟩
      intro e he
      rcases List.mem_cons.mp he with rfl | he
      · exact h1
      · exact Nat.lt_trans h1 (hk.1 e he)
    · split
      · rename_i h1 h2
        subst h2
        exact (sorted_cons i x t).mpr hk
      · rename_i h1 h2
        refine (sorted_cons k v _).mpr ⟨?_, ih hk.2⟩
        intro e he
        rcases mem_ins he with rfl | he
        · show k < i; omega
        · exact hk.1 e he

theorem sorted_sublist {t u : Tab α} (hs : u.Sublist t) (h : t.sorted = true) : u.sorted = true := by
  induction hs with
  | slnil => rfl
  | cons e hs ih => exact ih ((sorted_cons e.1 e.2 _).mp h).2
  | cons_cons e hs ih =>
    have := (sorted_cons e.1 e.2 _).mp h
    exact (sorted_cons e.1 e.2 _).mpr ⟨fun d hd => this.1 d (hs.subset hd), ih this.2⟩

theorem rem_sublist (t : Tab α) (i : Nat) : (t.rem i).Sublist t := by
  induction t with
  | nil => exact List.Sublist.slnil
  | cons d t ih =>
    obtain ⟨k, v⟩ := d
    unfold rem
    split
    · exact List.Sublist.refl _
    · split
      · exact ((List.dropWhile_suffix _).sublist).cons _
      · exact ih.cons_cons _

theorem canon_iff [DecidableEq α] (d : α) (t : Tab α) : t.canon d = true ↔ t.sorted = true ∧ ∀ e ∈ t, e.2 ≠ d := by
  simp [canon]

theorem canon_sublist [DecidableEq α] {d : α} {t u : Tab α} (hs : u.Sublist t) (h : t.canon d = true) : u.canon d = true := by
  rw [canon_iff] at h ⊢
  exact ⟨sorted_sublist hs h.1, fun e he => h.2 e (hs.subset he)⟩

/-- Writing a value keeps the canonical form. -/
theorem canon_wr [DecidableEq α] {d : α} {t : Tab α} (i : Nat) (x : α) (h : t.canon d = true) : (t.wr d i x).canon d = true := by
  unfold wr
  split
  · exact canon_sublist (rem_sublist t i) h
  · rename_i hx
    rw [canon_iff] at h ⊢
    refine ⟨sorted_ins i x h.1, ?_⟩
    intro e he
    rcases mem_ins he with rfl | he
    · exact hx
    · exact h.2 e he

/-- Removing entries keeps the canonical form. -/
theorem canon_filter [DecidableEq α] {d : α} {t : Tab α} (f : Nat × α → Bool) (h : t.canon d = true) :
    Tab.canon d (t.filter f) = true := canon_sublist List.filter_sublist h

end Sys2Proof.Tab
end

