-- ==== Sys2Proof/Laws/Memory.lean ====
section
/-! SUPPORT. What the operations over byte memories do: reads after writes, canonical form, and what a write leaves alone. -/

namespace Sys2Proof.Machine

/-! ### Numbers and bytes -/

theorem bytesOf_length (x n : Nat) : (bytesOf x n).length = n := by
  induction n generalizing x with
  | zero => rfl
  | succ n ih => simp [bytesOf, ih]

theorem numOf_bytesOf (x n : Nat) : numOf (bytesOf x n) = x % 256 ^ n := by
  induction n generalizing x with
  | zero => simp [bytesOf, numOf, Nat.mod_one]
  | succ n ih =>
    simp only [bytesOf, numOf, ih, BitVec.toNat_ofNat]
    rw [show (2 : Nat) ^ 8 = 256 by decide, Nat.pow_succ, Nat.mul_comm (256 ^ n) 256, Nat.mod_mul]

theorem numOf_lt (l : List Byte) : numOf l < 256 ^ l.length := by
  induction l with
  | nil => simp [numOf]
  | cons b l ih =>
    simp only [numOf, List.length_cons, Nat.pow_succ]
    have := b.isLt
    omega

theorem pieces_one (n a : Nat) (hn : 0 < n) (h : a % 64 + n ≤ 64) : pieces (n / 64 + 2) 0 a n = [(0, n)] := by
  have h1 : n / 64 + 2 = (n / 64 + 1) + 1 := rfl
  rw [h1]
  simp only [pieces]
  rw [if_neg (by omega), show min n (64 - a % 64) = n by omega, Nat.sub_self]
  rfl

theorem piecesOf_one (a : Addr) (n : Nat) (hn : 0 < n) (h : a.toNat % 64 + n ≤ 64) : piecesOf a n = [(0, n)] := by
  unfold piecesOf
  obtain ⟨k, hk⟩ : ∃ k, n / 64 + 2 = k + 2 := ⟨_, rfl⟩
  rw [hk]
  have hm : min n (64 - a.toNat % 64) = n := by omega
  simp only [pieces, if_neg (show n ≠ 0 by omega), hm, Nat.sub_self, if_true]

/-! ### Reading and writing -/

theorem readMem_length (m : Mem) (a n : Nat) : (readMem m a n).length = n := by simp [readMem]

theorem rd_writeMem (m : Mem) (a : Nat) (bs : List Byte) (i : Nat) :
    (writeMem m a bs).rd 0 i = if a ≤ i ∧ i < a + bs.length then bs.getD (i - a) 0 else m.rd 0 i := by
  induction bs generalizing m a with
  | nil => rw [if_neg (by simp)]; rfl
  | cons b bs ih =>
    simp only [writeMem, ih, List.length_cons]
    by_cases h : i = a
    · subst h
      rw [if_neg (by omega), if_pos (by omega)]
      simp
    · by_cases h2 : a + 1 ≤ i ∧ i < a + 1 + bs.length
      · rw [if_pos h2, if_pos (by omega), show i - a = (i - (a + 1)) + 1 by omega]
        simp
      · rw [if_neg h2, if_neg (by omega)]
        simp [h]

theorem readMem_writeMem (m : Mem) (a : Nat) (bs : List Byte) : readMem (writeMem m a bs) a bs.length = bs := by
  apply List.ext_getElem
  · simp [readMem]
  · intro i h1 h2
    simp only [readMem, List.getElem_map, List.getElem_range, rd_writeMem]
    rw [if_pos (by omega)]
    simp [h2]

theorem readMem_congr (m m' : Mem) (a n : Nat) (h : ∀ i, a ≤ i → i < a + n → m.rd 0 i = m'.rd 0 i) :
    readMem m a n = readMem m' a n := by
  unfold readMem
  apply List.map_congr_left
  intro i hi
  exact h _ (by omega) (by have := List.mem_range.mp hi; omega)

/-! ### Tables with entries dropped or changed -/

theorem look_mem {α : Type} {t : Tab α} {i : Nat} {x : α} (h : t.look i = some x) : (i, x) ∈ t := by
  induction t with
  | nil => cases h
  | cons e t ih =>
    obtain ⟨k, v⟩ := e
    simp only [Tab.look] at h
    split at h
    · rename_i hk; cases h; subst hk; exact List.mem_cons_self ..
    · split at h
      · cases h
      · exact List.mem_cons_of_mem _ (ih h)

theorem look_map_keys {α β : Type} (t : Tab α) (f : Nat → α → β) (i : Nat) :
    Tab.look (List.map (fun (e : Nat × α) => (e.1, f e.1 e.2)) t : Tab β) i = (t.look i).map (f i) := by
  induction t with
  | nil => rfl
  | cons e t ih =>
    obtain ⟨k, v⟩ := e
    simp only [List.map_cons, Tab.look]
    split
    · rename_i h; subst h; rfl
    · split
      · rfl
      · exact ih

theorem look_none_of_sorted {α : Type} {k : Nat} {v : α} {t : Tab α} (h : Tab.sorted ((k, v) :: t) = true) {i : Nat} (hi : i ≤ k) :
    Tab.look t i = none := by
  induction t generalizing k v with
  | nil => rfl
  | cons e t ih =>
    obtain ⟨j, y⟩ := e
    simp only [Tab.sorted, Bool.and_eq_true, decide_eq_true_eq] at h
    simp only [Tab.look]
    rw [if_neg (by omega), if_pos (by omega)]

theorem look_filter_key {α : Type} (t : Tab α) (f : Nat → Bool) (i : Nat) (h : Tab.sorted t = true) :
    Tab.look (t.filter (fun e => f e.1)) i = if f i then t.look i else none := by
  induction t with
  | nil => simp [Tab.look]
  | cons e t ih =>
    obtain ⟨k, v⟩ := e
    have ht : Tab.sorted t = true := Tab.sorted_sublist (List.sublist_cons_self ..) h
    have ih := ih ht
    simp only [List.filter_cons]
    by_cases hk : f k = true
    · simp only [hk, if_true, Tab.look]
      split
      · rename_i h1; subst h1; simp [hk]
      · split
        · simp
        · exact ih
    · rw [if_neg hk, ih]
      split
      · rename_i h1
        simp only [Tab.look]
        rw [if_neg (fun (h2 : i = k) => hk (by rw [← h2]; exact h1))]
        split
        · rename_i h2; exact look_none_of_sorted h (by omega)
        · rfl
      · rfl

theorem look_filter_none {α : Type} (t : Tab α) (f : Nat → Bool) (i : Nat) (h : f i = false) :
    Tab.look (t.filter (fun e => f e.1)) i = none := by
  cases hl : Tab.look (t.filter (fun e => f e.1)) i with
  | none => rfl
  | some x =>
    have := look_mem hl
    simp only [List.mem_filter] at this
    rw [h] at this; simp at this

/-! ### Zeroed ranges -/

theorem rd_zeroRange (m : Mem) (lo n a : Nat) (h : m.sorted = true) :
    (zeroRange m lo n).rd 0 a = if lo ≤ a ∧ a < lo + n then 0 else m.rd 0 a := by
  unfold zeroRange Tab.rd
  rw [look_filter_key m (fun a => !(decide (lo ≤ a) && decide (a < lo + n))) a h]
  by_cases hh : lo ≤ a ∧ a < lo + n
  · simp [hh]
  · have : (!(decide (lo ≤ a) && decide (a < lo + n))) = true := by simp; omega
    rw [if_pos this, if_neg hh]

theorem rd_zeroRange_in (m : Mem) (lo n a : Nat) (h : lo ≤ a ∧ a < lo + n) : (zeroRange m lo n).rd 0 a = 0 := by
  unfold zeroRange Tab.rd
  rw [look_filter_none m (fun a => !(decide (lo ≤ a) && decide (a < lo + n))) a (by simp [h])]
  rfl

theorem sorted_of_canon {m : Mem} (h : Memory.wf m = true) : m.sorted = true := ((Tab.canon_iff _ _).mp h).1

theorem rd_zeroRange_zero (m : Mem) (lo n a : Nat) (h : m.sorted = true) (hz : m.rd 0 a = 0) : (zeroRange m lo n).rd 0 a = 0 := by
  rw [rd_zeroRange _ _ _ _ h]; split
  · rfl
  · exact hz

theorem sorted_zeroRange {m : Mem} {lo n : Nat} (h : m.sorted = true) : (zeroRange m lo n).sorted = true :=
  Tab.sorted_sublist (List.filter_sublist ..) h

/-! ### Writes through a translation -/

theorem mem_linesOf {a n l : Nat} (h : l ∈ linesOf a n) : a < 64 * l + 64 ∧ 64 * l < a + n := by
  unfold linesOf at h
  split at h
  · simp at h
  · simp only [List.mem_map, List.mem_range] at h
    obtain ⟨i, hi, rfl⟩ := h
    omega

theorem linesOf_mem {a n i : Nat} (h : i < n) : (a + i) / 64 ∈ linesOf a n := by
  unfold linesOf
  rw [if_neg (by omega)]
  simp only [List.mem_map, List.mem_range]
  exact ⟨(a + i) / 64 - a / 64, by omega, by omega⟩

/-- Where every line touched has the key already, nothing but the bytes written changes. -/
theorem rekeyed_of_keyed (s : State) (tag a n : Nat) (h : ∀ l ∈ linesOf a n, s.keyed tag l = true) : s.rekeyed tag a n = s.dram := by
  unfold State.rekeyed
  generalize linesOf a n = ls at h
  suffices ∀ m : Mem, ls.foldl (fun m l => if s.keyed tag l then m else writeMem m (64 * l) (s.keyedRead tag (64 * l) 64)) m = m from this _
  induction ls with
  | nil => intro m; rfl
  | cons l ls ih =>
    intro m
    simp only [List.foldl_cons, h l (List.mem_cons_self ..), if_true]
    exact ih (fun x hx => h x (List.mem_cons_of_mem _ hx)) m

theorem writeX_dram (s : State) (x : Xlat) (bs : List Byte) (c : Bool) (hs : x.space = .dram) (hr : x.repl = false) :
    (s.writeX x bs c).dram =
      writeMem (writeMem (s.rekeyed (s.keyTag x.key) x.pa bs.length) x.pa bs) x.leaf
      (bytesOf (BitVec.ofNat 64 (numOf (readMem (writeMem (s.rekeyed (s.keyTag x.key) x.pa bs.length) x.pa bs) x.leaf 8)) |||
        (1#64 <<< 52)).toNat 8) := by
  simp [State.writeX, State.markDirty, Xlat.writeAt, hr, hs, State.spaceWrite]

theorem readMem_writeX (s : State) (x : Xlat) (bs : List Byte) (c : Bool) (hs : x.space = .dram) (hr : x.repl = false)
    (hl : x.leaf + 8 ≤ x.pa ∨ x.pa + bs.length ≤ x.leaf) : readMem (s.writeX x bs c).dram x.pa bs.length = bs := by
  rw [writeX_dram s x bs c hs hr]
  rw [readMem_congr _ (writeMem (s.rekeyed (s.keyTag x.key) x.pa bs.length) x.pa bs)]
  · exact readMem_writeMem ..
  · intro i h1 h2
    rw [rd_writeMem, if_neg]
    rw [bytesOf_length]; omega

/-! ### Writes change memory and poison alone, and tell the host of posted writes -/

/-- What the writes of F1 and of the device change. -/
structure MemOnly (s s' : State) : Prop where
  rest : s' = { s with
    dram := s'.dram, vault := s'.vault, host := s'.host, lineKeys := s'.lineKeys, poison := s'.poison, vaultPoison := s'.vaultPoison,
    hostPoison := s'.hostPoison, toHost := s'.toHost }

theorem MemOnly.refl (s : State) : MemOnly s s := ⟨rfl⟩

theorem MemOnly.trans {a b c : State} (h : MemOnly a b) (h' : MemOnly b c) : MemOnly a c := by
  constructor
  have h1 := h'.rest
  rw [h.rest] at h1
  exact h1

theorem memOnly_spaceWrite (s : State) (k : Nat) (sp : Space) (a : Nat) (bs : List Byte) (c : Bool) :
    MemOnly s (s.spaceWrite k sp a bs c) := by
  cases sp <;> exact ⟨rfl⟩

theorem foldl_memOnly {α : Type} (f : State → α → State) (hf : ∀ s x, MemOnly s (f s x)) (l : List α) (s : State) :
    MemOnly s (l.foldl f s) := by
  induction l generalizing s with
  | nil => exact .refl s
  | cons x l ih => exact (hf s x).trans (ih _)

theorem memOnly_writeX (s : State) (x : Xlat) (bs : List Byte) (c : Bool) : MemOnly s (s.writeX x bs c) := by
  unfold State.writeX State.markDirty
  refine (foldl_memOnly _ (fun s a => memOnly_spaceWrite s x.key x.space a bs c) x.writeAt s).trans ⟨rfl⟩

/-- A write of the device's own to a translated place. -/
theorem memOnly_sendT (s : State) (x : Xlat) (bs : List Byte) (c r : Bool) : MemOnly s (s.sendT (.mem x) bs c r) := by
  unfold State.sendT
  dsimp only
  split
  · exact (memOnly_writeX s x bs c).trans ⟨rfl⟩
  · exact memOnly_writeX s x bs c

theorem foldlM_memOnly {α ε : Type} (f : State → α → Except ε State) (hf : ∀ s x s', f s x = .ok s' → MemOnly s s') (l : List α)
    (s s' : State) (h : l.foldlM f s = .ok s') : MemOnly s s' := by
  induction l generalizing s with
  | nil =>
    cases h
    exact .refl _
  | cons x l ih =>
    rw [List.foldlM_cons] at h
    cases e : f s x with
    | error _ => rw [e] at h; cases h
    | ok u => rw [e] at h; exact (hf s x u e).trans (ih u h)

/-- F1's writes, where no page is absent. -/
theorem memOnly_ioWrite {s s' : State} {q c : Nat} {a : Addr} {bs : List Byte} {r : Bool} (h : s.ioWrite q c a bs r = .ok s') : MemOnly s s' := by
  unfold State.ioWrite at h
  refine foldlM_memOnly _ ?_ _ s s' h
  rintro u ⟨off, k⟩ u' e
  dsimp only at e
  split at e
  · cases e
  · cases e; exact .refl u
  · cases e; exact memOnly_sendT ..

theorem MemOnly.launches {s s' : State} (h : MemOnly s s') : s'.launches = s.launches := by rw [h.rest]

theorem MemOnly.items {s s' : State} (h : MemOnly s s') : s'.items = s.items := by rw [h.rest]

theorem MemOnly.queues {s s' : State} (h : MemOnly s s') : s'.queues = s.queues := by rw [h.rest]

theorem MemOnly.nextId {s s' : State} (h : MemOnly s s') : s'.nextId = s.nextId := by rw [h.rest]

theorem MemOnly.blocks {s s' : State} (h : MemOnly s s') : s'.blocks = s.blocks := by rw [h.rest]

theorem memOnly_queue {s s' : State} (h : MemOnly s s') (q : Nat) : s'.queue q = s.queue q := by
  unfold State.queue; rw [h.queues]

theorem memOnly_port {s s' : State} (h : MemOnly s s') (p : Nat) : s'.port p = s.port p := by
  unfold State.port; rw [h.rest]

/-! ### The canonical form is kept -/

/-- Writing bytes keeps the canonical form. -/
theorem wf_writeMem {m : Mem} (a : Nat) (bs : List Byte) (h : Memory.wf m = true) : Memory.wf (writeMem m a bs) = true := by
  induction bs generalizing m a with
  | nil => exact h
  | cons b bs ih => exact ih (a + 1) (Tab.canon_wr a b h)

/-- Zeroing a range keeps the canonical form. -/
theorem wf_zeroRange {m : Mem} (lo n : Nat) (h : Memory.wf m = true) : Memory.wf (zeroRange m lo n) = true :=
  Tab.canon_filter _ h

/-- A change of key keeps the canonical form of DRAM. -/
theorem wf_rekeyed {s : State} (tag a n : Nat) (h : Memory.wf s.dram = true) : Memory.wf (s.rekeyed tag a n) = true := by
  unfold State.rekeyed
  generalize linesOf a n = ls
  suffices ∀ m : Mem, Memory.wf m = true → Memory.wf (ls.foldl
      (fun m l => if s.keyed tag l then m else writeMem m (64 * l) (s.keyedRead tag (64 * l) 64)) m) = true from this _ h
  induction ls with
  | nil => intro m hm; exact hm
  | cons l ls ih =>
    intro m hm
    apply ih
    dsimp only
    split
    · exact hm
    · exact wf_writeMem _ _ hm

/-- Writing a storage keeps every memory's canonical form. -/
theorem wf_spaceWrite {s : State} (k : Nat) (sp : Space) (a : Nat) (bs : List Byte) (c : Bool) (h : s.memoriesWf) :
    (s.spaceWrite k sp a bs c).memoriesWf := by
  obtain ⟨h1, h2, h3⟩ := h
  cases sp
  · exact ⟨wf_writeMem _ _ (wf_rekeyed _ _ _ h1), h2, h3⟩
  · exact ⟨h1, wf_writeMem _ _ h2, h3⟩
  · exact ⟨h1, h2, wf_writeMem _ _ h3⟩

theorem wf_foldl {α : Type} (f : State → α → State) (hf : ∀ s x, s.memoriesWf → (f s x).memoriesWf) (l : List α) {s : State}
    (h : s.memoriesWf) : (l.foldl f s).memoriesWf := by
  induction l generalizing s with
  | nil => exact h
  | cons x l ih => exact ih (hf s x h)

/-- Setting DIRTY keeps every memory's canonical form. -/
theorem wf_markDirty {s : State} (x : Xlat) (h : s.memoriesWf) : (s.markDirty x).memoriesWf :=
  ⟨wf_writeMem _ _ h.1, h.2.1, h.2.2⟩

/-- Writing through a translation keeps every memory's canonical form. -/
theorem wf_writeX {s : State} (x : Xlat) (bs : List Byte) (c : Bool) (h : s.memoriesWf) : (s.writeX x bs c).memoriesWf :=
  wf_markDirty x (wf_foldl _ (fun _ _ h => wf_spaceWrite _ _ _ _ _ h) _ h)

/-- Writing a target keeps every memory's canonical form. -/
theorem wf_writeT {s : State} (t : Target) (bs : List Byte) (c : Bool) (h : s.memoriesWf) : (s.writeT t bs c).memoriesWf := by
  cases t with
  | scratch k off => exact h
  | mem x => exact wf_writeX x bs c h

/-- Zeroing DRAM keeps every memory's canonical form. -/
theorem wf_zeroDram {s : State} (lo n : Nat) (h : s.memoriesWf) : (s.zeroDram lo n).memoriesWf :=
  ⟨wf_zeroRange _ _ h.1, h.2.1, h.2.2⟩

/-- Zeroing a vault segment keeps every memory's canonical form. -/
theorem wf_zeroSegment {s : State} (seg : Nat) (h : s.memoriesWf) : (s.zeroSegment seg).memoriesWf :=
  ⟨h.1, wf_zeroRange _ _ h.2.1, h.2.2⟩

/-- Scrubbing a partition keeps every memory's canonical form. -/
theorem wf_scrub {s : State} (p : PartInfo) (h : s.memoriesWf) : (s.scrub p).memoriesWf :=
  wf_foldl State.zeroSegment (fun _ _ h => wf_zeroSegment _ h) p.vaultUnits (wf_zeroDram p.dramBase (p.dramGiB * 2 ^ 30) h)

/-- All that a write of F0 or F3 into their own area does: nothing, or the bytes stand somewhere inside the partition's area. -/
theorem putOwn_cases (s : State) (part kind owner i : Nat) (bs : List Byte) :
    s.putOwn part kind owner i bs = s ∨ ∃ p off, s.parts.look part = some p ∧ off + bs.length ≤ p.info.ownBytes ∧
      s.putOwn part kind owner i bs = { s with dram := writeMem s.dram (p.info.ownBase + off) bs } := by
  unfold State.putOwn
  split
  · exact .inl rfl
  · next p hp =>
    by_cases h : p.info.ownBytes < bs.length
    · exact .inl (if_pos h)
    · have : Config.ownPlace kind owner i % (p.info.ownBytes - bs.length + 1) < p.info.ownBytes - bs.length + 1 :=
        Nat.mod_lt _ (Nat.zero_lt_succ _)
      exact .inr ⟨p, _, hp, by omega, if_neg h⟩

/-- A write of F0 or F3 into their own area keeps the canonical form. -/
theorem wf_putOwn {s : State} (part kind owner i : Nat) (bs : List Byte) (h : s.memoriesWf) :
    (s.putOwn part kind owner i bs).memoriesWf := by
  rcases putOwn_cases s part kind owner i bs with e | ⟨_, _, _, _, e⟩ <;> rw [e]
  · exact h
  · exact ⟨wf_writeMem _ _ h.1, h.2.1, h.2.2⟩

/-- What F0 and F3 have written into their own areas keeps the canonical form. -/
theorem wf_writeOwn {s : State} (h : s.memoriesWf) : s.writeOwn.memoriesWf := by
  have hp : ∀ (s : State) (b : Block) (g : Gate), s.memoriesWf → (s.putPools b g).memoriesWf := fun _ b _ hs =>
    wf_foldl _ (fun _ _ hs => wf_foldl _ (fun _ _ hs => wf_foldl _ (fun _ _ hs => wf_putOwn _ _ _ _ _ hs) _ hs) _ hs) _ hs
  refine wf_foldl _ (fun s e hs => ?_) _ (wf_foldl _ (fun s e hs => ?_) _ h)
  · obtain ⟨k, b⟩ := e
    dsimp only
    have hg : ∀ u : State, u.memoriesWf → (if b.run = .saved then u.putSaved k b else u).memoriesWf := fun u hu => by
      split
      · exact wf_putOwn _ _ _ _ _ hu
      · exact hu
    cases b.gate with
    | none => exact hg _ hs
    | some g => exact hg _ (hp _ _ _ hs)
  · obtain ⟨k, c⟩ := e
    dsimp only
    unfold State.putTable
    split
    · exact hs
    · exact wf_foldl _ (fun _ _ hs => wf_putOwn _ _ _ _ _ hs) _ hs

/-- The memories of the machine right after reset are in their canonical form. -/
theorem wf_reset_dram : Memory.wf State.reset.dram = true := rfl

end Sys2Proof.Machine
end

