-- ==== Sys2Proof/Laws/State.lean ====
section
/-! SUPPORT. What each named update of the state leaves alone: one lemma for each field and update. -/

namespace Sys2Proof.Machine

/-! ### `updBlk` -/

@[simp] theorem now_updBlk (s : State) (k : Nat) (f : Block → Block) : (s.updBlk k f).now = s.now := rfl
@[simp] theorem ready_updBlk (s : State) (k : Nat) (f : Block → Block) : (s.updBlk k f).ready = s.ready := rfl
@[simp] theorem manifest_updBlk (s : State) (k : Nat) (f : Block → Block) : (s.updBlk k f).manifest = s.manifest := rfl
@[simp] theorem agenda_updBlk (s : State) (k : Nat) (f : Block → Block) : (s.updBlk k f).agenda = s.agenda := rfl
@[simp] theorem cur_updBlk (s : State) (k : Nat) (f : Block → Block) : (s.updBlk k f).cur = s.cur := rfl
@[simp] theorem fresh_updBlk (s : State) (k : Nat) (f : Block → Block) : (s.updBlk k f).fresh = s.fresh := rfl
@[simp] theorem nextId_updBlk (s : State) (k : Nat) (f : Block → Block) : (s.updBlk k f).nextId = s.nextId := rfl
@[simp] theorem nextGen_updBlk (s : State) (k : Nat) (f : Block → Block) : (s.updBlk k f).nextGen = s.nextGen := rfl
@[simp] theorem dram_updBlk (s : State) (k : Nat) (f : Block → Block) : (s.updBlk k f).dram = s.dram := rfl
@[simp] theorem vault_updBlk (s : State) (k : Nat) (f : Block → Block) : (s.updBlk k f).vault = s.vault := rfl
@[simp] theorem host_updBlk (s : State) (k : Nat) (f : Block → Block) : (s.updBlk k f).host = s.host := rfl
@[simp] theorem lineKeys_updBlk (s : State) (k : Nat) (f : Block → Block) : (s.updBlk k f).lineKeys = s.lineKeys := rfl
@[simp] theorem poison_updBlk (s : State) (k : Nat) (f : Block → Block) : (s.updBlk k f).poison = s.poison := rfl
@[simp] theorem hostPoison_updBlk (s : State) (k : Nat) (f : Block → Block) : (s.updBlk k f).hostPoison = s.hostPoison := rfl
@[simp] theorem vaultPoison_updBlk (s : State) (k : Nat) (f : Block → Block) : (s.updBlk k f).vaultPoison = s.vaultPoison := rfl
@[simp] theorem tlb_updBlk (s : State) (k : Nat) (f : Block → Block) : (s.updBlk k f).tlb = s.tlb := rfl
@[simp] theorem invals_updBlk (s : State) (k : Nat) (f : Block → Block) : (s.updBlk k f).invals = s.invals := rfl
@[simp] theorem pri_updBlk (s : State) (k : Nat) (f : Block → Block) : (s.updBlk k f).pri = s.pri := rfl
@[simp] theorem refused_updBlk (s : State) (k : Nat) (f : Block → Block) : (s.updBlk k f).refused = s.refused := rfl
@[simp] theorem absent_updBlk (s : State) (k : Nat) (f : Block → Block) : (s.updBlk k f).absent = s.absent := rfl
@[simp] theorem engines_updBlk (s : State) (k : Nat) (f : Block → Block) : (s.updBlk k f).engines = s.engines := rfl
@[simp] theorem arbiters_updBlk (s : State) (k : Nat) (f : Block → Block) : (s.updBlk k f).arbiters = s.arbiters := rfl
@[simp] theorem gangs_updBlk (s : State) (k : Nat) (f : Block → Block) : (s.updBlk k f).gangs = s.gangs := rfl
@[simp] theorem slots_updBlk (s : State) (k : Nat) (f : Block → Block) : (s.updBlk k f).slots = s.slots := rfl
@[simp] theorem queues_updBlk (s : State) (k : Nat) (f : Block → Block) : (s.updBlk k f).queues = s.queues := rfl
@[simp] theorem launches_updBlk (s : State) (k : Nat) (f : Block → Block) : (s.updBlk k f).launches = s.launches := rfl
@[simp] theorem items_updBlk (s : State) (k : Nat) (f : Block → Block) : (s.updBlk k f).items = s.items := rfl
@[simp] theorem rrQueue_updBlk (s : State) (k : Nat) (f : Block → Block) : (s.updBlk k f).rrQueue = s.rrQueue := rfl
@[simp] theorem reservations_updBlk (s : State) (k : Nat) (f : Block → Block) : (s.updBlk k f).reservations = s.reservations := rfl
@[simp] theorem retiring_updBlk (s : State) (k : Nat) (f : Block → Block) : (s.updBlk k f).retiring = s.retiring := rfl
@[simp] theorem strays_updBlk (s : State) (k : Nat) (f : Block → Block) : (s.updBlk k f).strays = s.strays := rfl
@[simp] theorem exchanges_updBlk (s : State) (k : Nat) (f : Block → Block) : (s.updBlk k f).exchanges = s.exchanges := rfl
@[simp] theorem parts_updBlk (s : State) (k : Nat) (f : Block → Block) : (s.updBlk k f).parts = s.parts := rfl
@[simp] theorem tdis_updBlk (s : State) (k : Nat) (f : Block → Block) : (s.updBlk k f).tdis = s.tdis := rfl
@[simp] theorem fns_updBlk (s : State) (k : Nat) (f : Block → Block) : (s.updBlk k f).fns = s.fns := rfl
@[simp] theorem ctxs_updBlk (s : State) (k : Nat) (f : Block → Block) : (s.updBlk k f).ctxs = s.ctxs := rfl
@[simp] theorem keys_updBlk (s : State) (k : Nat) (f : Block → Block) : (s.updBlk k f).keys = s.keys := rfl
@[simp] theorem dies_updBlk (s : State) (k : Nat) (f : Block → Block) : (s.updBlk k f).dies = s.dies := rfl
@[simp] theorem ports_updBlk (s : State) (k : Nat) (f : Block → Block) : (s.updBlk k f).ports = s.ports := rfl
@[simp] theorem routes_updBlk (s : State) (k : Nat) (f : Block → Block) : (s.updBlk k f).routes = s.routes := rfl
@[simp] theorem conns_updBlk (s : State) (k : Nat) (f : Block → Block) : (s.updBlk k f).conns = s.conns := rfl
@[simp] theorem sends_updBlk (s : State) (k : Nat) (f : Block → Block) : (s.updBlk k f).sends = s.sends := rfl
@[simp] theorem errqs_updBlk (s : State) (k : Nat) (f : Block → Block) : (s.updBlk k f).errqs = s.errqs := rfl
@[simp] theorem plog_updBlk (s : State) (k : Nat) (f : Block → Block) : (s.updBlk k f).plog = s.plog := rfl
@[simp] theorem plogNext_updBlk (s : State) (k : Nat) (f : Block → Block) : (s.updBlk k f).plogNext = s.plogNext := rfl
@[simp] theorem plogWrap_updBlk (s : State) (k : Nat) (f : Block → Block) : (s.updBlk k f).plogWrap = s.plogWrap := rfl
@[simp] theorem f4buf_updBlk (s : State) (k : Nat) (f : Block → Block) : (s.updBlk k f).f4buf = s.f4buf := rfl
@[simp] theorem fw_updBlk (s : State) (k : Nat) (f : Block → Block) : (s.updBlk k f).fw = s.fw := rfl
@[simp] theorem mail_updBlk (s : State) (k : Nat) (f : Block → Block) : (s.updBlk k f).mail = s.mail := rfl
@[simp] theorem requests_updBlk (s : State) (k : Nat) (f : Block → Block) : (s.updBlk k f).requests = s.requests := rfl
@[simp] theorem tokens_updBlk (s : State) (k : Nat) (f : Block → Block) : (s.updBlk k f).tokens = s.tokens := rfl
@[simp] theorem watts_updBlk (s : State) (k : Nat) (f : Block → Block) : (s.updBlk k f).watts = s.watts := rfl
@[simp] theorem powerHold_updBlk (s : State) (k : Nat) (f : Block → Block) : (s.updBlk k f).powerHold = s.powerHold := rfl
@[simp] theorem lowSince_updBlk (s : State) (k : Nat) (f : Block → Block) : (s.updBlk k f).lowSince = s.lowSince := rfl
@[simp] theorem telemetrySeq_updBlk (s : State) (k : Nat) (f : Block → Block) : (s.updBlk k f).telemetrySeq = s.telemetrySeq := rfl
@[simp] theorem telemetryBody_updBlk (s : State) (k : Nat) (f : Block → Block) : (s.updBlk k f).telemetryBody = s.telemetryBody := rfl
@[simp] theorem telemetry_updBlk (s : State) (k : Nat) (f : Block → Block) : (s.updBlk k f).telemetry = s.telemetry := rfl
@[simp] theorem toHost_updBlk (s : State) (k : Nat) (f : Block → Block) : (s.updBlk k f).toHost = s.toHost := rfl

/-! ### `setEngine` -/

@[simp] theorem now_setEngine (s : State) (c e : Nat) (x : Engine) : (s.setEngine c e x).now = s.now := rfl
@[simp] theorem ready_setEngine (s : State) (c e : Nat) (x : Engine) : (s.setEngine c e x).ready = s.ready := rfl
@[simp] theorem manifest_setEngine (s : State) (c e : Nat) (x : Engine) : (s.setEngine c e x).manifest = s.manifest := rfl
@[simp] theorem agenda_setEngine (s : State) (c e : Nat) (x : Engine) : (s.setEngine c e x).agenda = s.agenda := rfl
@[simp] theorem cur_setEngine (s : State) (c e : Nat) (x : Engine) : (s.setEngine c e x).cur = s.cur := rfl
@[simp] theorem fresh_setEngine (s : State) (c e : Nat) (x : Engine) : (s.setEngine c e x).fresh = s.fresh := rfl
@[simp] theorem nextId_setEngine (s : State) (c e : Nat) (x : Engine) : (s.setEngine c e x).nextId = s.nextId := rfl
@[simp] theorem nextGen_setEngine (s : State) (c e : Nat) (x : Engine) : (s.setEngine c e x).nextGen = s.nextGen := rfl
@[simp] theorem dram_setEngine (s : State) (c e : Nat) (x : Engine) : (s.setEngine c e x).dram = s.dram := rfl
@[simp] theorem vault_setEngine (s : State) (c e : Nat) (x : Engine) : (s.setEngine c e x).vault = s.vault := rfl
@[simp] theorem host_setEngine (s : State) (c e : Nat) (x : Engine) : (s.setEngine c e x).host = s.host := rfl
@[simp] theorem lineKeys_setEngine (s : State) (c e : Nat) (x : Engine) : (s.setEngine c e x).lineKeys = s.lineKeys := rfl
@[simp] theorem poison_setEngine (s : State) (c e : Nat) (x : Engine) : (s.setEngine c e x).poison = s.poison := rfl
@[simp] theorem hostPoison_setEngine (s : State) (c e : Nat) (x : Engine) : (s.setEngine c e x).hostPoison = s.hostPoison := rfl
@[simp] theorem vaultPoison_setEngine (s : State) (c e : Nat) (x : Engine) : (s.setEngine c e x).vaultPoison = s.vaultPoison := rfl
@[simp] theorem tlb_setEngine (s : State) (c e : Nat) (x : Engine) : (s.setEngine c e x).tlb = s.tlb := rfl
@[simp] theorem invals_setEngine (s : State) (c e : Nat) (x : Engine) : (s.setEngine c e x).invals = s.invals := rfl
@[simp] theorem pri_setEngine (s : State) (c e : Nat) (x : Engine) : (s.setEngine c e x).pri = s.pri := rfl
@[simp] theorem refused_setEngine (s : State) (c e : Nat) (x : Engine) : (s.setEngine c e x).refused = s.refused := rfl
@[simp] theorem absent_setEngine (s : State) (c e : Nat) (x : Engine) : (s.setEngine c e x).absent = s.absent := rfl
@[simp] theorem blocks_setEngine (s : State) (c e : Nat) (x : Engine) : (s.setEngine c e x).blocks = s.blocks := rfl
@[simp] theorem arbiters_setEngine (s : State) (c e : Nat) (x : Engine) : (s.setEngine c e x).arbiters = s.arbiters := rfl
@[simp] theorem gangs_setEngine (s : State) (c e : Nat) (x : Engine) : (s.setEngine c e x).gangs = s.gangs := rfl
@[simp] theorem slots_setEngine (s : State) (c e : Nat) (x : Engine) : (s.setEngine c e x).slots = s.slots := rfl
@[simp] theorem queues_setEngine (s : State) (c e : Nat) (x : Engine) : (s.setEngine c e x).queues = s.queues := rfl
@[simp] theorem launches_setEngine (s : State) (c e : Nat) (x : Engine) : (s.setEngine c e x).launches = s.launches := rfl
@[simp] theorem items_setEngine (s : State) (c e : Nat) (x : Engine) : (s.setEngine c e x).items = s.items := rfl
@[simp] theorem rrQueue_setEngine (s : State) (c e : Nat) (x : Engine) : (s.setEngine c e x).rrQueue = s.rrQueue := rfl
@[simp] theorem reservations_setEngine (s : State) (c e : Nat) (x : Engine) : (s.setEngine c e x).reservations = s.reservations := rfl
@[simp] theorem retiring_setEngine (s : State) (c e : Nat) (x : Engine) : (s.setEngine c e x).retiring = s.retiring := rfl
@[simp] theorem strays_setEngine (s : State) (c e : Nat) (x : Engine) : (s.setEngine c e x).strays = s.strays := rfl
@[simp] theorem exchanges_setEngine (s : State) (c e : Nat) (x : Engine) : (s.setEngine c e x).exchanges = s.exchanges := rfl
@[simp] theorem parts_setEngine (s : State) (c e : Nat) (x : Engine) : (s.setEngine c e x).parts = s.parts := rfl
@[simp] theorem tdis_setEngine (s : State) (c e : Nat) (x : Engine) : (s.setEngine c e x).tdis = s.tdis := rfl
@[simp] theorem fns_setEngine (s : State) (c e : Nat) (x : Engine) : (s.setEngine c e x).fns = s.fns := rfl
@[simp] theorem ctxs_setEngine (s : State) (c e : Nat) (x : Engine) : (s.setEngine c e x).ctxs = s.ctxs := rfl
@[simp] theorem keys_setEngine (s : State) (c e : Nat) (x : Engine) : (s.setEngine c e x).keys = s.keys := rfl
@[simp] theorem dies_setEngine (s : State) (c e : Nat) (x : Engine) : (s.setEngine c e x).dies = s.dies := rfl
@[simp] theorem ports_setEngine (s : State) (c e : Nat) (x : Engine) : (s.setEngine c e x).ports = s.ports := rfl
@[simp] theorem routes_setEngine (s : State) (c e : Nat) (x : Engine) : (s.setEngine c e x).routes = s.routes := rfl
@[simp] theorem conns_setEngine (s : State) (c e : Nat) (x : Engine) : (s.setEngine c e x).conns = s.conns := rfl
@[simp] theorem sends_setEngine (s : State) (c e : Nat) (x : Engine) : (s.setEngine c e x).sends = s.sends := rfl
@[simp] theorem errqs_setEngine (s : State) (c e : Nat) (x : Engine) : (s.setEngine c e x).errqs = s.errqs := rfl
@[simp] theorem plog_setEngine (s : State) (c e : Nat) (x : Engine) : (s.setEngine c e x).plog = s.plog := rfl
@[simp] theorem plogNext_setEngine (s : State) (c e : Nat) (x : Engine) : (s.setEngine c e x).plogNext = s.plogNext := rfl
@[simp] theorem plogWrap_setEngine (s : State) (c e : Nat) (x : Engine) : (s.setEngine c e x).plogWrap = s.plogWrap := rfl
@[simp] theorem f4buf_setEngine (s : State) (c e : Nat) (x : Engine) : (s.setEngine c e x).f4buf = s.f4buf := rfl
@[simp] theorem fw_setEngine (s : State) (c e : Nat) (x : Engine) : (s.setEngine c e x).fw = s.fw := rfl
@[simp] theorem mail_setEngine (s : State) (c e : Nat) (x : Engine) : (s.setEngine c e x).mail = s.mail := rfl
@[simp] theorem requests_setEngine (s : State) (c e : Nat) (x : Engine) : (s.setEngine c e x).requests = s.requests := rfl
@[simp] theorem tokens_setEngine (s : State) (c e : Nat) (x : Engine) : (s.setEngine c e x).tokens = s.tokens := rfl
@[simp] theorem watts_setEngine (s : State) (c e : Nat) (x : Engine) : (s.setEngine c e x).watts = s.watts := rfl
@[simp] theorem powerHold_setEngine (s : State) (c e : Nat) (x : Engine) : (s.setEngine c e x).powerHold = s.powerHold := rfl
@[simp] theorem lowSince_setEngine (s : State) (c e : Nat) (x : Engine) : (s.setEngine c e x).lowSince = s.lowSince := rfl
@[simp] theorem telemetrySeq_setEngine (s : State) (c e : Nat) (x : Engine) : (s.setEngine c e x).telemetrySeq = s.telemetrySeq := rfl
@[simp] theorem telemetryBody_setEngine (s : State) (c e : Nat) (x : Engine) : (s.setEngine c e x).telemetryBody = s.telemetryBody := rfl
@[simp] theorem telemetry_setEngine (s : State) (c e : Nat) (x : Engine) : (s.setEngine c e x).telemetry = s.telemetry := rfl
@[simp] theorem toHost_setEngine (s : State) (c e : Nat) (x : Engine) : (s.setEngine c e x).toHost = s.toHost := rfl

/-! ### `updItem` -/

@[simp] theorem now_updItem (s : State) (k : Nat) (f : Item → Item) : (s.updItem k f).now = s.now := rfl
@[simp] theorem ready_updItem (s : State) (k : Nat) (f : Item → Item) : (s.updItem k f).ready = s.ready := rfl
@[simp] theorem manifest_updItem (s : State) (k : Nat) (f : Item → Item) : (s.updItem k f).manifest = s.manifest := rfl
@[simp] theorem agenda_updItem (s : State) (k : Nat) (f : Item → Item) : (s.updItem k f).agenda = s.agenda := rfl
@[simp] theorem cur_updItem (s : State) (k : Nat) (f : Item → Item) : (s.updItem k f).cur = s.cur := rfl
@[simp] theorem fresh_updItem (s : State) (k : Nat) (f : Item → Item) : (s.updItem k f).fresh = s.fresh := rfl
@[simp] theorem nextId_updItem (s : State) (k : Nat) (f : Item → Item) : (s.updItem k f).nextId = s.nextId := rfl
@[simp] theorem nextGen_updItem (s : State) (k : Nat) (f : Item → Item) : (s.updItem k f).nextGen = s.nextGen := rfl
@[simp] theorem dram_updItem (s : State) (k : Nat) (f : Item → Item) : (s.updItem k f).dram = s.dram := rfl
@[simp] theorem vault_updItem (s : State) (k : Nat) (f : Item → Item) : (s.updItem k f).vault = s.vault := rfl
@[simp] theorem host_updItem (s : State) (k : Nat) (f : Item → Item) : (s.updItem k f).host = s.host := rfl
@[simp] theorem lineKeys_updItem (s : State) (k : Nat) (f : Item → Item) : (s.updItem k f).lineKeys = s.lineKeys := rfl
@[simp] theorem poison_updItem (s : State) (k : Nat) (f : Item → Item) : (s.updItem k f).poison = s.poison := rfl
@[simp] theorem hostPoison_updItem (s : State) (k : Nat) (f : Item → Item) : (s.updItem k f).hostPoison = s.hostPoison := rfl
@[simp] theorem vaultPoison_updItem (s : State) (k : Nat) (f : Item → Item) : (s.updItem k f).vaultPoison = s.vaultPoison := rfl
@[simp] theorem tlb_updItem (s : State) (k : Nat) (f : Item → Item) : (s.updItem k f).tlb = s.tlb := rfl
@[simp] theorem invals_updItem (s : State) (k : Nat) (f : Item → Item) : (s.updItem k f).invals = s.invals := rfl
@[simp] theorem pri_updItem (s : State) (k : Nat) (f : Item → Item) : (s.updItem k f).pri = s.pri := rfl
@[simp] theorem refused_updItem (s : State) (k : Nat) (f : Item → Item) : (s.updItem k f).refused = s.refused := rfl
@[simp] theorem absent_updItem (s : State) (k : Nat) (f : Item → Item) : (s.updItem k f).absent = s.absent := rfl
@[simp] theorem blocks_updItem (s : State) (k : Nat) (f : Item → Item) : (s.updItem k f).blocks = s.blocks := rfl
@[simp] theorem engines_updItem (s : State) (k : Nat) (f : Item → Item) : (s.updItem k f).engines = s.engines := rfl
@[simp] theorem arbiters_updItem (s : State) (k : Nat) (f : Item → Item) : (s.updItem k f).arbiters = s.arbiters := rfl
@[simp] theorem gangs_updItem (s : State) (k : Nat) (f : Item → Item) : (s.updItem k f).gangs = s.gangs := rfl
@[simp] theorem slots_updItem (s : State) (k : Nat) (f : Item → Item) : (s.updItem k f).slots = s.slots := rfl
@[simp] theorem queues_updItem (s : State) (k : Nat) (f : Item → Item) : (s.updItem k f).queues = s.queues := rfl
@[simp] theorem launches_updItem (s : State) (k : Nat) (f : Item → Item) : (s.updItem k f).launches = s.launches := rfl
@[simp] theorem rrQueue_updItem (s : State) (k : Nat) (f : Item → Item) : (s.updItem k f).rrQueue = s.rrQueue := rfl
@[simp] theorem reservations_updItem (s : State) (k : Nat) (f : Item → Item) : (s.updItem k f).reservations = s.reservations := rfl
@[simp] theorem retiring_updItem (s : State) (k : Nat) (f : Item → Item) : (s.updItem k f).retiring = s.retiring := rfl
@[simp] theorem strays_updItem (s : State) (k : Nat) (f : Item → Item) : (s.updItem k f).strays = s.strays := rfl
@[simp] theorem exchanges_updItem (s : State) (k : Nat) (f : Item → Item) : (s.updItem k f).exchanges = s.exchanges := rfl
@[simp] theorem parts_updItem (s : State) (k : Nat) (f : Item → Item) : (s.updItem k f).parts = s.parts := rfl
@[simp] theorem tdis_updItem (s : State) (k : Nat) (f : Item → Item) : (s.updItem k f).tdis = s.tdis := rfl
@[simp] theorem fns_updItem (s : State) (k : Nat) (f : Item → Item) : (s.updItem k f).fns = s.fns := rfl
@[simp] theorem ctxs_updItem (s : State) (k : Nat) (f : Item → Item) : (s.updItem k f).ctxs = s.ctxs := rfl
@[simp] theorem keys_updItem (s : State) (k : Nat) (f : Item → Item) : (s.updItem k f).keys = s.keys := rfl
@[simp] theorem dies_updItem (s : State) (k : Nat) (f : Item → Item) : (s.updItem k f).dies = s.dies := rfl
@[simp] theorem ports_updItem (s : State) (k : Nat) (f : Item → Item) : (s.updItem k f).ports = s.ports := rfl
@[simp] theorem routes_updItem (s : State) (k : Nat) (f : Item → Item) : (s.updItem k f).routes = s.routes := rfl
@[simp] theorem conns_updItem (s : State) (k : Nat) (f : Item → Item) : (s.updItem k f).conns = s.conns := rfl
@[simp] theorem sends_updItem (s : State) (k : Nat) (f : Item → Item) : (s.updItem k f).sends = s.sends := rfl
@[simp] theorem errqs_updItem (s : State) (k : Nat) (f : Item → Item) : (s.updItem k f).errqs = s.errqs := rfl
@[simp] theorem plog_updItem (s : State) (k : Nat) (f : Item → Item) : (s.updItem k f).plog = s.plog := rfl
@[simp] theorem plogNext_updItem (s : State) (k : Nat) (f : Item → Item) : (s.updItem k f).plogNext = s.plogNext := rfl
@[simp] theorem plogWrap_updItem (s : State) (k : Nat) (f : Item → Item) : (s.updItem k f).plogWrap = s.plogWrap := rfl
@[simp] theorem f4buf_updItem (s : State) (k : Nat) (f : Item → Item) : (s.updItem k f).f4buf = s.f4buf := rfl
@[simp] theorem fw_updItem (s : State) (k : Nat) (f : Item → Item) : (s.updItem k f).fw = s.fw := rfl
@[simp] theorem mail_updItem (s : State) (k : Nat) (f : Item → Item) : (s.updItem k f).mail = s.mail := rfl
@[simp] theorem requests_updItem (s : State) (k : Nat) (f : Item → Item) : (s.updItem k f).requests = s.requests := rfl
@[simp] theorem tokens_updItem (s : State) (k : Nat) (f : Item → Item) : (s.updItem k f).tokens = s.tokens := rfl
@[simp] theorem watts_updItem (s : State) (k : Nat) (f : Item → Item) : (s.updItem k f).watts = s.watts := rfl
@[simp] theorem powerHold_updItem (s : State) (k : Nat) (f : Item → Item) : (s.updItem k f).powerHold = s.powerHold := rfl
@[simp] theorem lowSince_updItem (s : State) (k : Nat) (f : Item → Item) : (s.updItem k f).lowSince = s.lowSince := rfl
@[simp] theorem telemetrySeq_updItem (s : State) (k : Nat) (f : Item → Item) : (s.updItem k f).telemetrySeq = s.telemetrySeq := rfl
@[simp] theorem telemetryBody_updItem (s : State) (k : Nat) (f : Item → Item) : (s.updItem k f).telemetryBody = s.telemetryBody := rfl
@[simp] theorem telemetry_updItem (s : State) (k : Nat) (f : Item → Item) : (s.updItem k f).telemetry = s.telemetry := rfl
@[simp] theorem toHost_updItem (s : State) (k : Nat) (f : Item → Item) : (s.updItem k f).toHost = s.toHost := rfl

/-! ### `updLaunch` -/

@[simp] theorem now_updLaunch (s : State) (k : Nat) (f : Launch → Launch) : (s.updLaunch k f).now = s.now := rfl
@[simp] theorem ready_updLaunch (s : State) (k : Nat) (f : Launch → Launch) : (s.updLaunch k f).ready = s.ready := rfl
@[simp] theorem manifest_updLaunch (s : State) (k : Nat) (f : Launch → Launch) : (s.updLaunch k f).manifest = s.manifest := rfl
@[simp] theorem agenda_updLaunch (s : State) (k : Nat) (f : Launch → Launch) : (s.updLaunch k f).agenda = s.agenda := rfl
@[simp] theorem cur_updLaunch (s : State) (k : Nat) (f : Launch → Launch) : (s.updLaunch k f).cur = s.cur := rfl
@[simp] theorem fresh_updLaunch (s : State) (k : Nat) (f : Launch → Launch) : (s.updLaunch k f).fresh = s.fresh := rfl
@[simp] theorem nextId_updLaunch (s : State) (k : Nat) (f : Launch → Launch) : (s.updLaunch k f).nextId = s.nextId := rfl
@[simp] theorem nextGen_updLaunch (s : State) (k : Nat) (f : Launch → Launch) : (s.updLaunch k f).nextGen = s.nextGen := rfl
@[simp] theorem dram_updLaunch (s : State) (k : Nat) (f : Launch → Launch) : (s.updLaunch k f).dram = s.dram := rfl
@[simp] theorem vault_updLaunch (s : State) (k : Nat) (f : Launch → Launch) : (s.updLaunch k f).vault = s.vault := rfl
@[simp] theorem host_updLaunch (s : State) (k : Nat) (f : Launch → Launch) : (s.updLaunch k f).host = s.host := rfl
@[simp] theorem lineKeys_updLaunch (s : State) (k : Nat) (f : Launch → Launch) : (s.updLaunch k f).lineKeys = s.lineKeys := rfl
@[simp] theorem poison_updLaunch (s : State) (k : Nat) (f : Launch → Launch) : (s.updLaunch k f).poison = s.poison := rfl
@[simp] theorem hostPoison_updLaunch (s : State) (k : Nat) (f : Launch → Launch) : (s.updLaunch k f).hostPoison = s.hostPoison := rfl
@[simp] theorem vaultPoison_updLaunch (s : State) (k : Nat) (f : Launch → Launch) : (s.updLaunch k f).vaultPoison = s.vaultPoison := rfl
@[simp] theorem tlb_updLaunch (s : State) (k : Nat) (f : Launch → Launch) : (s.updLaunch k f).tlb = s.tlb := rfl
@[simp] theorem invals_updLaunch (s : State) (k : Nat) (f : Launch → Launch) : (s.updLaunch k f).invals = s.invals := rfl
@[simp] theorem pri_updLaunch (s : State) (k : Nat) (f : Launch → Launch) : (s.updLaunch k f).pri = s.pri := rfl
@[simp] theorem refused_updLaunch (s : State) (k : Nat) (f : Launch → Launch) : (s.updLaunch k f).refused = s.refused := rfl
@[simp] theorem absent_updLaunch (s : State) (k : Nat) (f : Launch → Launch) : (s.updLaunch k f).absent = s.absent := rfl
@[simp] theorem blocks_updLaunch (s : State) (k : Nat) (f : Launch → Launch) : (s.updLaunch k f).blocks = s.blocks := rfl
@[simp] theorem engines_updLaunch (s : State) (k : Nat) (f : Launch → Launch) : (s.updLaunch k f).engines = s.engines := rfl
@[simp] theorem arbiters_updLaunch (s : State) (k : Nat) (f : Launch → Launch) : (s.updLaunch k f).arbiters = s.arbiters := rfl
@[simp] theorem gangs_updLaunch (s : State) (k : Nat) (f : Launch → Launch) : (s.updLaunch k f).gangs = s.gangs := rfl
@[simp] theorem slots_updLaunch (s : State) (k : Nat) (f : Launch → Launch) : (s.updLaunch k f).slots = s.slots := rfl
@[simp] theorem queues_updLaunch (s : State) (k : Nat) (f : Launch → Launch) : (s.updLaunch k f).queues = s.queues := rfl
@[simp] theorem items_updLaunch (s : State) (k : Nat) (f : Launch → Launch) : (s.updLaunch k f).items = s.items := rfl
@[simp] theorem rrQueue_updLaunch (s : State) (k : Nat) (f : Launch → Launch) : (s.updLaunch k f).rrQueue = s.rrQueue := rfl
@[simp] theorem reservations_updLaunch (s : State) (k : Nat) (f : Launch → Launch) : (s.updLaunch k f).reservations = s.reservations := rfl
@[simp] theorem retiring_updLaunch (s : State) (k : Nat) (f : Launch → Launch) : (s.updLaunch k f).retiring = s.retiring := rfl
@[simp] theorem strays_updLaunch (s : State) (k : Nat) (f : Launch → Launch) : (s.updLaunch k f).strays = s.strays := rfl
@[simp] theorem exchanges_updLaunch (s : State) (k : Nat) (f : Launch → Launch) : (s.updLaunch k f).exchanges = s.exchanges := rfl
@[simp] theorem parts_updLaunch (s : State) (k : Nat) (f : Launch → Launch) : (s.updLaunch k f).parts = s.parts := rfl
@[simp] theorem tdis_updLaunch (s : State) (k : Nat) (f : Launch → Launch) : (s.updLaunch k f).tdis = s.tdis := rfl
@[simp] theorem fns_updLaunch (s : State) (k : Nat) (f : Launch → Launch) : (s.updLaunch k f).fns = s.fns := rfl
@[simp] theorem ctxs_updLaunch (s : State) (k : Nat) (f : Launch → Launch) : (s.updLaunch k f).ctxs = s.ctxs := rfl
@[simp] theorem keys_updLaunch (s : State) (k : Nat) (f : Launch → Launch) : (s.updLaunch k f).keys = s.keys := rfl
@[simp] theorem dies_updLaunch (s : State) (k : Nat) (f : Launch → Launch) : (s.updLaunch k f).dies = s.dies := rfl
@[simp] theorem ports_updLaunch (s : State) (k : Nat) (f : Launch → Launch) : (s.updLaunch k f).ports = s.ports := rfl
@[simp] theorem routes_updLaunch (s : State) (k : Nat) (f : Launch → Launch) : (s.updLaunch k f).routes = s.routes := rfl
@[simp] theorem conns_updLaunch (s : State) (k : Nat) (f : Launch → Launch) : (s.updLaunch k f).conns = s.conns := rfl
@[simp] theorem sends_updLaunch (s : State) (k : Nat) (f : Launch → Launch) : (s.updLaunch k f).sends = s.sends := rfl
@[simp] theorem errqs_updLaunch (s : State) (k : Nat) (f : Launch → Launch) : (s.updLaunch k f).errqs = s.errqs := rfl
@[simp] theorem plog_updLaunch (s : State) (k : Nat) (f : Launch → Launch) : (s.updLaunch k f).plog = s.plog := rfl
@[simp] theorem plogNext_updLaunch (s : State) (k : Nat) (f : Launch → Launch) : (s.updLaunch k f).plogNext = s.plogNext := rfl
@[simp] theorem plogWrap_updLaunch (s : State) (k : Nat) (f : Launch → Launch) : (s.updLaunch k f).plogWrap = s.plogWrap := rfl
@[simp] theorem f4buf_updLaunch (s : State) (k : Nat) (f : Launch → Launch) : (s.updLaunch k f).f4buf = s.f4buf := rfl
@[simp] theorem fw_updLaunch (s : State) (k : Nat) (f : Launch → Launch) : (s.updLaunch k f).fw = s.fw := rfl
@[simp] theorem mail_updLaunch (s : State) (k : Nat) (f : Launch → Launch) : (s.updLaunch k f).mail = s.mail := rfl
@[simp] theorem requests_updLaunch (s : State) (k : Nat) (f : Launch → Launch) : (s.updLaunch k f).requests = s.requests := rfl
@[simp] theorem tokens_updLaunch (s : State) (k : Nat) (f : Launch → Launch) : (s.updLaunch k f).tokens = s.tokens := rfl
@[simp] theorem watts_updLaunch (s : State) (k : Nat) (f : Launch → Launch) : (s.updLaunch k f).watts = s.watts := rfl
@[simp] theorem powerHold_updLaunch (s : State) (k : Nat) (f : Launch → Launch) : (s.updLaunch k f).powerHold = s.powerHold := rfl
@[simp] theorem lowSince_updLaunch (s : State) (k : Nat) (f : Launch → Launch) : (s.updLaunch k f).lowSince = s.lowSince := rfl
@[simp] theorem telemetrySeq_updLaunch (s : State) (k : Nat) (f : Launch → Launch) : (s.updLaunch k f).telemetrySeq = s.telemetrySeq := rfl
@[simp] theorem telemetryBody_updLaunch (s : State) (k : Nat) (f : Launch → Launch) : (s.updLaunch k f).telemetryBody = s.telemetryBody := rfl
@[simp] theorem telemetry_updLaunch (s : State) (k : Nat) (f : Launch → Launch) : (s.updLaunch k f).telemetry = s.telemetry := rfl
@[simp] theorem toHost_updLaunch (s : State) (k : Nat) (f : Launch → Launch) : (s.updLaunch k f).toHost = s.toHost := rfl

/-! ### `updQueue` -/

@[simp] theorem now_updQueue (s : State) (q : Nat) (f : LQueue → LQueue) : (s.updQueue q f).now = s.now := rfl
@[simp] theorem ready_updQueue (s : State) (q : Nat) (f : LQueue → LQueue) : (s.updQueue q f).ready = s.ready := rfl
@[simp] theorem manifest_updQueue (s : State) (q : Nat) (f : LQueue → LQueue) : (s.updQueue q f).manifest = s.manifest := rfl
@[simp] theorem agenda_updQueue (s : State) (q : Nat) (f : LQueue → LQueue) : (s.updQueue q f).agenda = s.agenda := rfl
@[simp] theorem cur_updQueue (s : State) (q : Nat) (f : LQueue → LQueue) : (s.updQueue q f).cur = s.cur := rfl
@[simp] theorem fresh_updQueue (s : State) (q : Nat) (f : LQueue → LQueue) : (s.updQueue q f).fresh = s.fresh := rfl
@[simp] theorem nextId_updQueue (s : State) (q : Nat) (f : LQueue → LQueue) : (s.updQueue q f).nextId = s.nextId := rfl
@[simp] theorem nextGen_updQueue (s : State) (q : Nat) (f : LQueue → LQueue) : (s.updQueue q f).nextGen = s.nextGen := rfl
@[simp] theorem dram_updQueue (s : State) (q : Nat) (f : LQueue → LQueue) : (s.updQueue q f).dram = s.dram := rfl
@[simp] theorem vault_updQueue (s : State) (q : Nat) (f : LQueue → LQueue) : (s.updQueue q f).vault = s.vault := rfl
@[simp] theorem host_updQueue (s : State) (q : Nat) (f : LQueue → LQueue) : (s.updQueue q f).host = s.host := rfl
@[simp] theorem lineKeys_updQueue (s : State) (q : Nat) (f : LQueue → LQueue) : (s.updQueue q f).lineKeys = s.lineKeys := rfl
@[simp] theorem poison_updQueue (s : State) (q : Nat) (f : LQueue → LQueue) : (s.updQueue q f).poison = s.poison := rfl
@[simp] theorem hostPoison_updQueue (s : State) (q : Nat) (f : LQueue → LQueue) : (s.updQueue q f).hostPoison = s.hostPoison := rfl
@[simp] theorem vaultPoison_updQueue (s : State) (q : Nat) (f : LQueue → LQueue) : (s.updQueue q f).vaultPoison = s.vaultPoison := rfl
@[simp] theorem tlb_updQueue (s : State) (q : Nat) (f : LQueue → LQueue) : (s.updQueue q f).tlb = s.tlb := rfl
@[simp] theorem invals_updQueue (s : State) (q : Nat) (f : LQueue → LQueue) : (s.updQueue q f).invals = s.invals := rfl
@[simp] theorem pri_updQueue (s : State) (q : Nat) (f : LQueue → LQueue) : (s.updQueue q f).pri = s.pri := rfl
@[simp] theorem refused_updQueue (s : State) (q : Nat) (f : LQueue → LQueue) : (s.updQueue q f).refused = s.refused := rfl
@[simp] theorem absent_updQueue (s : State) (q : Nat) (f : LQueue → LQueue) : (s.updQueue q f).absent = s.absent := rfl
@[simp] theorem blocks_updQueue (s : State) (q : Nat) (f : LQueue → LQueue) : (s.updQueue q f).blocks = s.blocks := rfl
@[simp] theorem engines_updQueue (s : State) (q : Nat) (f : LQueue → LQueue) : (s.updQueue q f).engines = s.engines := rfl
@[simp] theorem arbiters_updQueue (s : State) (q : Nat) (f : LQueue → LQueue) : (s.updQueue q f).arbiters = s.arbiters := rfl
@[simp] theorem gangs_updQueue (s : State) (q : Nat) (f : LQueue → LQueue) : (s.updQueue q f).gangs = s.gangs := rfl
@[simp] theorem slots_updQueue (s : State) (q : Nat) (f : LQueue → LQueue) : (s.updQueue q f).slots = s.slots := rfl
@[simp] theorem launches_updQueue (s : State) (q : Nat) (f : LQueue → LQueue) : (s.updQueue q f).launches = s.launches := rfl
@[simp] theorem items_updQueue (s : State) (q : Nat) (f : LQueue → LQueue) : (s.updQueue q f).items = s.items := rfl
@[simp] theorem rrQueue_updQueue (s : State) (q : Nat) (f : LQueue → LQueue) : (s.updQueue q f).rrQueue = s.rrQueue := rfl
@[simp] theorem reservations_updQueue (s : State) (q : Nat) (f : LQueue → LQueue) : (s.updQueue q f).reservations = s.reservations := rfl
@[simp] theorem retiring_updQueue (s : State) (q : Nat) (f : LQueue → LQueue) : (s.updQueue q f).retiring = s.retiring := rfl
@[simp] theorem strays_updQueue (s : State) (q : Nat) (f : LQueue → LQueue) : (s.updQueue q f).strays = s.strays := rfl
@[simp] theorem exchanges_updQueue (s : State) (q : Nat) (f : LQueue → LQueue) : (s.updQueue q f).exchanges = s.exchanges := rfl
@[simp] theorem parts_updQueue (s : State) (q : Nat) (f : LQueue → LQueue) : (s.updQueue q f).parts = s.parts := rfl
@[simp] theorem tdis_updQueue (s : State) (q : Nat) (f : LQueue → LQueue) : (s.updQueue q f).tdis = s.tdis := rfl
@[simp] theorem fns_updQueue (s : State) (q : Nat) (f : LQueue → LQueue) : (s.updQueue q f).fns = s.fns := rfl
@[simp] theorem ctxs_updQueue (s : State) (q : Nat) (f : LQueue → LQueue) : (s.updQueue q f).ctxs = s.ctxs := rfl
@[simp] theorem keys_updQueue (s : State) (q : Nat) (f : LQueue → LQueue) : (s.updQueue q f).keys = s.keys := rfl
@[simp] theorem dies_updQueue (s : State) (q : Nat) (f : LQueue → LQueue) : (s.updQueue q f).dies = s.dies := rfl
@[simp] theorem ports_updQueue (s : State) (q : Nat) (f : LQueue → LQueue) : (s.updQueue q f).ports = s.ports := rfl
@[simp] theorem routes_updQueue (s : State) (q : Nat) (f : LQueue → LQueue) : (s.updQueue q f).routes = s.routes := rfl
@[simp] theorem conns_updQueue (s : State) (q : Nat) (f : LQueue → LQueue) : (s.updQueue q f).conns = s.conns := rfl
@[simp] theorem sends_updQueue (s : State) (q : Nat) (f : LQueue → LQueue) : (s.updQueue q f).sends = s.sends := rfl
@[simp] theorem errqs_updQueue (s : State) (q : Nat) (f : LQueue → LQueue) : (s.updQueue q f).errqs = s.errqs := rfl
@[simp] theorem plog_updQueue (s : State) (q : Nat) (f : LQueue → LQueue) : (s.updQueue q f).plog = s.plog := rfl
@[simp] theorem plogNext_updQueue (s : State) (q : Nat) (f : LQueue → LQueue) : (s.updQueue q f).plogNext = s.plogNext := rfl
@[simp] theorem plogWrap_updQueue (s : State) (q : Nat) (f : LQueue → LQueue) : (s.updQueue q f).plogWrap = s.plogWrap := rfl
@[simp] theorem f4buf_updQueue (s : State) (q : Nat) (f : LQueue → LQueue) : (s.updQueue q f).f4buf = s.f4buf := rfl
@[simp] theorem fw_updQueue (s : State) (q : Nat) (f : LQueue → LQueue) : (s.updQueue q f).fw = s.fw := rfl
@[simp] theorem mail_updQueue (s : State) (q : Nat) (f : LQueue → LQueue) : (s.updQueue q f).mail = s.mail := rfl
@[simp] theorem requests_updQueue (s : State) (q : Nat) (f : LQueue → LQueue) : (s.updQueue q f).requests = s.requests := rfl
@[simp] theorem tokens_updQueue (s : State) (q : Nat) (f : LQueue → LQueue) : (s.updQueue q f).tokens = s.tokens := rfl
@[simp] theorem watts_updQueue (s : State) (q : Nat) (f : LQueue → LQueue) : (s.updQueue q f).watts = s.watts := rfl
@[simp] theorem powerHold_updQueue (s : State) (q : Nat) (f : LQueue → LQueue) : (s.updQueue q f).powerHold = s.powerHold := rfl
@[simp] theorem lowSince_updQueue (s : State) (q : Nat) (f : LQueue → LQueue) : (s.updQueue q f).lowSince = s.lowSince := rfl
@[simp] theorem telemetrySeq_updQueue (s : State) (q : Nat) (f : LQueue → LQueue) : (s.updQueue q f).telemetrySeq = s.telemetrySeq := rfl
@[simp] theorem telemetryBody_updQueue (s : State) (q : Nat) (f : LQueue → LQueue) : (s.updQueue q f).telemetryBody = s.telemetryBody := rfl
@[simp] theorem telemetry_updQueue (s : State) (q : Nat) (f : LQueue → LQueue) : (s.updQueue q f).telemetry = s.telemetry := rfl
@[simp] theorem toHost_updQueue (s : State) (q : Nat) (f : LQueue → LQueue) : (s.updQueue q f).toHost = s.toHost := rfl

/-! ### `updPart` -/

@[simp] theorem now_updPart (s : State) (k : Nat) (f : Partition → Partition) : (s.updPart k f).now = s.now := rfl
@[simp] theorem ready_updPart (s : State) (k : Nat) (f : Partition → Partition) : (s.updPart k f).ready = s.ready := rfl
@[simp] theorem manifest_updPart (s : State) (k : Nat) (f : Partition → Partition) : (s.updPart k f).manifest = s.manifest := rfl
@[simp] theorem agenda_updPart (s : State) (k : Nat) (f : Partition → Partition) : (s.updPart k f).agenda = s.agenda := rfl
@[simp] theorem cur_updPart (s : State) (k : Nat) (f : Partition → Partition) : (s.updPart k f).cur = s.cur := rfl
@[simp] theorem fresh_updPart (s : State) (k : Nat) (f : Partition → Partition) : (s.updPart k f).fresh = s.fresh := rfl
@[simp] theorem nextId_updPart (s : State) (k : Nat) (f : Partition → Partition) : (s.updPart k f).nextId = s.nextId := rfl
@[simp] theorem nextGen_updPart (s : State) (k : Nat) (f : Partition → Partition) : (s.updPart k f).nextGen = s.nextGen := rfl
@[simp] theorem dram_updPart (s : State) (k : Nat) (f : Partition → Partition) : (s.updPart k f).dram = s.dram := rfl
@[simp] theorem vault_updPart (s : State) (k : Nat) (f : Partition → Partition) : (s.updPart k f).vault = s.vault := rfl
@[simp] theorem host_updPart (s : State) (k : Nat) (f : Partition → Partition) : (s.updPart k f).host = s.host := rfl
@[simp] theorem lineKeys_updPart (s : State) (k : Nat) (f : Partition → Partition) : (s.updPart k f).lineKeys = s.lineKeys := rfl
@[simp] theorem poison_updPart (s : State) (k : Nat) (f : Partition → Partition) : (s.updPart k f).poison = s.poison := rfl
@[simp] theorem hostPoison_updPart (s : State) (k : Nat) (f : Partition → Partition) : (s.updPart k f).hostPoison = s.hostPoison := rfl
@[simp] theorem vaultPoison_updPart (s : State) (k : Nat) (f : Partition → Partition) : (s.updPart k f).vaultPoison = s.vaultPoison := rfl
@[simp] theorem tlb_updPart (s : State) (k : Nat) (f : Partition → Partition) : (s.updPart k f).tlb = s.tlb := rfl
@[simp] theorem invals_updPart (s : State) (k : Nat) (f : Partition → Partition) : (s.updPart k f).invals = s.invals := rfl
@[simp] theorem pri_updPart (s : State) (k : Nat) (f : Partition → Partition) : (s.updPart k f).pri = s.pri := rfl
@[simp] theorem refused_updPart (s : State) (k : Nat) (f : Partition → Partition) : (s.updPart k f).refused = s.refused := rfl
@[simp] theorem absent_updPart (s : State) (k : Nat) (f : Partition → Partition) : (s.updPart k f).absent = s.absent := rfl
@[simp] theorem blocks_updPart (s : State) (k : Nat) (f : Partition → Partition) : (s.updPart k f).blocks = s.blocks := rfl
@[simp] theorem engines_updPart (s : State) (k : Nat) (f : Partition → Partition) : (s.updPart k f).engines = s.engines := rfl
@[simp] theorem arbiters_updPart (s : State) (k : Nat) (f : Partition → Partition) : (s.updPart k f).arbiters = s.arbiters := rfl
@[simp] theorem gangs_updPart (s : State) (k : Nat) (f : Partition → Partition) : (s.updPart k f).gangs = s.gangs := rfl
@[simp] theorem slots_updPart (s : State) (k : Nat) (f : Partition → Partition) : (s.updPart k f).slots = s.slots := rfl
@[simp] theorem queues_updPart (s : State) (k : Nat) (f : Partition → Partition) : (s.updPart k f).queues = s.queues := rfl
@[simp] theorem launches_updPart (s : State) (k : Nat) (f : Partition → Partition) : (s.updPart k f).launches = s.launches := rfl
@[simp] theorem items_updPart (s : State) (k : Nat) (f : Partition → Partition) : (s.updPart k f).items = s.items := rfl
@[simp] theorem rrQueue_updPart (s : State) (k : Nat) (f : Partition → Partition) : (s.updPart k f).rrQueue = s.rrQueue := rfl
@[simp] theorem reservations_updPart (s : State) (k : Nat) (f : Partition → Partition) : (s.updPart k f).reservations = s.reservations := rfl
@[simp] theorem retiring_updPart (s : State) (k : Nat) (f : Partition → Partition) : (s.updPart k f).retiring = s.retiring := rfl
@[simp] theorem strays_updPart (s : State) (k : Nat) (f : Partition → Partition) : (s.updPart k f).strays = s.strays := rfl
@[simp] theorem exchanges_updPart (s : State) (k : Nat) (f : Partition → Partition) : (s.updPart k f).exchanges = s.exchanges := rfl
@[simp] theorem tdis_updPart (s : State) (k : Nat) (f : Partition → Partition) : (s.updPart k f).tdis = s.tdis := rfl
@[simp] theorem fns_updPart (s : State) (k : Nat) (f : Partition → Partition) : (s.updPart k f).fns = s.fns := rfl
@[simp] theorem ctxs_updPart (s : State) (k : Nat) (f : Partition → Partition) : (s.updPart k f).ctxs = s.ctxs := rfl
@[simp] theorem keys_updPart (s : State) (k : Nat) (f : Partition → Partition) : (s.updPart k f).keys = s.keys := rfl
@[simp] theorem dies_updPart (s : State) (k : Nat) (f : Partition → Partition) : (s.updPart k f).dies = s.dies := rfl
@[simp] theorem ports_updPart (s : State) (k : Nat) (f : Partition → Partition) : (s.updPart k f).ports = s.ports := rfl
@[simp] theorem routes_updPart (s : State) (k : Nat) (f : Partition → Partition) : (s.updPart k f).routes = s.routes := rfl
@[simp] theorem conns_updPart (s : State) (k : Nat) (f : Partition → Partition) : (s.updPart k f).conns = s.conns := rfl
@[simp] theorem sends_updPart (s : State) (k : Nat) (f : Partition → Partition) : (s.updPart k f).sends = s.sends := rfl
@[simp] theorem errqs_updPart (s : State) (k : Nat) (f : Partition → Partition) : (s.updPart k f).errqs = s.errqs := rfl
@[simp] theorem plog_updPart (s : State) (k : Nat) (f : Partition → Partition) : (s.updPart k f).plog = s.plog := rfl
@[simp] theorem plogNext_updPart (s : State) (k : Nat) (f : Partition → Partition) : (s.updPart k f).plogNext = s.plogNext := rfl
@[simp] theorem plogWrap_updPart (s : State) (k : Nat) (f : Partition → Partition) : (s.updPart k f).plogWrap = s.plogWrap := rfl
@[simp] theorem f4buf_updPart (s : State) (k : Nat) (f : Partition → Partition) : (s.updPart k f).f4buf = s.f4buf := rfl
@[simp] theorem fw_updPart (s : State) (k : Nat) (f : Partition → Partition) : (s.updPart k f).fw = s.fw := rfl
@[simp] theorem mail_updPart (s : State) (k : Nat) (f : Partition → Partition) : (s.updPart k f).mail = s.mail := rfl
@[simp] theorem requests_updPart (s : State) (k : Nat) (f : Partition → Partition) : (s.updPart k f).requests = s.requests := rfl
@[simp] theorem tokens_updPart (s : State) (k : Nat) (f : Partition → Partition) : (s.updPart k f).tokens = s.tokens := rfl
@[simp] theorem watts_updPart (s : State) (k : Nat) (f : Partition → Partition) : (s.updPart k f).watts = s.watts := rfl
@[simp] theorem powerHold_updPart (s : State) (k : Nat) (f : Partition → Partition) : (s.updPart k f).powerHold = s.powerHold := rfl
@[simp] theorem lowSince_updPart (s : State) (k : Nat) (f : Partition → Partition) : (s.updPart k f).lowSince = s.lowSince := rfl
@[simp] theorem telemetrySeq_updPart (s : State) (k : Nat) (f : Partition → Partition) : (s.updPart k f).telemetrySeq = s.telemetrySeq := rfl
@[simp] theorem telemetryBody_updPart (s : State) (k : Nat) (f : Partition → Partition) : (s.updPart k f).telemetryBody = s.telemetryBody := rfl
@[simp] theorem telemetry_updPart (s : State) (k : Nat) (f : Partition → Partition) : (s.updPart k f).telemetry = s.telemetry := rfl
@[simp] theorem toHost_updPart (s : State) (k : Nat) (f : Partition → Partition) : (s.updPart k f).toHost = s.toHost := rfl

/-! ### `setPort` -/

@[simp] theorem now_setPort (s : State) (p : Nat) (x : Port) : (s.setPort p x).now = s.now := rfl
@[simp] theorem ready_setPort (s : State) (p : Nat) (x : Port) : (s.setPort p x).ready = s.ready := rfl
@[simp] theorem manifest_setPort (s : State) (p : Nat) (x : Port) : (s.setPort p x).manifest = s.manifest := rfl
@[simp] theorem agenda_setPort (s : State) (p : Nat) (x : Port) : (s.setPort p x).agenda = s.agenda := rfl
@[simp] theorem cur_setPort (s : State) (p : Nat) (x : Port) : (s.setPort p x).cur = s.cur := rfl
@[simp] theorem fresh_setPort (s : State) (p : Nat) (x : Port) : (s.setPort p x).fresh = s.fresh := rfl
@[simp] theorem nextId_setPort (s : State) (p : Nat) (x : Port) : (s.setPort p x).nextId = s.nextId := rfl
@[simp] theorem nextGen_setPort (s : State) (p : Nat) (x : Port) : (s.setPort p x).nextGen = s.nextGen := rfl
@[simp] theorem dram_setPort (s : State) (p : Nat) (x : Port) : (s.setPort p x).dram = s.dram := rfl
@[simp] theorem vault_setPort (s : State) (p : Nat) (x : Port) : (s.setPort p x).vault = s.vault := rfl
@[simp] theorem host_setPort (s : State) (p : Nat) (x : Port) : (s.setPort p x).host = s.host := rfl
@[simp] theorem lineKeys_setPort (s : State) (p : Nat) (x : Port) : (s.setPort p x).lineKeys = s.lineKeys := rfl
@[simp] theorem poison_setPort (s : State) (p : Nat) (x : Port) : (s.setPort p x).poison = s.poison := rfl
@[simp] theorem hostPoison_setPort (s : State) (p : Nat) (x : Port) : (s.setPort p x).hostPoison = s.hostPoison := rfl
@[simp] theorem vaultPoison_setPort (s : State) (p : Nat) (x : Port) : (s.setPort p x).vaultPoison = s.vaultPoison := rfl
@[simp] theorem tlb_setPort (s : State) (p : Nat) (x : Port) : (s.setPort p x).tlb = s.tlb := rfl
@[simp] theorem invals_setPort (s : State) (p : Nat) (x : Port) : (s.setPort p x).invals = s.invals := rfl
@[simp] theorem pri_setPort (s : State) (p : Nat) (x : Port) : (s.setPort p x).pri = s.pri := rfl
@[simp] theorem refused_setPort (s : State) (p : Nat) (x : Port) : (s.setPort p x).refused = s.refused := rfl
@[simp] theorem absent_setPort (s : State) (p : Nat) (x : Port) : (s.setPort p x).absent = s.absent := rfl
@[simp] theorem blocks_setPort (s : State) (p : Nat) (x : Port) : (s.setPort p x).blocks = s.blocks := rfl
@[simp] theorem engines_setPort (s : State) (p : Nat) (x : Port) : (s.setPort p x).engines = s.engines := rfl
@[simp] theorem arbiters_setPort (s : State) (p : Nat) (x : Port) : (s.setPort p x).arbiters = s.arbiters := rfl
@[simp] theorem gangs_setPort (s : State) (p : Nat) (x : Port) : (s.setPort p x).gangs = s.gangs := rfl
@[simp] theorem slots_setPort (s : State) (p : Nat) (x : Port) : (s.setPort p x).slots = s.slots := rfl
@[simp] theorem queues_setPort (s : State) (p : Nat) (x : Port) : (s.setPort p x).queues = s.queues := rfl
@[simp] theorem launches_setPort (s : State) (p : Nat) (x : Port) : (s.setPort p x).launches = s.launches := rfl
@[simp] theorem items_setPort (s : State) (p : Nat) (x : Port) : (s.setPort p x).items = s.items := rfl
@[simp] theorem rrQueue_setPort (s : State) (p : Nat) (x : Port) : (s.setPort p x).rrQueue = s.rrQueue := rfl
@[simp] theorem reservations_setPort (s : State) (p : Nat) (x : Port) : (s.setPort p x).reservations = s.reservations := rfl
@[simp] theorem retiring_setPort (s : State) (p : Nat) (x : Port) : (s.setPort p x).retiring = s.retiring := rfl
@[simp] theorem strays_setPort (s : State) (p : Nat) (x : Port) : (s.setPort p x).strays = s.strays := rfl
@[simp] theorem exchanges_setPort (s : State) (p : Nat) (x : Port) : (s.setPort p x).exchanges = s.exchanges := rfl
@[simp] theorem parts_setPort (s : State) (p : Nat) (x : Port) : (s.setPort p x).parts = s.parts := rfl
@[simp] theorem tdis_setPort (s : State) (p : Nat) (x : Port) : (s.setPort p x).tdis = s.tdis := rfl
@[simp] theorem fns_setPort (s : State) (p : Nat) (x : Port) : (s.setPort p x).fns = s.fns := rfl
@[simp] theorem ctxs_setPort (s : State) (p : Nat) (x : Port) : (s.setPort p x).ctxs = s.ctxs := rfl
@[simp] theorem keys_setPort (s : State) (p : Nat) (x : Port) : (s.setPort p x).keys = s.keys := rfl
@[simp] theorem dies_setPort (s : State) (p : Nat) (x : Port) : (s.setPort p x).dies = s.dies := rfl
@[simp] theorem routes_setPort (s : State) (p : Nat) (x : Port) : (s.setPort p x).routes = s.routes := rfl
@[simp] theorem conns_setPort (s : State) (p : Nat) (x : Port) : (s.setPort p x).conns = s.conns := rfl
@[simp] theorem sends_setPort (s : State) (p : Nat) (x : Port) : (s.setPort p x).sends = s.sends := rfl
@[simp] theorem errqs_setPort (s : State) (p : Nat) (x : Port) : (s.setPort p x).errqs = s.errqs := rfl
@[simp] theorem plog_setPort (s : State) (p : Nat) (x : Port) : (s.setPort p x).plog = s.plog := rfl
@[simp] theorem plogNext_setPort (s : State) (p : Nat) (x : Port) : (s.setPort p x).plogNext = s.plogNext := rfl
@[simp] theorem plogWrap_setPort (s : State) (p : Nat) (x : Port) : (s.setPort p x).plogWrap = s.plogWrap := rfl
@[simp] theorem f4buf_setPort (s : State) (p : Nat) (x : Port) : (s.setPort p x).f4buf = s.f4buf := rfl
@[simp] theorem fw_setPort (s : State) (p : Nat) (x : Port) : (s.setPort p x).fw = s.fw := rfl
@[simp] theorem mail_setPort (s : State) (p : Nat) (x : Port) : (s.setPort p x).mail = s.mail := rfl
@[simp] theorem requests_setPort (s : State) (p : Nat) (x : Port) : (s.setPort p x).requests = s.requests := rfl
@[simp] theorem tokens_setPort (s : State) (p : Nat) (x : Port) : (s.setPort p x).tokens = s.tokens := rfl
@[simp] theorem watts_setPort (s : State) (p : Nat) (x : Port) : (s.setPort p x).watts = s.watts := rfl
@[simp] theorem powerHold_setPort (s : State) (p : Nat) (x : Port) : (s.setPort p x).powerHold = s.powerHold := rfl
@[simp] theorem lowSince_setPort (s : State) (p : Nat) (x : Port) : (s.setPort p x).lowSince = s.lowSince := rfl
@[simp] theorem telemetrySeq_setPort (s : State) (p : Nat) (x : Port) : (s.setPort p x).telemetrySeq = s.telemetrySeq := rfl
@[simp] theorem telemetryBody_setPort (s : State) (p : Nat) (x : Port) : (s.setPort p x).telemetryBody = s.telemetryBody := rfl
@[simp] theorem telemetry_setPort (s : State) (p : Nat) (x : Port) : (s.setPort p x).telemetry = s.telemetry := rfl
@[simp] theorem toHost_setPort (s : State) (p : Nat) (x : Port) : (s.setPort p x).toHost = s.toHost := rfl

/-! ### `tell` -/

@[simp] theorem now_tell (s : State) (m : HostMsg) : (s.tell m).now = s.now := rfl
@[simp] theorem ready_tell (s : State) (m : HostMsg) : (s.tell m).ready = s.ready := rfl
@[simp] theorem manifest_tell (s : State) (m : HostMsg) : (s.tell m).manifest = s.manifest := rfl
@[simp] theorem agenda_tell (s : State) (m : HostMsg) : (s.tell m).agenda = s.agenda := rfl
@[simp] theorem cur_tell (s : State) (m : HostMsg) : (s.tell m).cur = s.cur := rfl
@[simp] theorem fresh_tell (s : State) (m : HostMsg) : (s.tell m).fresh = s.fresh := rfl
@[simp] theorem nextId_tell (s : State) (m : HostMsg) : (s.tell m).nextId = s.nextId := rfl
@[simp] theorem nextGen_tell (s : State) (m : HostMsg) : (s.tell m).nextGen = s.nextGen := rfl
@[simp] theorem dram_tell (s : State) (m : HostMsg) : (s.tell m).dram = s.dram := rfl
@[simp] theorem vault_tell (s : State) (m : HostMsg) : (s.tell m).vault = s.vault := rfl
@[simp] theorem host_tell (s : State) (m : HostMsg) : (s.tell m).host = s.host := rfl
@[simp] theorem lineKeys_tell (s : State) (m : HostMsg) : (s.tell m).lineKeys = s.lineKeys := rfl
@[simp] theorem poison_tell (s : State) (m : HostMsg) : (s.tell m).poison = s.poison := rfl
@[simp] theorem hostPoison_tell (s : State) (m : HostMsg) : (s.tell m).hostPoison = s.hostPoison := rfl
@[simp] theorem vaultPoison_tell (s : State) (m : HostMsg) : (s.tell m).vaultPoison = s.vaultPoison := rfl
@[simp] theorem tlb_tell (s : State) (m : HostMsg) : (s.tell m).tlb = s.tlb := rfl
@[simp] theorem invals_tell (s : State) (m : HostMsg) : (s.tell m).invals = s.invals := rfl
@[simp] theorem pri_tell (s : State) (m : HostMsg) : (s.tell m).pri = s.pri := rfl
@[simp] theorem refused_tell (s : State) (m : HostMsg) : (s.tell m).refused = s.refused := rfl
@[simp] theorem absent_tell (s : State) (m : HostMsg) : (s.tell m).absent = s.absent := rfl
@[simp] theorem blocks_tell (s : State) (m : HostMsg) : (s.tell m).blocks = s.blocks := rfl
@[simp] theorem engines_tell (s : State) (m : HostMsg) : (s.tell m).engines = s.engines := rfl
@[simp] theorem arbiters_tell (s : State) (m : HostMsg) : (s.tell m).arbiters = s.arbiters := rfl
@[simp] theorem gangs_tell (s : State) (m : HostMsg) : (s.tell m).gangs = s.gangs := rfl
@[simp] theorem slots_tell (s : State) (m : HostMsg) : (s.tell m).slots = s.slots := rfl
@[simp] theorem queues_tell (s : State) (m : HostMsg) : (s.tell m).queues = s.queues := rfl
@[simp] theorem launches_tell (s : State) (m : HostMsg) : (s.tell m).launches = s.launches := rfl
@[simp] theorem items_tell (s : State) (m : HostMsg) : (s.tell m).items = s.items := rfl
@[simp] theorem rrQueue_tell (s : State) (m : HostMsg) : (s.tell m).rrQueue = s.rrQueue := rfl
@[simp] theorem reservations_tell (s : State) (m : HostMsg) : (s.tell m).reservations = s.reservations := rfl
@[simp] theorem retiring_tell (s : State) (m : HostMsg) : (s.tell m).retiring = s.retiring := rfl
@[simp] theorem strays_tell (s : State) (m : HostMsg) : (s.tell m).strays = s.strays := rfl
@[simp] theorem exchanges_tell (s : State) (m : HostMsg) : (s.tell m).exchanges = s.exchanges := rfl
@[simp] theorem parts_tell (s : State) (m : HostMsg) : (s.tell m).parts = s.parts := rfl
@[simp] theorem tdis_tell (s : State) (m : HostMsg) : (s.tell m).tdis = s.tdis := rfl
@[simp] theorem fns_tell (s : State) (m : HostMsg) : (s.tell m).fns = s.fns := rfl
@[simp] theorem ctxs_tell (s : State) (m : HostMsg) : (s.tell m).ctxs = s.ctxs := rfl
@[simp] theorem keys_tell (s : State) (m : HostMsg) : (s.tell m).keys = s.keys := rfl
@[simp] theorem dies_tell (s : State) (m : HostMsg) : (s.tell m).dies = s.dies := rfl
@[simp] theorem ports_tell (s : State) (m : HostMsg) : (s.tell m).ports = s.ports := rfl
@[simp] theorem routes_tell (s : State) (m : HostMsg) : (s.tell m).routes = s.routes := rfl
@[simp] theorem conns_tell (s : State) (m : HostMsg) : (s.tell m).conns = s.conns := rfl
@[simp] theorem sends_tell (s : State) (m : HostMsg) : (s.tell m).sends = s.sends := rfl
@[simp] theorem errqs_tell (s : State) (m : HostMsg) : (s.tell m).errqs = s.errqs := rfl
@[simp] theorem plog_tell (s : State) (m : HostMsg) : (s.tell m).plog = s.plog := rfl
@[simp] theorem plogNext_tell (s : State) (m : HostMsg) : (s.tell m).plogNext = s.plogNext := rfl
@[simp] theorem plogWrap_tell (s : State) (m : HostMsg) : (s.tell m).plogWrap = s.plogWrap := rfl
@[simp] theorem f4buf_tell (s : State) (m : HostMsg) : (s.tell m).f4buf = s.f4buf := rfl
@[simp] theorem fw_tell (s : State) (m : HostMsg) : (s.tell m).fw = s.fw := rfl
@[simp] theorem mail_tell (s : State) (m : HostMsg) : (s.tell m).mail = s.mail := rfl
@[simp] theorem requests_tell (s : State) (m : HostMsg) : (s.tell m).requests = s.requests := rfl
@[simp] theorem tokens_tell (s : State) (m : HostMsg) : (s.tell m).tokens = s.tokens := rfl
@[simp] theorem watts_tell (s : State) (m : HostMsg) : (s.tell m).watts = s.watts := rfl
@[simp] theorem powerHold_tell (s : State) (m : HostMsg) : (s.tell m).powerHold = s.powerHold := rfl
@[simp] theorem lowSince_tell (s : State) (m : HostMsg) : (s.tell m).lowSince = s.lowSince := rfl
@[simp] theorem telemetrySeq_tell (s : State) (m : HostMsg) : (s.tell m).telemetrySeq = s.telemetrySeq := rfl
@[simp] theorem telemetryBody_tell (s : State) (m : HostMsg) : (s.tell m).telemetryBody = s.telemetryBody := rfl
@[simp] theorem telemetry_tell (s : State) (m : HostMsg) : (s.tell m).telemetry = s.telemetry := rfl

/-! ### `updThr` -/

@[simp] theorem now_updThr (s : State) (r : Thr) (f : Thread → Thread) : (s.updThr r f).now = s.now := by
  unfold State.updThr; split <;> rfl
@[simp] theorem ready_updThr (s : State) (r : Thr) (f : Thread → Thread) : (s.updThr r f).ready = s.ready := by
  unfold State.updThr; split <;> rfl
@[simp] theorem manifest_updThr (s : State) (r : Thr) (f : Thread → Thread) : (s.updThr r f).manifest = s.manifest := by
  unfold State.updThr; split <;> rfl
@[simp] theorem agenda_updThr (s : State) (r : Thr) (f : Thread → Thread) : (s.updThr r f).agenda = s.agenda := by
  unfold State.updThr; split <;> rfl
@[simp] theorem cur_updThr (s : State) (r : Thr) (f : Thread → Thread) : (s.updThr r f).cur = s.cur := by
  unfold State.updThr; split <;> rfl
@[simp] theorem fresh_updThr (s : State) (r : Thr) (f : Thread → Thread) : (s.updThr r f).fresh = s.fresh := by
  unfold State.updThr; split <;> rfl
@[simp] theorem nextId_updThr (s : State) (r : Thr) (f : Thread → Thread) : (s.updThr r f).nextId = s.nextId := by
  unfold State.updThr; split <;> rfl
@[simp] theorem nextGen_updThr (s : State) (r : Thr) (f : Thread → Thread) : (s.updThr r f).nextGen = s.nextGen := by
  unfold State.updThr; split <;> rfl
@[simp] theorem dram_updThr (s : State) (r : Thr) (f : Thread → Thread) : (s.updThr r f).dram = s.dram := by
  unfold State.updThr; split <;> rfl
@[simp] theorem vault_updThr (s : State) (r : Thr) (f : Thread → Thread) : (s.updThr r f).vault = s.vault := by
  unfold State.updThr; split <;> rfl
@[simp] theorem host_updThr (s : State) (r : Thr) (f : Thread → Thread) : (s.updThr r f).host = s.host := by
  unfold State.updThr; split <;> rfl
@[simp] theorem lineKeys_updThr (s : State) (r : Thr) (f : Thread → Thread) : (s.updThr r f).lineKeys = s.lineKeys := by
  unfold State.updThr; split <;> rfl
@[simp] theorem poison_updThr (s : State) (r : Thr) (f : Thread → Thread) : (s.updThr r f).poison = s.poison := by
  unfold State.updThr; split <;> rfl
@[simp] theorem hostPoison_updThr (s : State) (r : Thr) (f : Thread → Thread) : (s.updThr r f).hostPoison = s.hostPoison := by
  unfold State.updThr; split <;> rfl
@[simp] theorem vaultPoison_updThr (s : State) (r : Thr) (f : Thread → Thread) : (s.updThr r f).vaultPoison = s.vaultPoison := by
  unfold State.updThr; split <;> rfl
@[simp] theorem tlb_updThr (s : State) (r : Thr) (f : Thread → Thread) : (s.updThr r f).tlb = s.tlb := by
  unfold State.updThr; split <;> rfl
@[simp] theorem invals_updThr (s : State) (r : Thr) (f : Thread → Thread) : (s.updThr r f).invals = s.invals := by
  unfold State.updThr; split <;> rfl
@[simp] theorem pri_updThr (s : State) (r : Thr) (f : Thread → Thread) : (s.updThr r f).pri = s.pri := by
  unfold State.updThr; split <;> rfl
@[simp] theorem refused_updThr (s : State) (r : Thr) (f : Thread → Thread) : (s.updThr r f).refused = s.refused := by
  unfold State.updThr; split <;> rfl
@[simp] theorem absent_updThr (s : State) (r : Thr) (f : Thread → Thread) : (s.updThr r f).absent = s.absent := by
  unfold State.updThr; split <;> rfl
@[simp] theorem engines_updThr (s : State) (r : Thr) (f : Thread → Thread) : (s.updThr r f).engines = s.engines := by
  unfold State.updThr; split <;> rfl
@[simp] theorem arbiters_updThr (s : State) (r : Thr) (f : Thread → Thread) : (s.updThr r f).arbiters = s.arbiters := by
  unfold State.updThr; split <;> rfl
@[simp] theorem gangs_updThr (s : State) (r : Thr) (f : Thread → Thread) : (s.updThr r f).gangs = s.gangs := by
  unfold State.updThr; split <;> rfl
@[simp] theorem slots_updThr (s : State) (r : Thr) (f : Thread → Thread) : (s.updThr r f).slots = s.slots := by
  unfold State.updThr; split <;> rfl
@[simp] theorem queues_updThr (s : State) (r : Thr) (f : Thread → Thread) : (s.updThr r f).queues = s.queues := by
  unfold State.updThr; split <;> rfl
@[simp] theorem launches_updThr (s : State) (r : Thr) (f : Thread → Thread) : (s.updThr r f).launches = s.launches := by
  unfold State.updThr; split <;> rfl
@[simp] theorem items_updThr (s : State) (r : Thr) (f : Thread → Thread) : (s.updThr r f).items = s.items := by
  unfold State.updThr; split <;> rfl
@[simp] theorem rrQueue_updThr (s : State) (r : Thr) (f : Thread → Thread) : (s.updThr r f).rrQueue = s.rrQueue := by
  unfold State.updThr; split <;> rfl
@[simp] theorem reservations_updThr (s : State) (r : Thr) (f : Thread → Thread) : (s.updThr r f).reservations = s.reservations := by
  unfold State.updThr; split <;> rfl
@[simp] theorem retiring_updThr (s : State) (r : Thr) (f : Thread → Thread) : (s.updThr r f).retiring = s.retiring := by
  unfold State.updThr; split <;> rfl
@[simp] theorem strays_updThr (s : State) (r : Thr) (f : Thread → Thread) : (s.updThr r f).strays = s.strays := by
  unfold State.updThr; split <;> rfl
@[simp] theorem exchanges_updThr (s : State) (r : Thr) (f : Thread → Thread) : (s.updThr r f).exchanges = s.exchanges := by
  unfold State.updThr; split <;> rfl
@[simp] theorem parts_updThr (s : State) (r : Thr) (f : Thread → Thread) : (s.updThr r f).parts = s.parts := by
  unfold State.updThr; split <;> rfl
@[simp] theorem tdis_updThr (s : State) (r : Thr) (f : Thread → Thread) : (s.updThr r f).tdis = s.tdis := by
  unfold State.updThr; split <;> rfl
@[simp] theorem fns_updThr (s : State) (r : Thr) (f : Thread → Thread) : (s.updThr r f).fns = s.fns := by
  unfold State.updThr; split <;> rfl
@[simp] theorem ctxs_updThr (s : State) (r : Thr) (f : Thread → Thread) : (s.updThr r f).ctxs = s.ctxs := by
  unfold State.updThr; split <;> rfl
@[simp] theorem keys_updThr (s : State) (r : Thr) (f : Thread → Thread) : (s.updThr r f).keys = s.keys := by
  unfold State.updThr; split <;> rfl
@[simp] theorem dies_updThr (s : State) (r : Thr) (f : Thread → Thread) : (s.updThr r f).dies = s.dies := by
  unfold State.updThr; split <;> rfl
@[simp] theorem ports_updThr (s : State) (r : Thr) (f : Thread → Thread) : (s.updThr r f).ports = s.ports := by
  unfold State.updThr; split <;> rfl
@[simp] theorem routes_updThr (s : State) (r : Thr) (f : Thread → Thread) : (s.updThr r f).routes = s.routes := by
  unfold State.updThr; split <;> rfl
@[simp] theorem conns_updThr (s : State) (r : Thr) (f : Thread → Thread) : (s.updThr r f).conns = s.conns := by
  unfold State.updThr; split <;> rfl
@[simp] theorem sends_updThr (s : State) (r : Thr) (f : Thread → Thread) : (s.updThr r f).sends = s.sends := by
  unfold State.updThr; split <;> rfl
@[simp] theorem errqs_updThr (s : State) (r : Thr) (f : Thread → Thread) : (s.updThr r f).errqs = s.errqs := by
  unfold State.updThr; split <;> rfl
@[simp] theorem plog_updThr (s : State) (r : Thr) (f : Thread → Thread) : (s.updThr r f).plog = s.plog := by
  unfold State.updThr; split <;> rfl
@[simp] theorem plogNext_updThr (s : State) (r : Thr) (f : Thread → Thread) : (s.updThr r f).plogNext = s.plogNext := by
  unfold State.updThr; split <;> rfl
@[simp] theorem plogWrap_updThr (s : State) (r : Thr) (f : Thread → Thread) : (s.updThr r f).plogWrap = s.plogWrap := by
  unfold State.updThr; split <;> rfl
@[simp] theorem f4buf_updThr (s : State) (r : Thr) (f : Thread → Thread) : (s.updThr r f).f4buf = s.f4buf := by
  unfold State.updThr; split <;> rfl
@[simp] theorem fw_updThr (s : State) (r : Thr) (f : Thread → Thread) : (s.updThr r f).fw = s.fw := by
  unfold State.updThr; split <;> rfl
@[simp] theorem mail_updThr (s : State) (r : Thr) (f : Thread → Thread) : (s.updThr r f).mail = s.mail := by
  unfold State.updThr; split <;> rfl
@[simp] theorem requests_updThr (s : State) (r : Thr) (f : Thread → Thread) : (s.updThr r f).requests = s.requests := by
  unfold State.updThr; split <;> rfl
@[simp] theorem tokens_updThr (s : State) (r : Thr) (f : Thread → Thread) : (s.updThr r f).tokens = s.tokens := by
  unfold State.updThr; split <;> rfl
@[simp] theorem watts_updThr (s : State) (r : Thr) (f : Thread → Thread) : (s.updThr r f).watts = s.watts := by
  unfold State.updThr; split <;> rfl
@[simp] theorem powerHold_updThr (s : State) (r : Thr) (f : Thread → Thread) : (s.updThr r f).powerHold = s.powerHold := by
  unfold State.updThr; split <;> rfl
@[simp] theorem lowSince_updThr (s : State) (r : Thr) (f : Thread → Thread) : (s.updThr r f).lowSince = s.lowSince := by
  unfold State.updThr; split <;> rfl
@[simp] theorem telemetrySeq_updThr (s : State) (r : Thr) (f : Thread → Thread) : (s.updThr r f).telemetrySeq = s.telemetrySeq := by
  unfold State.updThr; split <;> rfl
@[simp] theorem telemetryBody_updThr (s : State) (r : Thr) (f : Thread → Thread) : (s.updThr r f).telemetryBody = s.telemetryBody := by
  unfold State.updThr; split <;> rfl
@[simp] theorem telemetry_updThr (s : State) (r : Thr) (f : Thread → Thread) : (s.updThr r f).telemetry = s.telemetry := by
  unfold State.updThr; split <;> rfl
@[simp] theorem toHost_updThr (s : State) (r : Thr) (f : Thread → Thread) : (s.updThr r f).toHost = s.toHost := by
  unfold State.updThr; split <;> rfl

end Sys2Proof.Machine
end

