-- ==== Sys2Proof/Laws/Thread.lean ====
section
/-! SUPPORT. What the shared operations over threads and registers do: threads in their blocks, register writes of the
executing lanes, and instructions that act on their own thread. -/

namespace Sys2Proof.Machine

/-! ### Threads in their blocks -/

theorem Block.thr_setThr {b : Block} {w : Option Nat} {t u : Thread} (h : b.thr w = some t) :
    (b.setThr w u).thr w = some u := by
  cases w with
  | none => rfl
  | some n => simp [Block.thr] at h; simp [Block.thr, Block.setThr, h]

theorem Block.setThr_setThr (b : Block) (w : Option Nat) (t u : Thread) : (b.setThr w t).setThr w u = b.setThr w u := by
  cases w with
  | none => rfl
  | some n => simp [Block.setThr, Tab.upd_upd]

theorem State.thr_def {s : State} {r : Thr} {t : Thread} (h : s.thr r = some t) :
    ∃ b, s.blk r.block = some b ∧ b.thr r.warp = some t := by
  unfold State.thr at h
  split at h
  · cases h
  · rename_i b hb; exact ⟨b, hb, h⟩

theorem State.updThr_of {s : State} {r : Thr} {t : Thread} (f : Thread → Thread) (h : s.thr r = some t) :
    s.updThr r f = s.updBlk r.block (·.setThr r.warp (f t)) := by
  simp [State.updThr, h]

@[simp] theorem State.blk_updBlk (s : State) (k j : Nat) (f : Block → Block) :
    (s.updBlk k f).blk j = if j = k then (s.blk k).map f else s.blk j := by
  simp [State.updBlk, State.blk]

theorem State.thr_updThr {s : State} {r : Thr} {t : Thread} (f : Thread → Thread) (h : s.thr r = some t) :
    (s.updThr r f).thr r = some (f t) := by
  obtain ⟨b, hb, ht⟩ := State.thr_def h
  rw [State.updThr_of f h]
  unfold State.thr
  simp [hb, Block.thr_setThr ht]

/-- Two changes of one thread are one. -/
theorem State.updThr_updThr (s : State) (r : Thr) (f g : Thread → Thread) :
    (s.updThr r f).updThr r g = s.updThr r (fun t => g (f t)) := by
  cases h : s.thr r with
  | none => simp [State.updThr, h]
  | some t =>
    rw [State.updThr_of g (State.thr_updThr f h), State.updThr_of f h, State.updThr_of _ h]
    simp only [State.updBlk, Tab.upd_upd, Block.setThr_setThr]

theorem State.updThr_const {s : State} {r : Thr} {t : Thread} (f : Thread → Thread) (h : s.thr r = some t) :
    s.updThr r f = s.updThr r (fun _ => f t) := by
  rw [State.updThr_of f h, State.updThr_of _ h]

/-- What `finish` does after a change of the current thread. -/
theorem State.finish_updThr {s : State} {t : Thread} (i : Instr) (f : Thread → Thread) (h : s.thr s.cur = some t) :
    s.finish i (s.updThr s.cur f) = s.withThread ((f t).advance i (t.operandBuffer i)) := by
  simp only [State.finish, h, State.updThr_updThr]
  exact State.updThr_const _ h

/-- An instruction that acts on its own thread alone. -/
theorem onThread_next {s : State} {t : Thread} (i : Instr) (f : Thread → Thread) (h : s.thr s.cur = some t) :
    onThread i f s = .next (s.withThread ((f t).advance i (t.operandBuffer i))) := by
  rw [onThread, State.finish_updThr i f h]

/-! ### One register write -/

theorem Op.bare_drop (bound key : Nat) (o : Op) : (o.drop bound key).bare = o.bare := by
  unfold Op.drop; split <;> rfl

theorem Op.bare_drops (bound key : Nat) (os : List Op) : (os.map (Op.drop bound key)).map Op.bare = os.map Op.bare := by
  rw [List.map_map]
  exact List.map_congr_left (fun o _ => Op.bare_drop bound key o)

/-- Late marks leave a handler as it is but for the marks. -/
theorem Handler.bare_drops (bound key : Nat) (h : Option Handler) :
    (h.map (·.dropLate bound key)).map Handler.bare = h.map Handler.bare := by
  cases h with
  | none => rfl
  | some h => simp [Handler.dropLate, Handler.bare, Op.bare_drop]

@[simp] theorem v_dropLate (t : Thread) (bound key : Nat) : (t.dropLate bound key).v = t.v := rfl
@[simp] theorem k_dropLate (t : Thread) (bound key : Nat) : (t.dropLate bound key).k = t.k := rfl
@[simp] theorem p_dropLate (t : Thread) (bound key : Nat) : (t.dropLate bound key).p = t.p := rfl

/-- Two threads agree but for registers and the marks of late results. -/
structure Same (t u : Thread) : Prop where
  rest : u = { t with v := u.v, k := u.k, p := u.p, m := u.m, ops := u.ops, withdrawn := u.withdrawn, handler := u.handler }
  ops : u.ops.map Op.bare = t.ops.map Op.bare
  withdrawn : u.withdrawn.map Op.bare = t.withdrawn.map Op.bare
  handler : u.handler.map Handler.bare = t.handler.map Handler.bare

theorem Same.refl (t : Thread) : Same t t := ⟨rfl, rfl, rfl, rfl⟩

theorem Same.trans {t u w : Thread} (h : Same t u) (h' : Same u w) : Same t w := by
  refine ⟨?_, h'.ops.trans h.ops, h'.withdrawn.trans h.withdrawn, h'.handler.trans h.handler⟩
  have h1 := h'.rest
  rw [h.rest] at h1
  exact h1

theorem Same.teller {t u : Thread} (h : Same t u) : u.teller = t.teller := by rw [h.rest]

theorem same_setV (t : Thread) (l r : Nat) (x : Word) : Same t (t.setV l r x) :=
  ⟨rfl, Op.bare_drops _ _ _, Op.bare_drops _ _ _, Handler.bare_drops _ _ _⟩

theorem same_setK (t : Thread) (r : Nat) (x : Addr) : Same t (t.setK r x) :=
  ⟨rfl, Op.bare_drops _ _ _, Op.bare_drops _ _ _, Handler.bare_drops _ _ _⟩

theorem same_setP (t : Thread) (l i : Nat) (x : Bool) : Same t (t.setP l i x) := by
  unfold Thread.setP Thread.landP
  split
  · exact Same.refl t
  · exact ⟨rfl, Op.bare_drops _ _ _, Op.bare_drops _ _ _, Handler.bare_drops _ _ _⟩

theorem vr_setV (t : Thread) {l r l' r' : Nat} (x : Word) (h : r < 512) (h' : r' < 512) :
    (t.setV l r x).vr l' r' = if l' = l ∧ r' = r then x else t.vr l' r' := by
  simp only [Thread.setV, Thread.landV, Thread.vr, v_dropLate, Tab.rd_wr]
  by_cases hk : l' * 512 + r' = l * 512 + r
  · have : l' = l ∧ r' = r := by omega
    simp [this]
  · have : ¬ (l' = l ∧ r' = r) := by rintro ⟨rfl, rfl⟩; exact hk rfl
    simp [hk, this]

@[simp] theorem kr_setV (t : Thread) (l r : Nat) (x : Word) (r' : Nat) : (t.setV l r x).kr r' = t.kr r' := rfl
@[simp] theorem k_setV (t : Thread) (l r : Nat) (x : Word) : (t.setV l r x).k = t.k := rfl
@[simp] theorem p_setV (t : Thread) (l r : Nat) (x : Word) : (t.setV l r x).p = t.p := rfl
@[simp] theorem m_setV (t : Thread) (l r : Nat) (x : Word) : (t.setV l r x).m = t.m := rfl
@[simp] theorem teller_setV (t : Thread) (l r : Nat) (x : Word) : (t.setV l r x).teller = t.teller := rfl
@[simp] theorem kr_setK (t : Thread) (r : Nat) (x : Addr) (r' : Nat) :
    (t.setK r x).kr r' = if r' = r then x else t.kr r' := by
  simp [Thread.setK, Thread.landK, Thread.kr]
@[simp] theorem vr_setK (t : Thread) (r : Nat) (x : Addr) (l r' : Nat) : (t.setK r x).vr l r' = t.vr l r' := rfl
@[simp] theorem p_setK (t : Thread) (r : Nat) (x : Addr) : (t.setK r x).p = t.p := rfl
@[simp] theorem m_setK (t : Thread) (r : Nat) (x : Addr) : (t.setK r x).m = t.m := rfl
@[simp] theorem teller_setK (t : Thread) (r : Nat) (x : Addr) : (t.setK r x).teller = t.teller := rfl
@[simp] theorem v_setP (t : Thread) (l i : Nat) (x : Bool) : (t.setP l i x).v = t.v := by
  unfold Thread.setP Thread.landP; split <;> rfl
@[simp] theorem k_setP (t : Thread) (l i : Nat) (x : Bool) : (t.setP l i x).k = t.k := by
  unfold Thread.setP Thread.landP; split <;> rfl
@[simp] theorem m_setP (t : Thread) (l i : Nat) (x : Bool) : (t.setP l i x).m = t.m := by
  unfold Thread.setP Thread.landP; split <;> rfl

theorem pr_setP (t : Thread) {l i l' i' : Nat} (x : Bool) (h : i < 8) (h' : i' < 8) :
    (t.setP l i x).pr l' i' = if l' = l ∧ i' = i ∧ i ≠ 7 then x else t.pr l' i' := by
  unfold Thread.setP Thread.landP Thread.pr
  split
  · rename_i h7; simp [h7]
  · rename_i h7
    simp only [p_dropLate, Tab.rd_wr]
    by_cases hk : l' * 8 + i' = l * 8 + i
    · have hl : l' = l ∧ i' = i := by omega
      obtain ⟨rfl, rfl⟩ := hl
      simp [h7]
    · have : ¬ (l' = l ∧ i' = i) := by rintro ⟨rfl, rfl⟩; exact hk rfl
      have h3 : ¬ (l' = l ∧ i' = i ∧ i ≠ 7) := fun h => this ⟨h.1, h.2.1⟩
      simp [hk, h3]

/-! ### Writes of the executing lanes -/

/-- A property of two threads that each lane's write extends holds of all the lanes' writes. -/
theorem each_induction {P : List Nat → Thread → Prop} (t : Thread) (f : Nat → Thread → Thread) (ls : List Nat)
    (h0 : P [] t) (hs : ∀ done u l, l ∈ ls → P done u → P (done ++ [l]) (f l u)) : P ls (t.each ls f) := by
  have gen : ∀ (rest done : List Nat) (u : Thread), (∀ l ∈ rest, l ∈ ls) → P done u → P (done ++ rest) (u.each rest f) := by
    intro rest
    induction rest with
    | nil => intro done u _ h; simpa [Thread.each] using h
    | cons l rest ih =>
      intro done u hm h
      have h1 := hs done u l (hm l (List.mem_cons_self ..)) h
      have h2 := ih (done ++ [l]) (f l u) (fun x hx => hm x (List.mem_cons_of_mem _ hx)) h1
      simpa [Thread.each, List.append_assoc] using h2
  simpa using gen ls [] t (fun _ h => h) h0

theorem lanes_lt {t : Thread} {g : Guard} {l : Nat} (h : l ∈ t.lanes g) : l < t.laneCount := by
  unfold Thread.lanes at h
  split at h
  · cases h
  · exact List.mem_range.mp (List.mem_filter.mp h).1

theorem teller_lane {t : Thread} {g : Guard} {l : Nat} (ht : t.teller = true) (h : l ∈ t.lanes g) : l = 0 := by
  have := lanes_lt h
  simp [Thread.laneCount, ht] at this
  exact this

/-- `putRegs` writes one register of each executing lane. -/
theorem putRegs_wrote (t : Thread) (g : Guard) {d : Nat} (f : Nat → Addr) (hd : d < 512) :
    Same t (t.putRegs g d f) ∧ WroteReg t (t.putRegs g d f) (t.lanes g) d f := by
  have key := each_induction
    (P := fun ls u => (∀ l ∈ ls, l ∈ t.lanes g) ∧ Same t u ∧ WroteReg t u ls d f) t
    (fun l u => u.setReg l d (f l)) (t.lanes g)
    ⟨(fun l h => by cases h), Same.refl t, ⟨(fun l h => by cases h), fun _ _ _ _ => rfl, fun _ _ => rfl, rfl, rfl⟩⟩ ?_
  · exact key.2
  · rintro done u l hl ⟨hd', hs, hw⟩
    have htel := hs.teller
    have hall : ∀ x ∈ done ++ [l], x ∈ t.lanes g := by
      intro x hx
      rcases List.mem_append.mp hx with h | h
      · exact hd' x h
      · simp at h; rw [h]; exact hl
    refine ⟨hall, ?_⟩
    by_cases ht : t.teller = true
    · have hu : u.teller = true := by rw [htel, ht]
      have hz : ∀ x ∈ done ++ [l], x = 0 := fun x hx => teller_lane ht (hall x hx)
      have hl0 := hz l (by simp)
      have hc : ∀ x, t.cut x = x := fun x => by simp [Thread.cut, ht]
      simp only [Thread.setReg, hu, if_true]
      refine ⟨hs.trans (same_setK u d _), ⟨?_, ?_, ?_, by simpa using hw.p, by simpa using hw.m⟩⟩
      · intro l' hl'
        simp only [Thread.reg, teller_setK, hu, if_true, kr_setK, hc]
        rw [hz l' hl', hl0]
      · intro l' r hr hcond; simpa using hw.v l' r hr (Or.inl ht)
      · intro r hr
        have hne : r ≠ d := by
          rcases hr with h | h | h
          · rw [ht] at h; cases h
          · simp at h
          · exact h
        simpa [hne] using hw.k r (Or.inr (Or.inr hne))
    · have ht' : t.teller = false := by simpa using ht
      have hu : u.teller = false := by rw [htel, ht']
      have hc : ∀ x, t.cut x = (x.extractLsb' 0 32).setWidth 64 := fun x => by simp [Thread.cut, ht']
      simp only [Thread.setReg, hu, Bool.false_eq_true, if_false]
      refine ⟨hs.trans (same_setV u l d _), ⟨?_, ?_, ?_, by simpa using hw.p, by simpa using hw.m⟩⟩
      · intro l' hl'
        simp only [Thread.reg, teller_setV, hu, Bool.false_eq_true, if_false, hc, vr_setV u _ hd hd, and_true]
        split
        · rename_i h; rw [h]
        · rename_i h
          have h1 : l' ∈ done := by
            rcases List.mem_append.mp hl' with h1 | h1
            · exact h1
            · simp at h1; exact absurd h1 h
          have := hw.value l' h1
          simp only [Thread.reg, hu, Bool.false_eq_true, if_false, hc] at this
          exact this
      · intro l' r hr hcond
        rw [vr_setV u _ hd hr]
        split
        · rename_i h
          rcases hcond with h1 | h1 | h1
          · rw [ht'] at h1; cases h1
          · exact absurd (by simp [h.1]) h1
          · exact absurd h.2 h1
        · refine hw.v l' r hr ?_
          rcases hcond with h1 | h1 | h1
          · exact Or.inl h1
          · exact Or.inr (Or.inl (fun hm => h1 (List.mem_append_left _ hm)))
          · exact Or.inr (Or.inr h1)
      · intro r _; simpa using hw.k r (Or.inl ht')

theorem pair_setPair_v (u : Thread) (l d : Nat) (x : Addr) (l' : Nat) (hu : u.teller = false) (hd : d + 1 < 512) :
    (u.setPair l d x).pair l' d = if l' = l then x else u.pair l' d := by
  simp only [Thread.setPair, hu, Bool.false_eq_true, if_false, Thread.pair, teller_setV]
  rw [vr_setV _ _ (by omega) (by omega), vr_setV _ _ (by omega) (by omega), vr_setV _ _ (by omega) (by omega),
    vr_setV _ _ (by omega) (by omega)]
  by_cases h : l' = l
  · simp only [h, true_and, and_self, if_true, show ¬ d = d + 1 by omega, if_false]
    ext i hi
    simp only [BitVec.getElem_append, BitVec.getElem_extractLsb']
    split
    · simp [BitVec.getLsbD_eq_getElem hi]
    · rename_i h1; rw [show 32 + (i - 32) = i by omega, BitVec.getLsbD_eq_getElem hi]
  · simp [h]

/-- `putPairs` writes a pair of each executing lane. -/
theorem putPairs_wrote (t : Thread) (g : Guard) {d : Nat} (f : Nat → Addr) (hd : t.teller = true ∨ d + 1 < 512) :
    Same t (t.putPairs g d f) ∧ WrotePair t (t.putPairs g d f) (t.lanes g) d f := by
  have key := each_induction
    (P := fun ls u => (∀ l ∈ ls, l ∈ t.lanes g) ∧ Same t u ∧ WrotePair t u ls d f) t
    (fun l u => u.setPair l d (f l)) (t.lanes g)
    ⟨(fun l h => by cases h), Same.refl t, ⟨(fun l h => by cases h), fun _ _ _ _ => rfl, fun _ _ => rfl, rfl, rfl⟩⟩ ?_
  · exact key.2
  · rintro done u l hl ⟨hd', hs, hw⟩
    have htel := hs.teller
    have hall : ∀ x ∈ done ++ [l], x ∈ t.lanes g := by
      intro x hx
      rcases List.mem_append.mp hx with h | h
      · exact hd' x h
      · simp at h; rw [h]; exact hl
    refine ⟨hall, ?_⟩
    by_cases ht : t.teller = true
    · have hu : u.teller = true := by rw [htel, ht]
      have hz : ∀ x ∈ done ++ [l], x = 0 := fun x hx => teller_lane ht (hall x hx)
      have hl0 := hz l (by simp)
      simp only [Thread.setPair, hu, if_true]
      refine ⟨hs.trans (same_setK u d _), ⟨?_, ?_, ?_, by simpa using hw.p, by simpa using hw.m⟩⟩
      · intro l' hl'
        simp only [Thread.pair, teller_setK, hu, if_true, kr_setK]
        rw [hz l' hl', hl0]
      · intro l' r hr hcond; simpa using hw.v l' r hr (Or.inl ht)
      · intro r hr
        have hne : r ≠ d := by
          rcases hr with h | h | h
          · rw [ht] at h; cases h
          · simp at h
          · exact h
        simpa [hne] using hw.k r (Or.inr (Or.inr hne))
    · have ht' : t.teller = false := by simpa using ht
      have hu : u.teller = false := by rw [htel, ht']
      have hd2 : d + 1 < 512 := by
        rcases hd with h | h
        · exact absurd h ht
        · exact h
      have hset : u.setPair l d (f l) = (u.setV l d ((f l).extractLsb' 0 32)).setV l (d + 1) ((f l).extractLsb' 32 32) := by
        simp [Thread.setPair, hu]
      refine ⟨?_, ?_, ?_, ?_, ?_, ?_⟩
      · rw [hset]; exact (hs.trans (same_setV _ _ _ _)).trans (same_setV _ _ _ _)
      · intro l' hl'
        rw [pair_setPair_v u l d (f l) l' hu hd2]
        split
        · rename_i h; rw [h]
        · rename_i h
          refine hw.value l' ?_
          rcases List.mem_append.mp hl' with h1 | h1
          · exact h1
          · simp at h1; exact absurd h1 h
      · intro l' r hr hcond
        rw [hset, vr_setV _ _ (by omega) hr, vr_setV _ _ (by omega) hr]
        have hnot : ¬ (l' = l ∧ (r = d ∨ r = d + 1)) := by
          rintro ⟨h1, h2⟩
          rcases hcond with h3 | h3 | h3
          · rw [ht'] at h3; cases h3
          · exact h3 (by simp [h1])
          · omega
        rw [if_neg (fun h => hnot ⟨h.1, Or.inr h.2⟩), if_neg (fun h => hnot ⟨h.1, Or.inl h.2⟩)]
        refine hw.v l' r hr ?_
        rcases hcond with h1 | h1 | h1
        · exact Or.inl h1
        · exact Or.inr (Or.inl (fun hm => h1 (List.mem_append_left _ hm)))
        · exact Or.inr (Or.inr h1)
      · intro r _; rw [hset]; simpa using hw.k r (Or.inl ht')
      · rw [hset]; simpa using hw.p
      · rw [hset]; simpa using hw.m

theorem setVs_wrote (u : Thread) (l d : Nat) (xs : List Word) (hd : d + xs.length ≤ 512) :
    Same u (u.setVs l d xs) ∧
      (∀ l' r, r < 512 → (u.setVs l d xs).vr l' r =
        if l' = l ∧ d ≤ r ∧ r < d + xs.length then xs.getD (r - d) 0 else u.vr l' r) ∧
      (u.setVs l d xs).k = u.k ∧ (u.setVs l d xs).p = u.p ∧ (u.setVs l d xs).m = u.m := by
  induction xs generalizing u d with
  | nil =>
    refine ⟨Same.refl u, ?_, rfl, rfl, rfl⟩
    intro l' r _
    rw [if_neg]
    · rfl
    · simp only [List.length_nil]; omega
  | cons x xs ih =>
    simp only [List.length_cons] at hd
    obtain ⟨h1, h2, h3, h4, h5⟩ := ih (u.setV l d x) (d + 1) (by omega)
    refine ⟨(same_setV u l d x).trans h1, ?_, h3, h4, h5⟩
    intro l' r hr
    show (((u.setV l d x).setVs l (d + 1) xs).vr l' r) = _
    rw [h2 l' r hr, vr_setV u x (by omega) hr]
    simp only [List.length_cons]
    by_cases hl : l' = l
    · by_cases hr1 : r = d
      · have e1 : ¬ (d + 1 ≤ d) := by omega
        rw [if_neg (fun h => by omega), if_pos ⟨hl, hr1⟩, if_pos ⟨hl, by omega, by omega⟩, hr1, Nat.sub_self]
        rfl
      · by_cases hr2 : d + 1 ≤ r ∧ r < d + 1 + xs.length
        · rw [if_pos ⟨hl, hr2⟩, if_pos ⟨hl, by omega, by omega⟩]
          rw [show r - d = (r - (d + 1)) + 1 by omega]
          rfl
        · rw [if_neg (fun h => hr2 h.2), if_neg (fun h => hr1 h.2), if_neg]
          rintro ⟨_, h6, h7⟩; omega
    · simp [hl]

/-- `putVs` writes consecutive v registers of each executing lane. -/
theorem putVs_wrote (t : Thread) (g : Guard) {d n : Nat} (f : Nat → List Word) (hn : ∀ l, (f l).length = n)
    (hd : d + n ≤ 512) :
    Same t (t.putVs g d f) ∧ WroteVs t (t.putVs g d f) (t.lanes g) d n (fun l j => (f l).getD j 0) := by
  refine each_induction
    (P := fun ls u => Same t u ∧ WroteVs t u ls d n (fun l j => (f l).getD j 0)) t
    (fun l u => u.setVs l d (f l)) (t.lanes g)
    ⟨Same.refl t, ⟨(fun l h => by cases h), fun _ _ _ _ => rfl, rfl, rfl, rfl⟩⟩ ?_
  rintro done u l hl ⟨hs, hw⟩
  obtain ⟨h1, h2, h3, h4, h5⟩ := setVs_wrote u l d (f l) (by rw [hn]; exact hd)
  refine ⟨hs.trans h1, ⟨?_, ?_, h3.trans hw.k, h4.trans hw.p, h5.trans hw.m⟩⟩
  · intro l' hl' j hj
    rw [h2 l' (d + j) (by omega), hn]
    split
    · rename_i h; rw [h.1, show d + j - d = j by omega]
    · rename_i h
      refine hw.value l' ?_ j hj
      rcases List.mem_append.mp hl' with h6 | h6
      · exact h6
      · simp at h6; exact absurd ⟨h6, by omega, by omega⟩ h
  · intro l' r hr hc
    rw [h2 l' r hr, hn, if_neg]
    · refine hw.v l' r hr ?_
      rcases hc with h6 | h6
      · exact Or.inl (fun hm => h6 (List.mem_append_left _ hm))
      · exact Or.inr h6
    · rintro ⟨h6, h7, h8⟩
      rcases hc with h9 | h9
      · exact h9 (by simp [h6])
      · omega

/-- `putPreds` writes a predicate of each executing lane. -/
theorem putPreds_wrote (t : Thread) (g : Guard) {n : Nat} (f : Nat → Bool) (hn : n < 8) :
    Same t (t.putPreds g n f) ∧ WrotePred t (t.putPreds g n f) (t.lanes g) n f := by
  refine each_induction (P := fun ls u => Same t u ∧ WrotePred t u ls n f) t
    (fun l u => u.setP l n (f l)) (t.lanes g)
    ⟨Same.refl t, ⟨(fun l h => by cases h), fun _ _ _ _ => rfl, rfl, rfl, rfl⟩⟩ ?_
  rintro done u l hl ⟨hs, hw⟩
  refine ⟨hs.trans (same_setP u l n (f l)), ⟨?_, ?_, by simpa using hw.v, by simpa using hw.k, by simpa using hw.m⟩⟩
  · intro l' hl' h7
    rw [pr_setP u _ hn hn]
    split
    · rename_i h; rw [h.1]
    · rename_i h
      refine hw.value l' ?_ h7
      rcases List.mem_append.mp hl' with h6 | h6
      · exact h6
      · simp at h6; exact absurd ⟨h6, rfl, h7⟩ h
  · intro l' j hj hc
    rw [pr_setP u _ hn hj, if_neg]
    · refine hw.pr l' j hj ?_
      rcases hc with h6 | h6
      · exact Or.inl (fun hm => h6 (List.mem_append_left _ hm))
      · exact Or.inr h6
    · rintro ⟨h6, h8, h9⟩
      rcases hc with h1 | h1 | h1
      · exact h1 (by simp [h6])
      · exact h1 h8
      · exact h9 h1

/-! ### Instructions -/

/-- A thread that differs from `t` in registers alone, moved past `i`, is `t` past `i`. -/
theorem Same.past {i : Instr} {t u : Thread} (h : Same t u) : Past i t (u.advance i (t.operandBuffer i)) := by
  exact ⟨congrArg (fun w : Thread => w.advance i (t.operandBuffer i)) h.rest, h.ops, h.withdrawn, h.handler⟩

theorem onThread_reg {s : State} {t : Thread} (i : Instr) {d : Nat} (f : Nat → Addr) (h : s.thr s.cur = some t)
    (hd : d < 512) (e : exec i s = onThread i (fun t => t.putRegs i.guard d f) s) : SetsReg i d s t f := by
  obtain ⟨h1, h2⟩ := putRegs_wrote t i.guard f hd
  exact ⟨_, by rw [e]; exact onThread_next i _ h, h1.past, ⟨h2.value, h2.v, h2.k, h2.p, h2.m⟩⟩

theorem onThread_pair {s : State} {t : Thread} (i : Instr) {d : Nat} (f : Nat → Addr) (h : s.thr s.cur = some t)
    (hd : t.teller = true ∨ d + 1 < 512) (e : exec i s = onThread i (fun t => t.putPairs i.guard d f) s) :
    SetsPair i d s t f := by
  obtain ⟨h1, h2⟩ := putPairs_wrote t i.guard f hd
  exact ⟨_, by rw [e]; exact onThread_next i _ h, h1.past, ⟨h2.value, h2.v, h2.k, h2.p, h2.m⟩⟩

theorem onThread_vs {s : State} {t : Thread} (i : Instr) {d n : Nat} (f : Nat → List Word) (h : s.thr s.cur = some t)
    (hn : ∀ l, (f l).length = n) (hd : d + n ≤ 512) (e : exec i s = onThread i (fun t => t.putVs i.guard d f) s) :
    SetsVs i d n s t (fun l j => (f l).getD j 0) := by
  obtain ⟨h1, h2⟩ := putVs_wrote t i.guard f hn hd
  exact ⟨_, by rw [e]; exact onThread_next i _ h, h1.past, ⟨h2.value, h2.v, h2.k, h2.p, h2.m⟩⟩

theorem onThread_pred {s : State} {t : Thread} (i : Instr) {n : Nat} (f : Nat → Bool) (h : s.thr s.cur = some t)
    (hn : n < 8) (e : exec i s = onThread i (fun t => t.putPreds i.guard n f) s) : SetsPred i n s t f := by
  obtain ⟨h1, h2⟩ := putPreds_wrote t i.guard f hn
  exact ⟨_, by rw [e]; exact onThread_next i _ h, h1.past, ⟨h2.value, h2.pr, h2.v, h2.k, h2.m⟩⟩

theorem onThread_mask {s : State} {t : Thread} (i : Instr) (n : Nat) (x : Word) (h : s.thr s.cur = some t)
    (e : exec i s = onThread i (fun t => t.setM n x) s) : SetsMask i n s t x := by
  refine ⟨(t.setM n x).advance i (t.operandBuffer i), by rw [e]; exact onThread_next i _ h, ⟨rfl, rfl, rfl, rfl⟩,
    ⟨?_, ?_, rfl, rfl, rfl⟩⟩
  · simp [Thread.advance, Thread.setM, Thread.mr]
  · intro j hj; simp [Thread.advance, Thread.setM, Thread.mr, hj]

theorem onThread_clause {s : State} {t : Thread} (i : Instr) (f : Clause → Clause) (h : s.thr s.cur = some t)
    (e : exec i s = onThread i (fun t => t.inClause f) s) : ChangesClause i s t f := by
  rw [ChangesClause, e, onThread_next i _ h]
  simp [Thread.advance, Thread.inClause, Option.map_map, Function.comp_def]

theorem onThread_stops {s : State} {t : Thread} (i : Instr) (c : Cause) (code : Nat) (ls : List (Nat × Addr))
    (h : s.thr s.cur = some t) (e : exec i s = onThread i (fun t => t.failLanes c code ls) s) : StopsLanes i s t c code ls :=
  onThread_clause i _ h e

/-! ### Operations as they issue -/

/-- The state of claims about issue: the current thread is `u`, the next number and the items are given. -/
def State.issued (s : State) (u : Thread) (n : Nat) (its : Tab Item) : State :=
  { s.withThread u with nextId := n, items := its }

theorem State.issued_self {s : State} {t : Thread} (h : s.thr s.cur = some t) (u : Thread) :
    s.withThread u = s.issued u s.nextId s.items := by
  unfold State.issued State.withThread
  rw [State.updThr_of _ h]
  rfl

@[simp] theorem State.issued_nextId (s : State) (u : Thread) (n : Nat) (its : Tab Item) :
    (s.issued u n its).nextId = n := rfl
@[simp] theorem State.issued_items (s : State) (u : Thread) (n : Nat) (its : Tab Item) :
    (s.issued u n its).items = its := rfl
@[simp] theorem State.issued_cur (s : State) (u : Thread) (n : Nat) (its : Tab Item) :
    (s.issued u n its).cur = s.cur := cur_updThr ..

theorem State.issued_thr {s : State} {t : Thread} (h : s.thr s.cur = some t) (u : Thread) (n : Nat) (its : Tab Item) :
    (s.issued u n its).thr s.cur = some u := State.thr_updThr (fun _ => u) h

theorem State.issued_updThr {s : State} {t : Thread} (h : s.thr s.cur = some t) (u : Thread) (n : Nat) (its : Tab Item)
    (f : Thread → Thread) : (s.issued u n its).updThr s.cur f = s.issued (f u) n its := by
  rw [State.updThr_of f (State.issued_thr h u n its)]
  unfold State.issued State.withThread
  rw [State.updThr_of _ h, State.updThr_of _ h]
  simp only [State.updBlk, Tab.upd_upd, Block.setThr_setThr]

theorem State.issued_finish {s : State} {t : Thread} (h : s.thr s.cur = some t) (i : Instr) (u : Thread) (n : Nat)
    (its : Tab Item) : s.finish i (s.issued u n its) = s.issued (u.advance i (t.operandBuffer i)) n its := by
  simp only [State.finish, h, State.issued_updThr h]

/-- A long-latency instruction whose result counts on no stream. -/
theorem issueCompute_next {s : State} {t : Thread} (i : Instr) (rs : Thread → List DReg) (h : s.thr s.cur = some t)
    (hl : t.lanes i.guard ≠ []) (e : exec i s = issueCompute i rs s) : IssuesResults i s t (rs t) := by
  have hne : (t.lanes i.guard).isEmpty = false := by simpa using hl
  rw [IssuesResults, IssuesPlain, e]
  simp only [issueCompute, onState, h, hne, Bool.false_eq_true, if_false]
  have hi : s.issue i s.nextId 0 none 0 (.compute (rs t)) =
      s.issued (t.addOp ⟨s.nextId, s.nextId, 0, t.seq.rd 0 0, none, 0, t.flagOf i, t.here, .compute (rs t), none, []⟩)
        (s.nextId + 1) s.items := by
    unfold State.issue State.issued State.withThread
    rw [State.updThr_of _ h, State.updThr_of _ h]
    rfl
  rw [hi, State.issued_finish h]
  unfold State.issued State.withThread
  rw [State.updThr_of _ h, State.updThr_of _ h]
  rfl

/-- The item's commit mark is set. -/
def commitItems (s : State) (its : Tab Item) : Tab Item :=
  match s.blk s.cur.block with
  | some b => its.upd b.item (fun it => { it with commit := true })
  | none => its

theorem State.issued_commit {s : State} {t : Thread} (h : s.thr s.cur = some t) (u : Thread) (n : Nat) (its : Tab Item) :
    (s.issued u n its).commit s.cur.block = s.issued u n (commitItems s its) := by
  obtain ⟨b, hb, ht⟩ := State.thr_def h
  have hb' : (s.issued u n its).blk s.cur.block = some (b.setThr s.cur.warp u) := by
    show (s.withThread u).blk s.cur.block = _
    unfold State.withThread
    rw [State.updThr_of _ h]
    simp [hb]
  unfold State.commit commitItems
  rw [hb', hb]
  have hi : (b.setThr s.cur.warp u).item = b.item := by
    unfold Block.setThr; split <;> rfl
  simp only [hi]
  rfl

/-- The thread after one operation on a stream has been issued. -/
def issuedOp (i : Instr) (inst l st : Nat) (pm : BitVec 8) (k : OpKind) (u : Thread) (n : Nat) : Thread :=
  { u with
    seq := u.seq.wr 0 l (u.seq.rd 0 l + 1),
    ops := u.ops ++ [⟨n, inst, l, u.seq.rd 0 l, some st, pm, u.flagOf i, u.here, k, none, []⟩] }

theorem State.issued_issue {s : State} {t : Thread} (h : s.thr s.cur = some t) (i : Instr) (inst l st : Nat)
    (pm : BitVec 8) (k : OpKind) (u : Thread) (n : Nat) (its : Tab Item) (hu : u.unreported = []) :
    (s.issued u n its).issue i inst l (some st) pm k = s.issued (issuedOp i inst l st pm k u n) (n + 1) its := by
  unfold State.issue
  simp only [State.issued_cur, State.issued_updThr h, State.issued_nextId, Option.isSome_some, if_true]
  have hd : ∀ o, Thread.addOp { u with seq := u.seq.wr 0 l (u.seq.rd 0 l + 1) } o =
      { u with seq := u.seq.wr 0 l (u.seq.rd 0 l + 1), ops := u.ops ++ [o] } := by
    intro o
    simp [Thread.addOp, Thread.doomed, hu]
  rw [hd]
  unfold State.issued State.withThread
  rw [State.updThr_of _ h, State.updThr_of _ h]
  rfl

theorem commit_idem (s : State) (its : Tab Item) : commitItems s (commitItems s its) = commitItems s its := by
  unfold commitItems
  split
  · rw [Tab.upd_upd]
  · rfl

/-- Operations of lanes as they issue. -/
theorem State.issued_lanes {s : State} {t : Thread} (h : s.thr s.cur = some t) (i : Instr) (st : Nat) (pm : BitVec 8)
    (inst : Nat) (ks : List (Nat × OpKind)) (u : Thread) (n : Nat) (its : Tab Item) (hu : u.unreported = []) :
    ∃ w its',
      ks.foldl (fun x (l, k) => (if k.commits then x.commit s.cur.block else x).issue i inst l (some st) pm k)
        (s.issued u n its) = s.issued w (n + ks.length) its' ∧
      w = { u with seq := w.seq, ops := w.ops } ∧
      w.ops.map Op.face = u.ops.map Op.face ++ ks.map (fun (l, k) => (l, some st, pm, u.flagOf i, k)) ∧
      its' = if ks.any (fun e => e.2.commits) then commitItems s its else its := by
  induction ks generalizing u n its with
  | nil => exact ⟨u, its, rfl, rfl, by simp, by simp⟩
  | cons e ks ih =>
    obtain ⟨l, k⟩ := e
    have h1 : (if k.commits then (s.issued u n its).commit s.cur.block else s.issued u n its) =
        s.issued u n (if k.commits then commitItems s its else its) := by
      split
      · exact State.issued_commit h u n its
      · rfl
    obtain ⟨w, its', hw1, hw2, hw3, hw4⟩ := ih (issuedOp i inst l st pm k u n) (n + 1)
      (if k.commits then commitItems s its else its) hu
    refine ⟨w, its', ?_, ?_, ?_, ?_⟩
    · simp only [List.foldl_cons, h1, State.issued_issue h i inst l st pm k u n _ hu, hw1, List.length_cons]
      congr 1; omega
    · rw [hw2]; rfl
    · rw [hw3]
      have hf : (issuedOp i inst l st pm k u n).flagOf i = u.flagOf i := rfl
      simp [issuedOp, Op.face, Thread.flagOf]
    · rw [hw4]
      simp only [List.any_cons]
      by_cases hk : k.commits = true
      · simp only [hk, Bool.true_or, if_true, commit_idem, ite_self]
      · simp only [Bool.not_eq_true] at hk
        simp only [hk, Bool.false_or, Bool.false_eq_true, if_false]

theorem count_face (t : Thread) (l st : Nat) :
    t.count l st = ((t.ops.map Op.face).filter (fun f => f.1 == l && f.2.1 == some st)).length := by
  unfold Thread.count
  rw [List.filter_map, List.length_map]
  rfl

/-- What claims say of the issue of operations, from the state that the issue leaves. -/
theorem State.issued_ops {s : State} {t : Thread} (h : s.thr s.cur = some t) (hu : t.unreported = []) (i : Instr)
    (st : Nat) (pm : BitVec 8) (ks : List (Nat × OpKind))
    (e : exec i s = .next (s.finish i ((s.withThread t).issueLanes i st pm ks))) : IssuesOps i st pm s t ks := by
  have hcur : (s.withThread t).cur = s.cur := cur_updThr ..
  have hnx : (s.withThread t).nextId = s.nextId := nextId_updThr ..
  obtain ⟨w, its, h1, h2, h3, h4⟩ := State.issued_lanes h i st pm s.nextId ks t s.nextId s.items hu
  refine ⟨w.advance i (t.operandBuffer i), its, ?_, ?_, h3, ?_, h4⟩
  · rw [e]
    unfold State.issueLanes
    simp only [hcur, hnx]
    rw [State.issued_self h t, h1, State.issued_finish h]
    rfl
  · exact congrArg (fun w : Thread => w.advance i (t.operandBuffer i)) h2
  · intro l
    rw [count_face, count_face]
    show ((w.ops.map Op.face).filter _).length = _
    rw [h3, List.filter_append, List.length_append]
    congr 1
    rw [List.filter_map, List.length_map]
    have hf : ks.filter (fun e => e.1 == l && (some st == some st : Bool)) = ks.filter (fun e => e.1 == l) :=
      List.filter_congr (fun e _ => by simp)
    exact congrArg List.length hf

end Sys2Proof.Machine
end

