-- ==== Sys2Proof/Laws/Frames.lean ====
section
/-! SUPPORT. What the shared operations of the machine leave alone. -/

namespace Sys2Proof.Machine

/-! ### The memories -/

theorem SameMemory.of_eq {s s' : State} (h1 : s'.dram = s.dram) (h2 : s'.vault = s.vault) (h3 : s'.host = s.host)
    (h4 : s'.blocks = s.blocks) (h5 : s'.lineKeys = s.lineKeys := by rfl) : SameMemory s s' :=
  ⟨fun a => by rw [h1], fun a => by rw [h5], fun a => by rw [h2], fun a => by rw [h3], fun k a => by simp [State.blk, h4]⟩

theorem SameMemory.refl (s : State) : SameMemory s s := .of_eq rfl rfl rfl rfl

theorem SameMemory.trans {a b c : State} (h : SameMemory a b) (h' : SameMemory b c) : SameMemory a c :=
  ⟨fun x => (h'.dram x).trans (h.dram x), fun x => (h'.keys x).trans (h.keys x), fun x => (h'.vault x).trans (h.vault x), fun x => (h'.host x).trans (h.host x),
   fun k x => (h'.scratch k x).trans (h.scratch k x)⟩

theorem sameMemory_updThr (s : State) (r : Thr) (f : Thread → Thread) : SameMemory s (s.updThr r f) := by
  cases h : s.thr r with
  | none => rw [show s.updThr r f = s by simp [State.updThr, h]]; exact .refl s
  | some t =>
    rw [State.updThr_of f h]
    refine ⟨fun _ => rfl, fun _ => rfl, fun _ => rfl, fun _ => rfl, fun k a => ?_⟩
    rw [State.blk_updBlk]
    split
    · rename_i hk; subst hk
      rw [Option.map_map]
      congr 1
      funext b
      simp only [Function.comp]
      cases r.warp <;> rfl
    · rfl

theorem scratch_updThr (s : State) (r : Thr) (f : Thread → Thread) (k : Nat) : (((s.updThr r f)).blk k).map (·.scratch) = (s.blk k).map (·.scratch) := by
  cases h : s.thr r with
  | none => rw [show s.updThr r f = s by simp [State.updThr, h]]
  | some t =>
    rw [State.updThr_of f h, State.blk_updBlk]
    split
    · rename_i hk; subst hk
      rw [Option.map_map]; congr 1; funext b
      simp only [Function.comp]
      cases r.warp <;> rfl
    · rfl

/-! ### Blocks and threads -/

theorem updBlk_congr {s : State} {k : Nat} {b : Block} (f g : Block → Block) (h : s.blk k = some b) (e : f b = g b) : s.updBlk k f = s.updBlk k g := by
  have h' : s.blocks.look k = some b := h
  simp only [State.updBlk, Tab.upd, h', e]

theorem thr_updBlk {s : State} {r : Thr} {t : Thread} {b : Block} (f : Block → Block) (hb : s.blk r.block = some b) (h : s.thr r = some t)
   (hf : (f b).tel = b.tel ∧ (f b).warps = b.warps) : (s.updBlk r.block f).thr r = some t := by
  obtain ⟨b', hb', ht⟩ := State.thr_def h
  rw [hb] at hb'; obtain rfl := Option.some.inj hb'
  unfold State.thr
  rw [State.blk_updBlk, if_pos rfl, hb]
  simp only [Option.map_some]
  rw [← ht]
  unfold Block.thr
  cases r.warp with
  | none => simp [hf.1]
  | some w => simp [hf.2]

theorem thr_writeX (s : State) (x : Xlat) (bs : List Byte) (c : Bool) (r : Thr) : (s.writeX x bs c).thr r = s.thr r := by
  have := (memOnly_writeX s x bs c).blocks
  unfold State.thr State.blk
  rw [this]

theorem thr_mapThreads (s : State) (r : Thr) (f : Thread → Thread) :
    (({ s with blocks := Tab.mapVals s.blocks (fun b => b.mapThreads f) } : State)).thr r = (s.thr r).map f := by
  unfold State.thr State.blk
  simp only [Tab.look_mapVals]
  cases h : s.blocks.look r.block with
  | none => rfl
  | some b =>
    simp only [Option.map_some]
    cases r.warp with
    | none => rfl
    | some w =>
      show Tab.look (b.warps.map (fun (w, t) => (w, f t))) w = _
      exact look_map_keys b.warps (fun _ => f) w

theorem updThr_self {s : State} {r : Thr} {t : Thread} (h : s.thr r = some t) : (s.updThr r (fun _ => t)).thr r = some t := State.thr_updThr _ h

/-! ### Logs -/

theorem logError_frame (s : State) (p : Nat) (ctx : Option Nat) (e : ErrEntry) (irq : Bool) :
    ∃ plog pn pw f4 eq fr, s.logError p ctx e irq =
      { s with plog := plog, plogNext := pn, plogWrap := pw, f4buf := f4, errqs := eq, fresh := fr } := by
  unfold State.logError
  simp only
  split
  · exact ⟨_, _, _, _, _, _, rfl⟩
  · split
    · split
      · exact ⟨_, _, _, _, _, _, rfl⟩
      · exact ⟨_, _, _, _, _, _, rfl⟩
    · exact ⟨_, _, _, _, _, _, rfl⟩

theorem logItem_frame (s : State) (i c f : Nat) (a : Addr) :
    ∃ plog pn pw f4 eq fr, s.logItem i c f a =
      { s with plog := plog, plogNext := pn, plogWrap := pw, f4buf := f4, errqs := eq, fresh := fr } := by
  unfold State.logItem
  exact logError_frame ..

theorem logQueue_frame (s : State) (p q c : Nat) (w : Word) :
    ∃ plog pn pw f4 eq fr, s.logQueue p q c w =
      { s with plog := plog, plogNext := pn, plogWrap := pw, f4buf := f4, errqs := eq, fresh := fr } := logError_frame ..

/-! ### Translation -/

theorem fillTlb_frame (s : State) (core ctx : Nat) (va : Addr) : ∃ t, s.fillTlb core ctx va = { s with tlb := t } := by
  unfold State.fillTlb
  split
  · exact ⟨s.tlb, rfl⟩
  · exact ⟨_, rfl⟩
  · exact ⟨_, rfl⟩
  · split
    · exact ⟨_, rfl⟩
    · exact ⟨s.tlb, rfl⟩

theorem fillPlace_frame (s : State) (c : Nat) (p : Place) : ∃ tl, s.fillPlace c p = { s with tlb := tl } := by
  cases p with
  | scratch => exact ⟨s.tlb, rfl⟩
  | global ctx va => exact fillTlb_frame ..

/-! ### Queues, launches and items -/

theorem memOnly_writeRecord {s s' : State} {la : Launch} (h : s.writeRecord la = .ok s') : MemOnly s s' := by
  unfold State.writeRecord at h
  split at h
  · cases h
  · dsimp only at h
    cases e : s.ioWrite la.q _ _ _ _ with
    | error _ => rw [e] at h; cases h
    | ok u => rw [e] at h; exact (memOnly_ioWrite e).trans (memOnly_ioWrite h)

theorem askPage_frame (s : State) (w : Asker) (c p : Nat) :
    ∃ pri out n, s.askPage w c p = { s with pri := pri, toHost := out, nextId := n } := by
  unfold State.askPage
  split
  · exact ⟨s.pri, s.toHost, s.nextId, rfl⟩
  · exact ⟨_, _, _, rfl⟩

theorem queue_updQueue (s : State) (q j : Nat) (f : LQueue → LQueue) :
    (s.updQueue q f).queue j = if j = q then (s.queue q).map f else s.queue j := by
  simp [State.updQueue, State.queue]

theorem updQueue_congr {s : State} {q : Nat} {x : LQueue} (f g : LQueue → LQueue) (h : s.queue q = some x) (e : f x = g x) :
    s.updQueue q f = s.updQueue q g := by
  unfold State.updQueue
  rw [Tab.upd_congr _ _ f g]
  intro y hy
  rw [State.queue] at h
  rw [h] at hy
  cases hy; exact e

theorem completeLaunch_frame (s : State) (k : Nat) :
    (s.completeLaunch k).items = s.items ∧ (s.completeLaunch k).blocks = s.blocks ∧
      ∀ j, ((s.completeLaunch k).launches.look j).map (fun l => (l.cancelled, l.nextItem, l.requeued)) =
        (s.launches.look j).map (fun l => (l.cancelled, l.nextItem, l.requeued)) := by
  unfold State.completeLaunch
  split
  · exact ⟨rfl, rfl, fun _ => rfl⟩
  · rename_i la hla
    dsimp only
    generalize hm : (if la.cancelled = true then { la with errors := la.nitems - la.retiredN - la.late } else la) = m
    have e : (m.cancelled, m.nextItem, m.requeued) = (la.cancelled, la.nextItem, la.requeued) := by rw [← hm]; split <;> rfl
    have done : ∀ u : State, u.items = s.items → u.blocks = s.blocks →
        let v : State := (({ u with launches := s.launches.ins k { m with completed := true, triggered := true } } : State).updQueue m.q
          (·.packetDone m.seq)).forget (.queue m.q)
        v.items = s.items ∧ v.blocks = s.blocks ∧
          ∀ j, (v.launches.look j).map (fun l => (l.cancelled, l.nextItem, l.requeued)) =
            (s.launches.look j).map (fun l => (l.cancelled, l.nextItem, l.requeued)) := by
      intro u h1 h2
      refine ⟨h1, h2, fun j => ?_⟩
      show ((s.launches.ins k { m with completed := true, triggered := true }).look j).map _ = _
      rw [Tab.look_ins]
      split
      · rename_i h; subst h; rw [hla]; exact congrArg some e
      · rfl
    unfold State.ioThen
    split
    · rename_i x hx
      have := memOnly_writeRecord hx
      exact done x this.items this.blocks
    · exact done s rfl rfl
    · obtain ⟨_, _, _, h⟩ := askPage_frame s (.queue m.q) m.ctx _
      rw [h]; exact ⟨rfl, rfl, fun _ => rfl⟩

theorem checkLaunch_frame (s : State) (k : Nat) :
    (s.checkLaunch k).items = s.items ∧ (s.checkLaunch k).blocks = s.blocks ∧
      ∀ j, ((s.checkLaunch k).launches.look j).map (fun l => (l.cancelled, l.nextItem, l.requeued)) =
        (s.launches.look j).map (fun l => (l.cancelled, l.nextItem, l.requeued)) := by
  unfold State.checkLaunch
  split
  · exact ⟨rfl, rfl, fun _ => rfl⟩
  · split
    · exact completeLaunch_frame s k
    · exact ⟨rfl, rfl, fun _ => rfl⟩

theorem endItems_frame (s : State) (ks : List Nat) : (s.endItems ks).launches = s.launches ∧
   ∀ i, i ∉ ks → (s.endItems ks).items.look i = s.items.look i := by
  unfold State.endItems State.updItem
  induction ks generalizing s with
  | nil => exact ⟨rfl, fun _ _ => rfl⟩
  | cons k ks ih =>
    simp only [List.foldl_cons]
    obtain ⟨h1, h2⟩ := ih { s with items := s.items.upd k (fun it => { it with life := .done, cause := 0 }) }
    refine ⟨h1, fun i hi => ?_⟩
    rw [h2 i (fun h => hi (List.mem_cons_of_mem _ h))]
    simp only [Tab.look_upd]
    rw [if_neg (fun (h : i = k) => hi (by rw [h]; exact List.mem_cons_self ..))]

theorem haltItem_frame (s : State) (i : Nat) : (s.haltItem i).items = s.items ∧ (s.haltItem i).launches = s.launches ∧
    (s.haltItem i).queues = s.queues := by
  unfold State.haltItem
  suffices h : ∀ (l : List (Nat × Block)) (s : State),
      let s' := l.foldl (fun s (e : Nat × Block) =>
        if e.2.item ≠ i ∨ e.2.run = .killed then s
        else
          { s.updBlk e.1 Block.halt with
            strays := s.strays ++ e.2.threads.flatMap (fun (_, t) => t.strays e.2.gen e.1),
            engines := s.engines.map (fun (j, en) => (j, en.without e.1)) }) s
      s'.items = s.items ∧ s'.launches = s.launches ∧ s'.queues = s.queues from h _ s
  intro l
  induction l with
  | nil => intro s; exact ⟨rfl, rfl, rfl⟩
  | cons e l ih =>
    intro s
    simp only [List.foldl_cons]
    split
    · exact ih s
    · obtain ⟨h1, h2, h3⟩ := ih { s.updBlk e.1 Block.halt with
            strays := s.strays ++ e.2.threads.flatMap (fun (_, t) => t.strays e.2.gen e.1),
            engines := s.engines.map (fun (j, en) => (j, en.without e.1)) }
      exact ⟨h1, h2, h3⟩

theorem killPart_frame (s : State) (i c : Nat) (again : Bool) (a : Addr) :
    (s.killPart i c again a).items = s.items.upd i (fun it => { it with life := .killed, cause := c, again }) ∧
    (s.killPart i c again a).launches = s.launches := by
  unfold State.killPart
  obtain ⟨_, _, _, _, _, _, h⟩ := logItem_frame
    ((s.haltItem i).updItem i (fun it => { it with life := .killed, cause := c, again })) i c (if again then 2 else 4) a
  rw [h]
  exact ⟨by simp [State.updItem, (haltItem_frame s i).1], by simp [State.updItem, (haltItem_frame s i).2.1]⟩

theorem commitQcb_of (s : State) (q : Nat) (x : LQueue) (hq : s.queue q = some x) (hc : x.qcb.isSome = true) (d e : Qcb)
    (hd : qcbOf (readMem s.dram x.info.qcbA 64) = some d) (he : qcbOf (readMem s.dram x.info.qcbB 64) = some e) :
    s.commitQcb q = s.updQueue q (fun x => { x with qcb := some (if d.ver.toNat < e.ver.toNat then e else d) }) := by
  have : x.qcb.isNone = false := by cases h : x.qcb <;> simp_all
  simp only [State.commitQcb, hq, hd, he, newest, this, Bool.false_eq_true, if_false]

theorem commitQcb_frame (s : State) (j : Nat) : (s.commitQcb j).dram = s.dram ∧
    (∀ q, q ≠ j → (s.commitQcb j).queue q = s.queue q) := by
  unfold State.commitQcb
  split
  · exact ⟨rfl, fun _ _ => rfl⟩
  · split
    · exact ⟨rfl, fun _ _ => rfl⟩
    · dsimp only
      have key : ∀ (S : State) (f : LQueue → LQueue), S.dram = s.dram → S.queues = s.queues →
         (S.updQueue j f).dram = s.dram ∧ ∀ q, q ≠ j → (S.updQueue j f).queue q = s.queue q := by
        intro S f h1 h2
        refine ⟨h1, fun q hq => ?_⟩
        rw [queue_updQueue, if_neg hq]; unfold State.queue; rw [h2]
      apply key
      · split
        · unfold State.openContext; split
          · split <;> rfl
          · rfl
        · rfl
      · split
        · unfold State.openContext; split
          · split <;> rfl
          · rfl
        · rfl

theorem rollbackAll_frame (S : State) (part : Nat) : let S' := S.rollbackAll part; S'.dram = S.dram ∧ S'.vault = S.vault ∧ S'.host = S.host ∧ S'.blocks = S.blocks ∧ S'.parts = S.parts ∧ S'.tdis = S.tdis := by
  unfold State.rollbackAll
  dsimp only
  generalize S.reservations = l
  generalize S.launchesOf part = ls
  induction l generalizing S with
  | nil => exact ⟨rfl, rfl, rfl, rfl, rfl, rfl⟩
  | cons e l ih =>
    simp only [List.foldl_cons]
    split
    · exact ih (S.unreserve e.1)
    · exact ih S

structure Binds (s s' : State) : Prop where
  items : s'.items = s.items
  gangs : s'.gangs = s.gangs
  gen : s'.nextGen = s.nextGen
  launches : s'.launches = s.launches

theorem binds_fold (l : List Nat) (la : Launch) (i p g2 g n : Nat) (s : State) : Binds s (l.foldl (fun s b => s.bindBlock la i p g2 g b n) s) := by
  induction l generalizing s with
  | nil => exact ⟨rfl, rfl, rfl, rfl⟩
  | cons b l ih =>
    rw [List.foldl_cons]
    have h1 : Binds s (s.bindBlock la i p g2 g b n) := by
      unfold State.bindBlock; dsimp only; split
      · exact ⟨rfl, rfl, rfl, rfl⟩
      · exact ⟨rfl, rfl, rfl, rfl⟩
    have h2 := ih (s.bindBlock la i p g2 g b n)
    exact ⟨h2.items.trans h1.items, h2.gangs.trans h1.gangs, h2.gen.trans h1.gen, h2.launches.trans h1.launches⟩

/-! ### A halted item leaves the memories alone -/

def haltStep (i : Nat) (s : State) (e : Nat × Block) : State :=
  if e.2.item ≠ i ∨ e.2.run = .killed then s
        else
          { s.updBlk e.1 Block.halt with
            strays := s.strays ++ e.2.threads.flatMap (fun (_, t) => t.strays e.2.gen e.1),
            engines := s.engines.map (fun (j, en) => (j, en.without e.1)) }

theorem haltItem_eq (s : State) (i : Nat) : s.haltItem i = s.blocks.foldl (haltStep i) s := rfl

theorem halt_scratch (b : Block) : b.halt.scratch = b.scratch := rfl

theorem halt_run (b : Block) : b.halt.run = .killed := rfl

theorem haltFold_blk (i : Nat) (l : List (Nat × Block)) (s : State) (j : Nat) :
    ((l.foldl (haltStep i) s).blk j).map (·.scratch) = (s.blk j).map (·.scratch) ∧
    (l.foldl (haltStep i) s).dram = s.dram ∧ (l.foldl (haltStep i) s).vault = s.vault ∧ (l.foldl (haltStep i) s).host = s.host ∧
    ((s.blk j).map (·.run) = some .killed → ((l.foldl (haltStep i) s).blk j).map (·.run) = some .killed) ∧
    ((s.blk j).isSome = true → (∃ b, (j, b) ∈ l ∧ b.item = i ∧ b.run ≠ .killed) → ((l.foldl (haltStep i) s).blk j).map (·.run) = some .killed) := by
  induction l generalizing s with
  | nil => exact ⟨rfl, rfl, rfl, rfl, id, fun _ ⟨_, h, _⟩ => by cases h⟩
  | cons e l ih =>
    simp only [List.foldl_cons]
    obtain ⟨h1, h2, h3, h4, h5, h6⟩ := ih (haltStep i s e)
    have hb : (haltStep i s e).blk j = if e.2.item ≠ i ∨ e.2.run = .killed then s.blk j else if j = e.1 then (s.blk e.1).map Block.halt else s.blk j := by
      unfold haltStep
      split
      · rfl
      · exact State.blk_updBlk ..
    have hd : (haltStep i s e).dram = s.dram ∧ (haltStep i s e).vault = s.vault ∧ (haltStep i s e).host = s.host := by
      unfold haltStep; split <;> exact ⟨rfl, rfl, rfl⟩
    have hsc : ((haltStep i s e).blk j).map (·.scratch) = (s.blk j).map (·.scratch) := by
      rw [hb]; split
      · rfl
      · split
        · rename_i h; subst h; rw [Option.map_map]; rfl
        · rfl
    have hk : (s.blk j).map (·.run) = some .killed → ((haltStep i s e).blk j).map (·.run) = some .killed := by
      intro h
      rw [hb]; split
      · exact h
      · split
        · rename_i h'; subst h'
          cases hx : s.blk e.1 with
          | none => rw [hx] at h; cases h
          | some b => rfl
        · exact h
    refine ⟨h1.trans hsc, h2.trans hd.1, h3.trans hd.2.1, h4.trans hd.2.2, fun h => h5 (hk h), ?_⟩
    rintro hs ⟨b, hm, hb1, hb2⟩
    rcases List.mem_cons.mp hm with h | h
    · apply h5
      rw [hb, ← h]
      rw [if_neg (by simp [hb1, hb2]), if_pos rfl]
      cases hx : s.blk j with
      | none => rw [hx] at hs; cases hs
      | some b => rfl
    · apply h6 _ ⟨b, h, hb1, hb2⟩
      have := congrArg Option.isSome hsc
      simp only [Option.isSome_map] at this
      rw [this, hs]

theorem lineKeys_haltFold (i : Nat) (l : List (Nat × Block)) (s : State) : (l.foldl (haltStep i) s).lineKeys = s.lineKeys := by
  induction l generalizing s with
  | nil => rfl
  | cons e l ih =>
    rw [List.foldl_cons, ih]
    unfold haltStep
    split <;> rfl

theorem sameMemory_haltItem (s : State) (i : Nat) : SameMemory s (s.haltItem i) := by
  rw [haltItem_eq]
  refine ⟨fun a => ?_, fun l => by rw [lineKeys_haltFold], fun a => ?_, fun a => ?_, fun k a => ?_⟩
  · rw [(haltFold_blk i s.blocks s 0).2.1]
  · rw [(haltFold_blk i s.blocks s 0).2.2.1]
  · rw [(haltFold_blk i s.blocks s 0).2.2.2.1]
  · have := congrArg (Option.map (fun m : Mem => m.rd 0 a)) (haltFold_blk i s.blocks s k).1
    rw [Option.map_map, Option.map_map] at this
    exact this

theorem haltItem_killed (s : State) (i j : Nat) (b : Block) (h : s.blk j = some b) (hi : b.item = i) :
    ((s.haltItem i).blk j).map (·.run) = some .killed := by
  rw [haltItem_eq]
  by_cases hk : b.run = .killed
  · exact (haltFold_blk i s.blocks s j).2.2.2.2.1 (by rw [h]; simp [hk])
  · exact (haltFold_blk i s.blocks s j).2.2.2.2.2 (by rw [h]; rfl) ⟨b, look_mem h, hi, hk⟩

theorem killPart_same (s : State) (i c : Nat) (again : Bool) (a : Addr) : SameMemory s (s.killPart i c again a) ∧
   (s.killPart i c again a).blocks = (s.haltItem i).blocks := by
  unfold State.killPart
  obtain ⟨_, _, _, _, _, _, h⟩ := logItem_frame
    ((s.haltItem i).updItem i (fun it => { it with life := .killed, cause := c, again })) i c (if again then 2 else 4) a
  rw [h]
  exact ⟨(sameMemory_haltItem s i).trans (.of_eq rfl rfl rfl rfl), rfl⟩

/-! ### Time -/

theorem applyHeld_frame (s : State) : ∃ c, s.applyHeld = { s with ctxs := c } := by
  unfold State.applyHeld
  split
  · exact ⟨s.ctxs, rfl⟩
  · generalize s.ctxs = l
    have hput : ∀ (S : State) k i e, ∃ c, S.putBinding k i e = { S with ctxs := c } := by
      intro S k i e
      unfold State.putBinding
      split
      · exact ⟨S.ctxs, rfl⟩
      · split
        · exact ⟨_, rfl⟩
        · exact ⟨S.ctxs, rfl⟩
    have hputs : ∀ (l : List (Nat × BindEntry)) (S : State) k, ∃ c, l.foldl (fun s (x : Nat × BindEntry) => s.putBinding k x.1 x.2) S = { S with ctxs := c } := by
      intro l
      induction l with
      | nil => intro S k; exact ⟨S.ctxs, rfl⟩
      | cons e l ih =>
        intro S k
        obtain ⟨c, hc⟩ := hput S k e.1 e.2
        obtain ⟨d, hd⟩ := ih { S with ctxs := c } k
        exact ⟨d, by rw [List.foldl_cons, hc, hd]⟩
    suffices h : ∀ (l : List (Nat × Context)) (S : State), ∃ c, l.foldl (fun s (x : Nat × Context) =>
      if x.2.heldChange ≠ [] ∧ s.ctxIdle x.1 then
        x.2.heldChange.foldl (fun s (e : Nat × BindEntry) => s.putBinding x.1 e.1 e.2)
          { s with ctxs := s.ctxs.upd x.1 (fun c => { c with heldChange := [] }) }
      else s) S = { S with ctxs := c } from h l s
    intro l
    induction l with
    | nil => intro S; exact ⟨S.ctxs, rfl⟩
    | cons e l ih =>
      intro S
      simp only [List.foldl_cons]
      split
      · obtain ⟨c, hc⟩ := hputs e.2.heldChange { S with ctxs := S.ctxs.upd e.1 (fun c => { c with heldChange := [] }) } e.1
        rw [hc]
        exact ih { S with ctxs := c }
      · exact ih S

/-! ### Gates -/

/-- a quiet change: blocks differ in gates alone, no memory -/
structure GateOnly (s s' : State) : Prop where
  mem : SameMemory s s'
  ex : s'.exchanges = s.exchanges

theorem GateOnly.refl (s : State) : GateOnly s s := ⟨.refl s, rfl⟩

theorem GateOnly.trans {a b c : State} (h : GateOnly a b) (h' : GateOnly b c) : GateOnly a c := ⟨h.mem.trans h'.mem, h'.ex.trans h.ex⟩

theorem gateOnly_updGate (s : State) (k : Nat) (f : Gate → Gate) : GateOnly s (s.updGate k f) := by
  refine ⟨⟨fun _ => rfl, fun _ => rfl, fun _ => rfl, fun _ => rfl, fun j a => ?_⟩, rfl⟩
  unfold State.updGate
  rw [State.blk_updBlk]
  split
  · rename_i h; subst h; rw [Option.map_map]; rfl
  · rfl

theorem foldl_gateOnly {α : Type} (f : State → α → State) (hf : ∀ s x, GateOnly s (f s x)) (l : List α) (s : State) : GateOnly s (l.foldl f s) := by
  induction l generalizing s with
  | nil => exact .refl s
  | cons x l ih => exact (hf s x).trans (ih _)

theorem gateOnly_logItem (s : State) (i c f : Nat) (a : Addr) : GateOnly s (s.logItem i c f a) := by
  obtain ⟨_, _, _, _, _, _, h⟩ := logItem_frame s i c f a
  rw [h]; exact ⟨.of_eq rfl rfl rfl rfl, rfl⟩

theorem gateOnly_settleSlots (s : State) (e : Exchange) : GateOnly s (s.settleSlots e) := by
  unfold State.settleSlots
  split
  · exact .refl s
  · exact foldl_gateOnly _ (fun s x => gateOnly_updGate ..) _ _

theorem settle_frame (s : State) (key : Nat) (e : Exchange) : SameMemory s (s.settle key e) ∧ (s.settle key e).exchanges.look key = some e := by
  unfold State.settle
  dsimp only
  have h : ∀ S T : State, SameMemory s S → S.exchanges.look key = some e → GateOnly S T → SameMemory s (T.settleSlots e) ∧ (T.settleSlots e).exchanges.look key = some e := by
    intro S T h1 h2 h3
    have := h3.trans (gateOnly_settleSlots T e)
    exact ⟨h1.trans this.mem, by rw [this.ex]; exact h2⟩
  refine h { s with exchanges := s.exchanges.ins key e } _ (.of_eq rfl rfl rfl rfl) (by simp) ?_
  split
  · exact .refl _
  · refine GateOnly.trans (b := (e.pk0.toList ++ e.pk1.toList).foldl (fun s p => s.burnPacket e p) { s with exchanges := s.exchanges.ins key e })
      (foldl_gateOnly _ (fun s p => ?_) _ _) ?_
    · unfold State.burnPacket
      exact foldl_gateOnly _ (fun s x => gateOnly_updGate ..) _ _
    unfold State.logAbort
    exact foldl_gateOnly _ (fun s x => gateOnly_logItem ..) _ _

/-! ### Links -/

theorem pumpPort_frame (s : State) (p : Nat) : ∃ x out, s.pumpPort p = { s.setPort p x with toHost := s.toHost ++ out } := ⟨_, _, rfl⟩

theorem linkXlate_frame (s s' : State) (h : s' = { s with ports := s'.ports }) (c : Nat) (a : Addr) (n : Need) : s'.linkXlate c a n = s.linkXlate c a n := by
  rw [h]; rfl

theorem armed_postFired (t : Thread) (b : Bool) (r : Addr) : (t.postFired b r).armed = t.armed := by
  unfold Thread.postFired; split
  · rfl
  · split <;> rfl

/-! ### Engines -/

theorem engine_set (s : State) (c e : Nat) (x : Engine) : (s.setEngine c e x).engine c e = x := by
  simp [State.setEngine, State.engine]

theorem cmdOp_blk {s s' : State} {c : Cmd} {b b' : Block} {o : Op} (h : s.cmdOp c = some (b, o)) (hb : s.blk c.block = some b) (hb' : s'.blk c.block = some b') (ht : b'.tel.ops = b.tel.ops) :
    s'.cmdOp c = some (b', o) := by
  unfold State.cmdOp at *
  rw [hb] at h; rw [hb']
  simp only [Option.map_eq_some_iff, Prod.mk.injEq] at h ⊢
  obtain ⟨o', h1, _, h2⟩ := h
  exact ⟨o', by rw [ht]; exact h1, trivial, h2⟩

/-! ### Resumption -/

structure Keeps (s s' : State) (k : Nat) : Prop where
  keep : ∀ b, s.blk k = some b → ∃ c, s'.blk k = some c ∧ c.run = b.run ∧ c.evicted = b.evicted ∧ c.scratch = b.scratch ∧ c.tel.k = b.tel.k ∧
     ∀ w, (c.warps.look w).map (·.v) = (b.warps.look w).map (·.v)

theorem Keeps.refl (s : State) (k : Nat) : Keeps s s k := ⟨fun b h => ⟨b, h, rfl, rfl, rfl, rfl, fun _ => rfl⟩⟩

theorem Keeps.trans {a b c : State} {k : Nat} (h : Keeps a b k) (h' : Keeps b c k) : Keeps a c k := by
  refine ⟨fun x hx => ?_⟩
  obtain ⟨y, hy, e1, e2, e3, e4, e5⟩ := h.keep x hx
  obtain ⟨z, hz, f1, f2, f3, f4, f5⟩ := h'.keep y hy
  exact ⟨z, hz, f1.trans e1, f2.trans e2, f3.trans e3, f4.trans e4, fun w => (f5 w).trans (e5 w)⟩

theorem keeps_updThr (s : State) (k : Nat) (w : Option Nat) (f : Thread → Thread) (hf : ∀ t, (f t).k = t.k ∧ (f t).v = t.v) : Keeps s (s.updThr ⟨k, w⟩ f) k := by
  cases ht : s.thr ⟨k, w⟩ with
  | none => rw [show s.updThr ⟨k, w⟩ f = s by simp [State.updThr, ht]]; exact .refl ..
  | some t =>
    rw [State.updThr_of f ht]
    refine ⟨fun b hb => ⟨b.setThr w (f t), by rw [State.blk_updBlk, if_pos rfl, hb]; rfl, ?_⟩⟩
    obtain ⟨b', hb', h'⟩ := State.thr_def ht
    rw [show (⟨k, w⟩ : Thr).block = k from rfl, hb] at hb'
    obtain rfl := Option.some.inj hb'
    cases w with
    | none =>
      simp only [Block.thr, Option.some.injEq] at h'
      subst h'
      exact ⟨rfl, rfl, rfl, (hf _).1, fun _ => rfl⟩
    | some n =>
      refine ⟨rfl, rfl, rfl, rfl, fun j => ?_⟩
      simp only [Block.thr] at h'
      simp only [Block.setThr, Tab.look_upd]
      split
      · rename_i e; subst e
        rw [h']; simp [(hf t).2]
      · rfl

theorem keeps_reissue (s : State) (k : Nat) (w : Option Nat) : Keeps s (s.reissue ⟨k, w⟩) k := by
  refine keeps_updThr s k w _ (fun t => ?_)
  have : ∀ (l : List Op) (u : Thread), (l.foldl Thread.renew u).k = u.k ∧ (l.foldl Thread.renew u).v = u.v := by
    intro l
    induction l with
    | nil => intro u; exact ⟨rfl, rfl⟩
    | cons o l ih =>
      intro u
      obtain ⟨h1, h2⟩ := ih (u.renew o)
      have : (u.renew o).k = u.k ∧ (u.renew o).v = u.v := by unfold Thread.renew; split <;> exact ⟨rfl, rfl⟩
      exact ⟨h1.trans this.1, h2.trans this.2⟩
  exact this t.withdrawn { t with withdrawn := [] }

theorem keeps_reissueAll (s : State) (k : Nat) : Keeps s (s.reissueAll k) k := by
  unfold State.reissueAll
  split
  · exact .refl ..
  · rename_i b hb
    generalize b.threads = l
    clear hb
    induction l generalizing s with
    | nil => exact .refl ..
    | cons e l ih =>
      rw [List.foldl_cons]
      refine Keeps.trans ?_ (ih _)
      obtain ⟨w, t⟩ := e
      by_cases h : t.due.isSome = true
      · simp only [h, if_true]; exact .refl ..
      · simp only [h]; exact keeps_reissue ..

theorem dropCwait_keeps (t : Thread) : t.dropCwait.k = t.k ∧ t.dropCwait.v = t.v ∧ t.dropCwait.p = t.p ∧ t.dropCwait.m = t.m ∧ t.dropCwait.lpc = t.lpc := by
  unfold Thread.dropCwait; split <;> exact ⟨rfl, rfl, rfl, rfl, rfl⟩

end Sys2Proof.Machine
end

