-- ==== Sys2Proof/Laws/PerInstr.lean ====
section
/-! SUPPORT. What the first word of every well-formed instruction says: its length, and that it is no clause header. The
events have no words and are not well formed. -/

namespace Sys2Proof

/-- The first word of an instruction's encoding. -/
def Instr.firstWord (i : Instr) : Word := (encode i).headD 0

/-- The statement of the family: the first word gives the instruction's length in words, and its MAJ is no header's. -/
def Laws.FirstWord.Statement (i : Instr) : Prop :=
  ∀ (side : Side) (lim : Limits), i.wellFormed side lim = true →
    wordsOfLen (lenOf i.firstWord) = i.size ∧ majOf i.firstWord ≠ 0

theorem lenOf_extWord0 (opc : Nat) (x : Ext) : lenOf (extWord0 opc x) = if x.lit.isSome then 3 else 1 := by
  apply BitVec.eq_of_getElem_eq
  intro j hj
  simp only [lenOf, extWord0, BitVec.getElem_extractLsb', BitVec.getLsbD_append]
  split <;> simp [hj] <;> omega

theorem majOf_extWord0 (opc : Nat) (x : Ext) : majOf (extWord0 opc x) = BitVec.ofNat 6 (opc / 256) := by
  apply BitVec.eq_of_getElem_eq
  intro j hj
  simp only [majOf, extWord0, BitVec.getElem_extractLsb', BitVec.getLsbD_append]
  have h1 : ¬ 2 + j < 2 := by omega
  have h3 : 2 + j - 2 = j := by omega
  simp [h1, h3, hj, BitVec.getLsbD_eq_getElem]

theorem lenOf_compactWord (opc : Nat) (c : Compact) : lenOf (compactWord opc c) = if c.lit.isSome then 2 else 0 := by
  apply BitVec.eq_of_getElem_eq
  intro j hj
  simp only [lenOf, compactWord, BitVec.getElem_extractLsb', BitVec.getLsbD_append]
  split <;> simp [hj] <;> omega

theorem majOf_compactWord (opc : Nat) (c : Compact) : majOf (compactWord opc c) = BitVec.ofNat 6 (opc / 4) := by
  apply BitVec.eq_of_getElem_eq
  intro j hj
  simp only [majOf, compactWord, BitVec.getElem_extractLsb', BitVec.getLsbD_append]
  have h1 : ¬ 2 + j < 2 := by omega
  have h3 : 2 + j - 2 = j := by omega
  simp [h1, h3, hj, BitVec.getLsbD_eq_getElem]

/-- An extended form meets the family's statement where its MAJ is not 0. -/
theorem firstWord_ext {i : Instr} {x : Ext} (n : Nat) (h : i.ext? = some x) (ho : i.opcode = n)
    (hm : BitVec.ofNat 6 (n / 256) ≠ 0) :
    Laws.FirstWord.Statement i := by
  intro _ _ _
  have he : encode i = extWord0 i.opcode x :: extWord1 x :: extWord2 x :: litWords x.lit := by simp only [encode, h]
  refine ⟨?_, ?_⟩
  · simp only [Instr.firstWord, Instr.size, he, List.headD_cons, lenOf_extWord0]
    cases x.lit <;> rfl
  · simp only [Instr.firstWord, he, List.headD_cons, majOf_extWord0, ho]
    exact hm

/-- A compact form meets the family's statement where its MAJ is not 0. -/
theorem firstWord_compact {i : Instr} {c : Compact} (n : Nat) (h : i.ext? = none) (h' : i.compact? = some c)
    (ho : i.compactOpcode = n) (hm : BitVec.ofNat 6 (n / 4) ≠ 0) : Laws.FirstWord.Statement i := by
  intro _ _ _
  have he : encode i = compactWord i.compactOpcode c :: litWords c.lit := by simp only [encode, h, h']
  refine ⟨?_, ?_⟩
  · simp only [Instr.firstWord, Instr.size, he, List.headD_cons, lenOf_compactWord]
    cases c.lit <;> rfl
  · simp only [Instr.firstWord, he, List.headD_cons, majOf_compactWord, ho]
    exact hm

/-- An event is not well formed. -/
theorem firstWord_event {i : Instr} (h : ∀ side lim, i.wellFormed side lim = false) : Laws.FirstWord.Statement i := by
  intro side lim hw
  rw [h side lim] at hw
  cases hw

theorem Laws.FirstWord.bra (x : Ext) : Statement (.bra x) := firstWord_ext 0x0100 rfl rfl (by decide)
theorem Laws.FirstWord.btab (x : Ext) : Statement (.btab x) := firstWord_ext 0x0101 rfl rfl (by decide)
theorem Laws.FirstWord.call (x : Ext) : Statement (.call x) := firstWord_ext 0x0102 rfl rfl (by decide)
theorem Laws.FirstWord.callt (x : Ext) : Statement (.callt x) := firstWord_ext 0x0103 rfl rfl (by decide)
theorem Laws.FirstWord.ret (x : Ext) : Statement (.ret x) := firstWord_ext 0x0104 rfl rfl (by decide)
theorem Laws.FirstWord.join (x : Ext) : Statement (.join x) := firstWord_ext 0x0200 rfl rfl (by decide)
theorem Laws.FirstWord.leave (x : Ext) : Statement (.leave x) := firstWord_ext 0x0201 rfl rfl (by decide)
theorem Laws.FirstWord.waitm (x : Ext) : Statement (.waitm x) := firstWord_ext 0x0202 rfl rfl (by decide)
theorem Laws.FirstWord.mmov (x : Ext) : Statement (.mmov x) := firstWord_ext 0x0203 rfl rfl (by decide)
theorem Laws.FirstWord.mrd (x : Ext) : Statement (.mrd x) := firstWord_ext 0x0204 rfl rfl (by decide)
theorem Laws.FirstWord.exit (x : Ext) : Statement (.exit x) := firstWord_ext 0x0300 rfl rfl (by decide)
theorem Laws.FirstWord.yield (x : Ext) : Statement (.yield x) := firstWord_ext 0x0301 rfl rfl (by decide)
theorem Laws.FirstWord.nop (x : Ext) : Statement (.nop x) := firstWord_ext 0x0302 rfl rfl (by decide)
theorem Laws.FirstWord.trap (x : Ext) : Statement (.trap x) := firstWord_ext 0x0303 rfl rfl (by decide)
theorem Laws.FirstWord.bkpt (x : Ext) : Statement (.bkpt x) := firstWord_ext 0x0304 rfl rfl (by decide)
theorem Laws.FirstWord.iadd (x : Ext) : Statement (.iadd x) := firstWord_ext 0x0800 rfl rfl (by decide)
theorem Laws.FirstWord.iaddCompact (c : Compact) : Statement (.iaddCompact c) := firstWord_compact (32) rfl rfl rfl (by decide)
theorem Laws.FirstWord.isub (x : Ext) : Statement (.isub x) := firstWord_ext 0x0801 rfl rfl (by decide)
theorem Laws.FirstWord.isubCompact (c : Compact) : Statement (.isubCompact c) := firstWord_compact (33) rfl rfl rfl (by decide)
theorem Laws.FirstWord.ineg (x : Ext) : Statement (.ineg x) := firstWord_ext 0x0802 rfl rfl (by decide)
theorem Laws.FirstWord.inegCompact (c : Compact) : Statement (.inegCompact c) := firstWord_compact (34) rfl rfl rfl (by decide)
theorem Laws.FirstWord.iabs (x : Ext) : Statement (.iabs x) := firstWord_ext 0x0803 rfl rfl (by decide)
theorem Laws.FirstWord.iabsCompact (c : Compact) : Statement (.iabsCompact c) := firstWord_compact (35) rfl rfl rfl (by decide)
theorem Laws.FirstWord.imin (x : Ext) : Statement (.imin x) := firstWord_ext 0x0804 rfl rfl (by decide)
theorem Laws.FirstWord.imax (x : Ext) : Statement (.imax x) := firstWord_ext 0x0805 rfl rfl (by decide)
theorem Laws.FirstWord.imul (x : Ext) : Statement (.imul x) := firstWord_ext 0x0900 rfl rfl (by decide)
theorem Laws.FirstWord.imulh (x : Ext) : Statement (.imulh x) := firstWord_ext 0x0901 rfl rfl (by decide)
theorem Laws.FirstWord.imad (x : Ext) : Statement (.imad x) := firstWord_ext 0x0902 rfl rfl (by decide)
theorem Laws.FirstWord.imad64 (x : Ext) : Statement (.imad64 x) := firstWord_ext 0x0903 rfl rfl (by decide)
theorem Laws.FirstWord.iadd64 (x : Ext) : Statement (.iadd64 x) := firstWord_ext 0x0904 rfl rfl (by decide)
theorem Laws.FirstWord.isub64 (x : Ext) : Statement (.isub64 x) := firstWord_ext 0x0905 rfl rfl (by decide)
theorem Laws.FirstWord.and (x : Ext) : Statement (.and x) := firstWord_ext 0x0A00 rfl rfl (by decide)
theorem Laws.FirstWord.andCompact (c : Compact) : Statement (.andCompact c) := firstWord_compact (40) rfl rfl rfl (by decide)
theorem Laws.FirstWord.or (x : Ext) : Statement (.or x) := firstWord_ext 0x0A01 rfl rfl (by decide)
theorem Laws.FirstWord.orCompact (c : Compact) : Statement (.orCompact c) := firstWord_compact (41) rfl rfl rfl (by decide)
theorem Laws.FirstWord.xor (x : Ext) : Statement (.xor x) := firstWord_ext 0x0A02 rfl rfl (by decide)
theorem Laws.FirstWord.xorCompact (c : Compact) : Statement (.xorCompact c) := firstWord_compact (42) rfl rfl rfl (by decide)
theorem Laws.FirstWord.andn (x : Ext) : Statement (.andn x) := firstWord_ext 0x0A03 rfl rfl (by decide)
theorem Laws.FirstWord.andnCompact (c : Compact) : Statement (.andnCompact c) := firstWord_compact (43) rfl rfl rfl (by decide)
theorem Laws.FirstWord.not (x : Ext) : Statement (.not x) := firstWord_ext 0x0A04 rfl rfl (by decide)
theorem Laws.FirstWord.sel (x : Ext) : Statement (.sel x) := firstWord_ext 0x0A05 rfl rfl (by decide)
theorem Laws.FirstWord.shl (x : Ext) : Statement (.shl x) := firstWord_ext 0x0B00 rfl rfl (by decide)
theorem Laws.FirstWord.shlCompact (c : Compact) : Statement (.shlCompact c) := firstWord_compact (44) rfl rfl rfl (by decide)
theorem Laws.FirstWord.shr (x : Ext) : Statement (.shr x) := firstWord_ext 0x0B01 rfl rfl (by decide)
theorem Laws.FirstWord.shrCompact (c : Compact) : Statement (.shrCompact c) := firstWord_compact (45) rfl rfl rfl (by decide)
theorem Laws.FirstWord.sar (x : Ext) : Statement (.sar x) := firstWord_ext 0x0B02 rfl rfl (by decide)
theorem Laws.FirstWord.sarCompact (c : Compact) : Statement (.sarCompact c) := firstWord_compact (46) rfl rfl rfl (by decide)
theorem Laws.FirstWord.rol (x : Ext) : Statement (.rol x) := firstWord_ext 0x0B03 rfl rfl (by decide)
theorem Laws.FirstWord.rolCompact (c : Compact) : Statement (.rolCompact c) := firstWord_compact (47) rfl rfl rfl (by decide)
theorem Laws.FirstWord.bfx (x : Ext) : Statement (.bfx x) := firstWord_ext 0x0B04 rfl rfl (by decide)
theorem Laws.FirstWord.bfi (x : Ext) : Statement (.bfi x) := firstWord_ext 0x0B05 rfl rfl (by decide)
theorem Laws.FirstWord.brev (x : Ext) : Statement (.brev x) := firstWord_ext 0x0B06 rfl rfl (by decide)
theorem Laws.FirstWord.clz (x : Ext) : Statement (.clz x) := firstWord_ext 0x0B07 rfl rfl (by decide)
theorem Laws.FirstWord.popc (x : Ext) : Statement (.popc x) := firstWord_ext 0x0B08 rfl rfl (by decide)
theorem Laws.FirstWord.icmp (x : Ext) : Statement (.icmp x) := firstWord_ext 0x0C00 rfl rfl (by decide)
theorem Laws.FirstWord.iset (x : Ext) : Statement (.iset x) := firstWord_ext 0x0C01 rfl rfl (by decide)
theorem Laws.FirstWord.plop (x : Ext) : Statement (.plop x) := firstWord_ext 0x0C02 rfl rfl (by decide)
theorem Laws.FirstWord.mov (x : Ext) : Statement (.mov x) := firstWord_ext 0x0D00 rfl rfl (by decide)
theorem Laws.FirstWord.movCompact (c : Compact) : Statement (.movCompact c) := firstWord_compact (52) rfl rfl rfl (by decide)
theorem Laws.FirstWord.movl (f : MovlForm) : Statement (.movl f) := by
  cases f with
  | ext x => exact firstWord_ext 0x0D01 rfl rfl (by decide)
  | compact c => exact firstWord_compact (53) rfl rfl rfl (by decide)
theorem Laws.FirstWord.lea (x : Ext) : Statement (.lea x) := firstWord_ext 0x0D02 rfl rfl (by decide)
theorem Laws.FirstWord.sread (x : Ext) : Statement (.sread x) := firstWord_ext 0x0D03 rfl rfl (by decide)
theorem Laws.FirstWord.fadd (x : Ext) : Statement (.fadd x) := firstWord_ext 0x1000 rfl rfl (by decide)
theorem Laws.FirstWord.faddCompact (c : Compact) : Statement (.faddCompact c) := firstWord_compact (64) rfl rfl rfl (by decide)
theorem Laws.FirstWord.fsub (x : Ext) : Statement (.fsub x) := firstWord_ext 0x1001 rfl rfl (by decide)
theorem Laws.FirstWord.fsubCompact (c : Compact) : Statement (.fsubCompact c) := firstWord_compact (65) rfl rfl rfl (by decide)
theorem Laws.FirstWord.fmul (x : Ext) : Statement (.fmul x) := firstWord_ext 0x1002 rfl rfl (by decide)
theorem Laws.FirstWord.fmulCompact (c : Compact) : Statement (.fmulCompact c) := firstWord_compact (66) rfl rfl rfl (by decide)
theorem Laws.FirstWord.ffma (x : Ext) : Statement (.ffma x) := firstWord_ext 0x1003 rfl rfl (by decide)
theorem Laws.FirstWord.ffmaCompact (c : Compact) : Statement (.ffmaCompact c) := firstWord_compact (67) rfl rfl rfl (by decide)
theorem Laws.FirstWord.fmin (x : Ext) : Statement (.fmin x) := firstWord_ext 0x1004 rfl rfl (by decide)
theorem Laws.FirstWord.fmax (x : Ext) : Statement (.fmax x) := firstWord_ext 0x1005 rfl rfl (by decide)
theorem Laws.FirstWord.frcp (x : Ext) : Statement (.frcp x) := firstWord_ext 0x1100 rfl rfl (by decide)
theorem Laws.FirstWord.frsq (x : Ext) : Statement (.frsq x) := firstWord_ext 0x1101 rfl rfl (by decide)
theorem Laws.FirstWord.fsqrt (x : Ext) : Statement (.fsqrt x) := firstWord_ext 0x1102 rfl rfl (by decide)
theorem Laws.FirstWord.fexp2 (x : Ext) : Statement (.fexp2 x) := firstWord_ext 0x1103 rfl rfl (by decide)
theorem Laws.FirstWord.flog2 (x : Ext) : Statement (.flog2 x) := firstWord_ext 0x1104 rfl rfl (by decide)
theorem Laws.FirstWord.frnd (x : Ext) : Statement (.frnd x) := firstWord_ext 0x1105 rfl rfl (by decide)
theorem Laws.FirstWord.fclass (x : Ext) : Statement (.fclass x) := firstWord_ext 0x1106 rfl rfl (by decide)
theorem Laws.FirstWord.fcmp (x : Ext) : Statement (.fcmp x) := firstWord_ext 0x1200 rfl rfl (by decide)
theorem Laws.FirstWord.fset (x : Ext) : Statement (.fset x) := firstWord_ext 0x1201 rfl rfl (by decide)
theorem Laws.FirstWord.hadd2 (x : Ext) : Statement (.hadd2 x) := firstWord_ext 0x1300 rfl rfl (by decide)
theorem Laws.FirstWord.hmul2 (x : Ext) : Statement (.hmul2 x) := firstWord_ext 0x1301 rfl rfl (by decide)
theorem Laws.FirstWord.hfma2 (x : Ext) : Statement (.hfma2 x) := firstWord_ext 0x1302 rfl rfl (by decide)
theorem Laws.FirstWord.hmin2 (x : Ext) : Statement (.hmin2 x) := firstWord_ext 0x1303 rfl rfl (by decide)
theorem Laws.FirstWord.hmax2 (x : Ext) : Statement (.hmax2 x) := firstWord_ext 0x1304 rfl rfl (by decide)
theorem Laws.FirstWord.cvt (x : Ext) : Statement (.cvt x) := firstWord_ext 0x1800 rfl rfl (by decide)
theorem Laws.FirstWord.pk8 (x : Ext) : Statement (.pk8 x) := firstWord_ext 0x1801 rfl rfl (by decide)
theorem Laws.FirstWord.upk8 (x : Ext) : Statement (.upk8 x) := firstWord_ext 0x1802 rfl rfl (by decide)
theorem Laws.FirstWord.qvec (x : Ext) : Statement (.qvec x) := firstWord_ext 0x1900 rfl rfl (by decide)
theorem Laws.FirstWord.dqv (x : Ext) : Statement (.dqv x) := firstWord_ext 0x1901 rfl rfl (by decide)
theorem Laws.FirstWord.trpk (x : Ext) : Statement (.trpk x) := firstWord_ext 0x1A00 rfl rfl (by decide)
theorem Laws.FirstWord.trup (x : Ext) : Statement (.trup x) := firstWord_ext 0x1A01 rfl rfl (by decide)
theorem Laws.FirstWord.trchk (x : Ext) : Statement (.trchk x) := firstWord_ext 0x1A02 rfl rfl (by decide)
theorem Laws.FirstWord.lxch (x : Ext) : Statement (.lxch x) := firstWord_ext 0x1C00 rfl rfl (by decide)
theorem Laws.FirstWord.vote (x : Ext) : Statement (.vote x) := firstWord_ext 0x1C01 rfl rfl (by decide)
theorem Laws.FirstWord.redux (x : Ext) : Statement (.redux x) := firstWord_ext 0x1C02 rfl rfl (by decide)
theorem Laws.FirstWord.scan (x : Ext) : Statement (.scan x) := firstWord_ext 0x1C03 rfl rfl (by decide)
theorem Laws.FirstWord.matchLanes (x : Ext) : Statement (.matchLanes x) := firstWord_ext 0x1C04 rfl rfl (by decide)
theorem Laws.FirstWord.firstLane (x : Ext) : Statement (.firstLane x) := firstWord_ext 0x1C05 rfl rfl (by decide)
theorem Laws.FirstWord.ld (x : Ext) : Statement (.ld x) := firstWord_ext 0x2000 rfl rfl (by decide)
theorem Laws.FirstWord.ldCompact (c : Compact) : Statement (.ldCompact c) := firstWord_compact (128) rfl rfl rfl (by decide)
theorem Laws.FirstWord.st (x : Ext) : Statement (.st x) := firstWord_ext 0x2001 rfl rfl (by decide)
theorem Laws.FirstWord.stCompact (c : Compact) : Statement (.stCompact c) := firstWord_compact (129) rfl rfl rfl (by decide)
theorem Laws.FirstWord.lds (x : Ext) : Statement (.lds x) := firstWord_ext 0x2100 rfl rfl (by decide)
theorem Laws.FirstWord.ldsCompact (c : Compact) : Statement (.ldsCompact c) := firstWord_compact (132) rfl rfl rfl (by decide)
theorem Laws.FirstWord.sts (x : Ext) : Statement (.sts x) := firstWord_ext 0x2101 rfl rfl (by decide)
theorem Laws.FirstWord.stsCompact (c : Compact) : Statement (.stsCompact c) := firstWord_compact (133) rfl rfl rfl (by decide)
theorem Laws.FirstWord.ldg (x : Ext) : Statement (.ldg x) := firstWord_ext 0x2200 rfl rfl (by decide)
theorem Laws.FirstWord.ldgCompact (c : Compact) : Statement (.ldgCompact c) := firstWord_compact (136) rfl rfl rfl (by decide)
theorem Laws.FirstWord.stg (x : Ext) : Statement (.stg x) := firstWord_ext 0x2201 rfl rfl (by decide)
theorem Laws.FirstWord.stgCompact (c : Compact) : Statement (.stgCompact c) := firstWord_compact (137) rfl rfl rfl (by decide)
theorem Laws.FirstWord.ldc (x : Ext) : Statement (.ldc x) := firstWord_ext 0x2300 rfl rfl (by decide)
theorem Laws.FirstWord.pref (x : Ext) : Statement (.pref x) := firstWord_ext 0x2301 rfl rfl (by decide)
theorem Laws.FirstWord.stz (x : Ext) : Statement (.stz x) := firstWord_ext 0x2302 rfl rfl (by decide)
theorem Laws.FirstWord.atom (x : Ext) : Statement (.atom x) := firstWord_ext 0x2800 rfl rfl (by decide)
theorem Laws.FirstWord.cas (x : Ext) : Statement (.cas x) := firstWord_ext 0x2801 rfl rfl (by decide)
theorem Laws.FirstWord.atomr (x : Ext) : Statement (.atomr x) := firstWord_ext 0x2900 rfl rfl (by decide)
theorem Laws.FirstWord.rel (x : Ext) : Statement (.rel x) := firstWord_ext 0x2901 rfl rfl (by decide)
theorem Laws.FirstWord.acq (x : Ext) : Statement (.acq x) := firstWord_ext 0x2A00 rfl rfl (by decide)
theorem Laws.FirstWord.etrig (x : Ext) : Statement (.etrig x) := firstWord_ext 0x2B00 rfl rfl (by decide)
theorem Laws.FirstWord.cpy (x : Ext) : Statement (.cpy x) := firstWord_ext 0x2C00 rfl rfl (by decide)
theorem Laws.FirstWord.cwait (x : Ext) : Statement (.cwait x) := firstWord_ext 0x2D00 rfl rfl (by decide)
theorem Laws.FirstWord.cread (x : Ext) : Statement (.cread x) := firstWord_ext 0x2D01 rfl rfl (by decide)
theorem Laws.FirstWord.gath (x : Ext) : Statement (.gath x) := firstWord_ext 0x3000 rfl rfl (by decide)
theorem Laws.FirstWord.tlds (x : Ext) : Statement (.tlds x) := firstWord_ext 0x3001 rfl rfl (by decide)
theorem Laws.FirstWord.tsts (x : Ext) : Statement (.tsts x) := firstWord_ext 0x3002 rfl rfl (by decide)
theorem Laws.FirstWord.tzero (x : Ext) : Statement (.tzero x) := firstWord_ext 0x3003 rfl rfl (by decide)
theorem Laws.FirstWord.vld (x : Ext) : Statement (.vld x) := firstWord_ext 0x3100 rfl rfl (by decide)
theorem Laws.FirstWord.tmma (x : Ext) : Statement (.tmma x) := firstWord_ext 0x3200 rfl rfl (by decide)
theorem Laws.FirstWord.fmma (x : Ext) : Statement (.fmma x) := firstWord_ext 0x3201 rfl rfl (by decide)
theorem Laws.FirstWord.drain (x : Ext) : Statement (.drain x) := firstWord_ext 0x3300 rfl rfl (by decide)
theorem Laws.FirstWord.aclr (x : Ext) : Statement (.aclr x) := firstWord_ext 0x3301 rfl rfl (by decide)
theorem Laws.FirstWord.astat (x : Ext) : Statement (.astat x) := firstWord_ext 0x3302 rfl rfl (by decide)
theorem Laws.FirstWord.tcpy (x : Ext) : Statement (.tcpy x) := firstWord_ext 0x3400 rfl rfl (by decide)
theorem Laws.FirstWord.evwait (x : Ext) : Statement (.evwait x) := firstWord_ext 0x3500 rfl rfl (by decide)
theorem Laws.FirstWord.evpop (x : Ext) : Statement (.evpop x) := firstWord_ext 0x3501 rfl rfl (by decide)
theorem Laws.FirstWord.eqstat (x : Ext) : Statement (.eqstat x) := firstWord_ext 0x3502 rfl rfl (by decide)
theorem Laws.FirstWord.lsend (x : Ext) : Statement (.lsend x) := firstWord_ext 0x3600 rfl rfl (by decide)
theorem Laws.FirstWord.larm (x : Ext) : Statement (.larm x) := firstWord_ext 0x3601 rfl rfl (by decide)
theorem Laws.FirstWord.ldisarm (x : Ext) : Statement (.ldisarm x) := firstWord_ext 0x3602 rfl rfl (by decide)
theorem Laws.FirstWord.saddc (x : Ext) : Statement (.saddc x) := firstWord_ext 0x3800 rfl rfl (by decide)
theorem Laws.FirstWord.smulc (x : Ext) : Statement (.smulc x) := firstWord_ext 0x3801 rfl rfl (by decide)
theorem Laws.FirstWord.strunc (x : Ext) : Statement (.strunc x) := firstWord_ext 0x3802 rfl rfl (by decide)
theorem Laws.FirstWord.gsnd (x : Ext) : Statement (.gsnd x) := firstWord_ext 0x3900 rfl rfl (by decide)
theorem Laws.FirstWord.gfin (x : Ext) : Statement (.gfin x) := firstWord_ext 0x3901 rfl rfl (by decide)
theorem Laws.FirstWord.gstat (x : Ext) : Statement (.gstat x) := firstWord_ext 0x3902 rfl rfl (by decide)
theorem Laws.FirstWord.gxand (x : Ext) : Statement (.gxand x) := firstWord_ext 0x3A00 rfl rfl (by decide)
theorem Laws.FirstWord.edab (x : Ext) : Statement (.edab x) := firstWord_ext 0x3A01 rfl rfl (by decide)
theorem Laws.FirstWord.gopen (x : Ext) : Statement (.gopen x) := firstWord_ext 0x3A02 rfl rfl (by decide)
theorem Laws.FirstWord.csrr (x : Ext) : Statement (.csrr x) := firstWord_ext 0x3C00 rfl rfl (by decide)
theorem Laws.FirstWord.csrw (x : Ext) : Statement (.csrw x) := firstWord_ext 0x3C01 rfl rfl (by decide)
theorem Laws.FirstWord.csrs (x : Ext) : Statement (.csrs x) := firstWord_ext 0x3C02 rfl rfl (by decide)
theorem Laws.FirstWord.csrc (x : Ext) : Statement (.csrc x) := firstWord_ext 0x3C03 rfl rfl (by decide)
theorem Laws.FirstWord.rte (x : Ext) : Statement (.rte x) := firstWord_ext 0x3D00 rfl rfl (by decide)
theorem Laws.FirstWord.hcall (x : Ext) : Statement (.hcall x) := firstWord_ext 0x3D01 rfl rfl (by decide)
theorem Laws.FirstWord.clk (x : Ext) : Statement (.clk x) := firstWord_ext 0x3D02 rfl rfl (by decide)
theorem Laws.FirstWord.sleep (x : Ext) : Statement (.sleep x) := firstWord_ext 0x3D03 rfl rfl (by decide)
theorem Laws.FirstWord.clauseBoundary (t : Thr) :
    Statement (.clauseBoundary t) := firstWord_event (fun _ _ => rfl)
theorem Laws.FirstWord.issueSlotGrant (core : Nat) :
    Statement (.issueSlotGrant core) := firstWord_event (fun _ _ => rfl)
theorem Laws.FirstWord.streamStallEnd (t : Thr) :
    Statement (.streamStallEnd t) := firstWord_event (fun _ _ => rfl)
theorem Laws.FirstWord.operationComplete (op : Nat) :
    Statement (.operationComplete op) := firstWord_event (fun _ _ => rfl)
theorem Laws.FirstWord.operationFault (op : Nat) :
    Statement (.operationFault op) := firstWord_event (fun _ _ => rfl)
theorem Laws.FirstWord.releasePerform (op : Nat) :
    Statement (.releasePerform op) := firstWord_event (fun _ _ => rfl)
theorem Laws.FirstWord.waitgeSatisfied (op : Nat) :
    Statement (.waitgeSatisfied op) := firstWord_event (fun _ _ => rfl)
theorem Laws.FirstWord.cwaitSatisfied (t : Thr) :
    Statement (.cwaitSatisfied t) := firstWord_event (fun _ _ => rfl)
theorem Laws.FirstWord.evwaitSatisfied (t : Thr) :
    Statement (.evwaitSatisfied t) := firstWord_event (fun _ _ => rfl)
theorem Laws.FirstWord.sleepEnd (t : Thr) :
    Statement (.sleepEnd t) := firstWord_event (fun _ _ => rfl)
theorem Laws.FirstWord.hcallReply (t : Thr) :
    Statement (.hcallReply t) := firstWord_event (fun _ _ => rfl)
theorem Laws.FirstWord.hcallTimeout (t : Thr) :
    Statement (.hcallTimeout t) := firstWord_event (fun _ _ => rfl)
theorem Laws.FirstWord.counterAdd (op : Nat) :
    Statement (.counterAdd op) := firstWord_event (fun _ _ => rfl)
theorem Laws.FirstWord.engineCommandStart (core eng : Nat) :
    Statement (.engineCommandStart core eng) := firstWord_event (fun _ _ => rfl)
theorem Laws.FirstWord.engineCommandComplete (core eng : Nat) :
    Statement (.engineCommandComplete core eng) := firstWord_event (fun _ _ => rfl)
theorem Laws.FirstWord.vldStallEnd (core nsInPeriod : Nat) :
    Statement (.vldStallEnd core nsInPeriod) := firstWord_event (fun _ _ => rfl)
theorem Laws.FirstWord.arrayStep (core eng : Nat) (errs : List SumError) :
    Statement (.arrayStep core eng errs) := firstWord_event (fun _ _ => rfl)
theorem Laws.FirstWord.probeTokenSend (core eng : Nat) :
    Statement (.probeTokenSend core eng) := firstWord_event (fun _ _ => rfl)
theorem Laws.FirstWord.probeTokenHop (token : Nat) :
    Statement (.probeTokenHop token) := firstWord_event (fun _ _ => rfl)
theorem Laws.FirstWord.trapDelivery (t : Thr) :
    Statement (.trapDelivery t) := firstWord_event (fun _ _ => rfl)
theorem Laws.FirstWord.preemptRequest (block : Nat) :
    Statement (.preemptRequest block) := firstWord_event (fun _ _ => rfl)
theorem Laws.FirstWord.preemptSave (block : Nat) :
    Statement (.preemptSave block) := firstWord_event (fun _ _ => rfl)
theorem Laws.FirstWord.largeStateEvict (block : Nat) (unit : EvictUnit) :
    Statement (.largeStateEvict block unit) := firstWord_event (fun _ _ => rfl)
theorem Laws.FirstWord.blockResume (block : Nat) :
    Statement (.blockResume block) := firstWord_event (fun _ _ => rfl)
theorem Laws.FirstWord.bindItem (gang : Nat) :
    Statement (.bindItem gang) := firstWord_event (fun _ _ => rfl)
theorem Laws.FirstWord.dispatchStart (gang : Nat) :
    Statement (.dispatchStart gang) := firstWord_event (fun _ _ => rfl)
theorem Laws.FirstWord.jointReserve (launch0 launch1 gang0 gang1 : Nat) :
    Statement (.jointReserve launch0 launch1 gang0 gang1) := firstWord_event (fun _ _ => rfl)
theorem Laws.FirstWord.jointRollback (launch0 : Nat) :
    Statement (.jointRollback launch0) := firstWord_event (fun _ _ => rfl)
theorem Laws.FirstWord.blockRetire (block : Nat) :
    Statement (.blockRetire block) := firstWord_event (fun _ _ => rfl)
theorem Laws.FirstWord.kick (q : Nat) (w : KickWrite) :
    Statement (.kick q w) := firstWord_event (fun _ _ => rfl)
theorem Laws.FirstWord.cancel (q : Nat) (w : CancelWrite) :
    Statement (.cancel q w) := firstWord_event (fun _ _ => rfl)
theorem Laws.FirstWord.packetFetch (q : Nat) :
    Statement (.packetFetch q) := firstWord_event (fun _ _ => rfl)
theorem Laws.FirstWord.packetRecheck (q : Nat) :
    Statement (.packetRecheck q) := firstWord_event (fun _ _ => rfl)
theorem Laws.FirstWord.launchPacket (q : Nat) :
    Statement (.launchPacket q) := firstWord_event (fun _ _ => rfl)
theorem Laws.FirstWord.counterWritePacket (q : Nat) :
    Statement (.counterWritePacket q) := firstWord_event (fun _ _ => rfl)
theorem Laws.FirstWord.counterWaitPacket (q : Nat) :
    Statement (.counterWaitPacket q) := firstWord_event (fun _ _ => rfl)
theorem Laws.FirstWord.counterWaitSatisfied (q : Nat) :
    Statement (.counterWaitSatisfied q) := firstWord_event (fun _ _ => rfl)
theorem Laws.FirstWord.noOperationPacket (q : Nat) :
    Statement (.noOperationPacket q) := firstWord_event (fun _ _ => rfl)
theorem Laws.FirstWord.packetOrderRelease (q : Nat) :
    Statement (.packetOrderRelease q) := firstWord_event (fun _ _ => rfl)
theorem Laws.FirstWord.qcbCommit (q : Nat) :
    Statement (.qcbCommit q) := firstWord_event (fun _ _ => rfl)
theorem Laws.FirstWord.f1WatchdogReset :
    Statement .f1WatchdogReset := firstWord_event (fun _ _ => rfl)
theorem Laws.FirstWord.itemKill (item cause : Nat) :
    Statement (.itemKill item cause) := firstWord_event (fun _ _ => rfl)
theorem Laws.FirstWord.retireNotice (gen receiver : Nat) :
    Statement (.retireNotice gen receiver) := firstWord_event (fun _ _ => rfl)
theorem Laws.FirstWord.retireMarker (gen receiver core : Nat) :
    Statement (.retireMarker gen receiver core) := firstWord_event (fun _ _ => rfl)
theorem Laws.FirstWord.generationRetired (gen : Nat) :
    Statement (.generationRetired gen) := firstWord_event (fun _ _ => rfl)
theorem Laws.FirstWord.uncorrectableError (site : ErrSite) :
    Statement (.uncorrectableError site) := firstWord_event (fun _ _ => rfl)
theorem Laws.FirstWord.softErrorCorrected (die : Nat) (kind : StoreKind) :
    Statement (.softErrorCorrected die kind) := firstWord_event (fun _ _ => rfl)
theorem Laws.FirstWord.partitionReset (part : Nat) :
    Statement (.partitionReset part) := firstWord_event (fun _ _ => rfl)
theorem Laws.FirstWord.deviceTimeTick :
    Statement .deviceTimeTick := firstWord_event (fun _ _ => rfl)
theorem Laws.FirstWord.governorTick (rates : List Nat) (watts : Nat) :
    Statement (.governorTick rates watts) := firstWord_event (fun _ _ => rfl)
theorem Laws.FirstWord.powerHold :
    Statement .powerHold := firstWord_event (fun _ _ => rfl)
theorem Laws.FirstWord.telemetryRefresh (temps : List Nat) :
    Statement (.telemetryRefresh temps) := firstWord_event (fun _ _ => rfl)
theorem Laws.FirstWord.calendarRecalibrate (die : Nat) (epoch : BitVec 48) :
    Statement (.calendarRecalibrate die epoch) := firstWord_event (fun _ _ => rfl)
theorem Laws.FirstWord.tlbInvalidate (part : Nat) (scope : InvScope) :
    Statement (.tlbInvalidate part scope) := firstWord_event (fun _ _ => rfl)
theorem Laws.FirstWord.invalidateAck (part : Nat) :
    Statement (.invalidateAck part) := firstWord_event (fun _ _ => rfl)
theorem Laws.FirstWord.pageWalkComplete (op : Nat) :
    Statement (.pageWalkComplete op) := firstWord_event (fun _ _ => rfl)
theorem Laws.FirstWord.priResponse (request : Nat) (success : Bool) :
    Statement (.priResponse request success) := firstWord_event (fun _ _ => rfl)
theorem Laws.FirstWord.pasidTeardown (pasid : Nat) :
    Statement (.pasidTeardown pasid) := firstWord_event (fun _ _ => rfl)
theorem Laws.FirstWord.dirtyHarvest (part ipa : Nat) :
    Statement (.dirtyHarvest part ipa) := firstWord_event (fun _ _ => rfl)
theorem Laws.FirstWord.pageZero (site : ZeroSite) :
    Statement (.pageZero site) := firstWord_event (fun _ _ => rfl)
theorem Laws.FirstWord.bindingChange (ctx idx : Nat) (entry : BindEntry) :
    Statement (.bindingChange ctx idx entry) := firstWord_event (fun _ _ => rfl)
theorem Laws.FirstWord.keySlotLoad (slot : Nat) (owner : Nat) :
    Statement (.keySlotLoad slot owner) := firstWord_event (fun _ _ => rfl)
theorem Laws.FirstWord.consentUpdate (part idx : Nat) (entry : Consent) :
    Statement (.consentUpdate part idx entry) := firstWord_event (fun _ _ => rfl)
theorem Laws.FirstWord.gatePacketArrive (op : Nat) :
    Statement (.gatePacketArrive op) := firstWord_event (fun _ _ => rfl)
theorem Laws.FirstWord.gateTimeout (exchange : Nat) :
    Statement (.gateTimeout exchange) := firstWord_event (fun _ _ => rfl)
theorem Laws.FirstWord.gateVerdict (op : Nat) :
    Statement (.gateVerdict op) := firstWord_event (fun _ _ => rfl)
theorem Laws.FirstWord.armedSendFire (block idx : Nat) :
    Statement (.armedSendFire block idx) := firstWord_event (fun _ _ => rfl)
theorem Laws.FirstWord.flitReceive (port : Nat) (flit : Flit) :
    Statement (.flitReceive port flit) := firstWord_event (fun _ _ => rfl)
theorem Laws.FirstWord.flitNak (port : Nat) (seq : BitVec 12) :
    Statement (.flitNak port seq) := firstWord_event (fun _ _ => rfl)
theorem Laws.FirstWord.receiveCounterAdd (port : Nat) :
    Statement (.receiveCounterAdd port) := firstWord_event (fun _ _ => rfl)
theorem Laws.FirstWord.connectionRegister (conn : Nat) (byPeer : Bool) (c : ConnInfo) :
    Statement (.connectionRegister conn byPeer c) := firstWord_event (fun _ _ => rfl)
theorem Laws.FirstWord.atomicopCompletion (op : Nat) (ok : Bool) :
    Statement (.atomicopCompletion op ok) := firstWord_event (fun _ _ => rfl)
theorem Laws.FirstWord.hostApertureAccess (fn : Nat) (b : BarAccess) :
    Statement (.hostApertureAccess fn b) := firstWord_event (fun _ _ => rfl)
theorem Laws.FirstWord.cxlMemAccess (fn : Nat) (a : HostAccess) :
    Statement (.cxlMemAccess fn a) := firstWord_event (fun _ _ => rfl)
theorem Laws.FirstWord.poisonForwardEnable (fn : Nat) (cxl on : Bool) :
    Statement (.poisonForwardEnable fn cxl on) := firstWord_event (fun _ _ => rfl)
theorem Laws.FirstWord.lockInterfaceRequest (fn : Nat) :
    Statement (.lockInterfaceRequest fn) := firstWord_event (fun _ _ => rfl)
theorem Laws.FirstWord.startInterfaceRequest (fn : Nat) :
    Statement (.startInterfaceRequest fn) := firstWord_event (fun _ _ => rfl)
theorem Laws.FirstWord.stopInterfaceRequest (fn : Nat) :
    Statement (.stopInterfaceRequest fn) := firstWord_event (fun _ _ => rfl)
theorem Laws.FirstWord.tdiError (fn : Nat) (cause : TdiCause) :
    Statement (.tdiError fn cause) := firstWord_event (fun _ _ => rfl)
theorem Laws.FirstWord.firmwareUpdate (core version : Nat) (image : FwImage) :
    Statement (.firmwareUpdate core version image) := firstWord_event (fun _ _ => rfl)
theorem Laws.FirstWord.firmwareReadyTimeout (core : Nat) :
    Statement (.firmwareReadyTimeout core) := firstWord_event (fun _ _ => rfl)
theorem Laws.FirstWord.firmwareReady (core : Nat) :
    Statement (.firmwareReady core) := firstWord_event (fun _ _ => rfl)
theorem Laws.FirstWord.powerUp (epochs : List (BitVec 48)) :
    Statement (.powerUp epochs) := firstWord_event (fun _ _ => rfl)
theorem Laws.FirstWord.queueCreate (q : Nat) (c : QueueInfo) :
    Statement (.queueCreate q c) := firstWord_event (fun _ _ => rfl)
theorem Laws.FirstWord.msixRaise (fn : Nat) :
    Statement (.msixRaise fn) := firstWord_event (fun _ _ => rfl)
theorem Laws.FirstWord.partitionChange (part : Nat) (p : PartInfo) (entries : List (Nat × Addr)) :
    Statement (.partitionChange part p entries) := firstWord_event (fun _ _ => rfl)
theorem Laws.FirstWord.cxlSnoop (hostAddr : Nat) :
    Statement (.cxlSnoop hostAddr) := firstWord_event (fun _ _ => rfl)
theorem Laws.FirstWord.interfaceReport (fn : Nat) :
    Statement (.interfaceReport fn) := firstWord_event (fun _ _ => rfl)
theorem Laws.FirstWord.mailboxMessage (sender receiver : Nat) (body : BitVec 512) :
    Statement (.mailboxMessage sender receiver body) := firstWord_event (fun _ _ => rfl)
theorem Laws.FirstWord.registerWrite (r : HostReg) (value : Addr) :
    Statement (.registerWrite r value) := firstWord_event (fun _ _ => rfl)
theorem Laws.FirstWord.spdmRequest (request : List Byte) :
    Statement (.spdmRequest request) := firstWord_event (fun _ _ => rfl)

end Sys2Proof
end

