-- ==== Sys2Proof/Laws/Perform.lean ====
section
/-! SUPPORT. What performing an outstanding operation does, and the late writes of its results. -/

namespace Sys2Proof.Machine

/-! ### Lanes -/

theorem lane_lt {m : LaneMask} {l : Nat} (h : l ∈ lanesOf m) : l < 32 := by
  simpa using (List.mem_filter.mp h).1

theorem mem_lanesOf {m : LaneMask} {l : Nat} : l ∈ lanesOf m ↔ l < 32 ∧ m.getLsbD l = true := by
  simp [lanesOf]

theorem laneBit_get {l j : Nat} (h : l < 32) : (laneBit l).getLsbD j = decide (j = l) := by
  unfold laneBit
  rw [BitVec.getLsbD_ofNat, Nat.testBit_two_pow]
  by_cases e : j = l
  · subst e; simp [h]
  · have e' : ¬ l = j := fun h => e h.symm
    simp [e, e']

theorem maskOf_fold (ls : List Nat) (hl : ∀ l ∈ ls, l < 32) (m : LaneMask) (j : Nat) :
   (ls.foldl (fun m l => m ||| laneBit l) m).getLsbD j = (m.getLsbD j || decide (j ∈ ls)) := by
  induction ls generalizing m with
  | nil => simp
  | cons l ls ih =>
    rw [List.foldl_cons, ih (fun x hx => hl x (List.mem_cons_of_mem _ hx)), BitVec.getLsbD_or, laneBit_get (hl l (List.mem_cons_self ..))]
    by_cases e : j = l <;> simp [e]

theorem maskOf_get (ls : List Nat) (hl : ∀ l ∈ ls, l < 32) (j : Nat) : (maskOfLanes ls).getLsbD j = decide (j ∈ ls) := by
  unfold maskOfLanes
  rw [maskOf_fold ls hl]
  simp

theorem lanesOf_bit {l : Nat} (h : l < 32) : lanesOf (BitVec.ofNat 32 (2 ^ l)) = [l] := by
  have : ∀ l : Fin 32, lanesOf (BitVec.ofNat 32 (2 ^ l.val)) = [l.val] := by decide
  exact this ⟨l, h⟩

/-! ### Late writes -/

theorem ids_dropLate (t : Thread) (b k id : Nat) (h : ∀ p ∈ t.ops, p.id ≠ id) : ∀ p ∈ (t.dropLate b k).ops, p.id ≠ id := by
  intro p hp
  obtain ⟨q, hq, rfl⟩ := List.mem_map.mp hp
  have := h q hq
  unfold Op.drop; split <;> exact this

theorem ids_arriveV (t : Thread) (o : Op) (l r : Nat) (x : Word) (id : Nat) (h : ∀ p ∈ t.ops, p.id ≠ id) : ∀ p ∈ (t.arriveV o l r x).ops, p.id ≠ id := by
  unfold Thread.arriveV; split
  · exact h
  · exact ids_dropLate _ _ _ _ h

theorem ids_arriveP (t : Thread) (o : Op) (l r : Nat) (x : Bool) (id : Nat) (h : ∀ p ∈ t.ops, p.id ≠ id) : ∀ p ∈ (t.arriveP o l r x).ops, p.id ≠ id := by
  unfold Thread.arriveP; split
  · exact h
  · unfold Thread.landP; split
    · exact h
    · exact ids_dropLate _ _ _ _ h

theorem pr_landP (t : Thread) (n : Nat) (l i : Nat) (x : Bool) (h : i < 7) : (t.landP n l i x).pr l i = x := by
  unfold Thread.landP Thread.pr
  rw [if_neg (by omega), p_dropLate]
  simp; omega

theorem vr_landP (t : Thread) (n : Nat) (l i : Nat) (x : Bool) (l' r' : Nat) : (t.landP n l i x).vr l' r' = t.vr l' r' := by
  unfold Thread.landP; split <;> rfl

theorem v_landP (t : Thread) (n : Nat) (l i : Nat) (x : Bool) : (t.landP n l i x).v = t.v := by
  unfold Thread.landP; split <;> rfl

theorem vr_landV (t : Thread) (n : Nat) (l r : Nat) (x : Word) : (t.landV n l r x).vr l r = x := by
  simp [Thread.landV, Thread.vr, v_dropLate]

theorem vr_landV' (t : Thread) (n : Nat) {l r l' r' : Nat} (x : Word) (h : r < 512) (h' : r' < 512) (hne : l' ≠ l ∨ r' ≠ r) : (t.landV n l r x).vr l' r' = t.vr l' r' := by
  simp only [Thread.landV, Thread.vr, v_dropLate, Tab.rd_wr]
  rw [if_neg]; omega

/-! ### Performance and completion -/

theorem performOp_of {s : State} {id : Nat} {r : Thr} {o : Op} {b : Block} {t : Thread} (f : Thr → Block → Op → State) (h1 : s.findOp id = some (r, o))
   (h2 : s.blk r.block = some b) (h3 : s.thr r = some t) (h4 : t.free o = true) : s.performOp id f = f r b o := by
  simp [State.performOp, h1, h2, h3, h4]

theorem complete_thr {S : State} {r : Thr} {t : Thread} (o : Op) (f : Thread → Thread) (h : S.thr r = some t) :
    (S.complete r o f).thr r = some (f { t with ops := t.ops.filter (·.id != o.id) }) := State.thr_updThr _ h

theorem filter_ids (t : Thread) (id : Nat) : ∀ p ∈ t.ops.filter (·.id != id), p.id ≠ id := by
  intro p hp; simpa using (List.mem_filter.mp hp).2

theorem sift_of {s s' : State} {id : Nat} {r : Thr} {o : Op} {u : Thread} (fl : Bool) (h1 : s.findOp id = some (r, o)) (h2 : s'.thr r = some u)
   (h3 : (u.unreported.any (fun q => q.op == id && q.cause.isSome)) = fl) : s.sift id fl s' = s' := by
  unfold State.sift
  rw [h1]
  simp only
  rw [if_pos]
  unfold State.faulted
  rw [h2]; exact h3

/-! ### Places and targets -/

theorem resolve_scratch {s : State} {b : Block} {k off n : Nat} {a : Addr} (core : Nat) (x : Option Xlat) (need : Need) (allow : Target → Bool) (hb : s.blk k = some b)
   (hr : b.run = .running) (h : off + n ≤ b.scratchBytes) (ha : ∀ i j, allow (.scratch i j) = true) : s.resolve core x (.scratch k off a) n need allow = .ok (.scratch k off) := by
  simp [State.resolve, hb, hr, Nat.not_lt.mpr h, ha]

theorem readT_scratch {s : State} {b : Block} {k off n : Nat} (d : Nat) (hb : s.blk k = some b) (hp : b.poisonedLines = []) : s.readT d (.scratch k off) n = (readMem b.scratch off n, false) := by
  simp [State.readT, hb, Block.linePoisoned, hp, Tab.rd, Tab.look]

theorem xl_resolve {s : State} {core ctx : Nat} {va : Addr} {n need : _} {allow : Target → Bool} {x : Xlat} (h : s.xlate core ctx va need = .ok x) (ha : allow (.mem x) = true)
   (hh : x.space = .host → s.hostDma ctx = true) : s.resolve core none (.global ctx va) n need allow = .ok (.mem x) := by
  unfold State.resolve
  simp only [h, ha, Bool.not_true, Bool.false_eq_true, if_false]
  rw [if_neg]
  simp
  intro h'; simpa using hh h'

/-! ### Faults cascade -/

theorem cascadeOne_keep (t : Thread) (o : Op) (p : FaultRec) (h : p ∈ t.unreported) : p ∈ (t.cascadeOne o).unreported := by
  unfold Thread.cascadeOne
  split
  · exact h
  · split
    · exact h
    · unfold Thread.cancelOp
      split
      · exact h
      · exact List.mem_append_left _ h

theorem cascade_keep (t : Thread) (p : FaultRec) (h : p ∈ t.unreported) : p ∈ t.cascade.unreported := by
  unfold Thread.cascade
  generalize mergeOps t.withdrawn t.ops = l
  induction l generalizing t with
  | nil => exact h
  | cons o l ih => exact ih _ (cascadeOne_keep t o p h)

theorem cascade_nil (t : Thread) (h : t.ops = []) (h' : t.withdrawn = []) : t.cascade = t := by
  unfold Thread.cascade; rw [h, h']; rfl

/-! ### The value of an atomic -/

theorem bytes4 (m : Mem) (a : Nat) : readMem m a 4 = [m.rd 0 a, m.rd 0 (a+1), m.rd 0 (a+2), m.rd 0 (a+3)] := rfl

theorem word4 (b0 b1 b2 b3 : Byte) : (b3 ++ b2 ++ b1 ++ b0 : Word).toNat = numOf [b0, b1, b2, b3] := by
  simp only [numOf, BitVec.toNat_append]
  have h0 := b0.isLt; have h1 := b1.isLt; have h2 := b2.isLt; have h3 := b3.isLt
  rw [← Nat.shiftLeft_add_eq_or_of_lt h2, ← Nat.shiftLeft_add_eq_or_of_lt h1, ← Nat.shiftLeft_add_eq_or_of_lt h0]
  simp only [Nat.shiftLeft_eq]
  omega

theorem numOf4_lt (m : Mem) (a : Nat) : numOf (readMem m a 4) < 2 ^ 32 := by
  have := numOf_lt (readMem m a 4)
  rw [readMem_length] at this
  simpa using this

theorem ext_u32 (sg : AtomSpec) (hw : sg.wide = false) (hs : sg.signed = false) (x : Addr) : (⟨sg.bits, sg.signed⟩ : IntTy).ext x = (x.toNat % 2 ^ 32 : Nat) := by
  simp [IntTy.ext, hs, AtomSpec.bits, hw, BitVec.toNat_setWidth]

theorem low_put (y : IntTy) (h : y.bits = 32) (n : Int) : ((y.put n).toNat : Int) % 2 ^ 32 = n % 2 ^ 32 := by
  unfold IntTy.put IntTy.ext
  rw [h]
  have : ∀ z : Int, ((BitVec.ofInt 64 z).toNat : Int) % 2 ^ 32 = z % 2 ^ 32 := by
    intro z
    rw [BitVec.toNat_ofInt]
    omega
  rw [this]
  split
  · rw [BitVec.toInt_eq_toNat_bmod]
    have := this n
    simp only [BitVec.toNat_setWidth]
    rw [Int.bmod_def]
    omega
  · have := this n
    simp only [BitVec.toNat_setWidth]
    omega

theorem low_ext (y : IntTy) (h : y.bits = 32) (x : Addr) : y.ext x % 2 ^ 32 = (x.toNat : Int) % 2 ^ 32 := by
  unfold IntTy.ext
  rw [h]
  split
  · rw [BitVec.toInt_eq_toNat_bmod]
    simp only [BitVec.toNat_setWidth]
    rw [Int.bmod_def]
    omega
  · simp only [BitVec.toNat_setWidth]; omega

theorem returned_low (sg : AtomSpec) (hw : sg.wide = false) (n : Nat) (h : n < 2 ^ 32) : ((sg.returned (BitVec.ofNat 64 n)).extractLsb' 0 32).toNat = n := by
  have hb : (⟨sg.bits, sg.signed⟩ : IntTy).bits = 32 := by simp [AtomSpec.bits, hw]
  have h1 := low_put _ hb ((⟨sg.bits, sg.signed⟩ : IntTy).ext (BitVec.ofNat 64 n))
  have h2 := low_ext _ hb (BitVec.ofNat 64 n)
  unfold AtomSpec.returned
  simp only [BitVec.extractLsb'_toNat, Nat.shiftRight_zero]
  simp only [BitVec.toNat_ofNat] at h2
  omega

/-! ### Replies -/

theorem each_setReg_k (ls : List Nat) (t : Thread) (d : Nat) (x : Addr) (ht : t.teller = true) :
    (t.each ls (fun l u => u.setReg l d x)).teller = true ∧ (ls ≠ [] → (t.each ls (fun l u => u.setReg l d x)).kr d = x) ∧ (t.each ls (fun l u => u.setReg l d x)).hold = t.hold := by
  unfold Thread.each
  induction ls generalizing t with
  | nil => exact ⟨ht, fun h => absurd rfl h, rfl⟩
  | cons l ls ih =>
    have h1 : (t.setReg l d x).teller = true := by simp [Thread.setReg, ht]
    obtain ⟨a, b, c⟩ := ih _ h1
    have h2 : (t.setReg l d x).kr d = x := by simp [Thread.setReg, ht]
    refine ⟨a, fun _ => ?_, c.trans (by simp [Thread.setReg, ht]; rfl)⟩
    cases ls with
    | nil => exact h2
    | cons l' ls' => exact b (by simp)

theorem each_setReg_v (ls : List Nat) (t : Thread) (d : Nat) (x : Addr) (ht : t.teller = false) (hd : d < 512) :
    (t.each ls (fun l u => u.setReg l d x)).hold = t.hold ∧
    ∀ l, (t.each ls (fun l u => u.setReg l d x)).vr l d = if l ∈ ls then x.extractLsb' 0 32 else t.vr l d := by
  unfold Thread.each
  induction ls generalizing t with
  | nil => exact ⟨rfl, fun l => by simp⟩
  | cons l ls ih =>
    have h1 : (t.setReg l d x).teller = false := by simp [Thread.setReg, ht]
    obtain ⟨a, b⟩ := ih _ h1
    refine ⟨a.trans (by simp [Thread.setReg, ht]; rfl), fun j => ?_⟩
    rw [List.foldl_cons, b]
    simp only [Thread.setReg, ht, Bool.false_eq_true, if_false, vr_setV _ _ hd hd, List.mem_cons]
    by_cases h : j ∈ ls
    · simp [h]
    · by_cases h' : j = l <;> simp [h, h']

/-! ### Trap frames -/

theorem rd_fold_out (fs : List FrameField) (m : Mem) (off a : Nat) (h : ∀ f ∈ fs, a < off + f.1 ∨ off + f.1 + f.2.length ≤ a) :
    (fs.foldl (fun m (f : FrameField) => writeMem m (off + f.1) f.2) m).rd 0 a = m.rd 0 a := by
  induction fs generalizing m with
  | nil => rfl
  | cons f fs ih =>
    rw [List.foldl_cons, ih _ (fun g hg => h g (List.mem_cons_of_mem _ hg)), rd_writeMem]
    rw [if_neg]
    have := h f (List.mem_cons_self ..)
    omega

theorem writeFrame_eq (m : Mem) (off : Nat) (fs : List FrameField) :
   writeFrame m off fs = fs.foldl (fun m (f : FrameField) => writeMem m (off + f.1) f.2) (writeMem m off (List.replicate 512 0)) := rfl

theorem writeFrame_read (m : Mem) (off : Nat) (pre post : List FrameField) (o : Nat) (bs : List Byte)
   (h : ∀ f ∈ post, o + bs.length ≤ f.1 ∨ f.1 + f.2.length ≤ o) : readMem (writeFrame m off (pre ++ (o, bs) :: post)) (off + o) bs.length = bs := by
  rw [writeFrame_eq, List.foldl_append, List.foldl_cons]
  generalize List.foldl _ _ pre = m1
  rw [readMem_congr _ (writeMem m1 (off + o) bs)]
  · exact readMem_writeMem ..
  · intro i h1 h2
    rw [rd_fold_out]
    intro f hf
    have := h f hf
    omega

theorem frame_out (m : Mem) (off : Nat) (fs : List FrameField) (h : ∀ f ∈ fs, f.1 + f.2.length ≤ 512) (a : Nat) (ha : a < off ∨ off + 512 ≤ a) :
   (writeFrame m off fs).rd 0 a = m.rd 0 a := by
  rw [writeFrame_eq, rd_fold_out, rd_writeMem, if_neg]
  · rw [List.length_replicate]; omega
  · intro f hf; have := h f hf; omega

theorem lpc_fold (ls : List Nat) (p : Tab Addr) (h : Addr) (l : Nat) : (ls.foldl (fun p l => p.wr 0 l h) p).rd 0 l = if l ∈ ls then h else p.rd 0 l := by
  induction ls generalizing p with
  | nil => simp
  | cons x ls ih =>
    rw [List.foldl_cons, ih, Tab.rd_wr]
    by_cases h1 : l ∈ ls
    · simp [h1]
    · by_cases h2 : l = x <;> simp [h1, h2]

/-- The later part of a frame lies from byte 64 on. -/
theorem frame_tail (ls : List Nat) (hls : ∀ l ∈ ls, l < 32) (A : Nat → Nat) (B C : Nat → Nat) (f : FrameField)
    (hf : f ∈ ls.map (fun l => ((64 + 8 * l, bytesOf (A l) 8) : FrameField)) ++ (List.range 8).map (fun i => ((320 + 8 * i, bytesOf (B i) 8) : FrameField))
    ++ (List.range 12).map (fun n => ((388 + 4 * n, bytesOf (C n) 4) : FrameField))) : 64 ≤ f.1 ∧ f.1 + f.2.length ≤ 512 := by
  rcases List.mem_append.mp hf with h | h
  · rcases List.mem_append.mp h with h | h
    · obtain ⟨l, hl, rfl⟩ := List.mem_map.mp h
      have := hls l hl
      simp only [bytesOf_length]; omega
    · obtain ⟨l, hl, rfl⟩ := List.mem_map.mp h
      have := List.mem_range.mp hl
      simp only [bytesOf_length]; omega
  · obtain ⟨l, hl, rfl⟩ := List.mem_map.mp h
    have := List.mem_range.mp hl
    simp only [bytesOf_length]; omega

/-- What the frame of a trap holds. -/
theorem frameFields_shape (t : Thread) (d : TrapRec) (now : BitVec 48) : ∃ k f h x tail, frameFields t d now =
    (0, bytesOf d.cause.code 2) :: (2, bytesOf k 1) :: (3, bytesOf d.code 1) :: (4, bytesOf d.lanes.toNat 4) :: (8, bytesOf f 8) :: (16, bytesOf d.rpc.toNat 8) ::
     (24, bytesOf h 4) :: (28, bytesOf x 4) :: (32, bytesOf now.toNat 6) :: tail ∧ ∀ f ∈ tail, 64 ≤ f.1 ∧ f.1 + f.2.length ≤ 512 := by
  refine ⟨_, _, _, _, _, rfl, ?_⟩
  intro f hf
  have := frame_tail (lanesOf d.lanes) (fun l h => lane_lt h) _ _ _ f hf
  exact this

theorem setThr_scratch (b : Block) (w : Option Nat) (t : Thread) : (b.setThr w t).scratch = b.scratch := by cases w <;> rfl

theorem setThr_frameAt (b : Block) (w v : Option Nat) (t : Thread) : (b.setThr w t).frameAt v = b.frameAt v := by cases w <;> rfl

theorem frameAt_scratch (b : Block) (m : Mem) (v : Option Nat) : ({ b with scratch := m } : Block).frameAt v = b.frameAt v := rfl

/-! ### The issue set -/

theorem minAddr_le (ls : List Addr) : ∀ a ∈ ls, (minAddr ls).toNat ≤ a.toNat := by
  induction ls with
  | nil => simp
  | cons a ls ih =>
    cases ls with
    | nil => intro b hb; simp at hb; subst hb; exact Nat.le_refl _
    | cons c ls =>
      intro b hb
      simp only [minAddr]
      split
      · rename_i h
        rcases List.mem_cons.mp hb with rfl | hb
        · exact Nat.le_refl _
        · exact Nat.le_trans h (ih b hb)
      · rename_i h
        rcases List.mem_cons.mp hb with rfl | hb
        · omega
        · exact ih b hb

theorem minAddr_mem (ls : List Addr) (h : ls ≠ []) : minAddr ls ∈ ls := by
  induction ls with
  | nil => exact absurd rfl h
  | cons a ls ih =>
    cases ls with
    | nil => simp [minAddr]
    | cons c ls =>
      simp only [minAddr]
      split
      · exact List.mem_cons_self ..
      · exact List.mem_cons_of_mem _ (ih (by simp))

end Sys2Proof.Machine
end

