-- ==== Sys2Proof/Tests/Slice0.lean ====
section
/-! SUPPORT. Tests: ill-formed terms that the field rules refuse, the decoding of a word of every instruction written out
from the layouts of R103 and R105 and the map of R104 and R111, single steps with results worked out from the spec, and
for every statement a state that meets its hypotheses. -/

namespace Sys2Proof.Tests

open Sys2Proof.Machine

set_option maxRecDepth 100000

/-! ### Small states -/

/-- An extended instruction with no operand. -/
def x0 : Ext := ⟨⟨false, 7⟩, 0, 0, false, false, false, 0, 0, 0, 0, 0, 0, 0, 0, none⟩

/-- The words of `NOP` (R105, R111). -/
def nopWords : List Word := [0x0000270D, 0, 0]

/-- A clause of one more instruction, at 0x10004, issued for lanes. -/
def clauseFor (issue : LaneMask) : Clause :=
  { clauseOfWords false nopWords with hdr := 0x10000, issue, next := 0x10004, fall := 0x10010, listAddr := 0x10010, setf1 := 2 }

/-- A warp in the middle of a clause of its lanes 0 and 1, with v registers given as (lane, register, value). -/
def warp (vs : List (Nat × Nat × Word)) : Thread :=
  { Thread.start false 0x10000 with
    clause := some (clauseFor 3), v := vs.foldl (fun m (l, r, x) => m.wr 0 (l * 512 + r) x) [] }

/-- A teller in the middle of a clause, with k registers. -/
def teller (ks : List (Nat × Addr)) : Thread :=
  { Thread.start true 0x10000 with clause := some (clauseFor 1), k := ks }

/-- Table entries that map the first GiB of guest addresses to DRAM at 0, the second to host memory and the third to
the vault of die 0, through two stages (R206, R207). -/
def tables : Mem :=
  [(0x1000, 0x01), (0x1001, 0x20), (0x2000, 0x01), (0x2001, 0x30),
   (0x3000, 0x79), (0x3006, 0x20), (0x3008, 0x79), (0x300C, 0x30), (0x300E, 0x20), (0x3010, 0x79), (0x3016, 0x20),
   (0x3017, 0x40),
   (0x4000, 0x01), (0x4001, 0x50), (0x5000, 0x01), (0x5001, 0x60),
   (0x6000, 0x79), (0x6008, 0x79), (0x600B, 0x40), (0x6010, 0x79), (0x6013, 0x80)]

/-- A launch of one item of one block. -/
def launch : Launch :=
  ⟨0, 0, 7, 1, 0, 0x10000, 0x10000, 1, 1, 1, 0, 1000, 16, 0, 32, 0x20000, [], none, 0, 0, none, none, 0, 0, true, none, 1, [], 0, 0, 0,
    false, false, false, false⟩

/-- A running item of that launch. -/
def item : Item := ⟨10, 0, 0, 1, 0, false, .running, 0, false, none, 1, false⟩

/-- A running block of context 1 on core 0, with a warp and a teller. -/
def block (w t : Thread) : Block :=
  { blockOfWords [] with item := 11, ctx := 1, gen := 1, scratchBytes := 8192, warps := [(0, w)], tel := t }

/-- A ready device with one partition, one context with its tables, and blocks. -/
def device (blocks : Tab Block) (cur : Thr) : State :=
  { State.reset with
    ready := true, cur, nextId := 100, nextGen := 2, dram := tables, blocks, launches := [(10, launch)], items := [(11, item)],
    parts := [(0, ⟨⟨0xFFFF, [0], 0, 192, 0x1000, 0, 0, 0⟩, 0, []⟩)], ctxs := [(1, ⟨0, 0x4000, false, [], []⟩)], keys := [(1, ⟨0, 2, 0⟩)] }

/-- The device in which a warp is to move. -/
def onWarp (vs : List (Nat × Nat × Word)) : State := device [(0, block (warp vs) (Thread.start true 0x10000))] ⟨0, some 0⟩

/-- The device in which a teller is to move. -/
def onTeller (ks : List (Nat × Addr)) : State := device [(0, block (Thread.start false 0x10000) (teller ks))] ⟨0, none⟩

/-- A value of the current thread after an instruction. -/
def after {α : Type} (i : Instr) (s : State) (f : Thread → α) : Option α :=
  match exec i s with
  | .next s' => (s'.thr s'.cur).map f
  | _ => none

/-- A value of the state after an event. -/
def next {α : Type} (i : Instr) (s : State) (f : State → α) : Option α :=
  match exec i s with
  | .next s' => some (f s')
  | _ => none

/-! ### Ill-formed terms and words -/

/-- Words and terms that no field rule refuses are not the subject here: each of these is refused by the name given. -/
theorem test_refused_words :
    decode .simt .widest [] = .error .truncated ∧ decode .simt .widest [0x0000270D, 0] = .error .truncated ∧
    decode .simt .widest [0x00000000] = .error .headerWord ∧ decode .simt .widest [0x00000710] = .error .unassignedMajor ∧
    decode .simt .widest [0x00005705, 0, 0] = .error .unassignedMinor ∧ decode .simt .widest [0x00002734] = .error .noCompactForm :=
  ⟨rfl, rfl, rfl, rfl, rfl, rfl⟩

/-- One ill-formed term for each field check (R101 to R110). -/
theorem test_refused_terms :
    (Instr.nop { x0 with guard := ⟨true, 7⟩ }).check .simt .widest = some .negatedTrue ∧
    (Instr.fadd { x0 with d := 1 }).check .teller .widest = some .wrongSide ∧
    (Instr.nop { x0 with mod := 1 }).check .simt .widest = some .badModifier ∧
    (Instr.nop { x0 with ty := 1 }).check .simt .widest = some .badType ∧
    (Instr.nop { x0 with d := 1 }).check .simt .widest = some .badD ∧
    (Instr.iadd64 { x0 with d := 2, a := 1, b := 2 }).check .simt .widest = some .badA ∧
    (Instr.ineg { x0 with b := 1 }).check .simt .widest = some .badB ∧
    (Instr.iadd { x0 with c := 1 }).check .simt .widest = some .badC ∧
    (Instr.nop { x0 with lit := some 1 }).check .simt .widest = some .badLiteral ∧
    (Instr.iadd { x0 with st := 1 }).check .simt .widest = some .badStream ∧
    (Instr.iadd { x0 with x9 := 1 }).check .simt .widest = some .badX9 ∧
    (Instr.ineg { x0 with ret := 2 }).check .simt .widest = some .badRetain ∧
    (Instr.iadd { x0 with d := 32 }).check .simt ⟨32, 16⟩ = some .badD ∧
    (Instr.sread { x0 with a := 14 }).check .teller .widest = some .badA ∧
    (Instr.trpk { x0 with mod := 20, d := 1, a := 2 }).check .simt .widest = some .badValue := by decide

/-! ### Decoding: one word of every instruction, operands distinct where its fields allow -/

theorem test_decode_control_1 :
    decode .simt .widest [0x00100905, 0x00001400, 0] =
      .ok (.bra { x0 with guard := ⟨true, 1⟩, mod := 0x1, a := 10 }) ∧
    decode .simt .widest [0x00001B05, 0x00000A00, 0] =
      .ok (.btab { x0 with guard := ⟨true, 3⟩, a := 5 }) ∧
    decode .simt .widest [0x00102B05, 0x00001C0C, 0] =
      .ok (.call { x0 with guard := ⟨true, 3⟩, mod := 0x1, d := 12, a := 14 }) ∧
    decode .simt .widest [0x00003305, 0x00001C12, 0] =
      .ok (.callt { x0 with guard := ⟨false, 3⟩, d := 18, a := 14 }) ∧
    decode .simt .widest [0x00004005, 0x00000C00, 0] =
      .ok (.ret { x0 with guard := ⟨false, 0⟩, a := 6 }) ∧
    decode .simt .widest [0x00000309, 0x00000003, 0] =
      .ok (.join { x0 with guard := ⟨false, 3⟩, d := 3 }) ∧
    decode .simt .widest [0x00001509, 0x00000004, 0] =
      .ok (.leave { x0 with guard := ⟨false, 5⟩, d := 4 }) ∧
    decode .simt .widest [0x00002A09, 0x00000800, 0] =
      .ok (.waitm { x0 with guard := ⟨true, 2⟩, a := 4 }) ∧
    decode .simt .widest [0x00203C09, 0x00000803, 0] =
      .ok (.mmov { x0 with guard := ⟨true, 4⟩, mod := 0x2, d := 3, a := 4 }) ∧
    decode .simt .widest [0x00104109, 0x00001408, 0] =
      .ok (.mrd { x0 with guard := ⟨false, 1⟩, mod := 0x1, d := 8, a := 10 }) ∧
    decode .simt .widest [0x00000C0D, 0, 0] =
      .ok (.exit { x0 with guard := ⟨true, 4⟩ }) ∧
    decode .simt .widest [0x0000180D, 0, 0] =
      .ok (.yield { x0 with guard := ⟨true, 0⟩ }) :=
  ⟨rfl, rfl, rfl, rfl, rfl, rfl, rfl, rfl, rfl, rfl, rfl, rfl⟩

theorem test_decode_control_2 :
    decode .simt .widest [0x0000240D, 0, 0] =
      .ok (.nop { x0 with guard := ⟨false, 4⟩ }) ∧
    decode .simt .widest [0x0000360D, 0x08000400, 0] =
      .ok (.trap { x0 with guard := ⟨false, 6⟩, a := 2, al := true }) ∧
    decode .simt .widest [0x0000490D, 0x08002800, 0] =
      .ok (.bkpt { x0 with guard := ⟨true, 1⟩, a := 20, al := true }) :=
  ⟨rfl, rfl, rfl⟩

theorem test_decode_integer_1 :
    decode .simt .widest [0x00100121, 0xA00C1210, 0] =
      .ok (.iadd { x0 with guard := ⟨false, 1⟩, mod := 0x1, ty := 5, d := 16, a := 9, b := 3 }) ∧
    decode .simt .widest [0x00101221, 0x60382801, 0] =
      .ok (.isub { x0 with guard := ⟨false, 2⟩, mod := 0x1, ty := 3, d := 1, a := 20, b := 14 }) ∧
    decode .simt .widest [0x00102321, 0xA0002203, 0] =
      .ok (.ineg { x0 with guard := ⟨false, 3⟩, mod := 0x1, ty := 5, d := 3, a := 17 }) ∧
    decode .simt .widest [0x00103D21, 0x80001A01, 0] =
      .ok (.iabs { x0 with guard := ⟨true, 5⟩, mod := 0x1, ty := 4, d := 1, a := 13 }) ∧
    decode .simt .widest [0x00004A21, 0xA0480C02, 0] =
      .ok (.imin { x0 with guard := ⟨true, 2⟩, ty := 5, d := 2, a := 6, b := 18 }) ∧
    decode .simt .widest [0x00005C21, 0x2024200E, 0] =
      .ok (.imax { x0 with guard := ⟨true, 4⟩, ty := 1, d := 14, a := 16, b := 9 }) ∧
    decode .simt .widest [0x00000D25, 0x40281009, 0] =
      .ok (.imul { x0 with guard := ⟨true, 5⟩, ty := 2, d := 9, a := 8, b := 10 }) ∧
    decode .simt .widest [0x00001825, 0x60082614, 0] =
      .ok (.imulh { x0 with guard := ⟨true, 0⟩, ty := 3, d := 20, a := 19, b := 2 }) ∧
    decode .simt .widest [0x00002225, 0xA03C260D, 0x00000003] =
      .ok (.imad { x0 with guard := ⟨false, 2⟩, ty := 5, d := 13, a := 19, b := 15, c := 3 }) ∧
    decode .simt .widest [0x00003425, 0x20142214, 0x00000204] =
      .ok (.imad64 { x0 with guard := ⟨false, 4⟩, ty := 1, d := 20, a := 17, b := 5, c := 4, cl := true }) ∧
    decode .simt .widest [0x00004625, 0x10601C02, 0] =
      .ok (.iadd64 { x0 with guard := ⟨false, 6⟩, d := 2, a := 14, b := 24, bl := true }) ∧
    decode .simt .widest [0x00005A25, 0x10301004, 0] =
      .ok (.isub64 { x0 with guard := ⟨true, 2⟩, d := 4, a := 8, b := 12, bl := true }) :=
  ⟨rfl, rfl, rfl, rfl, rfl, rfl, rfl, rfl, rfl, rfl, rfl, rfl⟩

theorem test_decode_integer_2 :
    decode .simt .widest [0x00000029, 0x0044100D, 0] =
      .ok (.and { x0 with guard := ⟨false, 0⟩, d := 13, a := 8, b := 17 }) ∧
    decode .simt .widest [0x00001229, 0x00242605, 0] =
      .ok (.or { x0 with guard := ⟨false, 2⟩, d := 5, a := 19, b := 9 }) ∧
    decode .simt .widest [0x00002E29, 0x0010220D, 0] =
      .ok (.xor { x0 with guard := ⟨true, 6⟩, d := 13, a := 17, b := 4 }) ∧
    decode .simt .widest [0x00003929, 0x00400E04, 0] =
      .ok (.andn { x0 with guard := ⟨true, 1⟩, d := 4, a := 7, b := 16 }) ∧
    decode .simt .widest [0x00004B29, 0x00002410, 0] =
      .ok (.not { x0 with guard := ⟨true, 3⟩, d := 16, a := 18 }) ∧
    decode .simt .widest [0x00005C29, 0x000C1012, 0x00000006] =
      .ok (.sel { x0 with guard := ⟨true, 4⟩, d := 18, a := 8, b := 3, c := 6 }) ∧
    decode .simt .widest [0x0000092D, 0x00101212, 0] =
      .ok (.shl { x0 with guard := ⟨true, 1⟩, d := 18, a := 9, b := 4 }) ∧
    decode .simt .widest [0x0000142D, 0x003C260A, 0] =
      .ok (.shr { x0 with guard := ⟨false, 4⟩, d := 10, a := 19, b := 15 }) ∧
    decode .simt .widest [0x0000262D, 0x001C1201, 0] =
      .ok (.sar { x0 with guard := ⟨false, 6⟩, d := 1, a := 9, b := 7 }) ∧
    decode .simt .widest [0x0000332D, 0x000C1009, 0] =
      .ok (.rol { x0 with guard := ⟨false, 3⟩, d := 9, a := 8, b := 3 }) ∧
    decode .simt .widest [0x0000442D, 0x202C0C09, 0x00000007] =
      .ok (.bfx { x0 with guard := ⟨false, 4⟩, ty := 1, d := 9, a := 6, b := 11, c := 7 }) ∧
    decode .simt .widest [0x0000542D, 0x00240E0C, 0x00000005] =
      .ok (.bfi { x0 with guard := ⟨false, 4⟩, d := 12, a := 7, b := 9, c := 5 }) :=
  ⟨rfl, rfl, rfl, rfl, rfl, rfl, rfl, rfl, rfl, rfl, rfl, rfl⟩

theorem test_decode_integer_3 :
    decode .simt .widest [0x00006C2D, 0x00000E13, 0] =
      .ok (.brev { x0 with guard := ⟨true, 4⟩, d := 19, a := 7 }) ∧
    decode .simt .widest [0x0000702D, 0x0000220B, 0] =
      .ok (.clz { x0 with guard := ⟨false, 0⟩, d := 11, a := 17 }) ∧
    decode .simt .widest [0x0000842D, 0x00001E12, 0] =
      .ok (.popc { x0 with guard := ⟨false, 4⟩, d := 18, a := 15 }) ∧
    decode .simt .widest [0x00200531, 0xF0201804, 0] =
      .ok (.icmp { x0 with guard := ⟨false, 5⟩, mod := 0x2, ty := 7, d := 4, a := 12, b := 8, bl := true }) ∧
    decode .simt .widest [0x00101B31, 0xD0181410, 0] =
      .ok (.iset { x0 with guard := ⟨true, 3⟩, mod := 0x1, ty := 6, d := 16, a := 10, b := 6, bl := true }) ∧
    decode .simt .widest [0x02202831, 0x00040606, 0x00000002] =
      .ok (.plop { x0 with guard := ⟨true, 0⟩, mod := 0x22, d := 6, a := 3, b := 1, c := 2 }) ∧
    decode .simt .widest [0x00000335, 0x0000020B, 0] =
      .ok (.mov { x0 with guard := ⟨false, 3⟩, d := 11, a := 1 }) ∧
    decode .simt .widest [0x00101037, 0x00000013, 0, 0x55667788, 0x11223344] =
      .ok (.movl (.ext { x0 with guard := ⟨false, 0⟩, mod := 0x1, d := 19, lit := some 0x1122334455667788 })) ∧
    decode .simt .widest [0x00202135, 0x00403C06, 0x00000202] =
      .ok (.lea { x0 with guard := ⟨false, 1⟩, mod := 0x2, d := 6, a := 30, b := 16, c := 2, cl := true }) ∧
    decode .simt .widest [0x00003E35, 0x00001012, 0] =
      .ok (.sread { x0 with guard := ⟨true, 6⟩, d := 18, a := 8 }) :=
  ⟨rfl, rfl, rfl, rfl, rfl, rfl, rfl, rfl, rfl, rfl⟩

theorem test_decode_float_1 :
    decode .simt .widest [0x01000141, 0x00380205, 0] =
      .ok (.fadd { x0 with guard := ⟨false, 1⟩, mod := 0x10, d := 5, a := 1, b := 14 }) ∧
    decode .simt .widest [0x02101341, 0x00181811, 0] =
      .ok (.fsub { x0 with guard := ⟨false, 3⟩, mod := 0x21, d := 17, a := 12, b := 6 }) ∧
    decode .simt .widest [0x03B02041, 0x00041405, 0] =
      .ok (.fmul { x0 with guard := ⟨false, 0⟩, mod := 0x3b, d := 5, a := 10, b := 1 }) ∧
    decode .simt .widest [0x02103A41, 0x00342810, 0x00000003] =
      .ok (.ffma { x0 with guard := ⟨true, 2⟩, mod := 0x21, d := 16, a := 20, b := 13, c := 3 }) ∧
    decode .simt .widest [0x07004C41, 0x00141608, 0] =
      .ok (.fmin { x0 with guard := ⟨true, 4⟩, mod := 0x70, d := 8, a := 11, b := 5 }) ∧
    decode .simt .widest [0x04005941, 0x0050120F, 0] =
      .ok (.fmax { x0 with guard := ⟨true, 1⟩, mod := 0x40, d := 15, a := 9, b := 20 }) ∧
    decode .simt .widest [0x01200A45, 0x0000020A, 0] =
      .ok (.frcp { x0 with guard := ⟨true, 2⟩, mod := 0x12, d := 10, a := 1 }) ∧
    decode .simt .widest [0x01001C45, 0x00001802, 0] =
      .ok (.frsq { x0 with guard := ⟨true, 4⟩, mod := 0x10, d := 2, a := 12 }) ∧
    decode .simt .widest [0x01202245, 0x00001409, 0] =
      .ok (.fsqrt { x0 with guard := ⟨false, 2⟩, mod := 0x12, d := 9, a := 10 }) ∧
    decode .simt .widest [0x01003A45, 0x00001609, 0] =
      .ok (.fexp2 { x0 with guard := ⟨true, 2⟩, mod := 0x10, d := 9, a := 11 }) ∧
    decode .simt .widest [0x00804245, 0x00000E06, 0] =
      .ok (.flog2 { x0 with guard := ⟨false, 2⟩, mod := 0x8, d := 6, a := 7 }) ∧
    decode .simt .widest [0x01105B45, 0x00001214, 0] =
      .ok (.frnd { x0 with guard := ⟨true, 3⟩, mod := 0x11, d := 20, a := 9 }) :=
  ⟨rfl, rfl, rfl, rfl, rfl, rfl, rfl, rfl, rfl, rfl, rfl, rfl⟩

theorem test_decode_float_2 :
    decode .simt .widest [0x00006D45, 0x0000280B, 0] =
      .ok (.fclass { x0 with guard := ⟨true, 5⟩, d := 11, a := 20 }) ∧
    decode .simt .widest [0x00500449, 0x00200406, 0] =
      .ok (.fcmp { x0 with guard := ⟨false, 4⟩, mod := 0x5, d := 6, a := 2, b := 8 }) ∧
    decode .simt .widest [0x01201649, 0x00501806, 0] =
      .ok (.fset { x0 with guard := ⟨false, 6⟩, mod := 0x12, d := 6, a := 12, b := 20 }) ∧
    decode .simt .widest [0x04000D4D, 0x203C0413, 0] =
      .ok (.hadd2 { x0 with guard := ⟨true, 5⟩, mod := 0x40, ty := 1, d := 19, a := 2, b := 15 }) ∧
    decode .simt .widest [0x0220114D, 0x2018180B, 0] =
      .ok (.hmul2 { x0 with guard := ⟨false, 1⟩, mod := 0x22, ty := 1, d := 11, a := 12, b := 6 }) ∧
    decode .simt .widest [0x0800234D, 0x40480403, 0x00000002] =
      .ok (.hfma2 { x0 with guard := ⟨false, 3⟩, mod := 0x80, ty := 2, d := 3, a := 2, b := 18, c := 2 }) ∧
    decode .simt .widest [0x0700304D, 0x2038020A, 0] =
      .ok (.hmin2 { x0 with guard := ⟨false, 0⟩, mod := 0x70, ty := 1, d := 10, a := 1, b := 14 }) ∧
    decode .simt .widest [0x07004A4D, 0x40141602, 0] =
      .ok (.hmax2 { x0 with guard := ⟨true, 2⟩, mod := 0x70, ty := 2, d := 2, a := 11, b := 5 }) :=
  ⟨rfl, rfl, rfl, rfl, rfl, rfl, rfl, rfl⟩

theorem test_decode_narrow_trit_lane_1 :
    decode .simt .widest [0x00100561, 0x00001C07, 0] =
      .ok (.cvt { x0 with guard := ⟨false, 5⟩, mod := 0x1, d := 7, a := 14 }) ∧
    decode .simt .widest [0x00101061, 0x80001012, 0] =
      .ok (.pk8 { x0 with guard := ⟨false, 0⟩, mod := 0x1, ty := 4, d := 18, a := 8 }) ∧
    decode .simt .widest [0x00002461, 0x60000610, 0] =
      .ok (.upk8 { x0 with guard := ⟨false, 4⟩, ty := 3, d := 16, a := 3 }) ∧
    decode .simt .widest [0x00100E65, 0x6030080B, 0] =
      .ok (.qvec { x0 with guard := ⟨true, 6⟩, mod := 0x1, ty := 3, d := 11, a := 4, b := 12 }) ∧
    decode .simt .widest [0x00201965, 0x60101608, 0] =
      .ok (.dqv { x0 with guard := ⟨true, 1⟩, mod := 0x2, ty := 3, d := 8, a := 11, b := 4 }) ∧
    decode .simt .widest [0x00400169, 0x00002810, 0] =
      .ok (.trpk { x0 with guard := ⟨false, 1⟩, mod := 0x4, d := 16, a := 20 }) ∧
    decode .simt .widest [0x00401569, 0x00000C06, 0] =
      .ok (.trup { x0 with guard := ⟨false, 5⟩, mod := 0x4, d := 6, a := 6 }) ∧
    decode .simt .widest [0x01202C69, 0x00001E01, 0] =
      .ok (.trchk { x0 with guard := ⟨true, 4⟩, mod := 0x12, d := 1, a := 15 }) ∧
    decode .simt .widest [0x01000B71, 0x10041012, 0] =
      .ok (.lxch { x0 with guard := ⟨true, 3⟩, mod := 0x10, d := 18, a := 8, b := 1, bl := true }) ∧
    decode .simt .widest [0x00101E71, 0x00000A04, 0] =
      .ok (.vote { x0 with guard := ⟨true, 6⟩, mod := 0x1, d := 4, a := 5 }) ∧
    decode .simt .widest [0x00102071, 0x20002213, 0] =
      .ok (.redux { x0 with guard := ⟨false, 0⟩, mod := 0x1, ty := 1, d := 19, a := 17 }) ∧
    decode .simt .widest [0x00203471, 0x20001E04, 0] =
      .ok (.scan { x0 with guard := ⟨false, 4⟩, mod := 0x2, ty := 1, d := 4, a := 15 }) :=
  ⟨rfl, rfl, rfl, rfl, rfl, rfl, rfl, rfl, rfl, rfl, rfl, rfl⟩

theorem test_decode_narrow_trit_lane_2 :
    decode .simt .widest [0x00104171, 0x00001804, 0] =
      .ok (.matchLanes { x0 with guard := ⟨false, 1⟩, mod := 0x1, d := 4, a := 12 }) ∧
    decode .simt .widest [0x00105371, 0x00000013, 0] =
      .ok (.firstLane { x0 with guard := ⟨false, 3⟩, mod := 0x1, d := 19 }) :=
  ⟨rfl, rfl⟩

theorem test_decode_memory :
    decode .simt .widest [0x01000281, 0x80343C03, 0x0040D204] =
      .ok (.ld { x0 with guard := ⟨false, 2⟩, mod := 0x10, ty := 4, d := 3, a := 30, b := 13, c := 4, pm := 0x81, st := 5, cl := true }) ∧
    decode .simt .widest [0x01201B81, 0x00482004, 0x0040D203] =
      .ok (.st { x0 with guard := ⟨true, 3⟩, mod := 0x12, d := 4, a := 16, b := 18, c := 3, pm := 0x81, st := 5, cl := true }) ∧
    decode .simt .widest [0x01100485, 0x60041207, 0x0040D207] =
      .ok (.lds { x0 with guard := ⟨false, 4⟩, mod := 0x11, ty := 3, d := 7, a := 9, b := 1, c := 7, pm := 0x81, st := 5, cl := true }) ∧
    decode .simt .widest [0x01001D85, 0x003C2404, 0x0040D228] =
      .ok (.sts { x0 with guard := ⟨true, 5⟩, mod := 0x10, d := 4, a := 18, b := 15, c := 40, pm := 0x81, st := 5, cl := true }) ∧
    decode .simt .widest [0x01100C89, 0x603C3C07, 0x0040D208] =
      .ok (.ldg { x0 with guard := ⟨true, 4⟩, mod := 0x11, ty := 3, d := 7, a := 30, b := 15, c := 8, pm := 0x81, st := 5, cl := true }) ∧
    decode .simt .widest [0x01201889, 0x00082409, 0x0040D228] =
      .ok (.stg { x0 with guard := ⟨true, 0⟩, mod := 0x12, d := 9, a := 18, b := 2, c := 40, pm := 0x81, st := 5, cl := true }) ∧
    decode .simt .widest [0x0100028D, 0x8000220A, 0x0040D202] =
      .ok (.ldc { x0 with guard := ⟨false, 2⟩, mod := 0x10, ty := 4, d := 10, a := 17, c := 2, pm := 0x81, st := 5, cl := true }) ∧
    decode .simt .widest [0x0120128D, 0x00242400, 0x0040D204] =
      .ok (.pref { x0 with guard := ⟨false, 2⟩, mod := 0x12, a := 18, b := 9, c := 4, pm := 0x81, st := 5, cl := true }) ∧
    decode .simt .widest [0x0120228D, 0x00240C00, 0x0040D20C] =
      .ok (.stz { x0 with guard := ⟨false, 2⟩, mod := 0x12, a := 6, b := 9, c := 12, pm := 0x81, st := 5, cl := true }) :=
  ⟨rfl, rfl, rfl, rfl, rfl, rfl, rfl, rfl, rfl⟩

theorem test_decode_atomic :
    decode .simt .widest [0x070009A1, 0xF0200404, 0x0040D203] =
      .ok (.atom { x0 with guard := ⟨true, 1⟩, mod := 0x70, ty := 7, d := 4, a := 2, b := 8, c := 3, pm := 0x81, st := 5, bl := true, cl := true }) ∧
    decode .simt .widest [0x020015A1, 0x20041C14, 0x0040D007] =
      .ok (.cas { x0 with guard := ⟨false, 5⟩, mod := 0x20, ty := 1, d := 20, a := 14, b := 1, c := 7, pm := 0x81, st := 5 }) ∧
    decode .simt .widest [0x01000BA5, 0xF00C1C02, 0x0040D202] =
      .ok (.atomr { x0 with guard := ⟨true, 3⟩, mod := 0x10, ty := 7, d := 2, a := 14, b := 3, c := 2, pm := 0x81, st := 5, bl := true, cl := true }) ∧
    decode .simt .widest [0x02001EA5, 0xF0302400, 0x0040D201] =
      .ok (.rel { x0 with guard := ⟨true, 6⟩, mod := 0x20, ty := 7, a := 18, b := 12, c := 1, pm := 0x81, st := 5, bl := true, cl := true }) ∧
    decode .simt .widest [0x20000AA9, 0xF0182404, 0x0040D201] =
      .ok (.acq { x0 with guard := ⟨true, 2⟩, mod := 0x200, ty := 7, d := 4, a := 18, b := 6, c := 1, pm := 0x81, st := 5, bl := true, cl := true }) ∧
    decode .simt .widest [0x08000EAD, 0, 0x0040D000] =
      .ok (.etrig { x0 with guard := ⟨true, 6⟩, mod := 0x80, pm := 0x81, st := 5 }) ∧
    decode .simt .widest [0x02200CB1, 0x00081400, 0x0040D004] =
      .ok (.cpy { x0 with guard := ⟨true, 4⟩, mod := 0x22, a := 10, b := 2, c := 4, pm := 0x81, st := 5 }) ∧
    decode .simt .widest [0x080008B5, 0x10A00400, 0x0040D202] =
      .ok (.cwait { x0 with guard := ⟨true, 0⟩, mod := 0x80, a := 2, b := 40, c := 2, pm := 0x81, st := 5, bl := true, cl := true }) ∧
    decode .simt .widest [0x00001AB5, 0x00001804, 0x0040D202] =
      .ok (.cread { x0 with guard := ⟨true, 2⟩, d := 4, a := 12, c := 2, pm := 0x81, st := 5, cl := true }) :=
  ⟨rfl, rfl, rfl, rfl, rfl, rfl, rfl, rfl, rfl⟩

theorem test_decode_engine_1 :
    decode .teller .widest [0x000003C1, 0x00001C0B, 0x12C0D000] =
      .ok (.gath { x0 with guard := ⟨false, 3⟩, d := 11, a := 14, x9 := 0x25, pm := 0x81, st := 5 }) ∧
    decode .teller .widest [0x000015C1, 0x00280802, 0x12C0D20C] =
      .ok (.tlds { x0 with guard := ⟨false, 5⟩, d := 2, a := 4, b := 10, c := 12, x9 := 0x25, pm := 0x81, st := 5, cl := true }) ∧
    decode .teller .widest [0x001026C1, 0x002C0205, 0x12C0D208] =
      .ok (.tsts { x0 with guard := ⟨false, 6⟩, mod := 0x1, d := 5, a := 1, b := 11, c := 8, x9 := 0x25, pm := 0x81, st := 5, cl := true }) ∧
    decode .teller .widest [0x00003CC1, 0x00000001, 0x12C0D000] =
      .ok (.tzero { x0 with guard := ⟨true, 4⟩, d := 1, x9 := 0x25, pm := 0x81, st := 5 }) ∧
    decode .teller .widest [0x00000CC5, 0x00001C0F, 0x12C0D202] =
      .ok (.vld { x0 with guard := ⟨true, 4⟩, d := 15, a := 14, c := 2, x9 := 0x25, pm := 0x81, st := 5, cl := true }) ∧
    decode .teller .widest [0x00400DC9, 0x00280602, 0x12C0D002] =
      .ok (.tmma { x0 with guard := ⟨true, 5⟩, mod := 0x4, d := 2, a := 3, b := 10, c := 2, x9 := 0x25, pm := 0x81, st := 5 }) ∧
    decode .teller .widest [0x004019C9, 0x00100A03, 0x12C0D00E] =
      .ok (.fmma { x0 with guard := ⟨true, 1⟩, mod := 0x4, d := 3, a := 5, b := 4, c := 14, x9 := 0x25, pm := 0x81, st := 5 }) ∧
    decode .teller .widest [0x012001CD, 0x0050060A, 0x12C0D00A] =
      .ok (.drain { x0 with guard := ⟨false, 1⟩, mod := 0x12, d := 10, a := 3, b := 20, c := 10, x9 := 0x25, pm := 0x81, st := 5 }) ∧
    decode .teller .widest [0x002013CD, 0, 0x12C0D000] =
      .ok (.aclr { x0 with guard := ⟨false, 3⟩, mod := 0x2, x9 := 0x25, pm := 0x81, st := 5 }) ∧
    decode .teller .widest [0x00102ACD, 0x00000611, 0x12C0D000] =
      .ok (.astat { x0 with guard := ⟨true, 2⟩, mod := 0x1, d := 17, a := 3, x9 := 0x25, pm := 0x81, st := 5 }) ∧
    decode .teller .widest [0x012008D1, 0x00080E0D, 0x12C0D000] =
      .ok (.tcpy { x0 with guard := ⟨true, 0⟩, mod := 0x12, d := 13, a := 7, b := 2, x9 := 0x25, pm := 0x81, st := 5 }) ∧
    decode .teller .widest [0x000002D5, 0x08000800, 0] =
      .ok (.evwait { x0 with guard := ⟨false, 2⟩, a := 4, al := true }) :=
  ⟨rfl, rfl, rfl, rfl, rfl, rfl, rfl, rfl, rfl, rfl, rfl, rfl⟩

theorem test_decode_engine_2 :
    decode .teller .widest [0x00001CD5, 0x0000000A, 0] =
      .ok (.evpop { x0 with guard := ⟨true, 4⟩, d := 10 }) ∧
    decode .teller .widest [0x00002CD5, 0x0000000E, 0] =
      .ok (.eqstat { x0 with guard := ⟨true, 4⟩, d := 14 }) ∧
    decode .teller .widest [0x080004D9, 0x00000C00, 0x12C0D000] =
      .ok (.lsend { x0 with guard := ⟨false, 4⟩, mod := 0x80, a := 6, x9 := 0x25, pm := 0x81, st := 5 }) ∧
    decode .teller .widest [0x080011D9, 0x00002800, 0x12C0D000] =
      .ok (.larm { x0 with guard := ⟨false, 1⟩, mod := 0x80, a := 20, x9 := 0x25, pm := 0x81, st := 5 }) ∧
    decode .teller .widest [0x080023D9, 0x00001A0C, 0x12C0D000] =
      .ok (.ldisarm { x0 with guard := ⟨false, 3⟩, mod := 0x80, d := 12, a := 13, x9 := 0x25, pm := 0x81, st := 5 }) :=
  ⟨rfl, rfl, rfl, rfl, rfl⟩

theorem test_decode_share_gate :
    decode .simt .widest [0x000000E1, 0x00240E0C, 0] =
      .ok (.saddc { x0 with guard := ⟨false, 0⟩, d := 12, a := 7, b := 9 }) ∧
    decode .simt .widest [0x00001AE1, 0x00042204, 0] =
      .ok (.smulc { x0 with guard := ⟨true, 2⟩, d := 4, a := 17, b := 1 }) ∧
    decode .simt .widest [0x00002CE1, 0x0034100F, 0] =
      .ok (.strunc { x0 with guard := ⟨true, 4⟩, d := 15, a := 8, b := 13 }) ∧
    decode .simt .widest [0x000009E5, 0x00400E00, 0] =
      .ok (.gsnd { x0 with guard := ⟨true, 1⟩, a := 7, b := 16 }) ∧
    decode .simt .widest [0x000014E5, 0x00000008, 0x00000002] =
      .ok (.gfin { x0 with guard := ⟨false, 4⟩, d := 8, c := 2 }) ∧
    decode .simt .widest [0x001026E5, 0x00000014, 0] =
      .ok (.gstat { x0 with guard := ⟨false, 6⟩, mod := 0x1, d := 20 }) ∧
    decode .simt .widest [0x000000E9, 0x00201A0A, 0x00000003] =
      .ok (.gxand { x0 with guard := ⟨false, 0⟩, d := 10, a := 13, b := 8, c := 3 }) ∧
    decode .simt .widest [0x00001DE9, 0x0000000C, 0x00000006] =
      .ok (.edab { x0 with guard := ⟨true, 5⟩, d := 12, c := 6 }) ∧
    decode .simt .widest [0x080029E9, 0x00000803, 0x00000003] =
      .ok (.gopen { x0 with guard := ⟨true, 1⟩, mod := 0x80, d := 3, a := 4, c := 3 }) :=
  ⟨rfl, rfl, rfl, rfl, rfl, rfl, rfl, rfl, rfl⟩

theorem test_decode_system :
    decode .simt .widest [0x00000CF1, 0x00000008, 0x01000000] =
      .ok (.csrr { x0 with guard := ⟨true, 4⟩, d := 8, x9 := 0x2 }) ∧
    decode .simt .widest [0x00001AF1, 0x1010000E, 0x04000000] =
      .ok (.csrw { x0 with guard := ⟨true, 2⟩, d := 14, b := 4, x9 := 0x8, bl := true }) ∧
    decode .simt .widest [0x000028F1, 0x10780004, 0x04000000] =
      .ok (.csrs { x0 with guard := ⟨true, 0⟩, d := 4, b := 30, x9 := 0x8, bl := true }) ∧
    decode .simt .widest [0x000032F1, 0x1020000E, 0x04000000] =
      .ok (.csrc { x0 with guard := ⟨false, 2⟩, d := 14, b := 8, x9 := 0x8, bl := true }) ∧
    decode .simt .widest [0x00000EF5, 0, 0] =
      .ok (.rte { x0 with guard := ⟨true, 6⟩ }) ∧
    decode .simt .widest [0x000014F5, 0x08142002, 0] =
      .ok (.hcall { x0 with guard := ⟨false, 4⟩, d := 2, a := 16, b := 5, al := true }) ∧
    decode .simt .widest [0x00102DF5, 0x00000012, 0] =
      .ok (.clk { x0 with guard := ⟨true, 5⟩, mod := 0x1, d := 18 }) ∧
    decode .simt .widest [0x000031F5, 0x004C0000, 0] =
      .ok (.sleep { x0 with guard := ⟨false, 1⟩, b := 19 }) :=
  ⟨rfl, rfl, rfl, rfl, rfl, rfl, rfl, rfl⟩

theorem test_decode_compact_1 :
    decode .simt .widest [0xA1260E20] = .ok (.iaddCompact ⟨⟨true, 6⟩, 40, 18, 24, none⟩) ∧
    decode .simt .widest [0xBBE6D620] = .ok (.isubCompact ⟨⟨false, 6⟩, 46, 62, 27, none⟩) ∧
    decode .simt .widest [0x7B202520] = .ok (.inegCompact ⟨⟨false, 5⟩, 30, 50, 0, none⟩) ∧
    decode .simt .widest [0x13A03220] = .ok (.iabsCompact ⟨⟨false, 2⟩, 4, 58, 0, none⟩) ∧
    decode .simt .widest [0x83800C2A, 0x00000001, 0x80000000] = .ok (.andCompact ⟨⟨true, 4⟩, 32, 56, 0, some 0x8000000000000001⟩) ∧
    decode .simt .widest [0x22621528] = .ok (.orCompact ⟨⟨false, 5⟩, 8, 38, 8, none⟩) ∧
    decode .simt .widest [0x39C26628] = .ok (.xorCompact ⟨⟨false, 6⟩, 14, 28, 9, none⟩) ∧
    decode .simt .widest [0xC9A1B128] = .ok (.andnCompact ⟨⟨false, 1⟩, 50, 26, 6, none⟩) ∧
    decode .simt .widest [0xA1E1402C] = .ok (.shlCompact ⟨⟨false, 0⟩, 40, 30, 5, none⟩) ∧
    decode .simt .widest [0xE021D12C] = .ok (.shrCompact ⟨⟨false, 1⟩, 56, 2, 7, none⟩) ∧
    decode .simt .widest [0xE0C2A92C] = .ok (.sarCompact ⟨⟨true, 1⟩, 56, 12, 10, none⟩) ∧
    decode .simt .widest [0x93A5B12C] = .ok (.rolCompact ⟨⟨false, 1⟩, 36, 58, 22, none⟩) :=
  ⟨rfl, rfl, rfl, rfl, rfl, rfl, rfl, rfl, rfl, rfl, rfl, rfl⟩

theorem test_decode_compact_2 :
    decode .simt .widest [0xFAE00A34] = .ok (.movCompact ⟨⟨true, 2⟩, 62, 46, 0, none⟩) ∧
    decode .simt .widest [0x08001136, 0x9ABCDEF0, 0x12345678] = .ok (.movl (.compact ⟨⟨false, 1⟩, 2, 0, 0, some 0x123456789ABCDEF0⟩)) ∧
    decode .simt .widest [0x4862CE40] = .ok (.faddCompact ⟨⟨true, 6⟩, 18, 6, 11, none⟩) ∧
    decode .simt .widest [0xA2605840] = .ok (.fsubCompact ⟨⟨true, 0⟩, 40, 38, 1, none⟩) ∧
    decode .simt .widest [0x5186EB40] = .ok (.fmulCompact ⟨⟨true, 3⟩, 20, 24, 27, none⟩) ∧
    decode .simt .widest [0xB961BB40] = .ok (.ffmaCompact ⟨⟨true, 3⟩, 46, 22, 6, none⟩) ∧
    decode .simt .widest [0xB8C00880] = .ok (.ldCompact ⟨⟨true, 0⟩, 46, 12, 0, none⟩) ∧
    decode .simt .widest [0x03031880] = .ok (.stCompact ⟨⟨true, 0⟩, 0, 48, 12, none⟩) ∧
    decode .simt .widest [0x93400B84] = .ok (.ldsCompact ⟨⟨true, 3⟩, 36, 52, 0, none⟩) ∧
    decode .simt .widest [0x03605886, 0x00000001, 0x80000000] = .ok (.stsCompact ⟨⟨true, 0⟩, 0, 54, 1, some 0x8000000000000001⟩) ∧
    decode .simt .widest [0xB8C0008A, 0x00000001, 0x80000000] = .ok (.ldgCompact ⟨⟨false, 0⟩, 46, 12, 0, some 0x8000000000000001⟩) ∧
    decode .simt .widest [0x01079A88] = .ok (.stgCompact ⟨⟨true, 2⟩, 0, 16, 30, none⟩) :=
  ⟨rfl, rfl, rfl, rfl, rfl, rfl, rfl, rfl, rfl, rfl, rfl, rfl⟩

/-! ### One step each; the results are worked out by hand from the rules named -/

/-- The value of a v register of a lane after an instruction. -/
def vAfter (i : Instr) (vs : List (Nat × Nat × Word)) (l r : Nat) : Option Word := after i (onWarp vs) (·.vr l r)

/-- The value of a k register after an instruction. -/
def kAfter (i : Instr) (ks : List (Nat × Addr)) (r : Nat) : Option Addr := after i (onTeller ks) (·.kr r)

/-- The results that an instruction issues. -/
def issued (i : Instr) (vs : List (Nat × Nat × Word)) : Option (List DReg) :=
  after i (onWarp vs) (fun t => t.ops.flatMap (fun o => match o.kind with | .compute rs => rs | _ => []))

/-- R222, R225: a sum wraps, or saturates; a lane that does not execute keeps its register. -/
theorem test_iadd_wraps_and_saturates :
    let vs := [(0, 1, 0x7FFFFFFF), (0, 2, 1), (1, 1, 5), (1, 2, 0xFFFFFFFE), (2, 3, 9)]
    vAfter (.iadd { x0 with d := 3, a := 1, b := 2 }) vs 0 3 = some 0x80000000 ∧
    vAfter (.iadd { x0 with mod := 1, d := 3, a := 1, b := 2 }) vs 0 3 = some 0x7FFFFFFF ∧
    vAfter (.iadd { x0 with d := 3, a := 1, b := 2 }) vs 1 3 = some 3 ∧
    vAfter (.iadd { x0 with d := 3, a := 1, b := 2 }) vs 2 3 = some 9 := by decide

/-- R78, R222: an I8 result is sign-extended, an N8 one zero-extended. -/
theorem test_narrow_types_extend :
    vAfter (.iadd { x0 with ty := 4, d := 3, a := 1, b := 2 }) [(0, 1, 0x7F), (0, 2, 1)] 0 3 = some 0xFFFFFF80 ∧
    vAfter (.iadd { x0 with ty := 5, d := 3, a := 1, b := 2 }) [(0, 1, 0xFF), (0, 2, 1)] 0 3 = some 0 := by decide

/-- R225: the high half of a product, signed and natural; R226: a 64-bit sum carries into the odd register. -/
theorem test_multiply_and_pairs :
    vAfter (.imulh { x0 with d := 3, a := 1, b := 2 }) [(0, 1, 0xFFFFFFFF), (0, 2, 2)] 0 3 = some 0xFFFFFFFF ∧
    vAfter (.imulh { x0 with ty := 1, d := 3, a := 1, b := 2 }) [(0, 1, 0xFFFFFFFF), (0, 2, 2)] 0 3 = some 1 ∧
    vAfter (.iadd64 { x0 with d := 6, a := 2, b := 4 }) [(0, 2, 0xFFFFFFFF), (0, 4, 1)] 0 7 = some 1 ∧
    kAfter (.isub { x0 with ty := 6, d := 3, a := 1, b := 2 }) [(1, 0), (2, 1)] 3 = some 0xFFFFFFFFFFFFFFFF := by decide

/-- R228: a count of the width gives 0, or the sign for `SAR`; `ROL` takes its count modulo the width; a signed field. -/
theorem test_shifts :
    vAfter (.shl { x0 with d := 3, a := 1, b := 2 }) [(0, 1, 1), (0, 2, 32)] 0 3 = some 0 ∧
    vAfter (.sar { x0 with d := 3, a := 1, b := 2 }) [(0, 1, 0x80000000), (0, 2, 99)] 0 3 = some 0xFFFFFFFF ∧
    vAfter (.rol { x0 with d := 3, a := 1, b := 2 }) [(0, 1, 0x80000001), (0, 2, 33)] 0 3 = some 3 ∧
    vAfter (.bfx { x0 with d := 3, a := 1, b := 2, c := 4 }) [(0, 1, 0xF0), (0, 2, 4), (0, 4, 4)] 0 3 = some 0xFFFFFFFF ∧
    vAfter (.bfi { x0 with d := 3, a := 1, b := 2, c := 4 }) [(0, 1, 5), (0, 2, 8), (0, 4, 4), (0, 3, 0xFFFFFFFF)] 0 3 =
      some 0xFFFFF5FF ∧
    vAfter (.clz { x0 with d := 3, a := 1 }) [] 0 3 = some 32 ∧
    vAfter (.brev { x0 with d := 3, a := 1 }) [(0, 1, 2)] 0 3 = some 0x40000000 ∧
    vAfter (.popc { x0 with d := 3, a := 1 }) [(0, 1, 0xF0F)] 0 3 = some 8 := by decide

/-- R229, R230: the comparison is of the extended operands; `PLOP` of a table; p7 reads true. -/
theorem test_comparisons :
    vAfter (.iset { x0 with mod := 2, d := 3, a := 1, b := 2 }) [(0, 1, 0xFFFFFFFF), (0, 2, 0)] 0 3 = some 0xFFFFFFFF ∧
    vAfter (.iset { x0 with mod := 2, ty := 1, d := 3, a := 1, b := 2 }) [(0, 1, 0xFFFFFFFF), (0, 2, 0)] 0 3 = some 0 ∧
    after (.icmp { x0 with mod := 5, d := 3, a := 1, b := 2 }) (onWarp [(0, 1, 4), (0, 2, 4)]) (·.pr 0 3) = some true ∧
    after (.plop { x0 with mod := 0x10, d := 3, a := 7, b := 1, c := 1 }) (onWarp []) (·.pr 0 3) = some true := by decide

/-- R227, R231, R232: logic, a literal, an address. -/
theorem test_logic_and_moves :
    vAfter (.andn { x0 with d := 3, a := 1, b := 2 }) [(0, 1, 0xFF), (0, 2, 0x0F)] 0 3 = some 0xF0 ∧
    vAfter (.not { x0 with d := 3, a := 1 }) [] 0 3 = some 0xFFFFFFFF ∧
    vAfter (.sel { x0 with d := 3, a := 1, b := 2, c := 7 }) [(0, 1, 1), (0, 2, 2)] 0 3 = some 1 ∧
    vAfter (.movl (.compact ⟨⟨false, 7⟩, 4, 0, 0, some 0x1122334455667788⟩)) [] 1 5 = some 0x11223344 ∧
    vAfter (.lea { x0 with mod := 2, d := 6, a := 2, b := 4, c := 8, cl := true }) [(0, 2, 0x100), (0, 4, 3)] 0 6 = some 0x114 ∧
    vAfter (.mov { x0 with guard := ⟨true, 1⟩, d := 3, a := 1 }) [(0, 1, 6)] 0 3 = some 6 := by decide

/-- R79, R82, R245, R247: rounding of a tie, directed rounding, and overflow toward zero. -/
theorem test_float_rounding :
    let vs := [(0, 1, 0x3F800000), (0, 2, 0x33800000), (0, 4, 0x7F7FFFFF)]
    vAfter (.fadd { x0 with d := 3, a := 1, b := 2 }) vs 0 3 = some 0x3F800000 ∧
    vAfter (.fadd { x0 with mod := 2, d := 3, a := 1, b := 2 }) vs 0 3 = some 0x3F800001 ∧
    vAfter (.fmul { x0 with mod := 1, d := 3, a := 4, b := 4 }) vs 0 3 = some 0x7F7FFFFF ∧
    vAfter (.fmul { x0 with d := 3, a := 4, b := 4 }) vs 0 3 = some 0x7F800000 ∧
    vAfter (.fsub { x0 with d := 3, a := 1, b := 1 }) vs 0 3 = some 0 ∧
    vAfter (.ffma { x0 with d := 3, a := 1, b := 1, c := 1 }) vs 0 3 = some 0x40000000 := by decide

/-- R248: 1/3, the square root of 2 and 2^1; R249: floor and class. -/
theorem test_float_functions :
    issued (.frcp { x0 with guard := ⟨false, 7⟩, d := 3, a := 1 }) [(0, 1, 0x40400000), (1, 1, 0x3F800000)] =
      some [.v 0 3 0x3EAAAAAB, .v 1 3 0x3F800000] ∧
    issued (.fsqrt { x0 with d := 3, a := 1 }) [(0, 1, 0x40000000)] = some [.v 0 3 0x3FB504F3, .v 1 3 0] ∧
    issued (.fexp2 { x0 with d := 3, a := 1 }) [(0, 1, 0x3F800000)] = some [.v 0 3 0x40000000, .v 1 3 0x3F800000] ∧
    vAfter (.frnd { x0 with mod := 3, d := 3, a := 1 }) [(0, 1, 0xBF000000)] 0 3 = some 0xBF800000 ∧
    vAfter (.fclass { x0 with d := 3, a := 1 }) [(0, 1, 0x80000000)] 0 3 = some 8 := by decide +kernel

/-- R250, R251, R253: a NaN is unordered; both halves of a packed sum; F32 to I32 toward zero. -/
theorem test_float_other :
    after (.fcmp { x0 with mod := 1, d := 3, a := 1, b := 1 }) (onWarp [(0, 1, 0x7FC00000)]) (·.pr 0 3) = some true ∧
    vAfter (.hadd2 { x0 with ty := 1, d := 3, a := 1, b := 1 }) [(0, 1, 0x3C00C000)] 0 3 = some 0x4000C400 ∧
    vAfter (.cvt { x0 with mod := 0x180, d := 3, a := 1 }) [(0, 1, 0xC0200000)] 0 3 = some 0xFFFFFFFE := by decide

/-- R86, R87, R256, R257: codes 01, 10, 00, 01, 01 pack to 1 + 2*3 + 27 + 81 = 115; a code 11 makes 0xFF. -/
theorem test_trits :
    vAfter (.trpk { x0 with mod := 4, d := 3, a := 4 }) [(0, 4, 0x149), (1, 4, 3)] 0 3 = some 115 ∧
    vAfter (.trpk { x0 with mod := 4, d := 3, a := 4 }) [(0, 4, 0x149), (1, 4, 3)] 1 3 = some 0xFF ∧
    vAfter (.trup { x0 with mod := 4, d := 6, a := 1 }) [(0, 1, 115)] 0 6 = some 0x149 ∧
    after (.trchk { x0 with mod := 4, d := 2, a := 1 }) (onWarp [(0, 1, 242), (1, 1, 243)]) (fun t => (t.pr 0 2, t.pr 1 2)) =
      some (true, false) := by decide

/-- R260 to R263: an exchange, a vote, reductions. -/
theorem test_lanes :
    vAfter (.lxch { x0 with mod := 7, bl := true, d := 3, a := 1, b := 1 }) [(0, 1, 10), (1, 1, 11)] 0 3 = some 11 ∧
    vAfter (.vote { x0 with mod := 3, d := 3, a := 7 }) [] 0 3 = some 3 ∧
    issued (.redux { x0 with d := 3, a := 1 }) [(0, 1, 3), (1, 1, 4)] = some [.v 0 3 7, .v 1 3 7] ∧
    issued (.scan { x0 with mod := 0x40, d := 3, a := 1 }) [(0, 1, 3), (1, 1, 4)] = some [.v 0 3 0, .v 1 3 3] ∧
    issued (.matchLanes { x0 with d := 3, a := 1 }) [(0, 1, 3), (1, 1, 4)] = some [.v 0 3 1, .v 1 3 2] ∧
    vAfter (.firstLane { x0 with mod := 1, d := 3, a := 1 }) [(0, 1, 9)] 1 3 = some 0 := by decide

/-- R235 to R241: a branch by offset counts words from itself; `JOIN` adds lanes; a target list is indexed. -/
theorem test_control :
    after (.bra { x0 with cl := true, c := 4 }) (onWarp []) (fun t => t.clause.map (·.jumps)) =
      some (some [(0, 0x10014), (1, 0x10014)]) ∧
    after (.leave { x0 with d := 0 }) (onWarp []) (·.mr 0) = some 0xFFFFFFFC ∧
    after (.exit x0) (onWarp []) (fun t => t.clause.map (·.exits)) = some (some 3) ∧
    after (.trap { x0 with al := true, a := 1 }) (onWarp []) (fun t => t.clause.map (·.fails.map (fun f => (f.lane, f.cause, f.code)))) =
      some (some [(0, .trap, 1), (1, .trap, 1)]) := by decide

/-- R265, R266: an aligned load is an operation; a misaligned one stops its lanes with ALIGN. -/
theorem test_loads :
    after (.ldg { x0 with mod := 2, d := 8, a := 2, st := 1, pm := 1 }) (onWarp [(0, 2, 0x100), (1, 2, 0x102)])
      (fun t => (t.ops.map (·.lane), t.clause.map (·.fails.map (fun f => (f.lane, f.cause, f.value))))) =
      some ([0], some [(1, .align, 0x102)]) ∧
    after (.sts { x0 with mod := 2, d := 8, a := 2 }) (onWarp [(0, 2, 0x40), (0, 8, 0x11223344), (1, 2, 0x44)])
      (fun t => t.ops.map (·.kind)) =
      some [.store (.scratch 0 0x40 0x40) [0x44, 0x33, 0x22, 0x11],
        .store (.scratch 0 0x44 0x44) [0, 0, 0, 0]] := by decide

/-- R274: addition, signed minimum and compare-and-swap of 32 bits. -/
theorem test_atomic_updates :
    (⟨0, false, true, 1, 0, 0, 3⟩ : AtomSpec).new 0xFFFFFFFF = 0 ∧ (⟨1, false, true, 0xFFFFFFFF, 0, 0, 3⟩ : AtomSpec).new 1 = 0xFFFFFFFF ∧
    (⟨8, false, false, 7, 9, 0, 3⟩ : AtomSpec).new 7 = 9 ∧ (⟨8, false, false, 7, 9, 0, 3⟩ : AtomSpec).new 6 = 6 := by decide

/-- R286, R288: a command enters its queue; R305: an empty event queue answers CODE 15. -/
theorem test_engine_commands :
    next (.tzero { x0 with d := 3, st := 1 }) (onTeller []) (fun s => (s.engine 0 0).queue.map (·.kind)) = some [.tzero 3] ∧
    kAfter (.evpop { x0 with d := 5 }) [] 5 = some 0x0F00000000000000 := by decide

/-- R314: outside a joint launch a share instruction stops its lanes; R329, R332: MODE is written, NOW is read. -/
theorem test_system :
    after (.saddc { x0 with d := 3, a := 1, b := 2 }) (onWarp []) (fun t => t.clause.map (·.fails.map (·.cause))) =
      some (some [.shareMode, .shareMode]) ∧
    after (.csrw { x0 with mod := 1, bl := true, b := 1, x9 := 0 }) (onWarp []) (·.mode) = some 1 ∧
    after (.clk { x0 with d := 4 }) { onTeller [] with now := 77 } (·.kr 4) = some 77 ∧
    after (.sleep { x0 with bl := true, b := 5 }) (onTeller []) (·.hold) = some (.sleep 6) := by decide

/-- FIPS 180-4's example (R210): SHA-512 of the bytes of "abc". -/
theorem test_sha512 :
    sha512 [0x61, 0x62, 0x63] = 0xddaf35a193617abacc417349ae20413112e6fa4e89a97ea20a9eeee64b55d39a2192992a274fc1a836ba3c23a3feebbd454d4423643ce80e2a9ac94fa54ca49f := by
  decide +kernel

/-- R274: the compare value of `CAS` may be a 9-bit literal. -/
theorem test_cas_literal :
    (Instr.cas { x0 with mod := 0x060, d := 8, a := 2, b := 1, bl := true, c := 4, st := 1 }).wellFormed .simt .widest = true := by decide

/-- R106, R274: the literal of a floating-point add is the F32 of its value. -/
theorem test_fadd_literal : (warp []).atomB { x0 with mod := 0x600, bl := true, b := 1 } 0 = 0x3F800000 ∧
    (warp []).atomB { x0 with mod := 0x600, bl := true, b := 0x1FE } 0 = 0xC0000000 := by decide +kernel

/-- R206, R207: a CONT leaf stands at its own place in an aligned 64 KiB. -/
theorem test_cont_alignment : pteOk false 5 3 0x3089 = true ∧ pteOk false 5 2 0x3089 = false ∧ pteOk false 5 2 0x3009 = true := by decide

/-- R29: RET keeps all four registers of a source that names four. -/
theorem test_quad_retained : (warp [(0, 8, 1), (0, 9, 2), (0, 10, 3), (0, 11, 4)]).source 0 .quad 8 =
    some 0x00000004000000030000000200000001 := by decide
/-! ### States that meet the hypotheses of the statements -/

/-- A property of both lanes of the small warp. -/
theorem both {P : Nat → Prop} {ls : List Nat} (h : ls = [0, 1]) (h0 : P 0) (h1 : P 1) : ∀ l ∈ ls, P l := by
  subst h
  intro l hl
  simp only [List.mem_cons, List.not_mem_nil, or_false] at hl
  rcases hl with rfl | rfl <;> assumption

/-- A warp whose pair v2:v3 holds an aligned global address and whose v4 holds a scratchpad offset. -/
def w1 : Thread := warp [(0, 2, 0x100), (0, 4, 0x40), (0, 6, 0x200), (1, 2, 0x110), (1, 4, 0x48), (1, 6, 0x210)]

/-- The device whose warp is about to move. -/
def sW : State := device [(0, block w1 (Thread.start true 0x10000))] ⟨0, some 0⟩

/-- A teller with an aligned address in k2. -/
def t1 : Thread := teller [(2, 0x100)]

/-- The device whose teller is about to move. -/
def sT : State := device [(0, block (Thread.start false 0x10000) t1)] ⟨0, none⟩

/-- The threads that the witnesses below use have lanes that execute. -/
theorem test_small_states : sW.thr sW.cur = some w1 ∧ w1.lanes x0.guard = [0, 1] ∧ sT.thr sT.cur = some t1 ∧
    t1.lanes x0.guard = [0] ∧ sW.memoriesWf ∧ t1.teller = true ∧ w1.teller = false :=
  ⟨rfl, by decide, rfl, by decide, ⟨rfl, rfl, rfl⟩, rfl, rfl⟩

theorem test_hyp_StepRunsTheDecodedInstruction :
    ∃ (s : State) (r : Thr) (rest : List Sel) (b : Block) (t : Thread) (c : Clause) (i : Instr) (lim : Limits),
      s.agenda = .thread r :: rest ∧ s.blk r.block = some b ∧ s.thr r = some t ∧ t.clause = some c ∧ 0 < c.left ∧
      t.hold = .none ∧ t.due = none ∧ (b.run = .running ∨ (b.run = .stopping ∧ t.teller = false)) ∧
      (t.teller = true → t.unreported = []) ∧ decode t.side lim c.rest = .ok i ∧ b.readsPoison r.warp t i = false ∧
      (s.arbiter b.core).granted = some (b.slot r.block) ∧ ({ s with agenda := rest } : State).mayUse b r.warp t = true ∧
      (∀ e ∈ s.blocks, e.2.tel.armed = [] ∧ ∀ u ∈ e.2.threads, u.2.ops = []) ∧ (∀ e ∈ s.ctxs, e.2.binding = []) ∧
      ∀ e ∈ s.blocks, e.2.gate = none ∧ e.2.run ≠ .saved :=
  ⟨State.reset.place nopWords, ⟨0, some 0⟩, [], blockOfWords nopWords, _, clauseOfWords false nopWords, .nop x0, .widest,
    rfl, rfl, rfl, rfl, by decide, rfl, rfl, .inl rfl, by decide, rfl, rfl, rfl, rfl, by decide, by decide, by decide⟩

/-- The step of that state is the instruction (a `NOP` ends its clause). -/
theorem test_step_runs_nop :
    (match step (State.reset.place nopWords) with
      | .next s => (s.thr ⟨0, some 0⟩).map (fun t => t.clause.map (·.left))
      | _ => none) = some (some 0) := by decide

theorem test_hyp_EncodedInstructionsDecode :
    (Instr.fmulCompact ⟨⟨false, 7⟩, 10, 9, 0, some 0x3B124925⟩).wellFormed .simt .widest = true ∧
    (Instr.drain { x0 with mod := 0x3B, b := 4, c := 13, d := 12, x9 := 0x025, pm := 4, st := 2 }).wellFormed .teller .widest = true ∧
    (Instr.bra { x0 with lit := some 0x400 }).wellFormed .simt .widest = true := by decide

theorem test_hyp_DecodedWordsEncodeBack :
    ∃ (side : Side) (lim : Limits) (ws : List Word) (i : Instr), decode side lim ws = .ok i :=
  ⟨.simt, .widest, [0x45151728], .orCompact ⟨⟨false, 7⟩, 17, 17, 20, none⟩, rfl⟩

theorem test_hyp_StepKeepsMemoriesCanonical : ∃ s s' : State, s.memoriesWf ∧ step s = .next s' :=
  ⟨{ sW with agenda := [.event .deviceTimeTick] }, _, ⟨rfl, rfl, rfl⟩, rfl⟩

theorem test_hyp_ThreadInstructionsChangeTheirThreadAlone :
    ∃ (s : State) (t : Thread) (b : Block), s.thr s.cur = some t ∧ s.blk s.cur.block = some b := ⟨sW, w1, _, rfl, rfl⟩

/-- What the statements on register results ask for: a thread that moves, a pair that fits, a predicate number. -/
theorem test_hyp_IntegerArithmetic :
    (∃ (s : State) (t : Thread) (x : Ext), s.thr s.cur = some t ∧ (t.teller = true ∨ x.d.toNat + 1 < 512)) ∧
    ∃ (s : State) (t : Thread), s.thr s.cur = some t ∧ t.teller = true :=
  ⟨⟨sW, w1, { x0 with d := 510 }, rfl, by decide⟩, sT, t1, rfl, rfl⟩

theorem test_hyp_IntegerResultsWrapOrSaturate :
    (⟨8, true⟩ : IntTy).bits ∈ [8, 16, 32, 64] ∧ (⟨64, false⟩ : IntTy).bits ∈ [8, 16, 32, 64] := by decide

theorem test_hyp_LogicInstructions : ∃ (s : State) (t : Thread), s.thr s.cur = some t := ⟨sW, w1, rfl⟩

theorem test_hyp_ShiftsAndBitFields : ∃ (s : State) (t : Thread), s.thr s.cur = some t := ⟨sT, t1, rfl⟩

theorem test_hyp_Comparisons : ∃ (s : State) (t : Thread) (x : Ext), s.thr s.cur = some t ∧ x.d.toNat < 8 :=
  ⟨sW, w1, { x0 with d := 7 }, rfl, by decide⟩

theorem test_hyp_MovesAndAddresses :
    ∃ (s : State) (t : Thread) (x : Ext) (v : Addr) (b : Block) (it : Item) (la : Launch), s.thr s.cur = some t ∧ x.lit = some v ∧
      x.m 0 = true ∧ (t.teller = true ∨ x.d.toNat + 1 < 512) ∧ { x with a := 8 }.a = 8 ∧ s.blk s.cur.block = some b ∧
      { x with mod := 0 }.m 0 = false ∧ s.items.look b.item = some it ∧ s.launches.look it.launch = some la ∧
      ∀ n, n < 11 → ({ x with a := BitVec.ofNat 9 n } : Ext).a.toNat = n :=
  ⟨sW, w1, { x0 with mod := 1, lit := some 5 }, 5, _, _, _, rfl, rfl, by decide, by decide, rfl, rfl, by decide, rfl, rfl, by decide⟩

/-- A warp whose lane 0 is well placed and whose lane 1 is not: its address is misaligned, its index beyond a list of two. -/
def wMix : Thread :=
  { warp [(0, 2, 0x100), (1, 2, 0x111), (1, 20, 9)] with clause := some { clauseFor 3 with targets := [0x20000, 0x30000] } }

def sMix : State := device [(0, block wMix t1)] ⟨0, some 0⟩

/-- Lane 1 of `sMix` fails what lane 0 passes: a `BTAB`, a load, a store and a hint. -/
theorem test_hyp_mixed_lanes :
    sMix.thr sMix.cur = some wMix ∧ wMix.unreported = [] ∧
    (let c := { clauseFor 3 with targets := [(0x20000 : Addr), 0x30000] }
     wMix.clause = some c ∧
       (wMix.lanes x0.guard).filter (fun l => decide ((wMix.reg l 20).toNat % 2 ^ 32 < c.targets.length)) = [0] ∧
       (c.targets.getD ((wMix.reg 0 20).toNat % 2 ^ 32) 0).extractLsb' 0 2 = 0) ∧
    (let x := { x0 with mod := 2, a := 2 }
     (sMix.generic 0 (wMix.address x 0) 4 4 = .ok (.global 1 0x100) ∧ wMix.count 0 x.st.toNat < 32) ∧
       sMix.generic 0 (wMix.address x 1) 4 4 = .error (.align, wMix.address x 1)) :=
  ⟨rfl, rfl, ⟨rfl, by decide, by decide⟩, ⟨rfl, by decide⟩, rfl⟩

/-- A clause in progress with a target list. -/
def wList : Thread := { w1 with clause := some { clauseFor 3 with targets := [0x20000, 0x30000] } }

theorem test_hyp_TransfersTakeTheirTargets :
    ∃ (s : State) (t : Thread) (c : Clause) (x : Ext), s.thr s.cur = some t ∧ t.clause = some c ∧
      (∀ l ∈ t.lanes x.guard, (t.pairA x l).extractLsb' 0 2 = 0) ∧ (t.teller = true ∨ x.d.toNat + 1 < 512) ∧
      (∀ l ∈ t.lanes x.guard, (t.reg l 20).toNat % 2 ^ 32 < c.targets.length) ∧
      (∀ l ∈ t.lanes x.guard, (c.targets.getD ((t.reg l 20).toNat % 2 ^ 32) 0).extractLsb' 0 2 = 0) ∧
      (∀ l ∈ t.lanes x.guard, (c.next + (x.c.signExtend 64 <<< 2)).extractLsb' 0 2 = 0) :=
  ⟨device [(0, block wList (Thread.start true 0x10000))] ⟨0, some 0⟩, wList, _, { x0 with a := 2, d := 8 }, rfl, rfl, by decide,
    by decide, by decide, by decide, by decide⟩

theorem test_hyp_MaskInstructions :
    ∃ (s : State) (t : Thread), s.thr s.cur = some t ∧ t.lanes x0.guard = 0 :: [1] ∧
      { x0 with mod := 0 }.mf 1 0 = 0 ∧ { x0 with mod := 1 }.mf 1 0 = 1 ∧ { x0 with mod := 2 }.mf 1 0 = 2 ∧ x0.d.toNat < 8 ∧
      { x0 with mod := 3 }.mf 1 0 = 3 ∧ (t.teller = true ∨ x0.d.toNat + 1 < 512) := ⟨sW, w1, rfl, by decide⟩

theorem test_hyp_LaneControl : ∃ (s : State) (t : Thread), s.thr s.cur = some t ∧ t.lanes x0.guard ≠ [] := ⟨sW, w1, rfl, by decide⟩

theorem test_hyp_FloatArithmetic : ∃ (s : State) (t : Thread) (x : Ext), s.thr s.cur = some t ∧ x.d.toNat < 512 :=
  ⟨sW, w1, { x0 with d := 511 }, rfl, by decide⟩

/-- 1/2 in F32, a value with its own rounding; 1 + 2^-24, half-way between two values, and three quarters of the way; a value
beyond the largest finite one. -/
theorem test_hyp_RoundingBracketsTheValue :
    (∃ (f : Fmt) (m : Nat) (e : Int) (bits : Nat), f ∈ [Fmt.f32, .f16, .bf16, .f26] ∧ 0 < m ∧ f.dec bits = .fin false m e) ∧
    (∀ e ∈ [(0x2000001, Ordering.lt), (0x2000002, .eq), (0x2000003, .gt)],
      let exact := FVal.fin false e.1 (-25)
      let v := fun rm => Fmt.f32.dec (Fmt.f32.rnd rm exact)
      (v .rd).cmp (v .ru) = .lt ∧ (exact.add .rne exact).cmp ((v .rd).add .rne (v .ru)) = e.2) ∧
    Fmt.f32.dec (Fmt.f32.rnd .ru (.fin false 1 128)) = .inf false ∧ Fmt.f32.dec (Fmt.f32.rnd .rd (.fin true 1 128)) = .inf true :=
  ⟨⟨.f32, 0x800000, -24, 0x3F000000, by decide, by decide, rfl⟩, by decide +kernel, by decide +kernel⟩

theorem test_hyp_ComparisonsAndPackedArithmetic : ∃ (s : State) (t : Thread) (x : Ext), s.thr s.cur = some t ∧ x.d.toNat < 8 :=
  ⟨sW, w1, x0, rfl, by decide⟩

theorem test_hyp_LongLatencyResults : ∃ (s : State) (t : Thread), s.thr s.cur = some t ∧ t.lanes x0.guard ≠ [] :=
  ⟨sW, w1, rfl, by decide⟩

theorem test_hyp_ReductionsFoldTheLanes :
    (x0.m 3 = false ∧ x0.m 6 = false ∧ { x0 with mod := 0x40 }.m 3 = false ∧ { x0 with mod := 0x40 }.m 6 = true) ∧
    ({ x0 with mod := 8 }.m 3 = true ∧ { x0 with mod := 8 }.mf 2 0 < 3 ∧ { x0 with mod := 8 }.m 6 = false) ∧
    ({ x0 with mod := 0x4A }.m 3 = true ∧ { x0 with mod := 0x4A }.mf 2 0 < 3 ∧ { x0 with mod := 0x4A }.m 6 = true) ∧
    (List.range 31).length < 32 := by decide

theorem test_hyp_Conversions :
    (∃ (s : State) (t : Thread), s.thr s.cur = some t ∧ x0.mf 3 0 ≠ 6 ∧ x0.mf 3 0 ≠ 7 ∧ { x0 with mod := 6 }.mf 3 0 = 6 ∧
      (t.teller = true ∨ x0.d.toNat + 1 < 512) ∧ { x0 with d := 508 }.d.toNat + 4 ≤ 512) ∧
    (∀ c, c < 13 → ({ x0 with mod := BitVec.ofNat 12 (17 * c) } : Ext).mf 3 0 = c ∧
      ({ x0 with mod := BitVec.ofNat 12 (17 * c) } : Ext).mf 7 4 = c) ∧
    Fmt.f32.dec 0x7FC00000 = .nan ∧ Fmt.f32.dec 0xFF800000 = .inf true ∧ Fmt.f32.dec 0x3F800000 = .fin false 0x800000 (-23) :=
  ⟨⟨sW, w1, rfl, by decide⟩, by decide, by decide⟩

/-- Lanes whose packed byte is 242 are legal, lanes whose byte is 243 are not, together and apart; a code 0b11. -/
theorem test_hyp_TritInstructions :
    (∃ (s : State) (t : Thread) (x : Ext), s.thr s.cur = some t ∧ x.d.toNat + 1 < 512 ∧ x.d.toNat < 8 ∧ t.teller = false ∧
      ∀ l ∈ t.lanes x.guard, firstIllegal (t.vr l x.a.toNat) (tritCount x) = none) ∧
    (∃ (s : State) (t : Thread) (x : Ext), s.thr s.cur = some t ∧ t.lanes x.guard ≠ [] ∧
      ∀ l ∈ t.lanes x.guard, (firstIllegal (t.vr l x.a.toNat) (tritCount x)).isSome = true) ∧
    (∃ (s : State) (t : Thread) (x : Ext), s.thr s.cur = some t ∧ x.d.toNat + 1 < 512 ∧ t.teller = false ∧
      (t.lanes x.guard).map (fun l => (firstIllegal (t.vr l x.a.toNat) (tritCount x)).isNone) = [true, false]) ∧
    (∀ i, i < 5 → (fun _ => 2) i < 3) ∧ ∃ i, i < 5 ∧ (fun _ => 3) i = 3 :=
  ⟨⟨onWarp [(0, 1, 242)], _, { x0 with mod := 4, a := 1, d := 2 }, rfl, by decide, by decide, rfl, by decide⟩,
    ⟨onWarp [(0, 1, 243), (1, 1, 255)], _, { x0 with mod := 4, a := 1, d := 2 }, rfl, by decide, by decide⟩,
    ⟨onWarp [(0, 1, 242), (1, 1, 243)], _, { x0 with mod := 4, a := 1, d := 2 }, rfl, by decide, rfl, by decide⟩,
    by decide, 4, by decide⟩

theorem test_hyp_LaneExchanges :
    ∃ (s : State) (t : Thread) (rest : List Nat), s.thr s.cur = some t ∧ t.lanes x0.guard = 0 :: rest ∧ x0.d.toNat < 8 ∧
      x0.mf 1 0 = 0 ∧ { x0 with mod := 1 }.mf 1 0 = 1 ∧ { x0 with mod := 2 }.mf 1 0 = 2 ∧ { x0 with mod := 3 }.mf 1 0 = 3 :=
  ⟨sW, w1, [1], rfl, by decide⟩

/-- The forms of loads and stores in `sW`: the pair v2:v3 holds a global address, v4 a scratchpad offset. -/
theorem test_hyp_LoadsIssue :
    sW.thr sW.cur = some w1 ∧ w1.unreported = [] ∧ (∀ l ∈ w1.lanes x0.guard, w1.count l 0 < 32) ∧
    (let x := { x0 with mod := 2, d := 8, a := 2 }
     ∀ l ∈ w1.lanes x.guard,
       sW.generic sW.cur.block (w1.address x l) 4 4 = .ok (.global 1 (w1.address x l)) ∧
       sW.globalOnly sW.cur.block (w1.address x l) 4 = .ok (.global 1 (w1.address x l))) ∧
    (let x := { x0 with mod := 2, d := 8, a := 4 }
     ∀ l ∈ w1.lanes x.guard,
       scratchOnly sW.cur.block (w1.scratchAddr x l) 4 = .ok (.scratch 0 (w1.scratchAddr x l).toNat (BitVec.ofInt 64 (w1.scratchAddr x l)))) ∧
    (let k : Compact := ⟨⟨false, 7⟩, 8, 2, 0, none⟩
     ∀ l ∈ w1.lanes k.load.guard, sW.generic sW.cur.block (w1.address k.load l) 4 4 = .ok (.global 1 (w1.address k.load l))) ∧
    (∃ b it la, sW.blk sW.cur.block = some b ∧ sW.items.look b.item = some it ∧ sW.launches.look it.launch = some la ∧
      ∀ l ∈ w1.lanes x0.guard,
        sW.globalOnly sW.cur.block (la.args + w1.index32 { x0 with mod := 2 } 0 l + ({ x0 with mod := 2 } : Ext).offset) 4 =
          .ok (.global 1 0x20000)) :=
  ⟨rfl, rfl, by decide, both (by decide) ⟨rfl, rfl⟩ ⟨rfl, rfl⟩, both (by decide) rfl rfl, both (by decide) rfl rfl,
    _, _, _, rfl, rfl, rfl, both (by decide) rfl rfl⟩

theorem test_hyp_StoresIssue :
    sW.thr sW.cur = some w1 ∧ w1.unreported = [] ∧ (∀ l ∈ w1.lanes x0.guard, w1.count l 0 < 32) ∧
    (let x := { x0 with mod := 2, d := 8, a := 2 }
     ∀ l ∈ w1.lanes x.guard, sW.generic sW.cur.block (w1.address x l) 4 4 = .ok (.global 1 (w1.address x l)) ∧
       sW.globalOnly sW.cur.block (w1.address x l) 4 = .ok (.global 1 (w1.address x l))) ∧
    (let k : Compact := ⟨⟨false, 7⟩, 0, 4, 8, none⟩
     ∀ l ∈ w1.lanes k.store.guard, scratchOnly sW.cur.block (w1.scratchAddr k.store l) 4 =
       .ok (.scratch 0 (w1.scratchAddr k.store l).toNat (BitVec.ofInt 64 (w1.scratchAddr k.store l)))) :=
  ⟨rfl, rfl, by decide, both (by decide) ⟨rfl, rfl⟩ ⟨rfl, rfl⟩, both (by decide) rfl rfl⟩

theorem test_hyp_AtomicsIssue :
    ∃ p : Nat → Place, sW.thr sW.cur = some w1 ∧ w1.unreported = [] ∧
      (let x := { x0 with d := 8, a := 2, b := 12, mod := 0x110, st := 7 }
       (∀ l ∈ w1.lanes x.guard, w1.count l x.st.toNat < 32) ∧
         (∀ l ∈ w1.lanes x.guard, sW.generic sW.cur.block (w1.baseOff x l) 4 4 = .ok (p l)) ∧
         (∀ l ∈ w1.lanes x.guard, sW.generic sW.cur.block (w1.baseOff x l) 8 8 = .ok (p l)) ∧
         { x with mod := 0 }.mf 9 8 = 0 ∧ x.mf 9 8 = 1 ∧ 2 ≤ { x with mod := 0x200 }.mf 9 8) :=
  ⟨fun l => .global 1 (w1.pair l 2), rfl, rfl, by decide, both (by decide) rfl rfl, both (by decide) rfl rfl, by decide⟩

theorem test_hyp_CopiesAndHintsIssue :
    ∃ d c src : Nat → Place, sW.thr sW.cur = some w1 ∧ w1.unreported = [] ∧
      (let x := { x0 with mod := 0x22, a := 2, b := 6, c := 2, st := 3 }
       (∀ l ∈ w1.lanes x.guard, w1.count l x.st.toNat < 32) ∧ x.m 5 = true ∧
         ∀ l ∈ w1.lanes x.guard, sW.generic 0 (w1.pairA x l) 4 4 = .ok (d l) ∧ sW.generic 0 (w1.pair l x.b.toNat) 4 4 = .ok (src l) ∧
           (x.m 5 = true → sW.generic 0 (w1.pair l x.c.toNat) 8 8 = .ok (c l))) ∧
      (let faults := fun (p : Place) => ∃ c st, sW.resolve 0 none p 1 1 plainOk = .fault c st
       (∀ l ∈ w1.lanes x0.guard, sW.generic 0 (w1.address { x0 with mod := 2, a := 2 } l) 4 4 = .ok (d l) ∧
         (∃ ctx va, d l = .global ctx va) ∧ ¬ faults (d l)) ∧
       faults (.global 1 0x100000000000000) ∧ ∃ e, sW.generic 0 0x101 4 4 = .error e) :=
  ⟨fun l => .global 1 (w1.pair l 2), fun l => .global 1 (w1.pair l 2), fun l => .global 1 (w1.pair l 6), rfl, rfl,
    ⟨by decide, by decide, both (by decide) ⟨rfl, rfl, fun _ => rfl⟩ ⟨rfl, rfl, fun _ => rfl⟩⟩,
    ⟨both (by decide) ⟨rfl, ⟨_, _, rfl⟩, fun ⟨_, _, h⟩ => nomatch h⟩ ⟨rfl, ⟨_, _, rfl⟩, fun ⟨_, _, h⟩ => nomatch h⟩, ⟨_, _, rfl⟩, _, rfl⟩⟩

/-- Misaligned addresses in v2:v3, indices beyond the list, a misaligned target. -/
theorem test_hyp_BadAddressesStopTheirLanes :
    ∃ (s : State) (t : Thread) (c : Clause), s.thr s.cur = some t ∧ t.clause = some c ∧
      (let x := { x0 with mod := 2, a := 2 }
       (∀ l ∈ t.lanes x.guard, (t.address x l).toNat % widBytes x ≠ 0 ∧ regionOf (t.address x l) (widBytes x) ≠ .window) ∧
         (∀ l ∈ t.lanes x.guard, c.targets.length ≤ (t.reg l x.a.toNat).toNat % 2 ^ 32) ∧
         ∃ l ∈ t.lanes x.guard, (t.pairA x l).extractLsb' 0 2 ≠ 0) :=
  ⟨onWarp [(0, 2, 0x101), (1, 2, 0x102)], _, _, rfl, rfl, by decide, by decide, 0, by decide, by decide⟩

/-- Thirty-two operations outstanding in lane 0 on stream 1; engine queues with 16 commands. -/
def sFull : State :=
  { device [(0, block { w1 with ops := (List.range 32).map (fun n => ⟨n, n, 0, 0, some 1, 0, none, 0, .compute [], none, []⟩) } t1)] ⟨0, some 0⟩ with
    engines := [0, 2, 3, 4].map (fun e => (e, { Engine.blank with queue := List.replicate 16 ⟨9, 0, .tzero 0, 0, false, none, 0, false⟩ })) }

theorem test_hyp_FullQueuesStall :
    (∃ (t : Thread) (x : Ext) (l : Nat) (p : Place), sFull.thr sFull.cur = some t ∧ l ∈ t.lanes x.guard ∧ 32 ≤ t.count l x.st.toNat ∧
      sFull.generic sFull.cur.block (t.address x l) (widBytes x) (widBytes x) = .ok p) ∧
    ∃ (s : State) (t : Thread) (x : Ext) (b : Block), s.thr s.cur = some t ∧ s.blk s.cur.block = some b ∧ t.lanes x.guard ≠ [] ∧
      t.count 0 x.st.toNat < 32 ∧ earlyFail (t.pairCheck x) = none ∧ 16 ≤ (s.engine b.core 0).queue.length ∧
      16 ≤ (s.engine b.core 2).queue.length ∧ 16 ≤ (s.engine b.core 3).queue.length ∧ 16 ≤ (s.engine b.core 4).queue.length :=
  ⟨⟨_, { x0 with mod := 2, d := 8, a := 2, st := 1 }, 0, _, rfl, by decide, by decide, rfl⟩,
    { sFull with cur := ⟨0, none⟩ }, _, { x0 with st := 1 }, _, rfl, rfl, by decide, by decide, by decide, by decide, by decide, by decide,
      by decide⟩

/-- One lane waits on a counter at offset 0x40 of its scratchpad. -/
def wOne : Thread := { warp [(0, 2, 0x40), (0, 3, 0xFFFFFE00), (0, 4, 3)] with clause := some (clauseFor 1) }

theorem test_hyp_CwaitTestsItsCounter :
    ∃ (s : State) (t : Thread) (b : Block) (c : Clause) (w : Word) (ws : List Word) (x : Ext) (l off : Nat) (a : Addr),
      s.thr s.cur = some t ∧ s.blk s.cur.block = some b ∧ t.clause = some c ∧ c.rest = w :: ws ∧ t.lanes x.guard = [l] ∧
      t.ops = [] ∧ t.unreported = [] ∧ s.findOp s.nextId = none ∧ (b.run = .running ∨ b.run = .stopping) ∧
      s.generic s.cur.block (t.pairA x l + (if x.cl then lit9 x.c else 0)) 8 8 = .ok (.scratch s.cur.block off a) ∧
      off + 8 ≤ b.scratchBytes ∧ b.poisonedLines = [] ∧ ¬ (t.pairB x l).toNat ≤ numOf (readMem b.scratch off 8) ∧
      ({ t with v := [] }.pairB x l).toNat ≤ numOf (readMem b.scratch off 8) :=
  ⟨device [(0, block wOne t1)] ⟨0, some 0⟩, wOne, _, _, _, _, { x0 with a := 2, b := 4 }, 0, 0x40, 0xFFFFFE0000000040,
    rfl, rfl, rfl, rfl, by decide, rfl, rfl, rfl, .inl rfl, rfl, by decide, rfl, by decide, by decide⟩

/-- The checks of every engine command pass for k2 = 0x1000, and the queues are empty. -/
theorem test_hyp_CommandsEnterTheirQueues :
    ∃ (s : State) (t : Thread) (b : Block), s.thr s.cur = some t ∧ s.blk s.cur.block = some b ∧
      (let x := { x0 with a := 2, b := 2, d := 2, c := 2, st := 1, mod := 0x10 }
       let k := fun (r : BitVec 9) => t.kr r.toNat
       t.lanes x.guard ≠ [] ∧ t.count 0 x.st.toNat < 32 ∧
       (∀ e, e < 7 → (s.engine b.core e).queue.length < 16 ∧ b.saved.rd [] e = []) ∧
       ∀ checks ∈ ([[(k x.a, 16, 64)], [], [(k x.a + x.offset, 3328, 64)],
         [(k x.d, drainSize (x.mf 2 0), drainSize (x.mf 2 0)), (k x.b, 16, 64)], [(k x.d, 4, 4)],
         [(k x.b, 64, 64), (k x.a, 8, 8), (k x.d, 8, 8)], [(k x.b, 64, 64)], [(k x.a, 64, 64)], [(k x.a, 1, 1)]] :
           List (List EarlyCheck)),
         earlyFail (checks ++ t.pairCheck x) = none) :=
  ⟨onTeller [(2, 0x1000)], _, _, rfl, rfl, by decide⟩

/-- One record waits, in the reserve entry; none waits in `sT`. -/
theorem test_hyp_EventQueueInstructions :
    (∃ (s : State) (t : Thread) (r : Addr), s.thr s.cur = some t ∧ t.lanes x0.guard ≠ [] ∧ { x0 with a := 1 }.a.toNat ≤ t.evq.length ∧
      t.evq.length < { x0 with a := 2 }.a.toNat ∧ t.evq = r :: [] ∧ t.pend = [] ∧ t.reserve = some 0) ∧
    (sT.thr sT.cur = some t1 ∧ t1.evq = []) :=
  ⟨⟨device [(0, block w1 { t1 with evq := [0x33], reserve := some 0 })] ⟨0, none⟩, _, 0x33, rfl, by decide, by decide, by decide, rfl, rfl,
    rfl⟩, rfl, rfl⟩

theorem test_hyp_SharesNeedAJointLaunch :
    ∃ (s : State) (t : Thread) (b : Block), s.thr s.cur = some t ∧ s.blk s.cur.block = some b ∧ b.gate = none ∧ t.lanes x0.guard ≠ [] :=
  ⟨sW, w1, _, rfl, rfl, rfl, by decide⟩

/-- A block of a joint item with two entries in each pool; lane 1 has an exchange waiting, lane 0 none. -/
def gate1 : Gate := ⟨2, [], [], [], [(0, 1), (1, 1)], [(1, ⟨1, 0, 0, 0, 0, 0, 0, 0, 0⟩)], [], []⟩

def sGate : State := device [(0, { block w1 t1 with gate := some gate1 })] ⟨0, some 0⟩

theorem test_hyp_OwnShares :
    ∃ (t : Thread) (b : Block), sGate.thr sGate.cur = some t ∧ sGate.blk sGate.cur.block = some b ∧ b.gate = some gate1 ∧
      (∀ n, n < 8 → ({ x0 with mod := BitVec.ofNat 12 n } : Ext).mf 2 0 = n) := ⟨w1, _, rfl, rfl, rfl, by decide⟩

/-- Each condition of a clause on the executing lanes holds in `sGate` or in the
same device with other SLOTs or burnt entries. -/
theorem test_hyp_GateInstructionsSendPackets :
    (∃ (t : Thread) (b : Block), sGate.thr sGate.cur = some t ∧ sGate.blk sGate.cur.block = some b ∧ b.gate = some gate1 ∧
      t.lanes x0.guard ≠ [] ∧
      (∀ k ∈ [GateKind.arith, .binary, .eda], ∀ l ∈ t.lanes x0.guard, gate1.cursor k l < gate1.triples) ∧
      (∀ l ∈ t.lanes x0.guard, gate1.opl.rd 0 l ≠ 0) ∧
      (∀ l ∈ t.lanes x0.guard, ({ gate1 with slots := [] } : Gate).isBurnt .arith l 0 = false) ∧
      (∀ l ∈ t.lanes x0.guard, ({ gate1 with slots := [], burnt := [(0, true), (1024, true)] } : Gate).isBurnt .arith l 0 = true) ∧
      (∀ l ∈ t.lanes x0.guard, (({ gate1 with slots := [] } : Gate).slot l).state = 0) ∧
      (∀ l ∈ t.lanes x0.guard, (({ gate1 with slots := [(0, ⟨1, 0, 0, 0, 0, 0, 0, 0, 0⟩), (1, ⟨2, 0, 0, 0, 0, 0, 0, 0, 0⟩)] } : Gate).slot l).state ≠ 0)) ∧
    (let ls := w1.lanes x0.guard
     ls.any (fun l => (gate1.slot l).state != 0) = true ∧ ls.filter (fun l => (gate1.slot l).state == 0) = [0] ∧
       (∀ k ∈ [GateKind.arith, .binary, .eda], ls.any (fun l =>
         decide (({ gate1 with triples := 0 } : Gate).triples ≤ ({ gate1 with triples := 0 } : Gate).cursor k l)) = true) ∧
       ls.any (fun l => ({ gate1 with opl := [(0, 1)] } : Gate).opl.rd 0 l == 0) = true) :=
  ⟨⟨w1, _, rfl, rfl, rfl, by decide, by decide, by decide, by decide, by decide, by decide, by decide⟩, by decide⟩

/-- Every register's number, both widths, both values of ND. -/
theorem test_hyp_ControlRegisters :
    ∃ (s : State) (t : Thread) (b : Block), s.thr s.cur = some t ∧ s.blk s.cur.block = some b ∧
      csrWide t { x0 with x9 := 0 } = false ∧ csrWide t { x0 with x9 := 4 } = true ∧ (t.teller = true ∨ x0.d.toNat + 1 < 512) ∧
      t.lanes x0.guard = 0 :: [1] ∧ { x0 with mod := 1 }.m 0 = true ∧ x0.m 0 = false ∧
      ∀ n, n < 8 → ({ x0 with x9 := BitVec.ofNat 9 n } : Ext).x9.toNat = n :=
  ⟨sW, w1, _, rfl, rfl, by decide, by decide, by decide, by decide, by decide, by decide, by decide⟩

/-- A warp both of whose lanes are in a handler, one with lane 0 there alone, and one in none. -/
theorem test_hyp_ReturnsCallsAndSleeps :
    (∀ lanes ∈ [(3 : LaneMask), 1], ∃ (s : State) (t : Thread) (b : Block) (h : Handler), s.thr s.cur = some t ∧
      s.blk s.cur.block = some b ∧ t.handler = some h ∧ t.ops = [] ∧ b.poisonedLines = [] ∧
      (t.lanes x0.guard).map (fun l => h.lanes.getLsbD l) = [true, lanes.getLsbD 1]) ∧
    (∃ (s : State) (t : Thread) (b : Block), s.thr s.cur = some t ∧ s.blk s.cur.block = some b ∧ t.handler = none ∧
      ∀ o ∈ t.ops, o.stream.isSome = true) ∧
    ∃ (s : State) (t : Thread) (l : Nat) (rest : List Nat), s.thr s.cur = some t ∧ t.lanes x0.guard = l :: rest :=
  ⟨by
      intro lanes hl
      simp only [List.mem_cons, List.not_mem_nil, or_false] at hl
      rcases hl with rfl | rfl
      · exact ⟨device [(0, block { w1 with handler := some ⟨3, 0, 0x10000, none, []⟩ } t1)] ⟨0, some 0⟩, _, _, _, rfl, rfl, rfl, rfl, rfl,
          by decide⟩
      · exact ⟨device [(0, block { w1 with handler := some ⟨1, 0, 0x10000, none, []⟩ } t1)] ⟨0, some 0⟩, _, _, _, rfl, rfl, rfl, rfl, rfl,
          by decide⟩,
    ⟨sW, w1, _, rfl, rfl, rfl, by decide⟩, sW, w1, 0, [1], rfl, by decide⟩
/-- Code of one clause at 0x10000: a header (R20) and a `NOP`. -/
def code : Mem := [(0x10001, 0xF0), (0x10002, 0x0F), (0x10004, 0x0D), (0x10005, 0x27)]

/-- A warp at a boundary, about to issue that clause. -/
def sEdge : State :=
  { device [(0, block (Thread.start false 0x10000) (Thread.start true 0x10000))] ⟨0, some 0⟩ with
    dram := tables ++ code, tlb := [⟨0, 0, 1, 0, 2 ^ 30, 0, ⟨0, .dram, false, 7, 7, 0x3000, 0, 1⟩⟩] }

/-- The same warp where the header waits for flag 0, which an operation holds. -/
def sFlag : State :=
  let t := { Thread.start false 0x10000 with ops := [⟨7, 7, 0, 0, none, 0, some 0, 0, .compute [], none, []⟩] }
  { sEdge with
    blocks := [(0, block t (Thread.start true 0x10000))],
    dram := tables ++ [(0x10001, 0xF0), (0x10002, 0x1F), (0x10004, 0x0D), (0x10005, 0x27)] }

/-- A warp at the end of a clause of its lane 0, in a handler of some lanes that returns there. -/
def wBack (lanes : LaneMask) (rpc : Addr) (saved : Option Clause) : Thread :=
  { w1 with clause := some { clauseFor 1 with left := 0, returns := 1 }, handler := some ⟨lanes, 0, rpc, saved, []⟩ }

theorem test_hyp_BoundariesIssueTheLeastPc :
    (∃ (s : State) (r : Thr) (b : Block) (t : Thread) (pc : Addr) (set : LaneMask) (quiet : Nat) (w : Word) (c : Clause),
      s.blk r.block = some b ∧ s.thr r = some t ∧ t.atBoundary = true ∧ b.run = .running ∧ t.boundary.atBoundary = true ∧
      t.boundary.withdrawn = [] ∧ t.boundary.choose = some (pc, set, quiet) ∧ t.boundary.streamTrap set pc none = none ∧
      ((s.applyBoundary r).reissue r).fetchHeader (t.boundary.fetcher b) pc = .ok w ∧
      t.boundary.waitPending (w.extractLsb' 20 12) = false ∧
      ((s.applyBoundary r).reissue r).fetchClause (t.boundary.fetcher b) pc set = .ok c) ∧
    (∃ (b : Block) (t : Thread) (pc : Addr) (set : LaneMask) (quiet : Nat) (w : Word), sFlag.blk 0 = some b ∧
      sFlag.thr ⟨0, some 0⟩ = some t ∧ t.atBoundary = true ∧ b.run = .running ∧ t.boundary.atBoundary = true ∧
      t.boundary.withdrawn = [] ∧ t.boundary.choose = some (pc, set, quiet) ∧ t.boundary.streamTrap set pc none = none ∧
      ((sFlag.applyBoundary ⟨0, some 0⟩).reissue ⟨0, some 0⟩).fetchHeader (t.boundary.fetcher b) pc = .ok w ∧
      t.boundary.waitPending (w.extractLsb' 20 12) = true) ∧
    (let t := { Thread.start false 0x10000 with exited := 0xFFFFFFFF }
     t.atBoundary = true ∧ t.boundary.atBoundary = true ∧ t.boundary.withdrawn = [] ∧ t.boundary.choose = none) ∧
    (∃ (t : Thread) (pc : Addr) (set : LaneMask) (quiet : Nat), t.choose = some (pc, set, quiet)) ∧
    (let c := { clauseFor 3 with exits := 1, waits := [(1, 4)] }
     c.issue.getLsbD 0 = true ∧ c.stopped.getLsbD 0 = false ∧ c.exits.getLsbD 0 = true ∧ c.issue.getLsbD 1 = true ∧
       c.exits.getLsbD 1 = false ∧ c.waits.look 1 = some 4 ∧ ({ w1 with m := [(4, 2)] } : Thread).mr 4 = 2) ∧
    ((clauseFor 3).exits = 0 ∧ (clauseFor 3).waits = [] ∧ w1.waits = [] ∧ w1.handler = none) ∧
    ∀ saved ∈ [none, some (clauseFor 3)], ∀ rpc ∈ [(0x10010 : Addr), 0x20000], ∀ lanes ∈ [(3 : LaneMask), 1],
      ∃ (c : Clause) (h : Handler), (wBack lanes rpc saved).clause = some c ∧ (wBack lanes rpc saved).handler = some h ∧ c.fails = [] ∧
        (wBack lanes rpc saved).due = none ∧ (wBack lanes rpc saved).recorded = [] ∧ c.exits = 0 ∧ h.saved = saved ∧ h.rpc = rpc ∧
        (c.jumps.look 0).getD c.fall = 0x10010 ∧ c.issue.getLsbD 0 = true ∧ (wBack lanes rpc saved).exited = 0 ∧
        h.lanes &&& ~~~((h.returned ||| (c.returns &&& (c.issue &&& ~~~c.stopped))) ||| (wBack lanes rpc saved).exited) = lanes - 1 :=
  ⟨⟨sEdge, ⟨0, some 0⟩, _, _, 0x10000, 0xFFFFFFFF, 1, _, _, rfl, rfl, rfl, rfl, rfl, rfl, rfl, rfl, rfl, rfl, rfl⟩,
    ⟨_, _, 0x10000, 0xFFFFFFFF, 1, _, rfl, rfl, rfl, rfl, rfl, rfl, rfl, rfl, rfl, by decide⟩, by decide,
    ⟨Thread.start false 0x10000, _, _, _, rfl⟩, by decide, by decide, by
      intro saved hs rpc hr lanes hl
      simp only [List.mem_cons, List.not_mem_nil, or_false] at hs hr hl
      refine ⟨_, _, rfl, rfl, rfl, rfl, rfl, rfl, rfl, rfl, rfl, rfl, rfl, ?_⟩
      rcases hs with rfl | rfl <;> rcases hr with rfl | rfl <;> rcases hl with rfl | rfl <;> decide⟩

/-- The boundary of that warp issues the clause for its 32 lanes. -/
theorem test_boundary_issues :
    (match exec (.clauseBoundary ⟨0, some 0⟩) sEdge with
      | .next s => (s.thr ⟨0, some 0⟩).map (fun t => t.clause.map (fun c => (c.next, c.left, c.issue, c.fall)))
      | _ => none) = some (some (0x10004, 1, 0xFFFFFFFF, 0x10010)) := by decide +kernel

/-- Core 0 with one resident context that is ready, with and without deficit left. -/
theorem test_hyp_IssueSlotsAreGrantedInTurn :
    (∃ (s : State) (c : Nat), (s.arbiter 0).granted = none ∧
      (slotsAfter (s.arbiter 0).last).find? (fun c => s.slotReady 0 c && decide (0 < (s.arbiter 0).deficit.rd 0 c)) = some c) ∧
    ∃ (s : State) (c : Nat), (s.arbiter 0).granted = none ∧
      (slotsAfter (s.arbiter 0).last).find? (fun c => s.slotReady 0 c && decide (0 < (s.arbiter 0).deficit.rd 0 c)) = none ∧
      (slotsAfter (s.arbiter 0).last).find? (fun c => s.slotReady 0 c) = some c :=
  ⟨⟨{ sW with arbiters := [(0, ⟨[(0, 2)], [(0, 2)], 7, none⟩)] }, 0, rfl, rfl⟩, sW, 0, rfl, rfl, rfl⟩

/-- The device with a warp in a hold. -/
def held (h : Hold) : State := device [(0, block { w1 with hold := h } t1)] ⟨0, some 0⟩

/-- An operation on stream 1 of lane 0. -/
def op (kind : OpKind) : Op := ⟨7, 7, 0, 0, some 1, 0, none, 0x10004, kind, none, []⟩

theorem test_hyp_HoldsEnd :
    (∃ (s : State) (t : Thread) (b : Block), s.thr ⟨0, some 0⟩ = some t ∧ s.blk 0 = some b ∧ t.hold = .streamFull 1 7 ∧
      ∀ l, l < 32 → (1 : LaneMask).getLsbD l = true → t.count l 7 < 32) ∧
    (∃ (s : State) (t : Thread), s.thr ⟨0, none⟩ = some t ∧ t.hold = .evwait 1 ∧ 1 ≤ t.evq.length) ∧
    (∃ (s : State) (t : Thread), s.thr ⟨0, some 0⟩ = some t ∧ t.hold = .sleep 0) ∧
    (∀ n, n < 5 → ∃ (s : State) (t : Thread), s.thr ⟨0, some 0⟩ = some t ∧ t.hold = .hcall 3 n 0 1 0 ∧ 3 < 512 ∧
      (t.teller = true → (1 : LaneMask) = 1)) ∧
    (100 ≤ ((100 : BitVec 48) - 0).toNat ∧ ((100 : BitVec 48) - 0).toNat ≤ 100 ∧ 100 < ((101 : BitVec 48) - 0).toNat) ∧
    ∃ (s : State) (t : Thread) (b : Block) (o : Op) (off : Nat) (a thr : Addr) (sc : Nat), s.thr ⟨0, some 0⟩ = some t ∧ s.blk 0 = some b ∧
      t.hold = .cwait [7] ∧ t.ops = [o] ∧ o.id = 7 ∧ s.findOp 7 = some (⟨0, some 0⟩, o) ∧ o.xl = none ∧
      o.kind = .cwait (.scratch 0 off a) thr sc ∧ b.run = .running ∧ off + 8 ≤ b.scratchBytes ∧ b.poisonedLines = [] ∧
      thr.toNat ≤ numOf (readMem b.scratch off 8) :=
  ⟨⟨held (.streamFull 1 7), _, _, rfl, rfl, rfl, by decide⟩,
    ⟨device [(0, block w1 { t1 with hold := .evwait 1, evq := [0x33] })] ⟨0, none⟩, _, rfl, rfl, by decide⟩,
    ⟨held (.sleep 0), _, rfl, rfl⟩,
    fun n _ => ⟨{ held (.hcall 3 n 0 1 0) with now := 100 }, _, rfl, rfl, by decide, fun _ => rfl⟩, by decide,
    ⟨device [(0, { block { w1 with hold := .cwait [7], ops := [op (.cwait (.scratch 0 0x40 0) 3 0)] } t1 with scratch := [(0x40, 3)] })]
      ⟨0, some 0⟩, _, _, _, 0x40, 0, 3, 0, rfl, rfl, rfl, rfl, rfl, rfl, rfl, rfl, rfl, by decide, rfl, by decide⟩⟩

/-- The device whose warp has one operation outstanding. -/
def withOp (kind : OpKind) : State := device [(0, block { w1 with ops := [op kind] } t1)] ⟨0, some 0⟩

/-- No byte of the small device is poisoned, and no line of its DRAM has a key. -/
theorem withOp_unpoisoned (kind : OpKind) : (withOp kind).unpoisoned := by
  refine ⟨rfl, rfl, rfl, fun k b h => ?_⟩
  rcases k with _ | k
  · cases h
    exact ⟨rfl, rfl⟩
  · cases h

theorem withOp_keyed (kind : OpKind) (tag l : Nat) : (withOp kind).keyed tag l = true := rfl

/-- What `OperationsPerform` asks of every operation, for one kind. -/
theorem withOp_ready (kind : OpKind) (h : ({ w1 with ops := [op kind] } : Thread).free (op kind) = true) :
    (withOp kind).findOp (op kind).id = some (⟨0, some 0⟩, op kind) ∧
    ∃ (t : Thread) (b : Block), (withOp kind).thr ⟨0, some 0⟩ = some t ∧ (withOp kind).blk 0 = some b ∧ t.free (op kind) = true ∧
      t.unreported = [] ∧ (op kind).dropped = [] ∧ (op kind).xl = none ∧ t.teller = false ∧ b.run = .running ∧ t.ops = [op kind] :=
  ⟨rfl, _, _, rfl, rfl, h, rfl, rfl, rfl, rfl, rfl, rfl⟩

/-- The kinds of operation that the statement speaks of, on a scratchpad offset, a DRAM and a host address. -/
def kinds (sc g h : Place) : List OpKind :=
  let a : AtomSpec := ⟨0, false, true, 1, 0, 0, 3⟩
  [.load sc ⟨16, false⟩ 8, .load g ⟨4, false⟩ 8, .compute [.v 0 511 5, .v 1 511 6, .p 0 6 true], .store g [1, 2], .copy g sc 4 none false, .copy sc g 4 (some g) false,
    .copy sc sc 4 (some g) true, .cread g 508, .atomic sc a (some 8), .atomic g { a with op := 6 } (some 8), .atomic h a none,
    .atomic g { a with op := 8, wide := true } (some 8), .release g { a with op := 9 } none 3, .release h { a with op := 5 } (some 8) 3,
    .acquire g .cas { a with op := 8 } 8 3 false, .acquire h .xchg { a with op := 7 } 8 3 false,
    .acquire g .waitge { a with b := 0 } 8 3 true, .acquire g .waitge { a with b := 1 } 8 3 false,
    .acquired g a 8 0, .etrig 3, .prefetch g]

/-- Every kind of the statement is free to be performed; a scratchpad offset, 0x100 in DRAM and 0x40000100 on the host resolve
for each need, to places whose bytes are not those of their stage-2 entries. -/
theorem test_hyp_OperationsPerform :
    (∀ k ∈ kinds (.scratch 0 0x1FE0 0) (.global 1 0x100) (.global 1 0x40000100), ({ w1 with ops := [op k] } : Thread).free (op k) = true) ∧
    (∀ host, let x : Xlat := ⟨if host then 0x3000000100 else 0x100, if host then .host else .dram, false, 7, 7,
        if host then 0x3008 else 0x3000, if host then 0x40000100 else 0x100, 1⟩
      let g := Place.global 1 (if host then 0x40000100 else 0x100)
      (∀ allow ∈ [plainOk, counterOk, atomicOk ⟨0, false, true, 1, 0, 0, 3⟩, releaseOk ⟨9, false, true, 1, 0, 0, 3⟩, acquireOk .xchg],
        sW.resolve 0 none g 8 1 allow = .ok (.mem x) ∧ sW.resolve 0 none g 8 2 allow = .ok (.mem x) ∧
          sW.resolve 0 none g 8 3 allow = .ok (.mem x)) ∧
        (Target.mem x).onHost = host ∧ sW.writable (.mem x) 8) ∧
    sW.resolve 0 none (.scratch 0 0x1FF8 0) 8 3 counterOk = .ok (.scratch 0 0x1FF8) ∧
    (∀ n d (x y : Word), DReg.v n d x ∈ [DReg.v 0 511 5, .v 1 511 6, .p 0 6 true] → DReg.v n d y ∈ [DReg.v 0 511 5, .v 1 511 6, .p 0 6 true] →
      d < 512 ∧ y = x) ∧
    numOf (sW.bytesAt (.mem ⟨0x100, .dram, false, 7, 7, 0x3000, 0x100, 1⟩) 4) = 0 :=
  ⟨by decide, by
    intro host
    refine ⟨fun allow h => ?_, by cases host <;> rfl, rfl, by cases host <;> decide, fun _ _ => rfl⟩
    simp only [List.mem_cons, List.not_mem_nil, or_false] at h
    rcases h with rfl | rfl | rfl | rfl | rfl <;> cases host <;> exact ⟨rfl, rfl, rfl⟩, rfl, by
    intro n d x y hx hy
    simp only [List.mem_cons, DReg.v.injEq, reduceCtorEq, List.not_mem_nil, or_false] at hx hy
    rcases hx with ⟨rfl, rfl, rfl⟩ | ⟨rfl, rfl, rfl⟩ <;> rcases hy with ⟨h1, h2, h3⟩ | ⟨h1, h2, h3⟩ <;> simp_all, rfl⟩

/-- A load beyond the end of the scratchpad. -/
theorem test_hyp_FaultedOperationsAreRecorded :
    ∃ (s : State) (r : Thr) (o : Op) (t : Thread) (b : Block), s.findOp o.id = some (r, o) ∧ s.thr r = some t ∧ s.blk r.block = some b ∧
      t.free o = true ∧ t.unreported = [] ∧ t.ops = [o] ∧ o.stream = some 1 ∧ b.run = .running ∧ b.scratchBytes < 0x2001 ∧
      o.kind = .load (.scratch r.block 0x2001 0x2001) ⟨4, false⟩ 8 :=
  ⟨withOp (.load (.scratch 0 0x2001 0x2001) ⟨4, false⟩ 8), ⟨0, some 0⟩, op _, _, _, rfl, rfl, rfl, by decide, rfl, rfl, rfl, rfl, by decide, rfl⟩

/-- A trap is due in the warp, and in the teller; TRAPBASE is set. -/
def sTrap : State :=
  device [(0, { block { w1 with due := some ⟨.trap, 3, 0x10004, 0x10010, 1, [], false, none⟩ }
      { t1 with due := some ⟨.ill, 1, 0x10004, 0x10010, 0, [], false, none⟩ } with trapbase := 0x80000 })] ⟨0, some 0⟩

theorem test_hyp_TrapsEnterTheirHandler :
    ∀ r ∈ [(⟨0, some 0⟩ : Thr), ⟨0, none⟩], ∃ (b : Block) (t : Thread) (d : TrapRec), sTrap.blk r.block = some b ∧ sTrap.thr r = some t ∧
      t.due = some d ∧ t.ops = [] ∧ b.run = .running ∧ t.handler = none ∧ handlerAddr b.trapbase ≠ 0 ∧
      512 * (b.warpN + 1) ≤ b.scratchBytes ∧ (∀ w, r.warp = some w → w < b.warpN) ∧ t.withdrawn = [] := by
  intro r hr
  simp only [List.mem_cons, List.not_mem_nil, or_false] at hr
  rcases hr with rfl | rfl
  · exact ⟨_, _, _, rfl, rfl, rfl, rfl, rfl, rfl, by decide, by decide, fun w h => (by cases h; decide), rfl⟩
  · exact ⟨_, _, _, rfl, rfl, rfl, rfl, rfl, rfl, by decide, by decide, fun w h => (by cases h), rfl⟩

/-- A teller with an engine command outstanding, at the head of the queue of its engine, on which nothing runs. -/
def cmd (kind : CmdKind) : Cmd := ⟨7, 0, kind, 0, false, none, 0, false⟩

def sCmd (eng : Nat) (e : Engine) : State :=
  { device [(0, block w1 { t1 with ops := [op (.command 0 eng none [])] })] ⟨0, none⟩ with engines := [(eng, e)] }

/-- An array command of 32 rows. -/
def arr : ArrayCmd := ⟨true, false, false, false, 0, 0, 1, 0x00010120, 0, 15, 0, 0⟩

/-- The block of `sCmd`, and a descriptor and a shape record in its scratchpad: one plane of one row of two elements; one run
of two rows from row 1. -/
def engineBlock (scratch : Mem) : Block := { block w1 { t1 with ops := [op (.command 0 0 none [])] } with scratch }

def descMem : Mem := [(0x40, 2), (0x44, 1), (0x48, 1)]

def recordMem : Mem := [(0x40, 1), (0x42, 2), (0x50, 1), (0x52, 2)]

/-- A command at the head of an idle engine, or running there; an array command with its checks. -/
theorem test_hyp_EnginesPerformTheirCommands :
    (∃ (s : State) (b : Block) (o : Op), s.cmdOp (cmd (.tzero 15)) = some (b, o) ∧ s.blk 0 = some b ∧ b.core = 0 ∧ b.run = .running ∧
      b.poisoned = [] ∧ b.poisonedLines = [] ∧ (cmd (.tzero 15)).racy = false ∧ s.engineBlocked 0 0 = false ∧
      (∀ e ∈ s.blocks, e.2.core = 0 → e.2.saved.rd [] 0 = []) ∧ (s.engine 0 0).cur = none ∧ (s.engine 0 0).queue = cmd (.tzero 15) :: [] ∧
      b.stopped = [] ∧ b.tel.free o = true ∧ b.tel.unreported = [] ∧ b.tel.withdrawn = [] ∧ b.tel.handler = none ∧ o.dropped = []) ∧
    (∃ (s : State) (b : Block) (o : Op), s.cmdOp (cmd (.tzero 15)) = some (b, o) ∧ s.blk 0 = some b ∧
      s.engine 0 0 = ⟨[], some (cmd (.tzero 15)), .running, .start⟩ ∧ (cmd (.tzero 15)).ev = false ∧ (cmd (.tzero 15)).cmp = none ∧
      (s.engine 0 2).cur = none ∧ (s.engine 0 3).cur = none ∧ b.stopped = [] ∧ o.dropped = []) ∧
    ∃ (s : State) (b : Block) (o : Op), s.cmdOp (cmd (.array arr)) = some (b, o) ∧ s.blk 0 = some b ∧ b.arrayOk arr = .ok () ∧
      s.engine 0 3 = ⟨[], some (cmd (.array arr)), .running, .start⟩ ∧ arr.finished .start = false ∧ arr.assayctl.getLsbD 1 = false ∧
      arr.acc = false ∧ 0 < arr.fields.m ∧ 0 < arr.fields.n ∧ arr.fields.m ≤ 128 ∧ arr.fields.n ≤ 128 ∧
      ({ arr with assayctl := 1 } : ArrayCmd).assayctl.getLsbD 0 = true ∧
      ∃ (er ec δ : Nat) (errs : List SumError), errs = [⟨er, ec, δ⟩] ∧ er < 16 ∧ ec < 128 :=
  ⟨⟨sCmd 0 { Engine.blank with queue := [cmd (.tzero 15)] }, _, _, rfl, rfl, rfl, rfl, rfl, rfl, rfl, by decide, by decide, rfl, rfl, rfl,
      by decide, rfl, rfl, rfl, rfl⟩,
    ⟨sCmd 0 { Engine.blank with cur := some (cmd (.tzero 15)) }, _, _, rfl, rfl, rfl, rfl, rfl, rfl, rfl, rfl, rfl⟩,
    ⟨sCmd 3 { Engine.blank with cur := some (cmd (.array arr)) }, _, _, rfl, rfl, rfl, rfl, rfl, by decide, rfl, by decide, by decide,
      by decide, by decide, by decide, 15, 127, 1, _, rfl, by decide, by decide⟩⟩

/-- The tile moves and the copies at the ends of their ranges; a shape record of two rows, a descriptor of two elements. -/
theorem test_hyp_tile_moves :
    (127 < 128 ∧ (128 : Addr).toNat ≤ 128 ∧ 0 + 128 * 64 ≤ (engineBlock []).scratchBytes) ∧
    (∃ sh, ({ sW with blocks := [(0, engineBlock recordMem)] } : State).shape (0, engineBlock recordMem) 0xFFFFFE0000000040 = .ok sh ∧ sh.pairs = [(0, 1), (1, 2)] ∧
      ∀ e ∈ sh.pairs, 128 * e.2 + 128 ≤ (engineBlock recordMem).scratchBytes) ∧
    (∃ d, ({ sW with blocks := [(0, engineBlock descMem)] } : State).copyDesc (0, engineBlock descMem) 0xFFFFFE0000000040 1 false = .ok d ∧
      d.nx = 2 ∧ d.ny = 1 ∧ d.nz = 1 ∧
      (∀ k, k < 2 → regionOf (0xFFFFFE0000000100 + BitVec.ofNat 64 k) 1 = .scratch (0x100 + k) ∧ 0x100 + k + 1 ≤ (engineBlock []).scratchBytes ∧
        regionOf (0xFFFFFE0000000200 + BitVec.ofNat 64 k) 1 = .scratch (0x200 + k) ∧ k + 1 ≤ 16384) ∧
      ∀ k j, k < 2 → j < 2 → 0x100 + k + 1 ≤ 0x200 + j ∧ (k ≠ j → 8 * k + 8 ≤ 8 * j ∨ 8 * j + 8 ≤ 8 * k)) ∧
    (∀ fmt, fmt < 5 → let size := if fmt = 0 then 4 else if fmt < 3 then 2 else 1
      3 * size ≤ 65532 ∧ (0xFFFFFE0000000040 : Addr).toNat % size = 0 ∧
        ∀ r, r < 1 → regionOf (0xFFFFFE0000000040 + BitVec.ofNat 64 (65532 * r)) (3 * size) = .scratch (0x40 + 65532 * r) ∧
          0x40 + 65532 * r + 3 * size ≤ (engineBlock []).scratchBytes) :=
  ⟨by decide, ⟨_, rfl, rfl, by decide⟩, ⟨_, rfl, rfl, rfl, rfl, by decide, by omega⟩, by decide⟩

/-- A `VLD` runs on an image in the vault of die 0, whose address a TLB translates. -/
def sVault : State :=
  { sCmd 1 { Engine.blank with cur := some (cmd (.vld 0 0x80000000)) } with
    now := 50, tlb := [⟨0, 0, 1, 0x80000000, 2 ^ 30, 0, ⟨0, .vault, false, 7, 7, 0x3010, 0x80000000, 1⟩⟩] }

theorem sVault_image : (sVault.consume (0, engineBlock []) 0x80000000 3328 vaultOnly).toOption = some (List.replicate 3328 0) := by
  decide +kernel

/-- An image of zero bytes, whose bank does not refresh at 50 us, and is free at the start of that microsecond. -/
theorem test_hyp_vault_image :
    sVault.consume (0, engineBlock []) 0x80000000 3328 vaultOnly = .ok (List.replicate 3328 0) ∧
    (∀ i, i < 3328 → digitOk ((List.replicate 3328 (0 : Byte)).getD i 0).toNat (if i % 26 < 25 then 5 else 3) = true) ∧
    sVault.banksIdle (0, engineBlock []) 0x80000000 = true ∧ sVault.imagePeriod (0, engineBlock []) 0x80000000 = 50000 / 1000 ∧
    sVault.banksFree (0, engineBlock []) 0x80000000 (50000 % 1000) = true := by
  refine ⟨?_, fun i hi => ?_, by decide +kernel, by decide +kernel, by decide +kernel⟩
  · have h := sVault_image
    revert h
    cases sVault.consume (0, engineBlock []) 0x80000000 3328 vaultOnly <;> simp [Except.toOption]
  · have h : (List.replicate 3328 (0 : Byte)).getD i 0 = 0 := by
      rw [List.getD_eq_getElem?_getD, List.getElem?_replicate, if_pos hi]
      rfl
    rw [h]
    split <;> decide

/-- A token at an engine that is not blocked. -/
theorem test_hyp_tokens : ∃ (s : State) (tk : Token), s.tokens = [tk] ∧ s.consumerOf tk.core tk.unit = none :=
  ⟨{ State.reset with tokens := [⟨1, 0, 0, 3⟩] }, _, rfl, by decide⟩

/-- An engine blocked by the full event queue of its teller: a token that reaches it passes on to the teller, and one that comes back
to it puts its record into the free reserve entry. -/
def sFullEvq (reserve : Option Nat) : State :=
  let c := { cmd (.tzero 0) with ev := true }
  { device [(0, block w1 { t1 with
      ops := [op (.command 0 0 none [])], evq := List.replicate (if reserve.isSome then 65 else 64) 0, reserve,
      blocked := some (0, 0x10004) })] ⟨0, none⟩ with
    engines := [(0, { Engine.blank with queue := List.replicate 16 c, cur := some c, phase := .posting 1 .done })],
    tokens := [⟨1, 0, 0, 8⟩] }

theorem test_hyp_blocked_engine :
    ((sFullEvq (some 0)).consumerOf 0 0 = some 8 ∧ 8 ≠ (⟨1, 0, 3, 0⟩ : Token).origin) ∧
    ∃ (b : Block) (c : Cmd), (sFullEvq none).blk 0 = some b ∧ (sFullEvq none).consumerOf 0 8 = some 0 ∧ ((sFullEvq none).engine 0 0).cur = some c ∧
      ((sFullEvq none).engine 0 0).phase = .posting 1 .done ∧ (sFullEvq none).recordBlocked 0 0 = some c.block ∧ b.tel.reserve = none ∧
      b.tel.pend = [] :=
  ⟨⟨by decide, by decide⟩, _, _, rfl, by decide, rfl, rfl, by decide, rfl, rfl⟩

theorem test_hyp_BlocksStopAndResume :
    ∀ run ∈ [Run.running, .stopping, .saved], ∃ (s : State) (b : Block), s.blk 0 = some b ∧ s.together 0 = [0] ∧ b.saved = [] ∧ b.stopped = [] ∧
      b.evicted = [] ∧ (∀ e, e < 7 → (s.engine b.core e).queue = []) ∧ b.run = run ∧ s.drained b = (run == .stopping) ∧
      (run = .saved → b.has (.scratch 0) = true ∧ s.blocks.any (fun (_, c) => c.core == b.core && c.run == .posted) = true ∧
        (s.inUse b.core (fun _ _ => true)).short (.scratch 0) = true) := by
  intro run hr
  simp only [List.mem_cons, List.not_mem_nil, or_false] at hr
  rcases hr with rfl | rfl | rfl
  · exact ⟨sW, _, rfl, rfl, rfl, rfl, rfl, by decide, rfl, by decide, by decide⟩
  · exact ⟨device [(0, { block (Thread.start false 0x10000) (Thread.start true 0x10000) with run := .stopping })] ⟨0, some 0⟩, _, rfl, rfl, rfl, rfl,
      rfl, by decide, rfl, by decide, by decide⟩
  · exact ⟨device [(0, { block w1 (Thread.start true 0x10000) with run := .saved }),
      (1, { block w1 (Thread.start true 0x10000) with item := 12, run := .posted, scratchBytes := 524288 })] ⟨0, some 0⟩, _, rfl, rfl, rfl, rfl, rfl,
      by decide, rfl, by decide, by decide⟩

/-- A saved block alone on its core fits it again. -/
theorem test_hyp_block_reloads :
    ∃ (s : State) (b : Block), s.blk 0 = some b ∧ b.run = .saved ∧ s.canReload 0 b = true ∧
      (∀ e ∈ b.threads, e.2.withdrawn = [] ∧ e.2.due = none) ∧ b.tel.pend = [] :=
  ⟨device [(0, { block w1 (Thread.start true 0x10000) with run := .saved })] ⟨0, some 0⟩, _, rfl, rfl, by decide, by decide, rfl⟩

/-- A launch with its first item to bind. -/
def sBind (la : Launch) : State := { device [] ⟨0, none⟩ with launches := [(10, la)], items := [] }

def fresh : Launch := { launch with released := true, nextItem := 0, scratch := 4096, rows := 4 }

/-- A posted block of `fresh` in an item of its own, or in one of a pair, with its bind record. -/
def posted (item core party : Nat) : Block := fresh.block core item 0 party 1

def record : BindRec := ⟨1, 7, 0, 1, 0, 0, 1⟩

/-- Items that are posted on gang 0, and on gang 1: one alone, one whose record is not in order, the parts of a pair. -/
def sPosted (it : Item) (slots : Tab BindRec) : State :=
  { device [(0, posted 11 0 0), (32, posted 12 4 1)] ⟨0, none⟩ with
    items := [(11, { it with life := .posted }), (12, { item with gang := 1, life := .posted, peer := some 11 })],
    launches := [(10, fresh)], slots }

theorem test_hyp_ItemsAreBoundStartedAndRetired :
    (∃ (s : State) (la : Launch), s.binding = true ∧ (s.gang 15).reservedFor = none ∧ s.choice = some (10, la) ∧
      s.launches.look 10 = some la ∧ la.joint = none ∧ s.nextOf la = some (0, none) ∧ s.gangFits 15 la = true ∧
      s.now.toNat ≤ la.deadline.toNat) ∧
    (∃ (s : State) (la : Launch), s.binding = true ∧ (s.gang 0).reservedFor = none ∧ s.choice = some (10, la) ∧
      s.launches.look 10 = some la ∧ s.nextOf la = some (0, none) ∧ s.gangFits 0 la = true ∧ la.deadline.toNat < s.now.toNat) ∧
    (∃ (s : State) (la : Launch) (it : Item), s.binding = true ∧ s.choice = some (10, la) ∧ s.launches.look 10 = some la ∧
      s.nextOf la = some (0, some 11) ∧ s.gangFits 0 la = true ∧ s.items.look 11 = some it ∧ it.life = .waiting) ∧
    (∃ (s : State) (la : Launch), s.binding = true ∧ (s.gang 1).reservedFor = none ∧ s.choice = some (10, la) ∧
      s.launches.look 10 = some la ∧ la.joint = none ∧ (s.nextOf la).isSome = true ∧ s.gangFits 1 la = false) ∧
    (∃ s : State, s.binding = true ∧ (s.gang 0).reservedFor = none ∧ s.choice = none) ∧
    (∃ it, (sPosted item [(0, record), (4, record)]).postedOn 0 = some (11, it) ∧
      (sPosted item [(0, record), (4, record)]).bindError it = false ∧
      (sPosted item [(0, record), (4, record)]).startable 11 it = true ∧ it.peer = none ∧
      (sPosted item [(0, record), (4, record)]).items.look 11 = some it) ∧
    (∃ (s : State) (it : Item), s.postedOn 0 = some (11, it) ∧ s.bindError it = true ∧ s.items.look 11 = some it) ∧
    (∃ (s : State) (it : Item), s.postedOn 0 = some (11, it) ∧ s.bindError it = false ∧ it.peer = none ∧ s.startable 11 it = false) ∧
    (let s := sPosted { item with peer := some 12 } [(0, record), (4, record)]
     ∃ (it q : Item), s.postedOn 0 = some (11, it) ∧ s.bindError it = false ∧ it.peer = some 12 ∧ s.items.look 12 = some q ∧
       s.bindError q = false ∧ s.startable 11 it = true ∧ s.startable 12 q = true) ∧
    ∀ left ∈ [2, 1], ∃ (s : State) (b : Block) (it : Item), s.blk 0 = some b ∧ b.run = .running ∧
      b.threads.all (fun (_, t) => t.over) = true ∧ s.items.look b.item = some it ∧ it.blocksLeft = left :=
  ⟨⟨sBind fresh, _, rfl, rfl, rfl, rfl, rfl, rfl, by decide, by decide⟩,
    ⟨{ sBind fresh with now := 1001 }, _, rfl, rfl, rfl, rfl, rfl, by decide, by decide⟩,
    ⟨{ sBind { fresh with nextItem := 1, requeued := [11] } with items := [(11, { item with life := .waiting })] }, _, _, rfl, rfl, rfl, rfl,
      by decide, rfl, rfl⟩,
    ⟨{ sBind fresh with parts := [(0, ⟨⟨1, [0], 0, 192, 0x1000, 0, 0, 0⟩, 0, []⟩)] }, _, rfl, rfl, rfl, rfl, rfl, by decide, by decide⟩,
    ⟨{ device [] ⟨0, none⟩ with launches := [] }, rfl, rfl, rfl⟩,
    ⟨_, rfl, by decide, by decide, rfl, rfl⟩,
    ⟨sPosted item [], _, rfl, by decide, rfl⟩,
    ⟨sPosted item [(0, { record with state := 2 })], _, rfl, by decide, rfl, by decide⟩,
    ⟨_, _, rfl, by decide, rfl, rfl, by decide, by decide, by decide⟩, by
      intro left hl
      exact ⟨{ device [(0, block { Thread.start false 0x10000 with exited := 0xFFFFFFFF } { Thread.start true 0x10000 with exited := 1 })] ⟨0, none⟩ with
        items := [(11, { item with blocksLeft := left })] }, _, _, rfl, rfl, by decide, rfl, rfl⟩⟩

/-- Two launches of a pair; gang 1 is reserved for another. -/
def sPair : State :=
  { device [] ⟨0, none⟩ with
    parts := [(0, ⟨⟨1, [0], 0, 96, 0x1000, 0, 0, 0⟩, 0, [(3, ⟨1, true, 0, 0⟩)]⟩),
      (1, ⟨⟨2, [1], 96 * 2 ^ 30, 96, 0x1000, 0, 0, 0⟩, 0, [(63, ⟨0, true, 0, 0⟩)]⟩)],
    launches := [(10, { fresh with joint := some (1, 1, 1), peer := some 20 }),
      (20, { fresh with part := 1, joint := some (0, 1, 1), peer := some 10 })], items := [],
    gangs := [(1, { GangState.blank with reservedFor := some 30 })] }

theorem test_hyp_JointPairsReserveAndRollBack :
    (∃ (a b : Launch) (n : (Nat × Option Nat) × (Nat × Option Nat)), sPair.launches.look 10 = some a ∧ sPair.launches.look 20 = some b ∧
      sPair.binding = true ∧ a.party = 0 ∧ a.peer = some 20 ∧ sPair.launchReady a = true ∧ sPair.launchReady b = true ∧
      sPair.pairNext a b = some n ∧ sPair.reservations.look 10 = none ∧ n.1.2 = none ∧ sPair.now.toNat ≤ min a.deadline.toNat b.deadline.toNat ∧
      (sPair.gang 0).reservedFor = none ∧ sPair.gangFits 0 a = true ∧ sPair.isFirst 10 a = true ∧
      (sPair.gang 1).reservedFor.isSome = true) ∧
    (∃ (s : State) (a b : Launch) (n : (Nat × Option Nat) × (Nat × Option Nat)), s.launches.look 10 = some a ∧ s.launches.look 20 = some b ∧
      s.launchReady a = true ∧ s.launchReady b = true ∧ s.pairNext a b = some n ∧ min a.deadline.toNat b.deadline.toNat < s.now.toNat) ∧
    ∃ (s : State) (r : Reservation), s.reservations.look 10 = some r ∧ 100 < (s.now - r.since).toNat :=
  ⟨⟨_, _, _, rfl, rfl, rfl, rfl, rfl, rfl, rfl, rfl, rfl, rfl, by decide, rfl, by decide, by decide, rfl⟩,
    ⟨{ sPair with now := 1001 }, _, _, _, rfl, rfl, rfl, rfl, rfl, by decide⟩,
    { sPair with now := 101, reservations := [(10, ⟨20, 0, some 0, none, 0⟩)] }, _, rfl, by decide⟩

/-- The pair with both gangs held for 100 microseconds. -/
def sHeld : State :=
  { sPair with
    now := 100, reservations := [(10, ⟨20, 0, some 0, some 1, 0⟩)],
    gangs := [(0, { GangState.blank with reservedFor := some 10 }), (1, { GangState.blank with reservedFor := some 10 })] }

theorem test_hyp_pair_commits :
    ∃ (a b : Launch), sHeld.launches.look 10 = some a ∧ sHeld.launches.look 20 = some b ∧ sHeld.binding = true ∧ a.party = 0 ∧
      a.peer = some 20 ∧ sHeld.launchReady a = true ∧ sHeld.launchReady b = true ∧ sHeld.pairNext a b = some ((0, none), (0, none)) ∧
      sHeld.reservations.look 10 = some ⟨20, 0, some 0, some 1, 0⟩ ∧ (sHeld.now - 0).toNat ≤ 100 ∧ sHeld.consentStands a = true ∧
      sHeld.partsStand a b = true ∧ a.bpg ≤ 4 ∧ b.bpg ≤ 4 ∧ sHeld.gangFits 0 a = true ∧ sHeld.gangFits 1 b = true :=
  ⟨_, _, rfl, rfl, rfl, rfl, rfl, rfl, rfl, rfl, rfl, by decide, by decide +kernel, rfl, by decide, by decide, by decide, by decide⟩
/-- A fixed packet of TYPE 3 in the ring at 0x40000, with SEQ 0 and the CRC 0x6102, or SEQ 1 and the CRC 0x0FB0 (R186, R187);
two control blocks with VER 1 and 2 and their CRCs (R184). -/
def ring (one : Bool) : Mem :=
  tables ++ (if one then [(0x40000, 1), (0x40002, 0xB0), (0x40003, 0x0F)] else [(0x40002, 0x02), (0x40003, 0x61)]) ++
    [(0x400FD, 0x30), (0x400FF, 0xA5),
     (0x50002, 4), (0x50008, 4), (0x50009, 1), (0x5000A, 1), (0x5000C, 1), (0x50034, 0x49), (0x50035, 0xDF), (0x50038, 1),
     (0x50042, 4), (0x50048, 4), (0x50049, 1), (0x5004A, 1), (0x5004C, 1), (0x50074, 0x3C), (0x50075, 0x17), (0x50078, 2)]

/-- A queue of that ring of 16 fixed packets. -/
def queue0 : LQueue :=
  ⟨⟨0, 0, 0x4000, 0x50000, 0x50040, 64⟩, some ⟨0x40000, 4, true, 1, 1, 0, 1⟩, [], 0, 0, 0, 1, 0, 0xFFFF, 0xFFFF, none, none, [], none, 0⟩

/-- The device with that queue. -/
def sQueue (x : LQueue) (one : Bool) : State := { device [] ⟨0, none⟩ with queues := [(5, x)], now := 100, dram := ring one }

/-- The function of the queue in each state of its TDI; a tail in the ring; a launch to cancel, and one that is not accepted yet. -/
theorem test_hyp_QueuesFollowTheirDoorbells :
    (∃ (x : LQueue) (c : Qcb), (sQueue queue0 false).queue 5 = some x ∧ x.qcb = some c ∧ ((sQueue queue0 false).fw.rd .blank 1).updating = none ∧
      ((sQueue queue0 false).tdis.rd .blank x.info.fn).state = .unlocked ∧ (sQueue queue0 false).fnExists x.info.fn = true ∧ x.state = 0 ∧ c.fixed = true ∧ (15 : Addr).toNat < 2 ^ c.rlog ∧
      x.pending = none ∧ x.head ≠ x.tail ∧ x.waited = none) ∧
    (∃ (s : State) (x : LQueue), s.queue 5 = some x ∧ s.fnExists x.info.fn = false) ∧
    (∀ st : TdiState, ∃ s : State, s.queue 5 = some queue0 ∧ (s.fw.rd .blank 1).updating = none ∧ (s.tdis.rd .blank 0).state = st) ∧
    (∃ (s : State) (x : LQueue) (la : Launch) (it : Item), s.queue 5 = some x ∧ x.state ≠ 2 ∧
      s.launches.find? (fun e => e.2.q == 5 && decide (x.born ≤ e.1) && e.2.id == 7 && !e.2.completed) = some (10, la) ∧
      s.launches.look 10 = some la ∧ la.peer = none ∧ s.items.look 11 = some it ∧ it.launch = 10 ∧ it.life = .running ∧ 11 ∉ la.requeued ∧
      la.requeued = [12] ∧ (s.items.look 12).map (fun i => (i.launch, i.life)) = some (10, .waiting) ∧
      (s.items.look 13).map (fun i => (i.launch, i.life, i.again)) = some (10, .killed, true)) ∧
    (∃ (s : State) (x : LQueue) (p : Packet), s.queue 5 = some x ∧
      s.launches.find? (fun e => e.2.q == 5 && decide (x.born ≤ e.1) && e.2.id == 9 && !e.2.completed) = none ∧ x.pending = some p ∧
      p.typ = 0 ∧ x.launchId p.seq = 9) ∧
    (∃ info p, sW.parts.look info.part = some p ∧ p.resetStep = 0 ∧ p.info.fn = info.fn ∧ 255 < 256 ∧ sW.queue 255 = none ∧
      sW.manifest.valid = true ∧ info = queue0.info) :=
  ⟨⟨_, _, rfl, rfl, rfl, rfl, rfl, rfl, rfl, by decide, rfl, by decide, rfl⟩,
    ⟨sQueue { queue0 with info := { queue0.info with fn := 1 } } false, _, rfl, rfl⟩,
    fun st => ⟨{ sQueue queue0 false with tdis := [(0, ⟨st, false, false⟩)] }, rfl, rfl, rfl⟩,
    ⟨{ sQueue queue0 false with
        launches := [(10, { launch with q := 5, requeued := [12] })],
        items := [(11, item), (12, { item with life := .waiting }), (13, { item with life := .killed, again := true })] }, _, _, _, rfl, by decide,
      rfl, rfl, rfl, rfl, rfl, rfl, by decide, rfl, rfl, rfl⟩,
    ⟨sQueue { queue0 with pending := some ⟨9, 0, true, false, false⟩ } false, _, _, rfl, rfl, rfl, rfl, by decide⟩,
    _, _, rfl, rfl, rfl, by decide, rfl, rfl, rfl⟩

/-- Both copies of the control block are valid. -/
theorem test_hyp_control_blocks :
    (qcbOf (readMem (ring false) 0x50000 64)).map (·.ver) = some 1 ∧ (qcbOf (readMem (ring false) 0x50040 64)).map (·.ver) = some 2 := by
  decide +kernel

/-- The packet at the head passes its checks, or has another SEQ; a ring on an absent host page. -/
theorem test_packet_checks :
    ((sQueue queue0 false).packetAt 5 queue0 ⟨0x40000, 4, true, 1, 1, 0, 1⟩).toOption.map (·.map (fun (ds, n) => (ds.head?, n))) =
      some (some (some (0, 0x3000), 1)) ∧
    ((sQueue queue0 true).packetAt 5 queue0 ⟨0x40000, 4, true, 1, 1, 0, 1⟩).toOption.map Option.isNone = some true ∧
    ((sQueue queue0 false).ioRead 5 1 0x40000 256).toOption.map (fun bs => (field bs 0 2, field bs 252 3, field bs 255 1)) =
      some (0, 0x3000, 0xA5) ∧
    (match ({ sQueue queue0 false with absent := [(0x3000000, true)] } : State).packetAt 5 queue0 ⟨0x40000000, 4, true, 1, 1, 0, 1⟩ with
      | .error (.absent pg) => pg == 0x3000000
      | _ => false) = true := by decide +kernel

/-- Readings 2 microseconds apart: the packet has appeared, has not yet, has not for 62. -/
theorem test_hyp_packet_readings :
    ∀ t ∈ [0, 61, 62], ∃ x c, (sQueue { queue0 with waited := some (t, 98) } true).queue 5 = some x ∧ x.qcb = some c ∧ x.waited = some (t, 98) ∧
      2 ≤ ((sQueue { queue0 with waited := some (t, 98) } true).now - 98).toNat := by
  refine fun t _ => ⟨_, _, rfl, rfl, rfl, ?_⟩
  show 2 ≤ ((100 : BitVec 48) - 98).toNat
  decide

/-- A queue with a packet at hand. -/
def sPacket (p : Packet) (shadow : Tab Addr) : State :=
  { device [] ⟨0, none⟩ with
    queues := [(5, { queue0 with pending := some p, shadow, lastLaunch := some 10 })], launches := [(10, { launch with triggered := true })],
    dram := tables ++ [(0x10000, 3), (0x10002, 8), (0x10004, 3), (0x10006, 4), (0x10008, 3), (0x1000C, 3)] }

/-- D1 to D5 of a launch that its resource record at 0x10000 agrees with. -/
def launchShadow : Tab Addr := [(1, 0x10010), (2, 0x10010), (3, 0x100000000), (4, 1000), (5, 0x1000004)]

/-- A queue with a launch packet at hand. -/
def launchQueue (shadow : Tab Addr) : LQueue := { queue0 with pending := some ⟨0, 0, true, false, false⟩, shadow, lastLaunch := some 10 }

/-- A launch that its record agrees with, and one refused; a counter at 0 that a packet waits for, or writes; an order class and a
fence scope that are met by a completed launch and not by a triggered one. -/
theorem test_hyp_PacketsActByTheirType :
    ((sPacket ⟨0, 0, true, false, false⟩ launchShadow).launchOf 5 (launchQueue launchShadow) 0 0).toOption.map Option.isSome = some true ∧
    ((sPacket ⟨0, 0, true, false, true⟩ (launchShadow.take 2)).launchOf 5 (launchQueue (launchShadow.take 2)) 0 0).toOption.map
      Option.isNone = some true ∧
    (0 : BitVec 16) = queue0.lastCmpl + 1 ∧ queue0.finished = [] ∧
    (∀ sh ∈ ([[(0, 0x3000)], [(0, 0x2000), (14, 0x100), (15, 1)], [(0, 0x1000), (14, 0x108), (15, 9)]] : List (Tab Addr)),
      ({ queue0 with shadow := sh } : LQueue).malformed = false) ∧
    ((sPacket ⟨0, 2, true, false, false⟩ []).ioRead 5 1 0x100 8).toOption.map numOf = some 0 ∧
    ((sPacket ⟨0, 1, true, false, false⟩ []).ioXlate 5 1 0x108 2).toOption.map
      (fun x => (x.space, x.repl, decide (x.leaf + 8 ≤ x.pa ∨ x.pa + 8 ≤ x.leaf))) = some (Space.dram, false, true) ∧
    (sPacket ⟨0, 1, true, false, false⟩ []).lineKeys = [] ∧
    oclsOf 0x3100 = 1 ∧ fscopeOf 0x3110 = 1 ∧ (sPacket ⟨0, 3, false, false, false⟩ [(0, 0x3100)]).absent = [] ∧
    (sPacket ⟨0, 3, false, false, false⟩ [(0, 0x3100)]).launches.look 10 = some { launch with triggered := true } ∧
    (∀ e ∈ (sPacket ⟨0, 3, false, false, false⟩ [(0, 0x3100)]).launches, e.2.completed = true ∨
      (sPacket ⟨0, 3, false, false, false⟩ [(0, 0x3100)]).launchOver e.1 e.2 = false) := by
  decide +kernel

/-- A running item alone, and a pair; a killed generation with room in the retired sets, and none; its markers all in. -/
theorem test_hyp_KilledItemsRetire :
    (sW.items.look 11 = some item ∧ item.life = .running ∧ item.peer = none) ∧
    (∃ (s : State) (it q : Item), s.items.look 11 = some it ∧ it.life = .running ∧ it.peer = some 12 ∧ s.items.look 12 = some q ∧
      q.life = .posted) ∧
    (∃ (s : State) (it : Item), s.items.look 11 = some it ∧ s.killedGen it.gen = some (11, it) ∧ (s.fw.rd .blank 2).updating = none ∧
      s.dropsGen it.gen 20 = false ∧ (s.retiring.map (·.gen)).eraseDups.length < 32 ∧ 0 ∈ s.coresOf 11 ∧ ∀ y ∈ s.strays, y.gen ≠ it.gen) ∧
    (let full := (List.range 32).map (fun n => (⟨n + 2, 20, [], false⟩ : RetireState))
     1 ∉ (full.map (·.gen)).eraseDups ∧ 32 ≤ (full.map (·.gen)).eraseDups.length) ∧
    ∃ (s : State) (it : Item), s.items.look 11 = some it ∧ s.killedGen it.gen = some (11, it) ∧ it.again = true ∧
      ∀ v, v < 21 → ∃ r ∈ s.retiring, r.gen = it.gen ∧ r.receiver = v ∧ r.acked = true :=
  ⟨⟨rfl, rfl, rfl⟩,
    ⟨{ sW with items := [(11, { item with peer := some 12 }), (12, { item with life := .posted, peer := some 11 })] }, _, _, rfl, rfl, rfl, rfl,
      rfl⟩,
    ⟨{ sW with items := [(11, { item with life := .killed })] }, _, rfl, rfl, rfl, rfl, by decide, by decide, by decide⟩, by decide,
    ⟨{ sW with items := [(11, { item with life := .killed, again := true })], retiring := (List.range 21).map (fun v => ⟨1, v, [0], true⟩) }, _, rfl,
      rfl, rfl, by decide⟩⟩

/-- A new partition of gang 0 on a device without partitions; one that overlaps, or that is not clear; the steps of a reset. -/
theorem test_hyp_ErrorsAndPartitions :
    (sW.blk 0).map (fun b => (b.has (.scratch 1), b.has (.tile 0))) = some (true, true) ∧
    (∃ (s : State) (p : PartInfo), s.ready = true ∧ s.manifest.valid = true ∧ (s.fw.rd .blank 7).updating = none ∧ p.gangs ≠ 0 ∧
      (s.fns.rd .blank 0).numVfs = 0 ∧ p.fn = 0 ∧ s.parts.look 15 = none ∧ s.parts.all (fun e => e.1 == 15 || apart p e.2.info) = true ∧
      s.cleared noPart p = true) ∧
    (∃ (s : State) (p : PartInfo) (x : Partition), s.parts.look 0 = some x ∧ x.info ≠ p ∧ x.resetStep = 0 ∧ s.allRetired 0 = true ∧
      s.parts.all (fun e => e.1 == 0 || apart p e.2.info) = true ∧ s.cleared x.info p = true ∧ s.ready = true ∧ p.gangs ≠ 0 ∧ p.fn = 0) ∧
    (∃ (s : State) (p : PartInfo) (x : Partition), s.parts.look 0 = some x ∧ x.info ≠ p ∧ s.allRetired 0 = false) ∧
    (∃ (s : State) (p : PartInfo), (s.fns.rd .blank 0).numVfs = 16 ∧ 1 ≤ p.fn ∧ p.fn ≤ 16) ∧
    (∃ (p : PartInfo) (o : Partition), sW.parts.look 15 = none ∧ (0, o) ∈ sW.parts ∧ p.gangs &&& o.info.gangs ≠ 0 ∧ p.fn = 0 ∧
      apart p o.info = false) ∧
    (∃ (s : State) (p : PartInfo), s.parts.look 15 = none ∧ s.parts = [] ∧ s.cleared noPart p = false ∧ p.dramBase ≤ 5 ∧
      5 < p.dramBase + p.dramGiB * 2 ^ 30 ∧ s.dram.rd 0 5 ≠ 0) ∧
    (∃ (s : State) (p : PartInfo), p.dramBase / 64 ≤ 7 ∧ 7 < p.dramBase / 64 + p.dramGiB * 2 ^ 24 ∧ s.lineKeys.rd 0 7 ≠ 0) ∧
    (∃ (s : State) (p : PartInfo), 0 ∈ p.vaultUnits ∧ 0 ∉ noPart.vaultUnits ∧ s.vault.rd 0 5 ≠ 0) ∧
    (∃ (s : State) (p : Partition), s.parts.look 0 = some p ∧ p.resetStep = 0 ∧ (s.tdis.rd .blank p.info.fn).state = .run) ∧
    (∃ (s : State) (p : Partition) (it : Item) (la : Launch), s.parts.look 0 = some p ∧ p.resetStep = 1 ∧
      (∀ e ∈ s.items, e.2.peer = none) ∧ s.items.look 11 = some it ∧ s.launches.look it.launch = some la ∧ la.part = 0 ∧ 11 ∉ la.requeued ∧
      it.life = .killed ∧ it.again = true) ∧
    (∀ items ∈ [[], [((11 : Nat), item)]], ∃ (s : State) (p : Partition), s.parts.look 0 = some p ∧ p.resetStep = 2 ∧ s.items = items ∧
      s.allRetired 0 = items.isEmpty) ∧
    ∀ n ∈ [0, 1, 2, 3, 4, 5, 6], ∃ (s : State) (p : Partition), s.parts.look 0 = some p ∧ (s.fw.rd .blank 7).updating = none ∧
      (s.fw.rd .blank 3).updating = none ∧ p.resetStep = n ∧ s.memoriesWf := by
  let at' : Nat → State := fun n => { sW with parts := [(0, ⟨⟨0xFFFF, [0], 0, 192, 0x1000, 0, 0, 0⟩, n, []⟩)] }
  refine ⟨by decide,
    ⟨{ State.reset with ready := true }, ⟨1, [0], 0, 48, 0x1000, 0, 0, 0⟩, rfl, rfl, rfl, by decide, rfl, rfl, rfl, by decide, by decide⟩,
    ⟨{ device [] ⟨0, none⟩ with items := [] }, ⟨1, [0], 0, 192, 0x1000, 0, 0, 0⟩, _, rfl, by decide, rfl, by decide, by decide, by decide, rfl,
      by decide, rfl⟩,
    ⟨sW, ⟨1, [0], 0, 192, 0x1000, 0, 0, 0⟩, _, rfl, by decide, by decide⟩,
    ⟨{ State.reset with fns := [(0, { FnConfig.blank with numVfs := 16 })] }, ⟨1, [], 0, 0, 0, 16, 0, 0⟩, rfl, by decide, by decide⟩,
    ⟨⟨1, [], 0, 0, 0, 0, 0, 0⟩, _, rfl, List.mem_cons_self, by decide, rfl, by decide⟩,
    ⟨{ State.reset with parts := [], dram := [(5, 1)] }, ⟨1, [], 0, 1, 0, 0, 0, 0⟩, rfl, rfl, by decide, by decide, by decide, by decide⟩,
    ⟨{ State.reset with lineKeys := [(7, 3)] }, ⟨1, [], 0, 1, 0, 0, 0, 0⟩, by decide, by decide, by decide⟩,
    ⟨{ State.reset with vault := [(5, 1)] }, ⟨1, [0], 0, 1, 0, 0, 0, 0⟩, by decide, by decide, by decide⟩,
    ⟨{ at' 0 with tdis := [(0, ⟨.run, false, false⟩)] }, _, rfl, rfl, rfl⟩,
    ⟨{ at' 1 with items := [(11, { item with life := .killed, again := true })] }, _, _, _, rfl, rfl, by decide, rfl, rfl, rfl, by decide, rfl, rfl⟩,
    ?_, ?_⟩
  · intro items hi
    simp only [List.mem_cons, List.not_mem_nil, or_false] at hi
    rcases hi with rfl | rfl
    · exact ⟨{ at' 2 with blocks := [], items := [] }, _, rfl, rfl, rfl, by decide⟩
    · exact ⟨{ at' 2 with blocks := [], items := [(11, item)] }, _, rfl, rfl, rfl, by decide⟩
  · exact fun n _ => ⟨at' n, _, rfl, rfl, rfl, rfl, ⟨rfl, rfl, rfl⟩⟩

theorem test_hyp_TimeAndPowerAdvance :
    (sW.ready = true ∧ (sW.fw.rd .blank 6).updating = none) ∧
    (∃ t, (held (.sleep 1)).thr ⟨0, some 0⟩ = some t ∧ t.hold = .sleep (0 + 1)) ∧
    (∃ s : State, (s.fw.rd .blank 0).updating = none ∧ s.mail.look 0 = some (⟨3, 0⟩ :: [])) ∧
    ((List.replicate 16 8).length = 16 ∧ ∀ n ∈ List.replicate 16 8, 8 ≤ n ∧ n ≤ 64) ∧
    (∃ s : State, s.lowSince = some 0 ∧ 10000 ≤ (s.now - 0).toNat ∧ s.manifest.capWatts < s.watts ∧ s.powerHold = false) ∧
    (∀ u ∈ sW.namedSegments, u / 256 ≠ 3) ∧ State.reset.ready = false ∧
    (∀ seq ∈ [(2 : Addr), 3], ∀ body, ∃ s : State, s.telemetrySeq = seq ∧ s.telemetryBody = body) ∧
    (∀ c, c < 8 → (State.reset.fw.rd .blank c).goodA = true ∧ State.reset.manifest.securityVersion ≤ (State.reset.fw.rd .blank c).versionA) ∧
    (∃ s : State, (s.fw.rd .blank 7).goodA = false ∧ (s.fw.rd .blank 7).goodB = true ∧ s.manifest.securityVersion ≤ (s.fw.rd .blank 7).versionB) ∧
    (∃ s : State, (s.fw.rd .blank 7).versionA < s.manifest.securityVersion ∧ (s.fw.rd .blank 7).goodB = false) ∧
    (∃ p, (0, p) ∈ State.reset.manifest.partitions ∧ State.reset.manifest.valid = true ∧ State.reset.manifest.vfs = 0 ∧ p.fn = 0 ∧
      ∀ q, (0, q) ∈ State.reset.manifest.partitions → q = p) ∧
    ∃ s : State, s.manifest.valid = false :=
  ⟨⟨rfl, rfl⟩, ⟨_, rfl, rfl⟩, ⟨{ sW with mail := [(0, [⟨3, 0⟩])] }, rfl, rfl⟩, by decide,
    ⟨{ sW with lowSince := some 0, now := 10000, watts := 1701 }, rfl, by decide, by decide, rfl⟩, by decide, rfl,
    fun seq _ body => ⟨{ sW with telemetrySeq := seq, telemetryBody := body }, rfl, rfl⟩, fun _ _ => ⟨rfl, Nat.zero_le _⟩,
    ⟨{ sW with fw := [(7, { FwCore.blank with goodA := false })] }, rfl, rfl, by decide⟩,
    ⟨{ sW with
        manifest := { Manifest.standard with securityVersion := 1 }, fw := [(7, { FwCore.blank with goodB := false })] }, by decide, rfl⟩,
    ⟨_, List.mem_cons_self, rfl, rfl, rfl, fun q h => by
      cases h with
      | head => rfl
      | tail _ h => cases h⟩,
    { sW with manifest := { Manifest.standard with valid := false } }, rfl⟩

/-- A page request of an operation, and one of an instruction fetch, for host page 0x3000000. -/
def sPri : State :=
  { withOp (.load (.global 1 0x40000000) ⟨4, false⟩ 8) with
    absent := [(0x3000000, true)], pri := [⟨3, .op 7, 1, 0x3000000⟩, ⟨9, .fetch ⟨0, some 0⟩, 1, 0x3000000⟩] }

theorem test_hyp_TablesChangeAsAsked :
    (∃ (s : State) (v : Inval), s.invals.find? (·.part == 0) = some v ∧ ∀ id ∈ v.waitFor, s.findOp id = none) ∧
    (∃ (s : State) (o : Op) (t : Thread) (b : Block) (x : Xlat) (n : Nat), s.findOp 7 = some (⟨0, some 0⟩, o) ∧ s.blk 0 = some b ∧
      s.thr ⟨0, some 0⟩ = some t ∧ t.ops = [o] ∧ o.id = 7 ∧ o.kind = .load (.global 1 0x100) ⟨4, false⟩ 8 ∧ o.xl = none ∧
      canonical 0x100 = true ∧ s.walkBoth 1 0x100 = .ok (x, n) ∧ x.space = .dram) ∧
    (∃ q, sPri.pri.find? (·.id == 3) = some q ∧ ∀ r, q.owner ≠ .fetch r) ∧ (∃ q r, sPri.pri.find? (·.id == 9) = some q ∧ q.owner = .fetch r) ∧
    (sPri.pri.find? (·.id == 4) = none) ∧
    (∃ (o : Op) (t : Thread) (b : Block), sPri.findOp 7 = some (⟨0, some 0⟩, o) ∧ sPri.blk 0 = some b ∧ sPri.thr ⟨0, some 0⟩ = some t ∧
      t.free o = true ∧ o.kind = .load (.global 1 0x40000000) ⟨4, false⟩ 8 ∧ sPri.resolve b.core o.xl (.global 1 0x40000000) 4 1 plainOk =
        .absent 0x3000000 ∧ (.op 7, 0x3000000) ∉ sPri.refused ∧ t.unreported = [] ∧ t.withdrawn = []) ∧
    ((∀ q ∈ sPri.pri, q.owner ≠ .queue 5) ∧ sPri.pri.length < 256 ∧ ∃ q ∈ sPri.pri, q.ctx = 1) ∧
    (∃ (s : State) (c : Context), s.ctxs.look 1 = some c ∧ s.blocks = [] ∧ s.strays = [] ∧ s.pri = [] ∧ (s.fw.rd .blank 3).updating = none ∧
      c.heldChange = [] ∧ s.bindingOk 1 c 1023 ⟨0, 4096, 0, false, 0⟩ = true) ∧
    (∃ (s : State) (b : Block) (c : Context), s.ctxs.look 1 = some c ∧ (0, b) ∈ s.blocks ∧ b.ctx = 1) ∧
    (∃ (s : State) (c : Context), s.ctxs.look 1 = some c ∧ c.heldChange ≠ []) ∧
    (sW.requests = [] ∧ ∃ (s : State) (m : Mail) (ms : List Mail), (s.fw.rd .blank 0).updating = none ∧ s.requests = m :: ms) ∧
    (∃ pa e n leaf, sW.stage2 0 0x100 = .ok (pa, e, n, leaf) ∧ sW.writesThrough 0 leaf = false) ∧
    (∃ s : State, s.memoriesWf ∧ s.idleDram 0x7000 = true) ∧
    ((sW.keys.rd .blank 511).state ≠ 2 ∧ (sW.keys.rd .blank 1).state = 2 ∧ sW.keyNamed 1 = true ∧ sW.keyNamed 511 = false ∧
      (sW.parts.look 0).isSome = true ∧ (0 : Nat) ≠ 0xFF ∧ (⟨1, true, 0, 0⟩ : Consent).rest = 0 ∧ (⟨1, true, 1, 0⟩ : Consent).rest ≠ 0 ∧
      (⟨0, 0, 0, true, 1⟩ : BindEntry).rest ≠ 0) :=
  ⟨⟨{ sW with invals := [⟨0, [3]⟩] }, _, rfl, by decide⟩,
    ⟨withOp (.load (.global 1 0x100) ⟨4, false⟩ 8), op _, _, _, _, _, rfl, rfl, rfl, rfl, rfl, rfl, rfl, by decide, rfl, rfl⟩,
    ⟨_, rfl, by intro r h; cases h⟩, ⟨_, _, rfl, rfl⟩, rfl, ⟨_, _, _, rfl, rfl, rfl, by decide, rfl, rfl, by decide, rfl, rfl⟩, by decide,
    ⟨device [] ⟨0, none⟩, _, rfl, rfl, rfl, rfl, rfl, rfl, by decide⟩, ⟨sW, _, _, rfl, List.mem_cons_self, rfl⟩,
    ⟨{ sW with ctxs := [(1, ⟨0, 0x4000, false, [], [(0, ⟨0, 4096, 0, false, 0⟩)]⟩)] }, _, rfl, by decide⟩,
    ⟨rfl, { sW with requests := [⟨3, 0⟩] }, _, _, rfl, rfl⟩, ⟨_, _, _, _, rfl, by decide⟩,
    ⟨{ device [] ⟨0, none⟩ with items := [] }, ⟨rfl, rfl, rfl⟩, by decide⟩, by decide +kernel⟩

/-- An opening of lane 0 whose packet is on its way, or has arrived at an exchange with a verdict. -/
def opening (arrived : Bool) : GateOp := ⟨.opening, 0, 1, 1, false, 50, arrived, [(0, [5])], [(0, [5])], [], 8, 2⟩

def sOpen (k : OpKind) (v : Verdict) (slots : Tab Slot) : State :=
  { device [(0, { block { w1 with ops := [op k] } t1 with gate := some { gate1 with slots } })] ⟨0, some 0⟩ with
    exchanges := if v = .timeout then [] else
      [(30, ⟨11, 0, 0, .opening, 0, some ⟨1, false, 50, [(0, [5])], []⟩, some ⟨1, false, 50, [(0, [6])], []⟩, 0, 50, v⟩)] }

/-- An earlier opening of the same lane, whose packet is still on its way. -/
def waiting : Thread := { w1 with ops := [{ op (.gate (opening false)) with id := 6 }, op (.gate { opening false with n := 1 })] }

/-- An instruction of lanes 0 and 1 whose packet has arrived at an exchange with a verdict; lane 1's entry was burnt. -/
def answering (kind : GateKind) : GateOp := ⟨kind, 0, 3, 3, false, 50, true, [(0, [5, 9])], [(0, [1, 2, 3])], [], 8, 2⟩

def sDone (kind : GateKind) (v : Verdict) : State :=
  { sOpen (.gate (answering kind)) .timeout [] with
    exchanges := [(30, ⟨11, 0, 0, kind, 0, some ⟨3, false, 50, [(0, [5, 9])], []⟩, some ⟨3, false, 50, [(0, [6, 3])], []⟩, 0, 50, v⟩)] }

theorem test_hyp_GatePacketsAreDecided :
    (∃ (t : Thread) (b : Block), (sOpen (.gate (opening false)) .timeout []).findOp 7 = some (⟨0, some 0⟩, op (.gate (opening false))) ∧
      (sOpen (.gate (opening false)) .timeout []).thr ⟨0, some 0⟩ = some t ∧ (sOpen (.gate (opening false)) .timeout []).blk 0 = some b ∧
      t.free (op (.gate (opening false))) = true ∧ op (.gate (opening false)) ∈ t.ops ∧ t.mayArrive (op (.gate (opening false))) = true ∧
      (opening false).refusal = false ∧ (opening false).lanes ≠ 0 ∧ (opening false).kind ≠ .arith ∧
      (sOpen (.gate (opening false)) .timeout []).findExchange 11 b.blockId 0 .opening 0 = none) ∧
    (waiting.mayArrive (op (.gate { opening false with n := 1 })) = false ∧ op (.gate { opening false with n := 1 }) ∈ waiting.ops) ∧
    (∃ (s : State) (e : Exchange) (pk : GatePacket), s.findExchange 11 0 0 .opening 0 = some (30, e) ∧ e.verdict = .pending ∧
      (s.now - e.first).toNat < min e.tout (opening false).tout ∧ e.packet (1 - 0) = some pk ∧ pk.refusal = false) ∧
    (∀ v ∈ [Verdict.matched, .refused], ∀ kind ∈ [GateKind.opening, .binary, .eda], ∃ (t : Thread) (b : Block) (e : Exchange) (pk : GatePacket),
      (sDone kind v).thr ⟨0, some 0⟩ = some t ∧ (sDone kind v).blk 0 = some b ∧ t.free (op (.gate (answering kind))) = true ∧
      t.teller = false ∧ (op (.gate (answering kind))).dropped = [] ∧ (answering kind).d < 511 ∧
      (sDone kind v).findExchange 11 b.blockId 0 kind 0 = some (30, e) ∧ e.verdict = v ∧ e.packet (1 - b.party) = some pk ∧
      (answering kind).answers.getLsbD 0 = true ∧ (answering kind).answers.getLsbD 1 = true ∧ (answering kind).answers.getLsbD 2 = false ∧
      (answering kind).words.look 0 = some [5, 9] ∧ pk.words.look 0 = some [6, 3] ∧ (answering kind).words.look 1 = none) ∧
    (let slots : Tab Slot := [(0, ⟨2, 0, 0, 0, 0, 0, 0, 0, 0⟩), (1, ⟨3, 0, 0, 0, 0, 0, 0, 0, 0⟩)]
     ∃ (t : Thread) (b : Block) (g : Gate), (sOpen (.gfin 3 8 2) .matched slots).thr ⟨0, some 0⟩ = some t ∧
      (sOpen (.gfin 3 8 2) .matched slots).blk 0 = some b ∧ b.gate = some g ∧ (g.slot 0).state = 2 ∧ (g.slot 1).state = 3 ∧
      t.free (op (.gfin 3 8 2)) = true) ∧
    ∃ (s : State) (e : Exchange), s.exchanges.look 30 = some e ∧ e.verdict = .pending ∧ e.tout ≤ (s.now - e.first).toNat ∧
      (s.itemsOf e).all s.itemOver = false := by
  refine ⟨⟨_, _, rfl, rfl, rfl, by decide, by decide, by decide, rfl, by decide, by decide, rfl⟩, by decide,
    ⟨{ sOpen (.gfin 1 8 2) .pending [] with now := 49 }, _, _, rfl, rfl, by decide, rfl, rfl⟩, ?_,
    ⟨_, _, _, rfl, rfl, rfl, rfl, rfl, by decide⟩, { sOpen (.gfin 1 8 2) .pending [] with now := 50 }, _, rfl, rfl, by decide, by decide⟩
  intro v hv kind hk
  simp only [List.mem_cons, List.not_mem_nil, or_false] at hv hk
  rcases hv with rfl | rfl <;> rcases hk with rfl | rfl | rfl <;>
    exact ⟨_, _, _, _, rfl, rfl, by decide, rfl, rfl, by decide, rfl, rfl, rfl, by decide, by decide, by decide, rfl, rfl, rfl⟩

/-- A data flit in order on connection 3, a replay buffer of two flits, a receive that is complete. -/
def dataFlit : Flit := ⟨0, .data, 0, 3, 0, true, .data 1 0x7000 [1, 2, 3, 4] false true 0x7040 1⟩

def sLink : State :=
  { device [] ⟨0, none⟩ with
    conns := [(3, ⟨some ⟨0, 1, 2, 1, 1⟩, some ⟨0, 1, 2, 1, 1⟩, true⟩), (4, ⟨none, some ⟨0, 1, 2, 1, 1⟩, false⟩)],
    ports := [(0, { Port.blank with replay := [({ dataFlit with seq := 4 }, 15), ({ dataFlit with seq := 5 }, 14)] }),
      (1, { Port.blank with receiving := [⟨3, 1, [], false, 0, false, true, 0x7040, 1⟩] })] }

/-- A teller with an armed send whose counter at 0x108 is 0, and one with a send that has fired. -/
def send (thresh : Addr) : Armed := ⟨1, 0x100, ⟨0x100, 0, 0, 64, 0, 0, 0x108, thresh, 0⟩, none, false, none, false⟩

def sArmed (a : Armed) : State := device [(0, block w1 { t1 with armed := [a], firing := [a] })] ⟨0, none⟩

theorem test_hyp_LinksCarryTheirSends :
    ((sLink.port 0).up = true ∧ (sLink.port 1).up = true) ∧
    (∃ b x, (sArmed (send 0)).blk 0 = some b ∧ (sArmed (send 0)).trigger (0, b) (send 0) = some 0 ∧ (send 0).seen ≠ some 0 ∧
      (sArmed (send 0)).locate (0, b) 0x108 8 1 counterOk = .ok (.mem x) ∧ ((sArmed (send 0)).readT 0 (.mem x) 8).2 = false ∧
      (send 0).desc.thresh ≤ 0 ∧ (0 : Addr) < (send 1).desc.thresh ∧ b.tel.firing = send 0 :: [] ∧ (send 0).begun = false ∧
      (sArmed (send 0)).items.look b.item = some item ∧ (sArmed (send 0)).portBlocked b.core = false ∧ (send 0).ev = false ∧
      ((sArmed (send 0)).grab (0, b) 0x100 64 plainOk).toOption.isSome = true ∧ ((sArmed (send 0)).port 0).up = true) ∧
    (let far : Armed := { send 0 with desc := { (send 0).desc with tctr := 0x80000108 } }
     (sArmed far).trigger (0, block w1 t1) far = some 0 ∧ far.ev = false ∧
       ∃ c va st, (sArmed far).locate (0, block w1 t1) far.desc.tctr 8 1 counterOk = .error (.fault c va st)) ∧
    (∃ (c : ConnInfo) (xl : Xlat), dataFlit.seq = (sLink.port 0).rxSeq ∧ sLink.knownConn dataFlit.conn = some c ∧ (sLink.port 0).receiving = [] ∧
      (0x7000 : Addr).toNat % 64 + [1, 2, 3, 4].length ≤ 64 ∧ sLink.portResolve c.ctx 0x7000 2 plainOk = .ok (.mem xl) ∧
      sLink.writable (.mem xl) 4) ∧ (sLink.ready = true ∧ sLink.manifest.valid = true ∧ State.reset.ready = false) ∧
    sLink.knownConn 9 = none ∧ (∃ f : Flit, f.tagOk = true ∧ f.typ = .idle) ∧
    (∀ f ∈ (sLink.port 0).replay.dropWhile (fun f => f.1.seq != 5), f.2 < 15) ∧
    (∃ f ∈ (sLink.port 0).replay.dropWhile (fun f => f.1.seq != 4), 15 ≤ f.2) ∧ sLink.sends = [] ∧
    (∃ (r : RecvRec) (c : ConnInfo) (xl : Xlat), (sLink.port 1).receiving.find? (·.complete) = some r ∧ sLink.knownConn r.conn = some c ∧
      r.parts = [] ∧ r.faulted = false ∧ r.rinc ≠ 0 ∧ r.rctr.toNat % 8 = 0 ∧ sLink.portResolve c.ctx r.rctr 3 counterOk = .ok (.mem xl) ∧
      sLink.writable (.mem xl) 8) ∧
    (sLink.conns.look 9 = none ∧ (sLink.fw.rd .blank 5).updating = none ∧ (sLink.fw.rd .blank 0).updating = none ∧ sLink.manifest.valid = true ∧
      4095 < 4096 ∧ sLink.conns.look 4 = some ⟨none, some ⟨0, 1, 2, 1, 1⟩, false⟩ ∧
      ∃ old other, sLink.conns.look 3 = some ⟨some old, some other, true⟩ ∧ (⟨0, 1, 3, 1, 1⟩ : ConnInfo) ≠ old ∧ 3 ≠ other.dev) ∧
    (∃ s : State, (s.fw.rd .blank 5).updating.isSome = true ∧ s.manifest.valid = false) ∧
    ∃ s : State, (s.fw.rd .blank 5).updating = none ∧ (s.fw.rd .blank 0).updating.isSome = true :=
  ⟨⟨rfl, rfl⟩,
    ⟨_, _, rfl, rfl, by decide, rfl, rfl, by decide, by decide, rfl, rfl, rfl, by decide, rfl, by decide +kernel, rfl⟩, ⟨rfl, rfl, _, _, _, rfl⟩,
    ⟨_, _, rfl, rfl, rfl, by decide, rfl, rfl, fun _ => by decide, fun _ _ => rfl⟩, ⟨rfl, rfl, rfl⟩, rfl, ⟨{ dataFlit with typ := .idle }, rfl, rfl⟩, by decide, by decide, rfl,
    ⟨_, _, _, rfl, rfl, rfl, rfl, by decide, by decide, rfl, rfl, fun _ => by decide, fun _ _ => rfl⟩,
    ⟨rfl, rfl, rfl, rfl, by decide, rfl, _, _, rfl, by decide, by decide⟩,
    ⟨{ sLink with fw := [(5, { FwCore.blank with updating := some 0 })], manifest := { Manifest.standard with valid := false } }, rfl, rfl⟩,
    { sLink with fw := [(0, { FwCore.blank with updating := some 0 })] }, rfl, rfl⟩

/-- A host access of 4 bytes at 0x7000. -/
def access : HostAccess := ⟨0x7000, none, 4, false⟩

/-- The host reads and writes DRAM of the partition at 0x7000, through BAR4 and through an HDM range; a poisoned line. -/
theorem test_hyp_HostAccessesAreServed :
    (State.reset.parts.find? (fun e => e.2.info.fn == 0) = none) ∧
    (∃ p, sW.parts.find? (fun e => e.2.info.fn == 0) = some (0, p) ∧ (sW.fns.rd .blank 0).bar4GiB * 2 ^ 30 < 2 ^ 30 - 3 + 4 ∧
      access.ipa + 4 ≤ (sW.fns.rd .blank 0).bar4GiB * 2 ^ 30 ∧ (sW.tdis.rd .blank 0).state = .unlocked ∧
      sW.hostRead 0 0x7000 4 = some ([0, 0, 0, 0], false) ∧ (sW.fw.rd .blank 4).updating = none ∧ (sW.fw.rd .blank 0).updating = none ∧
      (sW.fns.rd .blank 0).hdmUnits * 2 ^ 28 < 0x7000 + 4) ∧
    (let s : State := { sW with fns := [(0, { FnConfig.blank with hdmBase := 4, hdmUnits := 1 })] }
     (s.fns.rd .blank 0).hdmBase * 2 ^ 28 ≤ 0x40007000 ∧ 0x40007000 - 4 * 2 ^ 28 + 4 ≤ (s.fns.rd .blank 0).hdmUnits * 2 ^ 28 ∧
       s.hostRead 0 (0x40007000 - 4 * 2 ^ 28) 4 = some ([0, 0, 0, 0], false)) ∧
    (({ sW with poison := [(0x7000 / 64, true)] } : State).hostRead 0 0x7000 4 = some ([0, 0, 0, 0], true)) ∧
    (∃ x, sW.hostXlate 0 0x7000 2 = some x ∧ x.repl = false ∧ 0x7000 % 64 + [1, 2].length ≤ 64) ∧
    (∀ st : TdiState, (({ sW with tdis := [(1, ⟨st, false, false⟩)] } : State).tdis.rd .blank 1).state = st) ∧
    (∃ (s : State) (q : ErrQueue), s.errqs.look 0 = some q ∧ q.pendingIrq = true ∧ q.lastIrq = some 3 ∧ 2 ≤ (s.now - 3).toNat) ∧
    ∃ (s : State) (q : ErrQueue), s.errqs.look 0 = some q ∧ q.pendingIrq = true ∧ q.lastIrq = some 3 ∧ (s.now - 3).toNat < 2 :=
  ⟨rfl, ⟨_, rfl, by decide, by decide, rfl, rfl, rfl, rfl, by decide⟩, ⟨by decide, by decide, rfl⟩, rfl, ⟨_, rfl, rfl, by decide⟩,
    fun _ => rfl, ⟨{ sW with now := 5, errqs := [(0, ⟨64, [], 0, 0, true, some 3, 0⟩)] }, _, rfl, rfl, rfl, by decide⟩,
    { sW with now := 4, errqs := [(0, ⟨64, [], 0, 0, true, some 3, 0⟩)] }, _, rfl, rfl, rfl, by decide⟩

/-- The device with a VF, its partition, an error entry, and a TDI in a state. -/
def sVf (st : TdiState) : State :=
  { sW with
    manifest := { Manifest.standard with vfs := 16 }, fns := [(0, { FnConfig.blank with numVfs := 1 })], tdis := [(1, ⟨st, false, false⟩)],
    errqs := [(1, { ErrQueue.blank 64 with entries := [⟨0x0130, 5, 7, 0, 2, 0, 3, 0⟩] })],
    parts := [(0, ⟨⟨0xFFFF, [0], 0, 192, 0x1000, 1, 0, 0⟩, 0, []⟩)] }

/-- The registers that the host reads and writes: a doorbell page, the error queue, configuration; functions that exist and that do
not; fields that a TDI freezes; numbers of VFs that the partitions allow and that they do not. -/
theorem test_hyp_host_registers :
    (∃ s : State, s.queue 5 = some queue0 ∧ queue0.info.fn = 0 ∧ queue0.state ≤ 2 ∧ queue0.info.fn ≠ 1) ∧
    (sW.ready = true ∧ sW.fnExists 0 = true ∧ sW.fnExists 1 = false ∧ sW.manifest.valid = true ∧ State.reset.ready = false ∧
      HostSpace.bar4 ≠ .config .command ∧ access.write = none ∧ 4092 + access.len ≤ 4096 ∧ 65536 < 65533 + access.len) ∧
    (∃ s : State, s.manifest.valid = false ∧ HostSpace.bar4 ≠ .bar2) ∧
    (∀ st : TdiState, (sVf st).ready = true ∧ (sVf st).fnExists 1 = true ∧ (sVf st).manifest.valid = true ∧
      ((sVf st).tdis.rd .blank 1).state = st ∧ ((sVf st).fw.rd .blank 0).updating = none ∧ ((sVf st).errQueue 1).entries.length = 1) ∧
    (0 ∉ sW.heldTdis ∧ sW.heldTdis = [] ∧ (0 : Addr).toNat ≤ min sW.manifest.vfs 16 ∧ frozenField .command = true ∧
      frozenField .ideLink = false) ∧
    (1 ∈ (sVf .locked).heldTdis ∧ 1 ∈ (sVf .run).heldTdis ∧ (sVf .run).heldTdis ≠ []) ∧
    ((sVf .unlocked).heldTdis = [] ∧ (1 : Addr).toNat ≤ min (sVf .unlocked).manifest.vfs 16 ∧ min (sVf .unlocked).manifest.vfs 16 < (17 : Addr).toNat ∧
      (∀ e ∈ (sVf .unlocked).parts, fnServes (1 : Addr).toNat e.2.info.fn = true) ∧
      ¬ ∀ e ∈ (sVf .unlocked).parts, fnServes (0 : Addr).toNat e.2.info.fn = true) ∧
    (∃ (s : State) (p : Partition), (0, p) ∈ s.parts ∧ p.info.fn = 0 ∧ p.resetStep ≠ 0 ∧ s.parts.look 0 = some p) ∧
    ∀ e ∈ sW.parts, e.2.info.fn = 0 ∧ e.2.resetStep = 0 :=
  ⟨⟨sQueue queue0 false, rfl, rfl, by decide, by decide⟩,
    ⟨rfl, rfl, rfl, rfl, rfl, by decide, rfl, by decide, by decide⟩,
    ⟨{ sW with manifest := { Manifest.standard with valid := false } }, rfl, by decide⟩, fun st => ⟨rfl, rfl, rfl, rfl, rfl, rfl⟩, by decide,
    by decide, by decide, ⟨{ sW with parts := [(0, ⟨⟨0xFFFF, [0], 0, 192, 0x1000, 0, 0, 0⟩, 3, []⟩)] }, _, List.mem_cons_self, rfl, by decide,
      rfl⟩, by decide⟩

theorem test_hyp_FirmwareCoresUpdate :
    ((sW.fw.rd .blank 7).updating = none ∧ (sW.fw.rd .blank 0).updating = none ∧ sW.manifest.securityVersion ≤ 0 ∧ sW.manifest.valid = true ∧
      sW.ready = true ∧ State.reset.ready = false) ∧
    (∃ s : State, 0 < s.manifest.securityVersion ∧ s.manifest.valid = false) ∧
    (∃ s : State, (s.fw.rd .blank 0).updating.isSome = true) ∧ (∃ (s : State) (r : Reservation), s.reservations.look 10 = some r) ∧
    (∃ s : State, (s.fw.rd .blank 7).updating = some 0 ∧ 100000 ≤ (s.now - 0).toNat) ∧
    (∃ s : State, (s.fw.rd .blank 7).updating = some 0 ∧ (s.now - 0).toNat < 100000) ∧
    (sW.mail.rd [] 7).length < 32 ∧ ∃ s : State, 32 ≤ (s.mail.rd [] 7).length :=
  ⟨⟨rfl, rfl, by decide, rfl, rfl, rfl⟩, ⟨{ sW with manifest := { Manifest.standard with securityVersion := 1, valid := false } }, by decide, rfl⟩,
    ⟨{ sW with fw := [(0, { FwCore.blank with updating := some 0 })] }, rfl⟩, ⟨sHeld, _, rfl⟩,
    ⟨{ sW with now := 100000, fw := [(7, { FwCore.blank with updating := some 0 })] }, rfl, by decide⟩,
    ⟨{ sW with now := 99999, fw := [(7, { FwCore.blank with updating := some 0 })] }, rfl, by decide⟩, by decide,
    { sW with mail := [(7, List.replicate 32 ⟨0, 0⟩)] }, by decide⟩
end Sys2Proof.Tests
end

/-! PROOF. Translations, page requests and the tables of F0 and F3 (R148 to R156, R205, R210, R212): one rule per event, and the
statement `Obligations.TablesChangeAsAsked`. -/

namespace Sys2Proof.Machine

/-! ### Operations found, and their threads -/

theorem id_of_findOp {s : State} {id : Nat} {r : Thr} {o : Op} (h : s.findOp id = some (r, o)) : o.id = id := by
  obtain ⟨⟨k, b⟩, -, hb⟩ := List.exists_of_findSome?_eq_some h
  obtain ⟨⟨w, t⟩, -, ht⟩ := List.exists_of_findSome?_eq_some hb
  obtain ⟨p, hp, he⟩ := Option.map_eq_some_iff.mp ht
  cases he
  simpa using List.find?_some hp

theorem thr_of_blocks_eq {s s' : State} (h : s'.blocks = s.blocks) (r : Thr) : s'.thr r = s.thr r := by
  unfold State.thr State.blk
  rw [h]

theorem thr_fillTlb (s : State) (core ctx : Nat) (va : Addr) (r : Thr) : (s.fillTlb core ctx va).thr r = s.thr r := by
  obtain ⟨tl, h⟩ := fillTlb_frame s core ctx va
  exact thr_of_blocks_eq (by rw [h]) r

theorem sameMemory_fillTlb (s : State) (core ctx : Nat) (va : Addr) : SameMemory s (s.fillTlb core ctx va) := by
  obtain ⟨tl, h⟩ := fillTlb_frame s core ctx va
  rw [h]
  exact .of_eq rfl rfl rfl rfl

theorem thr_askPage (s : State) (who : Asker) (ctx page : Nat) (r : Thr) : (s.askPage who ctx page).thr r = s.thr r := by
  obtain ⟨_, _, _, h⟩ := askPage_frame s who ctx page
  exact thr_of_blocks_eq (by rw [h]) r

/-! ### A fault removes its operation for good -/

theorem mem_insertOp {o p : Op} {l : List Op} (h : p ∈ insertOp o l) : p = o ∨ p ∈ l := by
  induction l with
  | nil => exact .inl (List.mem_singleton.mp h)
  | cons q l ih =>
    unfold insertOp at h
    split at h
    · exact List.mem_cons.mp h
    · rcases List.mem_cons.mp h with rfl | h
      · exact .inr (List.mem_cons_self ..)
      · exact (ih h).imp_right (List.mem_cons_of_mem _)

theorem mem_mergeOps {p : Op} {xs ys : List Op} (h : p ∈ mergeOps xs ys) : p ∈ xs ∨ p ∈ ys := by
  induction xs with
  | nil => exact .inr h
  | cons x xs ih =>
    rcases mem_insertOp h with rfl | h
    · exact .inl (List.mem_cons_self ..)
    · exact (ih h).imp_left (List.mem_cons_of_mem _)

@[simp] theorem ops_cancelOp (t : Thread) (o : Op) : (t.cancelOp o).ops = t.ops := by
  unfold Thread.cancelOp
  split <;> rfl

@[simp] theorem withdrawn_cancelOp (t : Thread) (o : Op) : (t.cancelOp o).withdrawn = t.withdrawn := by
  unfold Thread.cancelOp
  split <;> rfl

/-- No operation of this number is outstanding or withdrawn. -/
def Thread.Lacks (t : Thread) (id : Nat) : Prop := (∀ q ∈ t.ops, q.id ≠ id) ∧ ∀ q ∈ t.withdrawn, q.id ≠ id

theorem lacks_cascadeOne {t : Thread} {id : Nat} (o : Op) (h : t.Lacks id) (ho : o.id ≠ id) : (t.cascadeOne o).Lacks id := by
  obtain ⟨hops, hwith⟩ := h
  have kept : ∀ {l : List Op} (f : Op → Bool), (∀ q ∈ l, q.id ≠ id) → ∀ q ∈ l.filter f, q.id ≠ id :=
    fun f hl q hq => hl q (List.mem_filter.mp hq).1
  unfold Thread.cascadeOne
  split
  · exact ⟨hops, hwith⟩
  · split
    · refine ⟨fun q hq => ?_, kept _ hwith⟩
      dsimp only at hq
      split at hq
      · rcases mem_insertOp hq with rfl | hq
        · exact ho
        · exact hops q hq
      · exact hops q hq
    · exact ⟨by simpa using kept (·.id != o.id) hops, by simpa using kept (·.id != o.id) hwith⟩

/-- The cascade moves only operations that the thread already has. -/
theorem lacks_cascade {t : Thread} {id : Nat} (h : t.Lacks id) : t.cascade.Lacks id := by
  have hm : ∀ o ∈ mergeOps t.withdrawn t.ops, o.id ≠ id := fun o ho => (mem_mergeOps ho).elim (h.2 o) (h.1 o)
  unfold Thread.cascade
  generalize mergeOps t.withdrawn t.ops = l at hm
  induction l generalizing t with
  | nil => exact h
  | cons o l ih =>
    exact ih (lacks_cascadeOne o h (hm o (List.mem_cons_self ..))) (fun p hp => hm p (List.mem_cons_of_mem _ hp))

/-- A fault leaves its record and takes its operation away (R166). -/
theorem faultOp_thr {s : State} {r : Thr} {t : Thread} (o : Op) (c : Cause) (a : Addr) (st : Bool) (ht : s.thr r = some t)
    (hw : ∀ q ∈ t.withdrawn, q.id ≠ o.id) :
    ∃ u, (s.faultOp r o c a st).thr r = some u ∧ (∀ q ∈ u.ops, q.id ≠ o.id) ∧
      ∃ g ∈ u.unreported, g.op = o.id ∧ g.cause = some c := by
  refine ⟨_, State.thr_updThr _ ht, And.left (lacks_cascade ?_),
    ⟨o.id, o.lane, o.stream.getD 0, o.seq, some c, a, st, o.pc⟩, cascade_keep _ _ (by simp), rfl, rfl⟩
  exact ⟨filter_ids t o.id, hw⟩

/-! ### A load whose host page is absent (R151) -/

theorem perform_load_absent {s : State} {r : Thr} {b : Block} {o : Op} {p : Place} {f : LoadForm} {d pg : Nat}
    (hk : o.kind = .load p f d) (hr : s.resolve b.core o.xl p f.bytes 1 plainOk = .absent pg) :
    s.perform r b o = s.unresolved r o p (.absent pg) := by
  simp only [State.perform, hk]
  rw [hr]

theorem unresolved_refused {s : State} (r : Thr) {o : Op} (p : Place) {pg : Nat} (h : (.op o.id, pg) ∈ s.refused) :
    s.unresolved r o p (.absent pg) = (s.forget (.op o.id)).faultOp r o .xlate p.addr false := by
  simp [State.unresolved, State.isRefused, h]

theorem unresolved_asks {s : State} (r : Thr) {o : Op} (p : Place) {pg : Nat} (h : (.op o.id, pg) ∉ s.refused) :
    s.unresolved r o p (.absent pg) = s.askPage (.op o.id) (s.ctxOf r.block) pg := by
  simp [State.unresolved, State.isRefused, h]

section
variable {s : State} {id : Nat} {r : Thr} {o : Op} {b : Block} {t : Thread} {p : Place} {f : LoadForm} {d pg : Nat}
  (hfind : s.findOp id = some (r, o)) (hblk : s.blk r.block = some b) (hthr : s.thr r = some t) (hfree : t.free o = true)
  (hkind : o.kind = .load p f d) (habs : s.resolve b.core o.xl p f.bytes 1 plainOk = .absent pg)
include hfind hblk hthr hfree hkind habs

/-- The host has refused the page: the load raises XLATE. -/
theorem operationFault_of_refused (hw : ∀ q ∈ t.withdrawn, q.id ≠ id) (href : (.op id, pg) ∈ s.refused) :
    ∃ s' u, exec (.operationFault id) s = .next s' ∧ SameMemory s s' ∧ s'.thr r = some u ∧ (∀ q ∈ u.ops, q.id ≠ id) ∧
      ∃ g ∈ u.unreported, g.op = id ∧ g.cause = some .xlate := by
  obtain rfl := id_of_findOp hfind
  obtain ⟨u, hu, hops, g, hg, hop, hcause⟩ := faultOp_thr (s := s.forget (.op o.id)) o .xlate p.addr false hthr hw
  have hforget : SameMemory s (s.forget (.op o.id)) := .of_eq rfl rfl rfl rfl
  refine ⟨_, u, ?_, hforget.trans (sameMemory_updThr _ r _), hu, hops, g, hg, hop, hcause⟩
  show execOperationFault o.id s = _
  unfold execOperationFault
  rw [performOp_of _ hfind hblk hthr hfree]
  simp only [hkind]
  rw [perform_load_absent hkind habs, unresolved_refused r p href]
  exact congrArg _ (sift_of true hfind hu (List.any_eq_true.mpr ⟨g, hg, by simp [hop, hcause]⟩))

/-- The host has not refused the page: it is asked for, and nothing else happens. -/
theorem operationComplete_asks (href : (.op id, pg) ∉ s.refused) (hun : ∀ q ∈ t.unreported, q.op ≠ id) :
    exec (.operationComplete id) s = .next (s.askPage (.op id) b.ctx pg) := by
  obtain rfl := id_of_findOp hfind
  have hwait : o.waiting = false := by simp [Op.waiting, hkind]
  have hctx : s.ctxOf r.block = b.ctx := by simp [State.ctxOf, hblk]
  have hplain : s.performPlain o.id = s.askPage (.op o.id) b.ctx pg := by
    unfold State.performPlain
    rw [performOp_of _ hfind hblk hthr hfree, hwait, if_neg Bool.false_ne_true, perform_load_absent hkind habs,
      unresolved_asks r p href, hctx]
  show execOperationComplete o.id s = _
  unfold execOperationComplete
  simp only [hfind, hplain]
  exact congrArg _ (sift_of false hfind ((thr_askPage ..).trans hthr) (List.any_eq_false.mpr fun q hq => by simp [hun q hq]))

end

theorem askPage_new {s : State} {who : Asker} (ctx pg : Nat) (hwho : ∀ q ∈ s.pri, q.owner ≠ who) (hlen : s.pri.length < 256) :
    s.askPage who ctx pg = { s with
      pri := s.pri ++ [⟨s.nextId, who, ctx, pg⟩], toHost := s.toHost ++ [.pageRequest s.nextId], nextId := s.nextId + 1 } := by
  have hany : s.pri.any (·.owner == who) = false := List.any_eq_false.mpr fun q hq => by simp [hwho q hq]
  have hlim : decide (Config.priLimit ≤ s.pri.length) = false := decide_eq_false (Nat.not_le.mpr hlen)
  simp [State.askPage, hany, hlim]

/-! ### Invalidations, walks and page responses (R148 to R151) -/

theorem exec_tlbInvalidate (s : State) (part : Nat) (scope : InvScope) :
    ∃ s', exec (.tlbInvalidate part scope) s = .next s' ∧ SameMemory s s' ∧
      (∀ e, e ∈ s'.tlb ↔ e ∈ s.tlb ∧ e.named part scope = false) ∧ s'.invals = s.invals ++ [⟨part, s.translated part⟩] ∧
      ∀ page, scope = .host page → s'.absent.rd false page = true := by
  refine ⟨_, rfl, .of_eq rfl rfl rfl rfl, fun e => by simp, rfl, ?_⟩
  rintro page rfl
  simp

theorem exec_invalidateAck {s : State} {part : Nat} {v : Inval} (hv : s.invals.find? (·.part == part) = some v)
    (hdone : ∀ id ∈ v.waitFor, s.findOp id = none) :
    exec (.invalidateAck part) s = .next { s with invals := s.invals.erase v, toHost := s.toHost ++ [.invalidated part] } := by
  have h : s.invalDone v = true := List.all_eq_true.mpr fun id hid => by simp [hdone id hid]
  show execInvalidateAck part s = _
  simp [execInvalidateAck, hv, h]

theorem setXlat_thr {s : State} {r : Thr} {t : Thread} {o : Op} (x : Xlat) (ht : s.thr r = some t) (ho : o ∈ t.ops) :
    ∃ u, (s.setXlat r o.id x).thr r = some u ∧ { o with xl := some x } ∈ u.ops ∧ u.ops.length = t.ops.length ∧ u.v = t.v :=
  ⟨_, State.thr_updThr _ ht, List.mem_map.mpr ⟨o, ho, if_pos rfl⟩, List.length_map .., rfl⟩

/-- A finished walk to device memory serves its operation (R148). -/
theorem exec_pageWalkComplete {s : State} {r : Thr} {o : Op} {b : Block} {t : Thread} {c : Nat} {a : Addr} {x : Xlat} {n : Nat}
    (hfind : s.findOp o.id = some (r, o)) (hblk : s.blk r.block = some b) (hthr : s.thr r = some t) (ho : o ∈ t.ops)
    (hplace : o.globalPlace = some (c, a)) (hxl : o.xl = none) (ha : canonical a = true) (hwalk : s.walkBoth c a = .ok (x, n))
    (hspace : x.space ≠ .host) :
    ∃ s' u, exec (.pageWalkComplete o.id) s = .next s' ∧ SameMemory s s' ∧ s'.thr r = some u ∧
      { o with xl := some x } ∈ u.ops ∧ u.ops.length = t.ops.length ∧ u.v = t.v := by
  obtain ⟨u, hu⟩ := setXlat_thr x ((thr_fillTlb s b.core c a r).trans hthr) ho
  refine ⟨_, u, ?_, (sameMemory_fillTlb s b.core c a).trans (sameMemory_updThr _ r _), hu⟩
  show execPageWalkComplete o.id s = _
  simp [execPageWalkComplete, hfind, hblk, hplace, hxl, ha, hwalk, hspace, State.setXlat]

theorem exec_priResponse_none {s : State} {id : Nat} (h : s.pri.find? (·.id == id) = none) (ok : Bool) :
    exec (.priResponse id ok) s = .next s := by
  show execPriResponse id ok s = _
  simp [execPriResponse, h]

section
variable {s : State} {id : Nat} {q : PriReq} (hq : s.pri.find? (·.id == id) = some q)
include hq

theorem exec_priResponse_success :
    exec (.priResponse id true) s =
      .next { s with pri := s.pri.filter (·.id != id), absent := s.absent.wr false q.page false } := by
  show execPriResponse id true s = _
  simp [execPriResponse, hq]

theorem exec_priResponse_failure :
    exec (.priResponse id false) s = .next (({ s with pri := s.pri.filter (·.id != id) } : State).pageRefused q) := by
  show execPriResponse id false s = _
  simp [execPriResponse, hq]

end

theorem pageRefused_fetch (s : State) {q : PriReq} {r : Thr} (h : q.owner = .fetch r) :
    s.pageRefused q = s.updThr r (fun t => { t with denied := some q.page }) := by
  simp [State.pageRefused, h]

theorem pageRefused_other (s : State) {q : PriReq} (h : ∀ r, q.owner ≠ .fetch r) :
    s.pageRefused q = { s with refused := s.refused ++ [(q.owner, q.page)] } := by
  unfold State.pageRefused
  split
  · next r hr => exact absurd hr (h r)
  · rfl

/-! ### Teardown (R152) -/

theorem queue_deadQueues (s : State) (f : LQueue → Bool) (q : Nat) :
    (s.deadQueues f).queue q = (s.queue q).map (fun x => if f x then { x with state := 2, pending := none, waited := none } else x) := by
  simp only [State.queue, State.deadQueues, Tab.look_mapVals]

@[simp] theorem queue_dropLaunches (s : State) (f : Launch → Bool) (q : Nat) : (s.dropLaunches f).queue q = s.queue q := rfl

theorem state_deadQueues {s : State} {f : LQueue → Bool} {q : Nat} {x : LQueue} (hx : s.queue q = some x) (hf : f x = true) :
    ((s.deadQueues f).queue q).map (·.state) = some 2 := by
  simp [queue_deadQueues, hx, hf]

/-- A context of which nothing is resident and no page request waits. -/
theorem exec_pasidTeardown_idle {s : State} {pasid : Nat} {c : Context} (hc : s.ctxs.look pasid = some c)
    (hblocks : ∀ k b, (k, b) ∈ s.blocks → b.ctx ≠ pasid) (hstrays : s.strays = []) (hpri : ∀ q ∈ s.pri, q.ctx ≠ pasid) :
    exec (.pasidTeardown pasid) s = .next
      ((({ s with ctxs := s.ctxs.ins pasid { c with dead := true }, tlb := s.tlb.filter (·.ctx != pasid) } : State).deadQueues
        (fun q => q.qcb.map (·.pasid) == some pasid)).dropLaunches (·.ctx == pasid)) := by
  have hb : ¬ s.blocks.any (fun (_, b) => b.ctx == pasid) = true := by simpa using hblocks
  have hy : ¬ s.strays.any (fun y => y.op.contexts.contains pasid) = true := by simp [hstrays]
  have hp : ¬ s.pri.any (fun q => q.ctx == pasid) = true := by simpa using hpri
  show execPasidTeardown pasid s = _
  unfold execPasidTeardown
  rw [hc]
  exact congrArg _ (if_neg (not_or.mpr ⟨hb, not_or.mpr ⟨hy, hp⟩⟩))

theorem exec_pasidTeardown {s : State} {pasid : Nat} {c : Context} (hc : s.ctxs.look pasid = some c)
    (hblocks : ∀ k b, (k, b) ∈ s.blocks → b.ctx ≠ pasid) (hstrays : s.strays = []) (hpri : ∀ q ∈ s.pri, q.ctx ≠ pasid) :
    ∃ s', exec (.pasidTeardown pasid) s = .next s' ∧ SameMemory s s' ∧ s'.ctxs.look pasid = some { c with dead := true } ∧
      (∀ e ∈ s'.tlb, e.ctx ≠ pasid) ∧
      ∀ q x d, s.queue q = some x → x.qcb = some d → d.pasid = pasid → (s'.queue q).map (·.state) = some 2 := by
  refine ⟨_, exec_pasidTeardown_idle hc hblocks hstrays hpri, .of_eq rfl rfl rfl rfl, Tab.look_ins_same ..,
    fun e he => by simpa using (List.mem_filter.mp he).2, fun q x d hx hd he => ?_⟩
  rw [queue_dropLaunches]
  exact state_deadQueues (x := x) hx (by simp [hd, he])

theorem exec_pasidTeardown_waits {s : State} {pasid : Nat} {q : PriReq} (hq : q ∈ s.pri) (h : q.ctx = pasid) :
    exec (.pasidTeardown pasid) s = .next s := by
  have hp : s.pri.any (fun q => q.ctx == pasid) = true := List.any_eq_true.mpr ⟨q, hq, by simpa using h⟩
  show execPasidTeardown pasid s = _
  unfold execPasidTeardown
  split
  · rfl
  · rw [if_pos (.inr (.inr hp))]

/-! ### Harvest and zeroing (R154, R156) -/

theorem updating_eq_false {s : State} {core : Nat} (h : (s.fw.rd .blank core).updating = none) : s.updating core = false := by
  simp [State.updating, h]

theorem exec_dirtyHarvest {s : State} {part ipa pa n leaf : Nat} {e : Addr} (hwalk : s.stage2 part ipa = .ok (pa, e, n, leaf))
    (hfw : (s.fw.rd .blank 3).updating = none) (hwrites : s.writesThrough part leaf = false) :
    exec (.dirtyHarvest part ipa) s = .next { s with
      dram := writeMem s.dram leaf (bytesOf (e &&& ~~~0x0010000000000000#64).toNat 8),
      toHost := s.toHost ++ [.harvest part ipa (e.getLsbD 52)] } := by
  have hbit : (1#64 <<< 52) = 0x0010000000000000#64 := by decide
  show execDirtyHarvest part ipa s = _
  simp only [execDirtyHarvest, hwalk, updating_eq_false hfw, hwrites, hbit, Bool.false_eq_true, or_self, if_false]

theorem readMem_writeMem_bytesOf (m : Mem) (a x n : Nat) : readMem (writeMem m a (bytesOf x n)) a n = bytesOf x n := by
  have h := readMem_writeMem m a (bytesOf x n)
  rwa [bytesOf_length] at h

theorem rd_writeMem_outside (m : Mem) {a i : Nat} (bs : List Byte) (h : i < a ∨ a + bs.length ≤ i) :
    (writeMem m a bs).rd 0 i = m.rd 0 i := by
  rw [rd_writeMem, if_neg (by omega)]

theorem exec_pageZero_page {s : State} {pa : Nat} (hwf : s.memoriesWf) (hidle : s.idleDram (pa / 4096 * 4096) = true) :
    ∃ s', exec (.pageZero (.page pa)) s = .next s' ∧
      ∀ a, s'.dram.rd 0 a = if a / 4096 = pa / 4096 then 0 else s.dram.rd 0 a := by
  refine ⟨s.zeroDram (pa / 4096 * 4096) 4096, ?_, fun a => ?_⟩
  · show execPageZero (.page pa) s = _
    simp [execPageZero, hidle]
  · have hin : (pa / 4096 * 4096 ≤ a ∧ a < pa / 4096 * 4096 + 4096) ↔ a / 4096 = pa / 4096 := by omega
    refine (rd_zeroRange s.dram _ _ a (sorted_of_canon hwf.1)).trans ?_
    simp only [hin]

theorem exec_pageZero_key_free {s : State} {slot : Nat} (hfw : (s.fw.rd .blank 0).updating = none) (hlo : 1 ≤ slot)
    (hhi : slot < 512) (hnamed : s.keyNamed slot = false) :
    exec (.pageZero (.key slot)) s =
      .next { s with keys := s.keys.ins slot ⟨0xFF, 0, (s.keys.rd .blank slot).gen + 1⟩ } := by
  show execPageZero (.key slot) s = _
  simp [execPageZero, updating_eq_false hfw, hnamed, Nat.ne_of_gt hlo, Nat.not_le.mpr hhi]

theorem exec_pageZero_key_named {s : State} {slot : Nat} (hnamed : s.keyNamed slot = true) :
    exec (.pageZero (.key slot)) s = .next s := by
  show execPageZero (.key slot) s = _
  simp [execPageZero, hnamed]

/-! ### Binding tables (R205) -/

theorem ctxIdle_iff (s : State) (ctx : Nat) : s.ctxIdle ctx = true ↔ ∀ k b, (k, b) ∈ s.blocks → b.ctx ≠ ctx := by
  simp [State.ctxIdle]

theorem holdsChange_of {s : State} {ctx : Nat} {c : Context} (hc : s.ctxs.look ctx = some c) :
    s.holdsChange ctx = !c.heldChange.isEmpty := by
  simp [State.holdsChange, hc]

theorem bindingOk_reserved (s : State) (ctx : Nat) (c : Context) (idx : Nat) {e : BindEntry} (h : e.rest ≠ 0) :
    s.bindingOk ctx c idx e = false := by
  unfold State.bindingOk
  simp only [beq_false_of_ne h, Bool.false_and]

theorem putBinding_of {s : State} {ctx : Nat} {c : Context} (idx : Nat) (e : BindEntry) (hc : s.ctxs.look ctx = some c) :
    s.putBinding ctx idx e = if s.bindingOk ctx c idx e then
      { s with ctxs := s.ctxs.ins ctx { c with binding := c.binding.ins idx e } } else s := by
  simp [State.putBinding, hc]

section
variable {s : State} {ctx : Nat} {c : Context} (hc : s.ctxs.look ctx = some c)
include hc

theorem exec_bindingChange_idle (idx : Nat) (e : BindEntry) (hidle : ∀ k b, (k, b) ∈ s.blocks → b.ctx ≠ ctx)
    (hfw : (s.fw.rd .blank 3).updating = none) (hheld : c.heldChange = []) :
    exec (.bindingChange ctx idx e) s = .next (s.putBinding ctx idx e) := by
  show execBindingChange ctx idx e s = _
  simp [execBindingChange, (ctxIdle_iff s ctx).mpr hidle, updating_eq_false hfw, holdsChange_of hc, hheld]

theorem exec_bindingChange_held (idx : Nat) (e : BindEntry)
    (hbusy : (∃ k b, (k, b) ∈ s.blocks ∧ b.ctx = ctx) ∨ (s.fw.rd .blank 3).updating.isSome = true ∨ c.heldChange ≠ []) :
    exec (.bindingChange ctx idx e) s = .next { s with
      ctxs := s.ctxs.upd ctx (fun c => { c with heldChange := c.heldChange ++ [(idx, e)] }) } := by
  have hnot : ¬ (s.ctxIdle ctx = true ∧ (!s.updating 3) = true ∧ (!s.holdsChange ctx) = true) := by
    rintro ⟨hidle, hfw, hheld⟩
    rcases hbusy with ⟨k, b, hb, hctx⟩ | hup | hne
    · exact (ctxIdle_iff s ctx).mp hidle k b hb hctx
    · simp [State.updating, hup] at hfw
    · simp [holdsChange_of hc] at hheld
      exact hne hheld
  show execBindingChange ctx idx e s = _
  exact congrArg _ (if_neg hnot)

end

/-! ### Requests of F0: key slots and consent (R199, R210, R212) -/

theorem onRequest_idle {s : State} (f : State → State) (h : s.requests = [] ∨ (s.fw.rd .blank 0).updating.isSome = true) :
    s.onRequest f = s := by
  unfold State.onRequest
  split
  · rfl
  · next hr =>
    rcases h with h | h
    · rw [h] at hr
      cases hr
    · exact if_pos h

theorem onRequest_takes {s : State} {m : Mail} {ms : List Mail} (f : State → State) (hfw : (s.fw.rd .blank 0).updating = none)
    (hreq : s.requests = m :: ms) : s.onRequest f = f { s with requests := ms } := by
  simp [State.onRequest, hreq, updating_eq_false hfw]

section
variable {s : State} {m : Mail} {ms : List Mail} (hfw : (s.fw.rd .blank 0).updating = none) (hreq : s.requests = m :: ms)
include hfw hreq

theorem exec_keySlotLoad_assigns {slot owner : Nat} {p : Partition} (hlo : 1 ≤ slot) (hhi : slot < 512)
    (hstate : (s.keys.rd .blank slot).state ≠ 2) (howner : owner ≠ 0xFF) (hp : s.parts.look owner = some p) :
    exec (.keySlotLoad slot owner) s = .next { s with
      requests := ms, keys := s.keys.ins slot { s.keys.rd .blank slot with owner, state := 2 } } := by
  show execKeySlotLoad slot owner s = _
  unfold execKeySlotLoad
  rw [onRequest_takes _ hfw hreq]
  simp [hstate, howner, hp, Nat.ne_of_gt hlo, Nat.not_le.mpr hhi]

theorem exec_keySlotLoad_loads {slot : Nat} (hlo : 1 ≤ slot) (hhi : slot < 512) (hstate : (s.keys.rd .blank slot).state ≠ 2) :
    exec (.keySlotLoad slot 0xFF) s = .next { s with
      requests := ms, keys := s.keys.ins slot { s.keys.rd .blank slot with owner := 0xFF, state := 1 } } := by
  show execKeySlotLoad slot 0xFF s = _
  unfold execKeySlotLoad
  rw [onRequest_takes _ hfw hreq]
  simp [hstate, Nat.ne_of_gt hlo, Nat.not_le.mpr hhi]

theorem exec_keySlotLoad_assigned {slot : Nat} (owner : Nat) (hstate : (s.keys.rd .blank slot).state = 2) :
    exec (.keySlotLoad slot owner) s = .next { s with requests := ms } := by
  show execKeySlotLoad slot owner s = _
  unfold execKeySlotLoad
  rw [onRequest_takes _ hfw hreq]
  simp [hstate]

theorem exec_consentUpdate_writes {part idx : Nat} {e : Consent} (hidx : idx < 64) (hrest : e.rest = 0) :
    exec (.consentUpdate part idx e) s =
      .next (({ s with requests := ms } : State).updPart part (fun p => { p with consent := p.consent.ins idx e })) := by
  show execConsentUpdate part idx e s = _
  unfold execConsentUpdate
  rw [onRequest_takes _ hfw hreq]
  simp [hrest, Nat.not_le.mpr hidx]

theorem exec_consentUpdate_reserved (part idx : Nat) {e : Consent} (hrest : e.rest ≠ 0) :
    exec (.consentUpdate part idx e) s = .next { s with requests := ms } := by
  show execConsentUpdate part idx e s = _
  unfold execConsentUpdate
  rw [onRequest_takes _ hfw hreq, if_pos (.inr hrest)]

end

theorem parts_updPart {s : State} {part : Nat} {p : Partition} (f : Partition → Partition) (hp : s.parts.look part = some p) :
    (s.updPart part f).parts.look part = some (f p) := by
  simp [State.updPart, hp]

/-- Settles O56, event by event: each clause is the rule of its event above. -/
theorem tablesChangeAsAsked : Obligations.TablesChangeAsAsked := by
  intro s part
  refine ⟨exec_tlbInvalidate s part, fun v => exec_invalidateAck, ?walk, ?response, fun _ => exec_priResponse_none, ?absent,
    fun _ ctx pg => askPage_new ctx pg, ?teardown, ?harvest, fun _ => exec_pageZero_page, ?binding, ?idle, ?zeroKey, ?request⟩
  case walk =>
    rintro _ r o b t c a f d x n hfind hblk hthr ho rfl hkind hxl ha hwalk hspace
    exact exec_pageWalkComplete hfind hblk hthr ho (by simp [Op.globalPlace, hkind]) hxl ha hwalk hspace
  case response =>
    intro id q hq
    refine ⟨exec_priResponse_success hq, fun r hr => ?_, fun hr => ?_⟩
    · rw [exec_priResponse_failure hq, pageRefused_fetch _ hr]
    · rw [exec_priResponse_failure hq, pageRefused_other _ hr]
  case absent =>
    intro id r o b t p f d pg hfind hblk hthr hfree hkind habs hw
    exact ⟨operationFault_of_refused hfind hblk hthr hfree hkind habs hw,
      operationComplete_asks hfind hblk hthr hfree hkind habs⟩
  case teardown =>
    intro pasid c hc
    exact ⟨exec_pasidTeardown hc, fun q => exec_pasidTeardown_waits⟩
  case harvest =>
    intro ipa pa e n leaf hwalk hfw hwrites
    refine ⟨_, exec_dirtyHarvest hwalk hfw hwrites, rfl, readMem_writeMem_bytesOf .., fun a ha => rd_writeMem_outside _ _ ?_⟩
    rwa [bytesOf_length]
  case binding =>
    intro ctx idx e c hc
    refine ⟨fun hidle hfw hheld => ?_, fun hbusy => ⟨_, exec_bindingChange_held hc idx e hbusy, .of_eq rfl rfl rfl rfl, ?_⟩⟩
    · rw [exec_bindingChange_idle hc idx e hidle hfw hheld, putBinding_of idx e hc]
      refine ⟨fun hok => ?_, fun hrest => ?_⟩
      · rw [if_pos hok]
        exact ⟨_, rfl, .of_eq rfl rfl rfl rfl, by simp⟩
      · rw [bindingOk_reserved s ctx c idx hrest, if_neg Bool.false_ne_true]
    · simp [hc]
  case idle =>
    intro slot owner idx e h
    exact ⟨congrArg _ (onRequest_idle _ h), congrArg _ (onRequest_idle _ h)⟩
  case zeroKey =>
    intro hfw slot hlo hhi
    exact ⟨exec_pageZero_key_named, exec_pageZero_key_free hfw hlo hhi⟩
  case request =>
    intro m ms hfw hreq
    refine ⟨fun slot hlo hhi => ⟨fun hstate => ⟨fun owner p => ?_, exec_keySlotLoad_loads hfw hreq hlo hhi hstate⟩,
      fun owner => exec_keySlotLoad_assigned hfw hreq owner⟩, fun idx e p hidx hp => ⟨fun hrest => ?_, ?_⟩⟩
    · exact exec_keySlotLoad_assigns hfw hreq hlo hhi hstate
    · exact ⟨_, exec_consentUpdate_writes hfw hreq hidx hrest, .of_eq rfl rfl rfl rfl, rfl, parts_updPart _ hp⟩
    · exact exec_consentUpdate_reserved hfw hreq part idx

end Sys2Proof.Machine

/-! PROOF. Memory instructions that fail no check (R158, R162, R166), and the statement `Obligations.StoresIssue`. -/

namespace Sys2Proof.Machine

/-! ### Lanes that all pass their checks -/

@[simp] theorem failing_ok (ls : List Nat) (k : Nat → OpKind) : failing (ls.map (fun l => (l, .ok (k l)))) = [] := by
  induction ls with
  | nil => rfl
  | cons l ls ih => exact ih

@[simp] theorem issuing_ok (ls : List Nat) (k : Nat → OpKind) :
    issuing (ls.map (fun l => (l, .ok (k l)))) = ls.map (fun l => (l, k l)) := by
  induction ls with
  | nil => rfl
  | cons l ls ih => exact congrArg (List.cons (l, k l)) ih

@[simp] theorem failLanes_nil (t : Thread) (c : Cause) (code : Nat) : t.failLanes c code [] = t := by
  simp [Thread.failLanes, Thread.inClause, maskOfLanes]

theorem noRoom_eq_false {t : Thread} {st : Nat} {ls : List Nat} (k : Nat → OpKind) (room : ∀ l ∈ ls, t.count l st < 32) :
    t.noRoom st (ls.map (fun l => (l, k l))) = false := by
  have hfull : ∀ l ∈ ls, t.full l st = false := fun l hl => decide_eq_false (Nat.not_le.mpr (room l hl))
  simpa [Thread.noRoom] using hfull

section
variable {s : State} {t : Thread} (hthr : s.thr s.cur = some t)
include hthr

theorem stopFailing_nil : s.stopFailing [] = s.withThread t := by
  have hsame := State.updThr_const (·.failLanes .align 0 []) hthr
  rwa [failLanes_nil] at hsame

/-- A memory instruction whose every executing lane passes its check and has room on the stream issues all its operations. -/
theorem memory_issues {i : Instr} {x : Ext} {plan : Plan} {k : Nat → OpKind} (hfree : t.unreported = [])
    (hexec : exec i s = memory i x plan s) (room : ∀ l ∈ t.lanes x.guard, t.count l x.st.toNat < 32)
    (hplan : ∀ l ∈ t.lanes x.guard, plan t s l = .ok (k l)) :
    IssuesOps i x.st.toNat x.pm s t ((t.lanes x.guard).map (fun l => (l, k l))) := by
  have hplans : (t.lanes x.guard).map (fun l => (l, plan t s l)) = (t.lanes x.guard).map (fun l => (l, .ok (k l))) :=
    List.map_congr_left (fun l hl => congrArg (Prod.mk l) (hplan l hl))
  refine State.issued_ops hthr hfree i _ _ _ ?_
  simp only [hexec, memory, hthr, hplans, issuing_ok, noRoom_eq_false k room, Bool.false_eq_true, if_false, failing_ok,
    stopFailing_nil hthr]

/-- The same for a form that issues at each lane's place an operation with operands read from the thread at issue. -/
theorem memory_place_issues {i : Instr} {x : Ext} (place : Thread → State → Nat → Placed) (kind : Thread → Nat → Place → OpKind)
    (hfree : t.unreported = []) (hexec : exec i s = memory i x (fun t s l => (place t s l).map (kind t l)) s) (p : Nat → Place)
    (room : ∀ l ∈ t.lanes x.guard, t.count l x.st.toNat < 32) (hplace : ∀ l ∈ t.lanes x.guard, place t s l = .ok (p l)) :
    IssuesOps i x.st.toNat x.pm s t ((t.lanes x.guard).map (fun l => (l, kind t l (p l)))) :=
  memory_issues hthr hfree hexec room fun l hl => congrArg (Except.map _) (hplace l hl)

/-- The same for a store form, whose data is read from the thread at issue (R19). -/
theorem memory_storePlan_issues {i : Instr} {x : Ext} (place : Thread → State → Nat → Placed) (hfree : t.unreported = [])
    (hexec : exec i s = memory i x (storePlan x place) s) (p : Nat → Place)
    (room : ∀ l ∈ t.lanes x.guard, t.count l x.st.toNat < 32) (hplace : ∀ l ∈ t.lanes x.guard, place t s l = .ok (p l)) :
    IssuesOps i x.st.toNat x.pm s t ((t.lanes x.guard).map (fun l => (l, .store (p l) (t.storeData x l)))) :=
  memory_place_issues hthr place (fun t l p => .store p (t.storeData x l)) hfree hexec p room hplace

end

/-- Settles O27: each store form is `memory` with the plan of its place and its data, and every lane passes its check. -/
theorem storesIssue : Obligations.StoresIssue := by
  intro s t hthr hfree
  refine ⟨fun x => ?st, fun x => ?sts, fun x => ?stg, fun k => ?stCompact, fun k => ?stsCompact, fun k => ?stgCompact,
    fun x => ?stz⟩
  case st => exact memory_storePlan_issues hthr (genericPlace x) hfree rfl
  case sts => exact memory_storePlan_issues hthr (scratchPlace x) hfree rfl
  case stg => exact memory_storePlan_issues hthr (globalPlace x) hfree rfl
  case stCompact => exact memory_storePlan_issues hthr (genericPlace k.store) hfree rfl
  case stsCompact => exact memory_storePlan_issues hthr (scratchPlace k.store) hfree rfl
  case stgCompact => exact memory_storePlan_issues hthr (globalPlace k.store) hfree rfl
  case stz =>
    exact memory_place_issues hthr (genericPlace x) (fun _ _ p => .store p (List.replicate (widBytes x) 0)) hfree rfl

end Sys2Proof.Machine

/-! PROOF. Time, power, the report, the calendars and power-up (R45, R47, R143, R183, R199, R217, R332, R353, R362 to R364), and the
statement `Obligations.TimeAndPowerAdvance`. -/

namespace Sys2Proof.Machine

/-! ### Tables changed entry by entry -/

theorem rd_ins_change {α : Type} (d : α) (f : α → α) (t : Tab α) (i j : Nat) :
    (t.ins i (f (t.rd d i))).rd d j = if j = i then f (t.rd d j) else t.rd d j := by
  rw [Tab.rd_ins]
  split
  · next h => rw [h]
  · rfl

theorem rd_wr_change {α : Type} [DecidableEq α] (d : α) (f : α → α) (t : Tab α) (i j : Nat) :
    (t.wr d i (f (t.rd d i))).rd d j = if j = i then f (t.rd d j) else t.rd d j := by
  rw [Tab.rd_wr]
  split
  · next h => rw [h]
  · rfl

/-- Writes at keys that differ: each key's value is changed once, by the element of the list that has the key. -/
theorem rd_foldl_put {α β : Type} {d : α} {key : β → Nat} {f : β → α → α} {put : Tab α → β → Tab α}
    (hput : ∀ t x j, (put t x).rd d j = if j = key x then f x (t.rd d j) else t.rd d j) {l : List β} (hl : (l.map key).Nodup)
    (t : Tab α) :
    (∀ x ∈ l, (l.foldl put t).rd d (key x) = f x (t.rd d (key x))) ∧
      ∀ j, j ∉ l.map key → (l.foldl put t).rd d j = t.rd d j := by
  induction l generalizing t with
  | nil => exact ⟨fun x hx => absurd hx List.not_mem_nil, fun _ _ => rfl⟩
  | cons y l ih =>
    rw [List.map_cons, List.nodup_cons] at hl
    obtain ⟨hy, hl⟩ := hl
    obtain ⟨hin, hout⟩ := ih hl (put t y)
    simp only [List.foldl_cons]
    refine ⟨fun x hx => ?_, fun j hj => ?_⟩
    · rcases List.mem_cons.mp hx with rfl | hx
      · rw [hout _ hy, hput, if_pos rfl]
      · have hne : key x ≠ key y := fun h => hy (h ▸ List.mem_map_of_mem hx)
        rw [hin x hx, hput, if_neg hne]
    · rw [List.map_cons, List.mem_cons, not_or] at hj
      rw [hout j hj.2, hput, if_neg hj.1]

/-- The same for the keys below a bound. -/
theorem rd_foldl_range {α : Type} {d : α} {f : Nat → α → α} {put : Tab α → Nat → Tab α}
    (hput : ∀ t i j, (put t i).rd d j = if j = i then f i (t.rd d j) else t.rd d j) (t : Tab α) {n i : Nat} (hi : i < n) :
    ((List.range n).foldl put t).rd d i = f i (t.rd d i) :=
  (rd_foldl_put (key := id) hput (by simpa using List.nodup_range) t).1 i (List.mem_range.mpr hi)

/-- The last entry that a list gives for a key stands there; a key of which the list says nothing keeps its value. -/
theorem look_foldl_ins {α β : Type} (f : α → β) (l : List (Nat × α)) (t : Tab β) (k : Nat) :
    (∃ p, (k, p) ∈ l ∧ (l.foldl (fun t (k, p) => t.ins k (f p)) t).look k = some (f p)) ∨
      (∀ p, (k, p) ∉ l) ∧ (l.foldl (fun t (k, p) => t.ins k (f p)) t).look k = t.look k := by
  induction l generalizing t with
  | nil => exact .inr ⟨fun _ => List.not_mem_nil, rfl⟩
  | cons e l ih =>
    obtain ⟨i, p⟩ := e
    rcases ih (t.ins i (f p)) with ⟨q, hq, hlook⟩ | ⟨hnone, hlook⟩
    · exact .inl ⟨q, List.mem_cons_of_mem _ hq, hlook⟩
    · rw [Tab.look_ins] at hlook
      split at hlook
      · next h =>
        subst h
        exact .inl ⟨p, List.mem_cons_self, hlook⟩
      · next h =>
        exact .inr ⟨fun q hq => (List.mem_cons.mp hq).elim (fun he => h (congrArg Prod.fst he)) (hnone q), hlook⟩

/-! ### A tick (R183, R199, R217, R332) -/

theorem thr_of_mapThreads {s s' : State} {f : Thread → Thread} (h : s'.blocks = Tab.mapVals s.blocks (·.mapThreads f)) (r : Thr) :
    s'.thr r = (s.thr r).map f := by
  unfold State.thr State.blk
  rw [h, Tab.look_mapVals]
  cases s.blocks.look r.block with
  | none => rfl
  | some b =>
    cases hw : r.warp with
    | none => simp [Block.thr, Block.mapThreads]
    | some w => exact look_map_keys b.warps (fun _ => f) w

theorem sameMemory_of_mapThreads {s s' : State} {f : Thread → Thread} (hblocks : s'.blocks = Tab.mapVals s.blocks (·.mapThreads f))
    (hdram : s'.dram = s.dram) (hkeys : s'.lineKeys = s.lineKeys) (hvault : s'.vault = s.vault) (hhost : s'.host = s.host) :
    SameMemory s s' := by
  refine ⟨fun _ => by rw [hdram], fun _ => by rw [hkeys], fun _ => by rw [hvault], fun _ => by rw [hhost], fun k a => ?_⟩
  unfold State.blk
  rw [hblocks, Tab.look_mapVals, Option.map_map]
  rfl

theorem tick_sleep {t : Thread} {n : Nat} (h : t.hold = .sleep (n + 1)) : t.tick = { t with hold := .sleep n } := by
  simp [Thread.tick, h]

theorem logDevice_frame (s : State) : ∃ fresh plog wrap,
    s.logDevice = { s with fresh, plog, plogNext := (s.plogNext + 1) % 2048, plogWrap := wrap } := ⟨_, _, _, rfl⟩

theorem loadConn_frame (s : State) (k : Nat) (c : Conn) :
    ∃ conns routes toHost, s.loadConn k c = { s with conns, routes, toHost } := by
  unfold State.loadConn
  split
  · exact ⟨_, _, _, rfl⟩
  · split
    · exact ⟨_, _, _, rfl⟩
    · exact ⟨_, _, _, rfl⟩

theorem loadConns_frame (s : State) : ∃ conns routes toHost, s.loadConns = { s with conns, routes, toHost } := by
  unfold State.loadConns
  generalize s.conns = l
  induction l generalizing s with
  | nil => exact ⟨_, _, _, rfl⟩
  | cons e l ih =>
    obtain ⟨_, _, _, h⟩ := loadConn_frame s e.1 e.2
    obtain ⟨cs, rs, out, h'⟩ := ih (s.loadConn e.1 e.2)
    exact ⟨cs, rs, out, by rw [List.foldl_cons, h', h]⟩

/-- What a tick changes in blocks, NOW, the mailboxes and the accepted requests, and where else it writes. -/
theorem exec_deviceTimeTick {s : State} (hready : s.ready = true) :
    ∃ s', exec .deviceTimeTick s = .next s' ∧ s' = { s with
      now := s.now + 1, blocks := Tab.mapVals s.blocks (·.mapThreads Thread.tick), mail := s.readMail.mail,
      requests := s.readMail.requests, ctxs := s'.ctxs, conns := s'.conns, routes := s'.routes, toHost := s'.toHost,
      fresh := s'.fresh, plog := s'.plog, plogNext := s'.plogNext, plogWrap := s'.plogWrap } := by
  refine ⟨_, congrArg Host.Outcome.next (if_neg (by simp [hready])), ?_⟩
  obtain ⟨_, hheld⟩ := applyHeld_frame
    { s with now := s.now + 1, blocks := Tab.mapVals s.blocks (·.mapThreads Thread.tick) }
  obtain ⟨_, _, _, hconns⟩ := loadConns_frame
    ({ s with now := s.now + 1, blocks := Tab.mapVals s.blocks (·.mapThreads Thread.tick) } : State).applyHeld.readMail
  dsimp only
  rw [hconns, hheld]
  split
  · rfl
  · rfl

theorem mail_readMail (s : State) {c : Nat} (hfw : (s.fw.rd .blank c).updating = none) :
    s.readMail.mail.rd [] c = (s.mail.rd [] c).drop 1 := by
  have hlook : s.readMail.mail.look c = (s.mail.look c).map (fun m => if s.updating c then m else m.drop 1) :=
    look_map_keys s.mail (fun k m => if s.updating k then m else m.drop 1) c
  unfold Tab.rd
  rw [hlook, updating_eq_false hfw]
  cases s.mail.look c with
  | none => rfl
  | some m => rfl

theorem mem_requests_readMail {s : State} {m : Mail} {ms : List Mail} (hfw : (s.fw.rd .blank 0).updating = none)
    (hmail : s.mail.look 0 = some (m :: ms)) (hpermits : Config.permits m.sender m.body = true) : m ∈ s.readMail.requests := by
  have hacc : accepted 0 m = true := by simp [accepted, hpermits]
  refine List.mem_append_right _ (List.mem_map.mpr ⟨(0, m), List.mem_filter.mpr ⟨?_, hacc⟩, rfl⟩)
  exact List.mem_filterMap.mpr ⟨(0, m :: ms), look_mem hmail, by simp [updating_eq_false hfw]⟩

/-! ### The governor, the hold, the report and the calendars (R45, R47, R143, R363) -/

theorem rd_setRates (t : Tab GangState) (rates : List Nat) {g : Nat} (hg : g < rates.length) :
    (rates.zipIdx.foldl (fun t (n, g) => t.ins g { t.rd GangState.blank g with rate := n }) t).rd .blank g =
      { t.rd .blank g with rate := rates.getD g 0 } := by
  have hkeys : (rates.zipIdx.map Prod.snd).Nodup := by
    rw [List.zipIdx_map_snd]
    exact List.nodup_range'
  have hmem : (rates.getD g 0, g) ∈ rates.zipIdx := by simp [List.mk_mem_zipIdx_iff_getElem?, hg]
  exact (rd_foldl_put (f := fun e x => { x with rate := e.1 })
    (fun t e => rd_ins_change .blank (fun x => { x with rate := e.1 }) t e.2) hkeys t).1 _ hmem

theorem exec_governorTick {s : State} {rates : List Nat} (watts : Nat) (hfw : (s.fw.rd .blank 6).updating = none)
    (hlen : rates.length = 16) (hrates : ∀ n ∈ rates, 8 ≤ n ∧ n ≤ 64) :
    ∃ s', exec (.governorTick rates watts) s = .next s' ∧ SameMemory s s' ∧ s'.watts = watts ∧
      (∀ g, g < 16 → s'.gang g = { s.gang g with rate := rates.getD g 0 }) ∧
      s'.powerHold = (s.powerHold && decide (s.manifest.capWatts ≤ watts)) ∧
      s'.lowSince = if rates.all (· == 8) then s.lowSince.or (some s.now) else none := by
  have hgo : ¬ (s.updating 6 = true ∨ rates.length ≠ Config.gangs ∨
      (!rates.all (fun n => decide (8 ≤ n) && decide (n ≤ 64))) = true) := by
    simp only [updating_eq_false hfw, hlen, Config.gangs]
    simpa using hrates
  refine ⟨_, congrArg Host.Outcome.next (if_neg hgo), .of_eq rfl rfl rfl rfl, rfl, fun g hg => ?_, rfl, ?_⟩
  · exact rd_setRates s.gangs rates (hlen ▸ hg)
  · dsimp only
    cases s.lowSince with
    | none => rfl
    | some t => rfl

theorem exec_powerHold {s : State} {since : BitVec 48} (hfw : (s.fw.rd .blank 6).updating = none) (hsince : s.lowSince = some since)
    (hlong : 10000 ≤ (s.now - since).toNat) (hcap : s.manifest.capWatts < s.watts) (hheld : s.powerHold = false) :
    exec .powerHold s = .next ({ s with powerHold := true } : State).logDevice := by
  show execPowerHold s = _
  simp only [execPowerHold, hsince, updating_eq_false hfw, hlong, hcap, hheld, Bool.not_false, and_self, if_true]

theorem field_bytesOf (pre post : List Byte) (x n : Nat) : field (pre ++ (bytesOf x n ++ post)) pre.length n = x % 256 ^ n := by
  have htake : (bytesOf x n ++ post).take n = bytesOf x n := List.take_left' (bytesOf_length x n)
  rw [field, List.drop_left, htake, numOf_bytesOf]

/-- The report starts with NOW, the cap and the power. -/
theorem report_head (s : State) (temps : List Nat) :
    field (s.report temps) 0 6 = s.now.toNat ∧ field (s.report temps) 6 2 = s.manifest.capWatts % 65536 ∧
      field (s.report temps) 8 2 = s.watts % 65536 := by
  obtain ⟨rest, hrest⟩ : ∃ rest, s.report temps =
      bytesOf s.now.toNat 6 ++ (bytesOf s.manifest.capWatts 2 ++ (bytesOf s.watts 2 ++ rest)) :=
    ⟨_, by simp only [State.report, List.append_assoc]; rfl⟩
  rw [hrest]
  refine ⟨(field_bytesOf [] _ _ 6).trans (Nat.mod_eq_of_lt s.now.isLt), ?_, ?_⟩
  · simpa [bytesOf_length] using field_bytesOf (bytesOf s.now.toNat 6) (bytesOf s.watts 2 ++ rest) s.manifest.capWatts 2
  · simpa [bytesOf_length] using
      field_bytesOf (bytesOf s.now.toNat 6 ++ bytesOf s.manifest.capWatts 2) rest s.watts 2

section
variable {s : State} (hfw : (s.fw.rd .blank 6).updating = none) (temps : List Nat)
include hfw

theorem exec_telemetryRefresh_even (heven : s.telemetrySeq.getLsbD 0 = false) :
    exec (.telemetryRefresh temps) s = .next { s with telemetrySeq := s.telemetrySeq + 1, telemetryBody := false } := by
  show execTelemetryRefresh temps s = _
  simp only [execTelemetryRefresh, updating_eq_false hfw, heven, Bool.not_false, Bool.false_eq_true, if_true, if_false]

theorem exec_telemetryRefresh_body (hodd : s.telemetrySeq.getLsbD 0 = true) (hbody : s.telemetryBody = false) :
    exec (.telemetryRefresh temps) s = .next { s with telemetry := s.report temps, telemetryBody := true } := by
  show execTelemetryRefresh temps s = _
  simp [execTelemetryRefresh, updating_eq_false hfw, hodd, hbody]

theorem exec_telemetryRefresh_odd (hodd : s.telemetrySeq.getLsbD 0 = true) (hbody : s.telemetryBody = true) :
    exec (.telemetryRefresh temps) s = .next { s with telemetrySeq := s.telemetrySeq + 1 } := by
  show execTelemetryRefresh temps s = _
  simp [execTelemetryRefresh, updating_eq_false hfw, hodd, hbody]

theorem exec_calendarRecalibrate {die : Nat} (epoch : BitVec 48) (hdie : die < 4) (hnamed : ∀ u ∈ s.namedSegments, u / 256 ≠ die) :
    exec (.calendarRecalibrate die epoch) s = .next { s with
      dies := s.dies.ins die { s.dies.rd .blank die with gen := (s.dies.rd .blank die).gen + 1, epoch } } := by
  have hany : s.namedSegments.any (fun u => u / 256 == die) = false :=
    List.any_eq_false.mpr fun u hu => by simp [hnamed u hu]
  have hgo : ¬ (4 ≤ die ∨ s.namedSegments.any (fun u => u / 256 == die) = true ∨ s.updating 6 = true) :=
    not_or.mpr ⟨Nat.not_le.mpr hdie, not_or.mpr ⟨Bool.eq_false_iff.mp hany, Bool.eq_false_iff.mp (updating_eq_false hfw)⟩⟩
  exact congrArg Host.Outcome.next (if_neg hgo)

end

/-! ### Power-up (R353, R361, R362, R364) -/

theorem usableA_iff (f : FwCore) (m : Manifest) : f.usableA m = true ↔ f.goodA = true ∧ m.securityVersion ≤ f.versionA := by
  simp [FwCore.usableA]

theorem usableB_iff (f : FwCore) (m : Manifest) : f.usableB m = true ↔ f.goodB = true ∧ m.securityVersion ≤ f.versionB := by
  simp [FwCore.usableB]

theorem bootable_iff (s : State) : s.bootable = true ↔ ∀ c, c < 8 →
    (s.fw.rd .blank c).usableA s.manifest = true ∨ (s.fw.rd .blank c).usableB s.manifest = true := by
  simp [State.bootable, State.fwCore]

theorem slotB_boot (f : FwCore) (m : Manifest) :
    (f.boot m).slotB = false ↔ f.goodA = true ∧ m.securityVersion ≤ f.versionA := by
  simp [FwCore.boot, FwCore.usableA]

theorem fnServes_iff (n fn : Nat) : fnServes n fn = true ↔ if n = 0 then fn = 0 else 1 ≤ fn ∧ fn ≤ n := by
  unfold fnServes
  split
  · exact beq_iff_eq
  · rw [Bool.and_eq_true, decide_eq_true_eq, decide_eq_true_eq]

/-- A key has what the manifest gives for it, or nothing where no partition of the key has a function that may serve one. -/
theorem look_manifestParts_cases (m : Manifest) (k : Nat) :
    (∃ p, (k, p) ∈ m.partitions ∧ fnServes m.vfLimit p.fn = true ∧ m.parts.look k = some ⟨p, 0, []⟩) ∨
      (∀ p, (k, p) ∈ m.partitions → fnServes m.vfLimit p.fn = false) ∧ m.parts.look k = none := by
  rcases look_foldl_ins (fun p => (⟨p, 0, []⟩ : Partition)) (m.partitions.filter (fun (_, p) => fnServes m.vfLimit p.fn)) [] k with
    ⟨p, hp, hlook⟩ | ⟨hnone, hlook⟩
  · obtain ⟨hmem, hserves⟩ := List.mem_filter.mp hp
    exact .inl ⟨p, hmem, hserves, hlook⟩
  · exact .inr ⟨fun p hp => Bool.eq_false_iff.mpr fun hserves => hnone p (List.mem_filter.mpr ⟨hp, hserves⟩), hlook⟩

theorem look_manifestParts {m : Manifest} {k : Nat} {x : Partition} (h : m.parts.look k = some x) :
    (k, x.info) ∈ m.partitions ∧ fnServes m.vfLimit x.info.fn = true ∧ x.resetStep = 0 ∧ x.consent = [] := by
  rcases look_manifestParts_cases m k with ⟨p, hmem, hserves, hlook⟩ | ⟨-, hlook⟩
  · obtain rfl : ⟨p, 0, []⟩ = x := Option.some.inj (hlook.symm.trans h)
    exact ⟨hmem, hserves, rfl, rfl⟩
  · cases hlook.symm.trans h

theorem manifestParts_of {m : Manifest} {k : Nat} {p : PartInfo} (hmem : (k, p) ∈ m.partitions)
    (hserves : fnServes m.vfLimit p.fn = true) (hone : ∀ q, (k, q) ∈ m.partitions → q = p) :
    m.parts.look k = some ⟨p, 0, []⟩ := by
  rcases look_manifestParts_cases m k with ⟨q, hq, -, hlook⟩ | ⟨hnone, -⟩
  · rwa [hone q hq] at hlook
  · exact absurd hserves (by simp [hnone p hmem])

theorem rd_bootCores (t : Tab FwCore) (m : Manifest) {c : Nat} (hc : c < 8) :
    ((List.range 8).foldl (fun t c => t.wr .blank c ((t.rd .blank c).boot m)) t).rd .blank c = (t.rd .blank c).boot m :=
  rd_foldl_range (f := fun _ x => x.boot m) (fun t c j => rd_wr_change .blank (·.boot m) t c j) t hc

theorem rd_setEpochs (t : Tab Die) (epochs : List (BitVec 48)) {d : Nat} (hd : d < 4) :
    ((List.range 4).foldl (fun t d => t.ins d { t.rd Die.blank d with epoch := epochs.getD d 0 }) t).rd .blank d =
      { t.rd .blank d with epoch := epochs.getD d 0 } :=
  rd_foldl_range (f := fun d x => { x with epoch := epochs.getD d 0 })
    (fun t d => rd_ins_change .blank (fun x => { x with epoch := epochs.getD d 0 }) t d) t hd

theorem exec_powerUp_waits {s : State} (epochs : List (BitVec 48)) (hboot : s.bootable = false) :
    exec (.powerUp epochs) s = .next s := by
  show execPowerUp epochs s = _
  simp [execPowerUp, hboot]

/-- Settles O55, event by event: each clause is the rule of its event above. -/
theorem timeAndPowerAdvance : Obligations.TimeAndPowerAdvance := by
  intro s
  refine ⟨?tick, fun hready => ?idle, fun hfw => ⟨?governor, ?hold, ?report, fun die epoch => exec_calendarRecalibrate hfw epoch⟩,
    ?up, fun epochs c hc hA hB => exec_powerUp_waits epochs ?waits⟩
  case tick =>
    intro hready
    obtain ⟨s', hexec, hs'⟩ := exec_deviceTimeTick hready
    have hblocks : s'.blocks = Tab.mapVals s.blocks (·.mapThreads Thread.tick) := by rw [hs']
    refine ⟨s', hexec, sameMemory_of_mapThreads hblocks (by rw [hs']) (by rw [hs']) (by rw [hs']) (by rw [hs']), by rw [hs'],
      fun r t n hthr hhold => ?_, fun c hfw => ?_, fun m ms hfw hmail hpermits => ?_⟩
    · rw [thr_of_mapThreads hblocks, hthr, Option.map_some, tick_sleep hhold]
    · rw [hs']
      exact mail_readMail s hfw
    · rw [hs']
      exact mem_requests_readMail hfw hmail hpermits
  case idle => exact congrArg _ (if_pos (by simp [hready]))
  case governor =>
    intro rates watts hlen hrates
    obtain ⟨s', hexec, hmem, hwatts, hgang, hhold, hlow⟩ := exec_governorTick watts hfw hlen hrates
    refine ⟨s', hexec, hmem, hwatts, fun g hg => by simp [hgang g hg], hhold, fun hfast => ?_, fun hslow hnone => ?_⟩
    · rw [hlow, if_neg (by simpa using hfast)]
    · rw [hlow, hnone, if_pos (by simpa using hslow)]
      rfl
  case hold =>
    intro since hsince hlong hcap hheld
    obtain ⟨_, _, _, hlog⟩ := logDevice_frame { s with powerHold := true }
    refine ⟨_, exec_powerHold hfw hsince hlong hcap hheld, ?_⟩
    rw [hlog]
    exact ⟨.of_eq rfl rfl rfl rfl, rfl, rfl⟩
  case report =>
    intro temps
    exact ⟨exec_telemetryRefresh_even hfw temps,
      fun hodd hbody => ⟨_, exec_telemetryRefresh_body hfw temps hodd hbody, rfl, report_head s temps⟩,
      exec_telemetryRefresh_odd hfw temps⟩
  case up =>
    intro epochs hready himages
    have hboot : s.bootable = true :=
      (bootable_iff s).mpr fun c hc => (himages c hc).imp (usableA_iff ..).mpr (usableB_iff ..).mpr
    refine ⟨_, congrArg Host.Outcome.next (if_neg (by simp [hready, hboot])), rfl, rfl, fun a => ⟨rfl, rfl, rfl, rfl, rfl, rfl⟩,
      fun c hc => ?_, fun d hd => ?_, fun hinvalid => ?_, fun hvalid => ?_⟩
    · rw [rd_bootCores s.fw s.manifest hc]
      exact ⟨slotB_boot .., rfl⟩
    · rw [rd_setEpochs s.dies epochs hd]
    · simp [hinvalid]
    · have hlimit : s.manifest.vfLimit = min s.manifest.vfs 16 := if_pos hvalid
      simp only [hvalid, if_true]
      refine ⟨by rw [Tab.rd_wr, if_pos rfl, hlimit], fun k x hx => ?_, fun k p hp hmay hone => ?_⟩
      · obtain ⟨hmem, hserves, hstep, hconsent⟩ := look_manifestParts hx
        rw [hlimit, fnServes_iff] at hserves
        exact ⟨hmem, hserves, hstep, hconsent⟩
      · exact manifestParts_of hp (by rwa [hlimit, fnServes_iff]) hone
  case waits =>
    refine Bool.eq_false_iff.mpr fun hboot => ?_
    exact ((bootable_iff s).mp hboot c hc).elim (fun h => hA ((usableA_iff ..).mp h)) (fun h => hB ((usableB_iff ..).mp h))

end Sys2Proof.Machine

/-! PROOF. The encoding (R100 to R111): a word is its fields and its fields are the word, an opcode of the map is one instruction,
and the words that parse as an instruction are those that begin with its encoding; the statements
`Obligations.EncodedInstructionsDecode`, `Obligations.DecodedWordsEncodeBack` and `Obligations.ListedWordsDecode`. -/

namespace Sys2Proof

section

open BitVec (extractLsb'_append_eq_of_le extractLsb'_append_eq_of_add_le extractLsb'_append_extractLsb'_eq_extractLsb'
  extractLsb'_eq_self getLsbD_append)

/-! ### One bit as a field -/

theorem ofBool_getLsbD {n : Nat} (x : BitVec n) (k : Nat) : BitVec.ofBool (x.getLsbD k) = x.extractLsb' k 1 := by
  apply BitVec.eq_of_getElem_eq
  intro j hj
  obtain rfl : j = 0 := by omega
  simp

theorem getLsbD_ofBool_zero (b : Bool) : (BitVec.ofBool b).getLsbD 0 = b := by cases b <;> rfl

/-! ### Literals (R101) -/

theorem litWords_litOfWords (lo hi : Word) : litWords (some (litOfWords lo hi)) = [lo, hi] := by
  simp (disch := decide) only [litWords, litOfWords, extractLsb'_append_eq_of_le, extractLsb'_append_eq_of_add_le,
    Nat.reduceSub, extractLsb'_eq_self]

theorem litOfWords_extractLsb' (v : Addr) : litOfWords (v.extractLsb' 0 32) (v.extractLsb' 32 32) = v := by
  simp only [litOfWords, extractLsb'_append_extractLsb'_eq_extractLsb', extractLsb'_eq_self]

/-! ### Opcodes in words (R104, R111) -/

/-- The opcode that the MAJ and MIN of an extended first word give (R111). -/
def extOpcode (w : Word) : Nat := (majOf w).toNat * 256 + (w.extractLsb' 12 8).toNat

/-- The opcode that the MAJ and CM of a compact word give (R104). -/
def compactOpcode (w : Word) : Nat := (majOf w).toNat * 4 + (w.extractLsb' 12 2).toNat

theorem extOpcode_div (w : Word) : extOpcode w / 256 = (majOf w).toNat := by
  unfold extOpcode
  omega

theorem compactOpcode_div (w : Word) : compactOpcode w / 4 = (majOf w).toNat := by
  unfold compactOpcode
  omega

theorem ofNat_extOpcode (w : Word) : BitVec.ofNat 8 (extOpcode w) = w.extractLsb' 12 8 := by
  apply BitVec.eq_of_toNat_eq
  simp only [extOpcode, BitVec.toNat_ofNat]
  omega

theorem ofNat_compactOpcode (w : Word) : BitVec.ofNat 2 (compactOpcode w) = w.extractLsb' 12 2 := by
  apply BitVec.eq_of_toNat_eq
  simp only [compactOpcode, BitVec.toNat_ofNat]
  omega

theorem extOpcode_extWord0 {opc : Nat} (h : opc / 256 < 64) (x : Ext) : extOpcode (extWord0 opc x) = opc := by
  have hmin : (extWord0 opc x).extractLsb' 12 8 = BitVec.ofNat 8 opc := by
    simp (disch := decide) only [extWord0, extractLsb'_append_eq_of_le, extractLsb'_append_eq_of_add_le, Nat.reduceSub,
      extractLsb'_eq_self]
  simp only [extOpcode, majOf_extWord0, hmin, BitVec.toNat_ofNat]
  omega

theorem compactOpcode_compactWord {opc : Nat} (h : opc / 4 < 64) (c : Compact) : compactOpcode (compactWord opc c) = opc := by
  have hcm : (compactWord opc c).extractLsb' 12 2 = BitVec.ofNat 2 opc := by
    simp (disch := decide) only [compactWord, extractLsb'_append_eq_of_le, extractLsb'_append_eq_of_add_le, Nat.reduceSub,
      extractLsb'_eq_self]
  simp only [compactOpcode, majOf_compactWord, hcm, BitVec.toNat_ofNat]
  omega

/-! ### Operand fields in words (R102, R103, R105) -/

theorem extOfWords_extWords (opc : Nat) (x : Ext) : extOfWords (extWord0 opc x) (extWord1 x) (extWord2 x) x.lit = x := by
  simp (disch := decide) only [extOfWords, guardOf, extWord0, extWord1, extWord2, extractLsb'_append_eq_of_le,
    extractLsb'_append_eq_of_add_le, getLsbD_append, Nat.reduceLT, if_true, if_false, Nat.reduceSub, extractLsb'_eq_self,
    getLsbD_ofBool_zero]

theorem compactOfWord_compactWord (opc : Nat) (c : Compact) : compactOfWord (compactWord opc c) c.lit = c := by
  simp (disch := decide) only [compactOfWord, guardOf, compactWord, extractLsb'_append_eq_of_le,
    extractLsb'_append_eq_of_add_le, getLsbD_append, Nat.reduceLT, if_true, if_false, Nat.reduceSub, extractLsb'_eq_self,
    getLsbD_ofBool_zero]

theorem extWord0_extOfWords {w0 : Word} {lit : Option Addr} (hlen : lenOf w0 = if lit.isSome then 3 else 1) (w1 w2 : Word) :
    extWord0 (extOpcode w0) (extOfWords w0 w1 w2 lit) = w0 := by
  have hlit : (extOfWords w0 w1 w2 lit).lit = lit := rfl
  rw [extWord0, ofNat_extOpcode, extOpcode_div, BitVec.ofNat_toNat, BitVec.setWidth_eq, hlit, ← hlen]
  simp only [extOfWords, guardOf, majOf, lenOf, ofBool_getLsbD, extractLsb'_append_extractLsb'_eq_extractLsb',
    extractLsb'_eq_self]

theorem extWord1_extOfWords (w0 w1 w2 : Word) (lit : Option Addr) : extWord1 (extOfWords w0 w1 w2 lit) = w1 := by
  simp only [extWord1, extOfWords, ofBool_getLsbD, extractLsb'_append_extractLsb'_eq_extractLsb', extractLsb'_eq_self]

theorem extWord2_extOfWords (w0 w1 w2 : Word) (lit : Option Addr) : extWord2 (extOfWords w0 w1 w2 lit) = w2 := by
  simp only [extWord2, extOfWords, ofBool_getLsbD, extractLsb'_append_extractLsb'_eq_extractLsb', extractLsb'_eq_self]

theorem compactWord_compactOfWord {w : Word} {lit : Option Addr} (hlen : lenOf w = if lit.isSome then 2 else 0) :
    compactWord (compactOpcode w) (compactOfWord w lit) = w := by
  have hlit : (compactOfWord w lit).lit = lit := rfl
  rw [compactWord, ofNat_compactOpcode, compactOpcode_div, BitVec.ofNat_toNat, BitVec.setWidth_eq, hlit, ← hlen]
  simp only [compactOfWord, guardOf, majOf, lenOf, ofBool_getLsbD, extractLsb'_append_extractLsb'_eq_extractLsb',
    extractLsb'_eq_self]

end

/-! ### The opcode map (R104, R111) -/

theorem mkExt_eq_some_iff {opc : Nat} {x : Ext} {i : Instr} : mkExt opc x = some i ↔ i.ext? = some x ∧ i.opcode = opc := by
  constructor
  · intro h
    unfold mkExt at h
    split at h <;> cases h <;> exact ⟨rfl, rfl⟩
  · rintro ⟨hx, rfl⟩
    cases i with
    | movl f =>
      cases f with
      | ext x => cases hx; rfl
      | compact c => cases hx
    | _ => cases hx <;> rfl

theorem mkCompact_eq_some_iff {opc : Nat} {c : Compact} {i : Instr} :
    mkCompact opc c = some i ↔ i.compact? = some c ∧ i.compactOpcode = opc := by
  constructor
  · intro h
    unfold mkCompact at h
    split at h <;> cases h <;> exact ⟨rfl, rfl⟩
  · rintro ⟨hc, rfl⟩
    cases i with
    | movl f =>
      cases f with
      | ext x => cases hc
      | compact c => cases hc; rfl
    | _ => cases hc <;> rfl

theorem ext_eq_none_of_compact {i : Instr} {c : Compact} (h : i.compact? = some c) : i.ext? = none := by
  cases i with
  | movl f =>
    cases f with
    | ext x => cases h
    | compact c => rfl
  | _ => cases h <;> rfl

theorem assignedMajor_of_mkExt {opc : Nat} {x : Ext} {i : Instr} (h : mkExt opc x = some i) :
    assignedMajor (opc / 256) = true := by
  unfold mkExt at h
  split at h <;> cases h <;> rfl

theorem assignedMajor_of_mkCompact {opc : Nat} {c : Compact} {i : Instr} (h : mkCompact opc c = some i) :
    assignedMajor (opc / 4) = true := by
  unfold mkCompact at h
  split at h <;> cases h <;> rfl

theorem lt_of_assignedMajor {n : Nat} (h : assignedMajor n = true) : n < 64 := by
  simp [assignedMajor] at h
  omega

theorem majOf_ne_zero {w : Word} (h : assignedMajor (majOf w).toNat = true) : majOf w ≠ 0#6 := by
  intro hzero
  rw [hzero] at h
  cases h

/-! ### Building an instruction -/

theorem buildExt_eq_ok_iff {w : Word} {x : Ext} {i : Instr} : buildExt w x = .ok i ↔ mkExt (extOpcode w) x = some i := by
  unfold buildExt extOpcode
  split
  next j hmk => rw [hmk, Except.ok.injEq, Option.some.injEq]
  next hmk => rw [hmk]; exact ⟨nofun, nofun⟩

theorem buildCompact_eq_ok_iff {w : Word} {c : Compact} {i : Instr} :
    buildCompact w c = .ok i ↔ mkCompact (compactOpcode w) c = some i := by
  unfold buildCompact compactOpcode
  split
  next j hmk => rw [hmk, Except.ok.injEq, Option.some.injEq]
  next hmk => rw [hmk]; exact ⟨nofun, nofun⟩

/-! ### Encoding -/

theorem encode_ext {i : Instr} {x : Ext} (h : i.ext? = some x) :
    encode i = extWord0 i.opcode x :: extWord1 x :: extWord2 x :: litWords x.lit := by
  simp only [encode, h]

theorem encode_compact {i : Instr} {c : Compact} (h : i.compact? = some c) :
    encode i = compactWord i.compactOpcode c :: litWords c.lit := by
  simp only [encode, ext_eq_none_of_compact h, h]

theorem encode_of_buildExt {w0 w1 w2 : Word} {lit : Option Addr} {i : Instr} (hlen : lenOf w0 = if lit.isSome then 3 else 1)
    (h : buildExt w0 (extOfWords w0 w1 w2 lit) = .ok i) : encode i = w0 :: w1 :: w2 :: litWords lit := by
  obtain ⟨hx, hopc⟩ := mkExt_eq_some_iff.mp (buildExt_eq_ok_iff.mp h)
  rw [encode_ext hx, hopc, extWord0_extOfWords hlen, extWord1_extOfWords, extWord2_extOfWords]
  rfl

theorem encode_of_buildCompact {w : Word} {lit : Option Addr} {i : Instr} (hlen : lenOf w = if lit.isSome then 2 else 0)
    (h : buildCompact w (compactOfWord w lit) = .ok i) : encode i = w :: litWords lit := by
  obtain ⟨hc, hopc⟩ := mkCompact_eq_some_iff.mp (buildCompact_eq_ok_iff.mp h)
  rw [encode_compact hc, hopc, compactWord_compactOfWord hlen]
  rfl

theorem buildExt_extWord0 {i : Instr} {x : Ext} (h : i.ext? = some x) : buildExt (extWord0 i.opcode x) x = .ok i := by
  have hmk : mkExt i.opcode x = some i := mkExt_eq_some_iff.mpr ⟨h, rfl⟩
  rw [buildExt_eq_ok_iff, extOpcode_extWord0 (lt_of_assignedMajor (assignedMajor_of_mkExt hmk)), hmk]

theorem buildCompact_compactWord {i : Instr} {c : Compact} (h : i.compact? = some c) :
    buildCompact (compactWord i.compactOpcode c) c = .ok i := by
  have hmk : mkCompact i.compactOpcode c = some i := mkCompact_eq_some_iff.mpr ⟨h, rfl⟩
  rw [buildCompact_eq_ok_iff, compactOpcode_compactWord (lt_of_assignedMajor (assignedMajor_of_mkCompact hmk)), hmk]

theorem isEvent_eq_false_iff {i : Instr} : i.isEvent = false ↔ (∃ x, i.ext? = some x) ∨ ∃ c, i.compact? = some c := by
  unfold Instr.isEvent
  cases i.ext? <;> cases i.compact? <;> simp

/-! ### Parsing -/

theorem parseWords_ext {w0 w1 w2 : Word} {lit : Option Addr} (hlen : lenOf w0 = if lit.isSome then 3 else 1)
    (hmaj : assignedMajor (majOf w0).toNat = true) (rest : List Word) :
    parseWords (w0 :: w1 :: w2 :: litWords lit ++ rest) = buildExt w0 (extOfWords w0 w1 w2 lit) := by
  cases lit with
  | none => simp [parseWords, litWords, hlen, hmaj, majOf_ne_zero hmaj]
  | some v => simp [parseWords, litWords, hlen, hmaj, majOf_ne_zero hmaj, litOfWords_extractLsb']

theorem parseWords_compact {w : Word} {lit : Option Addr} (hlen : lenOf w = if lit.isSome then 2 else 0)
    (hmaj : assignedMajor (majOf w).toNat = true) (rest : List Word) :
    parseWords (w :: litWords lit ++ rest) = buildCompact w (compactOfWord w lit) := by
  cases lit with
  | none => simp [parseWords, litWords, hlen, hmaj, majOf_ne_zero hmaj]
  | some v => simp [parseWords, litWords, hlen, hmaj, majOf_ne_zero hmaj, litOfWords_extractLsb']

theorem parseWords_encode {i : Instr} (h : i.isEvent = false) (rest : List Word) : parseWords (encode i ++ rest) = .ok i := by
  obtain ⟨x, hx⟩ | ⟨c, hc⟩ := isEvent_eq_false_iff.mp h
  · have hbuild := buildExt_extWord0 hx
    have hmaj := assignedMajor_of_mkExt (buildExt_eq_ok_iff.mp hbuild)
    rw [extOpcode_div] at hmaj
    rw [encode_ext hx, parseWords_ext (lenOf_extWord0 ..) hmaj, extOfWords_extWords, hbuild]
  · have hbuild := buildCompact_compactWord hc
    have hmaj := assignedMajor_of_mkCompact (buildCompact_eq_ok_iff.mp hbuild)
    rw [compactOpcode_div] at hmaj
    rw [encode_compact hc, parseWords_compact (lenOf_compactWord ..) hmaj, compactOfWord_compactWord, hbuild]

theorem parseWords_begins_encode {ws : List Word} {i : Instr} (h : parseWords ws = .ok i) : ∃ rest, ws = encode i ++ rest := by
  unfold parseWords at h
  split at h
  next => cases h
  next w t =>
  split at h
  next => cases h
  split at h
  next => cases h
  split at h
  next hlen =>
    rw [encode_of_buildCompact (lit := none) (BitVec.eq_of_toNat_eq hlen) h]
    exact ⟨_, rfl⟩
  next w1 w2 t hlen =>
    rw [encode_of_buildExt (lit := none) (BitVec.eq_of_toNat_eq hlen) h]
    exact ⟨t, rfl⟩
  next l0 l1 t hlen =>
    rw [encode_of_buildCompact (BitVec.eq_of_toNat_eq hlen) h, litWords_litOfWords]
    exact ⟨t, rfl⟩
  next w1 w2 l0 l1 t hlen =>
    rw [encode_of_buildExt (BitVec.eq_of_toNat_eq hlen) h, litWords_litOfWords]
    exact ⟨t, rfl⟩
  next => cases h

/-! ### Decoding -/

theorem wellFormed_iff {side : Side} {lim : Limits} {i : Instr} : i.wellFormed side lim = true ↔ i.check side lim = none := by
  simp [Instr.wellFormed]

theorem isEvent_of_wellFormed {side : Side} {lim : Limits} {i : Instr} (h : i.wellFormed side lim = true) :
    i.isEvent = false := by
  rw [wellFormed_iff, Instr.check] at h
  rw [isEvent_eq_false_iff]
  split at h
  next x hx => exact .inl ⟨x, hx⟩
  next c _ hc => exact .inr ⟨c, hc⟩
  next => cases h

/-- A list of words decodes to an instruction exactly where it parses as that instruction and no field rule refuses it. -/
theorem decode_eq_ok_iff {side : Side} {lim : Limits} {ws : List Word} {i : Instr} :
    decode side lim ws = .ok i ↔ parseWords ws = .ok i ∧ i.wellFormed side lim = true := by
  rw [wellFormed_iff, decode]
  cases parseWords ws with
  | error r => simp
  | ok j =>
    cases hcheck : j.check side lim with
    | none =>
      simp only [Except.ok.injEq, hcheck]
      exact ⟨fun h => ⟨h, h ▸ hcheck⟩, And.left⟩
    | some r =>
      simp only [Except.ok.injEq, hcheck, reduceCtorEq, false_iff, not_and]
      rintro rfl
      simp [hcheck]

/-- Settles O2: the words of an instruction parse as it (`parseWords_encode`), and its fields pass the check by hypothesis. -/
theorem encodedInstructionsDecode : Obligations.EncodedInstructionsDecode := by
  intro side lim i rest hwf
  exact decode_eq_ok_iff.mpr ⟨parseWords_encode (isEvent_of_wellFormed hwf) rest, hwf⟩

/-- Settles O3: words that parse as an instruction begin with its encoding (`parseWords_begins_encode`). -/
theorem decodedWordsEncodeBack : Obligations.DecodedWordsEncodeBack := by
  intro side lim ws i hdecode
  obtain ⟨hparse, hwf⟩ := decode_eq_ok_iff.mp hdecode
  obtain ⟨rest, rfl⟩ := parseWords_begins_encode hparse
  exact ⟨List.take_left.symm, hwf⟩

/-- Settles O4: the decoder runs on each of the listed words. -/
theorem listedWordsDecode : Obligations.ListedWordsDecode :=
  ⟨rfl, rfl, rfl, rfl, rfl, rfl, rfl, rfl, rfl, rfl, rfl, rfl, rfl⟩

end Sys2Proof

/-! PROOF. The unary functions, the warp reductions and `MATCH` (R116, R248, R262, R263), and the statement
`Obligations.LongLatencyResults`. -/

namespace Sys2Proof.Machine

/-- Settles O21: each instruction is `issueCompute` with its results, and issues them by `issueCompute_next`. -/
theorem longLatencyResults : Obligations.LongLatencyResults := by
  intro s t x hthr hlanes
  refine ⟨?frcp, ?fsqrt, ?frsq, ?fexp2, ?flog2, ?redux, ?scan, ?matchLanes⟩
  case frcp => exact issueCompute_next (.frcp x) _ hthr hlanes rfl
  case fsqrt => exact issueCompute_next (.fsqrt x) _ hthr hlanes rfl
  case frsq => exact issueCompute_next (.frsq x) _ hthr hlanes rfl
  case fexp2 => exact issueCompute_next (.fexp2 x) _ hthr hlanes rfl
  case flog2 => exact issueCompute_next (.flog2 x) _ hthr hlanes rfl
  case redux => exact issueCompute_next (.redux x) _ hthr hlanes rfl
  case scan => exact issueCompute_next (.scan x) _ hthr hlanes rfl
  case matchLanes => exact issueCompute_next (.matchLanes x) _ hthr hlanes rfl

end Sys2Proof.Machine
